-- ==== Sys2Proof/Word.lean ====
section
/-!
DEFINITION. The word types of the Fenold (R2, R3): 32-bit registers and words, 64-bit pairs, bytes and lane masks.
-/
namespace Sys2Proof

/-- A 32-bit register value or instruction word (R40, R57). -/
abbrev Word := BitVec 32
/-- A 64-bit value: a pair, a virtual address, a state register (R46, R47). -/
abbrev DWord := BitVec 64
/-- One byte of memory, scratchpad, tile or accumulator store (R3). -/
abbrev Byte := BitVec 8
/-- A mask of the 32 lanes of a group, bit l for lane l (R14). -/
abbrev Lanes := BitVec 32

end Sys2Proof
end

