-- ==== Sys2Proof/Syntax.lean ====
section
/-!
DEFINITION. The steps of the part: every row of the opcode table is one constructor of `Instr`.
The instruction rows carry their operands as the encoding gives them (R57 to R69), register numbers and codes turned
into names; the other rows are events of the part or of the world outside it (spec/95) and carry what identifies them.
-/
namespace Sys2Proof

/-! ## Operands -/

/-- A register field that names a register (R60): a window name, a scalar, or field value 126. -/
inductive Reg where
  | v (n : Fin 112)
  | s (n : Fin 14)
  | zero
  deriving DecidableEq, Repr

/-- A source field: a register, or field value 127 with its literal word (R60, R61). -/
inductive Src where
  | reg (r : Reg)
  | lit (w : Word)
  deriving DecidableEq, Repr

/-- The safe-point mask word; present exactly when S is set (R31). -/
abbrev SafeMask := Option Word

/-- SCOPE (R62). -/
inductive Scope where
  | core | cluster | device | system
  deriving DecidableEq, Repr

/-- WIDTH of the memory SUB (R66). -/
inductive Width where
  | w8 | w16 | w32 | w64 | w128 | w8s | w16s
  deriving DecidableEq, Repr

/-- ORD of the memory SUB (R66): acquire on a load and release on a store are one code, `sync`. -/
inductive Ord where
  | weak | sync | relaxed | bypass
  deriving DecidableEq, Repr

/-- HINT (R62). -/
inductive Hint where
  | normal | stream | keep | gridRO | noalloc
  deriving DecidableEq, Repr

/-- CLASS of the atomic classes (R62, R182). -/
inductive AtClass where
  | relaxed | acquire | release | acqRel
  deriving DecidableEq, Repr

/-- The operation of ATOM and RED (R67). -/
inductive AtOp where
  | add | smin | smax | umin | umax | and | or | xor | xchg | incw | decw | fadd | hadd2
  deriving DecidableEq, Repr

/-- The width of the three atomic classes (R67). -/
inductive AtWidth where
  | w32 | w64 | w128
  deriving DecidableEq, Repr

/-- Conditions of ICMP (R65, R101). -/
inductive ICond where
  | eq | ne | lt | le | gt | ge
  deriving DecidableEq, Repr

/-- Types of ICMP (R65, R101). -/
inductive IType where
  | i32 | n32 | i64 | n64
  deriving DecidableEq, Repr

/-- Conditions of FCMP (R65, R102). -/
inductive FCond where
  | eq | ne | lt | le | gt | ge | ord | unord
  deriving DecidableEq, Repr

/-- Types of FCMP (R65, R102). -/
inductive FType where
  | f32 | h16 | bf16
  deriving DecidableEq, Repr

/-- Rounding codes (R77); code 0 selects the default of R78. -/
inductive RCode where
  | default | rne | rz | rdn | rup | rna
  deriving DecidableEq, Repr

/-- The single-value formats that CVT names by k (R125). -/
inductive NFmt where
  | h16 | bf16 | f8a | f8b | f4 | i32 | n32 | i16 | n16 | i8 | n8 | i4 | n4
  deriving DecidableEq, Repr

/-- The conversions of CVT (R125). -/
inductive CvtCode where
  | fromF32 (k : NFmt)
  | toF32 (k : NFmt)
  | h16ToBf16
  | bf16ToH16
  | i32To (k : NFmt)       -- i16, i8 or i4
  | n32To (k : NFmt)       -- n16, n8 or n4
  | i32ToN32
  | n32ToI32
  | pairToH16
  | pairToBf16
  deriving DecidableEq, Repr

/-- Element widths of PACK and UNPACK (R126). -/
inductive PackElem where
  | e8 | e4 | e16
  deriving DecidableEq, Repr

/-- Operations of GRED (R65, R129). -/
inductive GredOp where
  | addI32 | addF32 | minI32 | maxI32 | minN32 | maxN32 | minF32 | maxF32 | and | or | xor
  deriving DecidableEq, Repr

/-- Conditions of WAITV (R65, R189). -/
inductive WCond where
  | eq | ne | lts | ges | ltn | gen
  deriving DecidableEq, Repr

/-- The state registers of R47. -/
inductive SReg where
  | laneix | grpix | teamx | teamy | teamz | roleix | spanrk | gridh | nlane | clock
  | stat | allot | wbasev | link | qcnt | lpc
  | cap0 | cap1 | cap2 | cap3 | frecp | hmode | ctxid
  deriving DecidableEq, Repr

/-- The async classes, in the numbering of WAITQ (R190, R206). -/
inductive QClass where
  | copy | matrix | gather | coll
  deriving DecidableEq, Repr

/-- The barrier reference of CPY and GATH: BK with its offset in units of 16 bytes (R199). -/
inductive BarRef where
  | none
  | team (boff : BitVec 12)
  | span (boff : BitVec 12)
  deriving DecidableEq, Repr

/-- Element type of COLL.add and COLL.max (R204). -/
inductive CollType where
  | f32 | bf16
  deriving DecidableEq, Repr

/-- PGREQ's and PRES's access field (R186). -/
inductive PgAccess where
  | read | write
  deriving DecidableEq, Repr

/-! ## Operand records, one per shape of R58 and of the class tables -/

/-- Format A with a destination and two sources. -/
structure R3 where
  d : Reg
  a : Src
  b : Src
  m : SafeMask
  deriving DecidableEq, Repr

/-- Format A with a destination and one source. -/
structure R2 where
  d : Reg
  a : Src
  m : SafeMask
  deriving DecidableEq, Repr

/-- Format A with one source. -/
structure R1 where
  a : Src
  m : SafeMask
  deriving DecidableEq, Repr

/-- BRK and TRAP (R111). -/
structure CodeOps where
  code : BitVec 7
  m : SafeMask
  deriving DecidableEq, Repr

/-- MFS (R69). -/
structure MfsOps where
  d : Reg
  sr : SReg
  m : SafeMask
  deriving DecidableEq, Repr

/-- MTS (R69). -/
structure MtsOps where
  sr : SReg
  a : Src
  m : SafeMask
  deriving DecidableEq, Repr

/-- The four FENCE rows (R260). -/
structure FenceOps where
  scope : Scope
  m : SafeMask
  deriving DecidableEq, Repr

/-- GUARD (R109): predicate, negation, CNT. -/
structure GuardOps where
  p : BitVec 6
  n : Bool
  cnt : BitVec 3
  m : SafeMask
  deriving DecidableEq, Repr

/-- BR and CALL (R106, R107): predicate, negation, OFF18. -/
structure BrOps where
  p : BitVec 6
  n : Bool
  off : BitVec 18
  m : SafeMask
  deriving DecidableEq, Repr

/-- Format I (R99). -/
structure RI where
  d : Reg
  a : Src
  imm : BitVec 11
  m : SafeMask
  deriving DecidableEq, Repr

/-- SHIFTI (R100). -/
structure RSh where
  d : Reg
  a : Src
  c : BitVec 5
  m : SafeMask
  deriving DecidableEq, Repr

/-- ICMP (R101). -/
structure IcmpOps where
  pd : BitVec 6
  a : Src
  b : Src
  cond : ICond
  ty : IType
  m : SafeMask
  deriving DecidableEq, Repr

/-- FCMP (R102). -/
structure FcmpOps where
  pd : BitVec 6
  a : Src
  b : Src
  cond : FCond
  ty : FType
  m : SafeMask
  deriving DecidableEq, Repr

/-- PLOG (R104): predicate codes of R103 in A and B. -/
structure PlogOps where
  pd : BitVec 6
  a : BitVec 7
  b : BitVec 7
  m : SafeMask
  deriving DecidableEq, Repr

/-- VOTE.any and VOTE.all (R105). -/
structure VotePOps where
  pd : BitVec 6
  x : BitVec 7
  m : SafeMask
  deriving DecidableEq, Repr

/-- VOTE.ballot and VOTE.pcount (R105). -/
structure VoteROps where
  d : Reg
  x : BitVec 7
  m : SafeMask
  deriving DecidableEq, Repr

/-- VOTE.v2p (R105). -/
structure VoteVOps where
  pd : BitVec 6
  b : Src
  m : SafeMask
  deriving DecidableEq, Repr

/-- P2V (R98). -/
structure P2vOps where
  d : Reg
  x : BitVec 7
  m : SafeMask
  deriving DecidableEq, Repr

/-- FRND (R120). -/
structure FrndOps where
  d : Reg
  a : Src
  mode : RCode
  m : SafeMask
  deriving DecidableEq, Repr

/-- HPAIR (R121): `bf` selects bf16. -/
structure HpairOps where
  d : Reg
  a : Src
  b : Src
  bf : Bool
  m : SafeMask
  deriving DecidableEq, Repr

/-- SFU (R122). -/
structure SfuOps where
  d : Reg
  a : Src
  la : BitVec 4
  m : SafeMask
  deriving DecidableEq, Repr

/-- CVT (R125). -/
structure CvtOps where
  d : Reg
  a : Src
  code : CvtCode
  sat : Bool
  rnd : RCode
  m : SafeMask
  deriving DecidableEq, Repr

/-- PACK and UNPACK (R126). -/
structure PackOps where
  d : Reg
  a : Src
  b : Src
  e : PackElem
  m : SafeMask
  deriving DecidableEq, Repr

/-- GRED (R129). -/
structure GredOps where
  d : Reg
  a : Src
  op : GredOp
  la : BitVec 4
  m : SafeMask
  deriving DecidableEq, Repr

/-- LD (R177). -/
structure LdOps where
  d : Reg
  a : Src
  w : Width
  ord : Ord
  scope : Scope
  hint : Hint
  ps : BitVec 6
  off : BitVec 14
  la : BitVec 4
  m : SafeMask
  deriving DecidableEq, Repr

/-- LD.nr (R178). -/
structure LdnrOps where
  d : Reg
  a : Src
  w : Width
  hint : Hint
  ps : BitVec 6
  off : BitVec 14
  la : BitVec 4
  m : SafeMask
  deriving DecidableEq, Repr

/-- ST (R177). -/
structure StOps where
  a : Src
  b : Src
  w : Width
  ord : Ord
  scope : Scope
  hint : Hint
  off : BitVec 14
  la : BitVec 4
  m : SafeMask
  deriving DecidableEq, Repr

/-- LDS (R180). -/
structure LdsOps where
  d : Reg
  a : Src
  w : Width
  off : BitVec 14
  la : BitVec 4
  m : SafeMask
  deriving DecidableEq, Repr

/-- STS (R180). -/
structure StsOps where
  a : Src
  b : Src
  w : Width
  off : BitVec 14
  la : BitVec 4
  m : SafeMask
  deriving DecidableEq, Repr

/-- ATOM (R181). -/
structure AtomOps where
  d : Reg
  a : Src
  b : Src
  op : AtOp
  w : AtWidth
  scope : Scope
  cls : AtClass
  ps : BitVec 6
  off : BitVec 14
  la : BitVec 4
  m : SafeMask
  deriving DecidableEq, Repr

/-- ATOMC (R181). -/
structure AtomcOps where
  d : Reg
  a : Src
  b : Src
  w : AtWidth
  scope : Scope
  cls : AtClass
  ps : BitVec 6
  off : BitVec 14
  la : BitVec 4
  m : SafeMask
  deriving DecidableEq, Repr

/-- RED (R181): `rel` is CLASS 2. -/
structure RedOps where
  a : Src
  b : Src
  op : AtOp
  w : AtWidth
  scope : Scope
  rel : Bool
  off : BitVec 14
  la : BitVec 4
  m : SafeMask
  deriving DecidableEq, Repr

/-- PRF (R184). -/
structure PrfOps where
  a : Src
  hint : Hint
  off : BitVec 14
  la : BitVec 4
  m : SafeMask
  deriving DecidableEq, Repr

/-- FLUSH and INV (R185). -/
structure FlushOps where
  a : Src
  b : Src
  scope : Scope
  la : BitVec 4
  m : SafeMask
  deriving DecidableEq, Repr

/-- PGREQ and PRES (R186). -/
structure PgOps where
  d : Reg
  a : Src
  acc : PgAccess
  off : BitVec 14
  la : BitVec 4
  m : SafeMask
  deriving DecidableEq, Repr

/-- TAGST (R187). -/
structure TagstOps where
  a : Src
  b : Src
  off : BitVec 14
  la : BitVec 4
  m : SafeMask
  deriving DecidableEq, Repr

/-- TAGLD, GQRY, GHOLD and GREL (R187, R188). -/
structure AddrOps where
  d : Reg
  a : Src
  off : BitVec 14
  la : BitVec 4
  m : SafeMask
  deriving DecidableEq, Repr

/-- WAITV (R189): `w64` selects the 64-bit width. -/
structure WaitvOps where
  d : Reg
  a : Src
  b : Src
  cond : WCond
  w64 : Bool
  scope : Scope
  off : BitVec 14
  la : BitVec 4
  m : SafeMask
  deriving DecidableEq, Repr

/-- CPY.sp and CPY.tile (R197). -/
structure CpyOps where
  d : Reg
  a : Src
  b : Reg
  hint : Hint
  bar : BarRef
  la : BitVec 4
  m : SafeMask
  deriving DecidableEq, Repr

/-- CPY.mc (R198): `ranks` is the rank mask. -/
structure CpyMcOps where
  d : Reg
  a : Src
  b : Reg
  ranks : BitVec 4
  hint : Hint
  bar : BarRef
  la : BitVec 4
  m : SafeMask
  deriving DecidableEq, Repr

/-- GATH (R201). -/
structure GathOps where
  d : Reg
  a : Src
  b : Reg
  hint : Hint
  bar : BarRef
  la : BitVec 4
  m : SafeMask
  deriving DecidableEq, Repr

/-- STA (R202): `len` in units of 16 bytes. -/
structure StaOps where
  a : Src
  b : Src
  hint : Hint
  len : BitVec 14
  la : BitVec 4
  m : SafeMask
  deriving DecidableEq, Repr

/-- COLL.add and COLL.max (R204). -/
structure CollOps where
  d : Reg
  a : Src
  ty : CollType
  len : BitVec 14
  la : BitVec 4
  m : SafeMask
  deriving DecidableEq, Repr

/-- COLL.bcast (R204). -/
structure CollBOps where
  d : Reg
  a : Src
  root : BitVec 3
  len : BitVec 14
  la : BitVec 4
  m : SafeMask
  deriving DecidableEq, Repr

/-- WAITQ (R206). -/
structure WaitqOps where
  cls : QClass
  n : BitVec 6
  m : SafeMask
  deriving DecidableEq, Repr

/-- PSET and PCLR (R207). -/
structure PrsOps where
  a : Src
  b : Src
  m : SafeMask
  deriving DecidableEq, Repr

/-- BARINIT and BARTRY (R244). -/
structure BarDabOps where
  d : Reg
  a : Src
  b : Src
  la : BitVec 4
  m : SafeMask
  deriving DecidableEq, Repr

/-- BARARR, LAUNCH, ACCGROW: a destination and one source in format L. -/
structure DaOps where
  d : Reg
  a : Src
  la : BitVec 4
  m : SafeMask
  deriving DecidableEq, Repr

/-- BAREXP: two sources in format L (R244). -/
structure AbOps where
  a : Src
  b : Src
  la : BitVec 4
  m : SafeMask
  deriving DecidableEq, Repr

/-- BARWAIT (R244). -/
structure BarwaitOps where
  a : Src
  b : Src
  ps : BitVec 6
  la : BitVec 4
  m : SafeMask
  deriving DecidableEq, Repr

/-- BARINV, MMAT, ACCSHR, ACCLD.sp, FZKILL's and others' single source in format L. -/
structure ALOps where
  a : Src
  la : BitVec 4
  m : SafeMask
  deriving DecidableEq, Repr

/-- TDEF.sp and TREAD.sp: D names a register that is read (R216). -/
structure TileSpOps where
  d : Reg
  a : Src
  la : BitVec 4
  m : SafeMask
  deriving DecidableEq, Repr

/-- TDEF.reg: A is the first of 64 vector names (R216). -/
structure TdefRegOps where
  d : Reg
  run : Fin 49
  la : BitVec 4
  m : SafeMask
  deriving DecidableEq, Repr

/-- TREAD.reg: D is the first of 64 vector names (R216). -/
structure TreadRegOps where
  run : Fin 49
  a : Src
  la : BitVec 4
  m : SafeMask
  deriving DecidableEq, Repr

/-- MMAR (R224): A is the first of 16 vector names. -/
structure MmarOps where
  d : Reg
  run : Fin 97
  b : Src
  h1 : Bool
  reuse : Bool
  la : BitVec 4
  m : SafeMask
  deriving DecidableEq, Repr

/-- ACCZ (R227): length in 16-byte units. -/
structure AcczOps where
  a : Src
  len : BitVec 14
  la : BitVec 4
  m : SafeMask
  deriving DecidableEq, Repr

/-- ACCST (R227). -/
structure AccstOps where
  a : Src
  b : Src
  len : BitVec 14
  la : BitVec 4
  m : SafeMask
  deriving DecidableEq, Repr

/-- ACCLD.reg (R228): D is the first destination name. -/
structure AccldRegOps where
  run : Fin 112
  a : Src
  la : BitVec 4
  m : SafeMask
  deriving DecidableEq, Repr

/-- FZREC (R311): D is the first of 16 names. -/
structure FzrecOps where
  run : Fin 97
  cap : BitVec 2
  la : BitVec 4
  m : SafeMask
  deriving DecidableEq, Repr

/-- FZRD (R311). -/
structure FzrdOps where
  d : Reg
  a : Src
  b : Src
  ps : BitVec 6
  cap : BitVec 2
  la : BitVec 4
  m : SafeMask
  deriving DecidableEq, Repr

/-- FZWR (R311): D is read only. -/
structure FzwrOps where
  d : Reg
  a : Src
  b : Src
  cap : BitVec 2
  la : BitVec 4
  m : SafeMask
  deriving DecidableEq, Repr

/-- FZRES to a PC (R312). -/
structure FzresOps where
  a : Src
  b : Src
  cap : BitVec 2
  la : BitVec 4
  m : SafeMask
  deriving DecidableEq, Repr

/-- FZRES.rpl and FZKILL (R312, R313). -/
structure FzMaskOps where
  a : Src
  cap : BitVec 2
  la : BitVec 4
  m : SafeMask
  deriving DecidableEq, Repr

/-- TLBI.range (R169). -/
structure TlbiOps where
  a : Src
  b : Src
  la : BitVec 4
  m : SafeMask
  deriving DecidableEq, Repr

/-- TLBI.ctx (R169). -/
structure TlbiCtxOps where
  la : BitVec 4
  m : SafeMask
  deriving DecidableEq, Repr

/-- MIGR (R314). -/
structure MigrOps where
  d : Reg
  a : Src
  b : Src
  la : BitVec 4
  m : SafeMask
  deriving DecidableEq, Repr

/-- rh.launch and rh.tlbi: RISC-V register numbers (R171, R233). -/
structure RhOps where
  rd : BitVec 5
  rs1 : BitVec 5
  rs2 : BitVec 5
  deriving DecidableEq, Repr

/-! ## Arguments of events -/

/-- TDISP's lock: the function's partition, and the IDE stream that it binds (R283). -/
structure TdiLock where
  part : Nat
  stream : Nat
  deriving DecidableEq, Repr

/-- The access kinds of KIND.ACC in a fault record (R299). -/
inductive AccKind where
  | none | fetch | load | store | atomic | engRead | engWrite | walk | pageReq | tag | granule | wait
  deriving DecidableEq, Repr

/-- The modes of an application core (R281). -/
inductive HartMode where
  | machine | supervisor | user
  deriving DecidableEq, Repr

/-- What an application core does (R281): an access to its address `a`, or a change of its translation or mode. -/
inductive HartOp where
  | load (rd : BitVec 5) (a : Nat) (bytes : Nat) (sx aq : Bool)
  | store (a : Nat) (bytes : Nat) (val : DWord) (rl : Bool)
  | amo (rd : BitVec 5) (a : Nat) (op : AtOp) (w64 : Bool) (val : DWord)
  | lr (rd : BitVec 5) (a : Nat) (bytes : Nat) (aq : Bool)
  | sc (rd : BitVec 5) (a : Nat) (bytes : Nat) (val : DWord) (rl : Bool)
  | fence
  | wrsNto
  | satp (v : DWord)
  | mode (m : HartMode)
  deriving DecidableEq, Repr

/-- A PRI response code (R167, R340). -/
inductive PriCode where
  | success | invalid | failure
  deriving DecidableEq, Repr

/-- An ATS Translation Completion (R166, R340): a failure status, or the permissions and frame granted. -/
inductive AtsResult where
  | failed (status : Nat)
  | granted (r w x : Bool) (pa : Nat) (log2 : Nat)
  deriving DecidableEq, Repr

/-- A completion from the host's AtomicOp completer (R275); `other`: with a completion status other than these two (a Completer
Abort among them, R340). -/
inductive HostCpl where
  | success (old : Nat)
  | unsupported
  | other (status : Nat)
  deriving DecidableEq, Repr

/-- What a host access to device memory does (R276), or what host software writes of the function's configuration: the base of
its HDM decoder (R276); the MSI-X vector of error reports, PF0's or the function's own (R372); an entry of the MSI-X table of either
(R270); an IDE stream of the function, or a link stream of a port (R270); a port's completion timeout (R359). -/
inductive HdmOp where
  | read (bytes : Nat)
  | write (data : List Byte)
  | program (base : Nat)
  | vector (pf0 : Bool) (n : Nat)
  | msix (pf0 : Bool) (n addr data : Nat) (masked : Bool)
  | stream (id port : Nat) (link : Bool)
  | timeout (port code : Nat)
  deriving DecidableEq, Repr

/-- AtomicOps as completer (R270). -/
inductive HostAtOp where
  | fetchAdd | swap | cas
  deriving DecidableEq, Repr

/-- The on-die structures of R377 and R357. -/
inductive SramSite where
  | name (gid lane n : Nat)       -- a vector register
  | groupState (gid : Nat)        -- a scalar, predicate or LPC
  | accumulator (tid off : Nat)
  | scratchpad (tid off : Nat)
  | l1 (core key : Nat)           -- a unit in an L1, a cluster cache, an RDC, or at its home (HBM's L2 slice)
  | clusterCache (cluster key : Nat)
  | rdc (die key : Nat)
  | home (part key : Nat)
  | tile (sid name off : Nat)
  | translation (core entry : Nat)
  | walkCache (cluster entry : Nat)
  | directory (die : Nat)
  | granary (die : Nat)
  deriving DecidableEq, Repr

/-- What is lost at DIE_LOSS (R378). -/
inductive Loss where
  | die (d : Nat)
  | stack (s : Nat)
  | link (d1 d2 : Nat)
  deriving DecidableEq, Repr

/-- Which requests a completion timeout meets (R340, R359, R360). -/
inductive TimedOut where
  | ats (part req : Nat)
  | hostAtomic (part req : Nat)
  | requests (on : Bool)
  deriving DecidableEq, Repr

/-- The versions of SPDM (R285). -/
inductive SpdmVer where
  | v12 | v13
  deriving DecidableEq, Repr

/-- How an SPDM request comes: over DOE or MCTP on port 0, or over MCTP on SMBus (R285, R290). -/
inductive SpdmPath where
  | doe | mctpPort | mctpSmbus
  deriving DecidableEq, Repr

/-- SPDM requests (R285), with the version that the requester uses and the way they come. -/
inductive SpdmReq where
  | measurement (v : SpdmVer) (index : Nat) (path : SpdmPath)
  | signature (v : SpdmVer) (path : SpdmPath)
  deriving DecidableEq, Repr

/-- A walk asked for by an access of some lanes of a group (R163); `quiet`: by PRES or PRF (R366). -/
structure WalkReq where
  gid : Nat
  lanes : Lanes
  va : DWord
  acc : AccKind
  quiet : Bool := false
  deriving DecidableEq, Repr

/-- A store translated earlier whose request for write ownership reaches the home now (R400, R351). -/
structure OwnReq where
  gid : Nat
  lanes : Lanes
  pc : DWord
  va : DWord
  pa : Nat
  bytes : Nat
  filledAt : Nat
  deriving DecidableEq, Repr

/-- A report of an error (R372). -/
inductive AerClass where
  | correctable | nonFatal | fatalPartition | fatalModule
  deriving DecidableEq, Repr

/-- One step of the part: an instruction issued by a group or a hart, or an event. -/
inductive Instr where
  -- OP 0x00 to 0x05
  | nop (m : SafeMask)
  | yield (m : SafeMask)
  | exit (m : SafeMask)
  | brk (o : CodeOps)
  | trap (o : CodeOps)
  | ret (m : SafeMask)
  | jmpi (o : R1)
  | calli (o : R1)
  | genbump (m : SafeMask)
  | mfs (o : MfsOps)
  | mts (o : MtsOps)
  | fenceAcq (o : FenceOps)
  | fenceRel (o : FenceOps)
  | fenceAcqRel (o : FenceOps)
  | fenceFull (o : FenceOps)
  | guard (o : GuardOps)
  | br (o : BrOps)
  | call (o : BrOps)
  | wbase (o : R1)
  | grow (o : R2)
  | shrink (o : R1)
  -- IALU
  | iadd (o : R3)
  | isub (o : R3)
  | imul (o : R3)
  | imulhs (o : R3)
  | imulhn (o : R3)
  | imad (o : R3)
  | imin (o : R3)
  | imax (o : R3)
  | nmin (o : R3)
  | nmax (o : R3)
  | iabsd (o : R3)
  | iaddc (o : R3)
  | isubb (o : R3)
  -- BITS
  | and (o : R3)
  | or (o : R3)
  | xor (o : R3)
  | andn (o : R3)
  | orn (o : R3)
  | shl (o : R3)
  | shr (o : R3)
  | sar (o : R3)
  | rotl (o : R3)
  | popc (o : R2)
  | clz (o : R2)
  | brev (o : R2)
  | prmt (o : R3)
  | bfx (o : R3)
  | bfi (o : R3)
  -- ALU64
  | add64 (o : R3)
  | sub64 (o : R3)
  | mad64 (o : R3)
  | shl64 (o : R3)
  | shr64 (o : R3)
  | sar64 (o : R3)
  | mov64 (o : R2)
  -- MOVE and immediates
  | mov (o : R2)
  | movs (o : R2)
  | p2v (o : P2vOps)
  | lit (o : R2)
  | iaddi (o : RI)
  | andi (o : RI)
  | ori (o : RI)
  | xori (o : RI)
  | shli (o : RSh)
  | shri (o : RSh)
  | sari (o : RSh)
  | rotli (o : RSh)
  -- predicates
  | icmp (o : IcmpOps)
  | fcmp (o : FcmpOps)
  | plogAnd (o : PlogOps)
  | plogOr (o : PlogOps)
  | plogXor (o : PlogOps)
  | plogNand (o : PlogOps)
  | plogNor (o : PlogOps)
  | plogXnor (o : PlogOps)
  | voteAny (o : VotePOps)
  | voteAll (o : VotePOps)
  | voteBallot (o : VoteROps)
  | votePcount (o : VoteROps)
  | voteV2p (o : VoteVOps)
  -- floating point
  | fadd (o : R3)
  | fsub (o : R3)
  | fmul (o : R3)
  | ffma (o : R3)
  | fmin (o : R3)
  | fmax (o : R3)
  | fminn (o : R3)
  | fmaxn (o : R3)
  | fabs (o : R2)
  | fneg (o : R2)
  | frnd (o : FrndOps)
  | add2 (o : HpairOps)
  | mul2 (o : HpairOps)
  | fma2 (o : HpairOps)
  | min2 (o : HpairOps)
  | max2 (o : HpairOps)
  | frcp (o : SfuOps)
  | frsq (o : SfuOps)
  | fsqrt (o : SfuOps)
  | fexp2 (o : SfuOps)
  | flog2 (o : SfuOps)
  | fsin (o : SfuOps)
  | fcos (o : SfuOps)
  | ftanh (o : SfuOps)
  | cvt (o : CvtOps)
  | pack (o : PackOps)
  | unpack (o : PackOps)
  | dot4F8a (o : R3)
  | dot4F8b (o : R3)
  | dot4I8 (o : R3)
  | dot4N8 (o : R3)
  | dot8F4 (o : R3)
  | dot8I4 (o : R3)
  | dot8N4 (o : R3)
  | shflIdx (o : R3)
  | shflUp (o : R3)
  | shflDown (o : R3)
  | shflXor (o : R3)
  | shflBcast (o : R3)
  | gredReduce (o : GredOps)
  | gredIncl (o : GredOps)
  | gredExcl (o : GredOps)
  -- memory
  | ld (o : LdOps)
  | ldNr (o : LdnrOps)
  | st (o : StOps)
  | lds (o : LdsOps)
  | sts (o : StsOps)
  | atom (o : AtomOps)
  | atomc (o : AtomcOps)
  | red (o : RedOps)
  | prf (o : PrfOps)
  | flush (o : FlushOps)
  | inv (o : FlushOps)
  | pgreq (o : PgOps)
  | pres (o : PgOps)
  | tagst (o : TagstOps)
  | tagld (o : AddrOps)
  | gqry (o : AddrOps)
  | ghold (o : AddrOps)
  | grel (o : AddrOps)
  | waitv (o : WaitvOps)
  -- copy engine
  | cpySp (o : CpyOps)
  | cpyTile (o : CpyOps)
  | cpyMc (o : CpyMcOps)
  | gathSp (o : GathOps)
  | gathTile (o : GathOps)
  | sta (o : StaOps)
  | collAdd (o : CollOps)
  | collMax (o : CollOps)
  | collBcast (o : CollBOps)
  | waitq (o : WaitqOps)
  | pset (o : PrsOps)
  | pclr (o : PrsOps)
  -- barriers and launch
  | barinit (o : BarDabOps)
  | bararr (o : DaOps)
  | barexp (o : AbOps)
  | barwait (o : BarwaitOps)
  | bartry (o : BarDabOps)
  | barinv (o : ALOps)
  | launch (o : DaOps)
  -- granary and matrix engine
  | tdefSp (o : TileSpOps)
  | tdefReg (o : TdefRegOps)
  | treadSp (o : TileSpOps)
  | treadReg (o : TreadRegOps)
  | tkill (o : R1)
  | tqry (o : R2)
  | mmat (o : ALOps)
  | mmar (o : MmarOps)
  | accz (o : AcczOps)
  | accldSp (o : ALOps)
  | accldReg (o : AccldRegOps)
  | accst (o : AccstOps)
  | accgrow (o : DaOps)
  | accshr (o : ALOps)
  -- handler instructions
  | fzrec (o : FzrecOps)
  | fzrd (o : FzrdOps)
  | fzwr (o : FzwrOps)
  | fzres (o : FzresOps)
  | fzresRpl (o : FzMaskOps)
  | fzkill (o : FzMaskOps)
  | tlbiRange (o : TlbiOps)
  | tlbiCtx (o : TlbiCtxOps)
  | migr (o : MigrOps)
  -- application cores
  | rhLaunch (o : RhOps)
  | rhTlbiRange (o : RhOps)
  | rhTlbiCtx (o : RhOps)
  -- events that the part itself brings about
  | longLatencyResult (gid id : Nat)
  | launchAccept (part queue : Nat)
  | dependenceSatisfied (part queue : Nat)
  | distributorPlaceSpan (part queue : Nat)
  | stagingRegionWritten (op : Nat)
  | presenceLinePresent (tid line : Nat)
  | copyOperationComplete (op : Nat)
  | gathComplete (op : Nat)
  | staComplete (op : Nat)
  | collRun (sid k : Nat)
  | enginePassGrant (cluster : Nat)
  | matrixOperationComplete (op : Nat)
  | tileDefinitionComplete (op : Nat)
  | tileStorageRelease (sid name : Nat)
  | spanRetire (sid : Nat)
  | gridComplete (uid : Nat)
  | waitvMonitorDeliver (mon : Nat)
  | yieldRelease (gid : Nat)
  | groupPromotion (gid : Nat)
  | pageParkTimeout (gid : Nat)
  | forcedSaveTimeout (sid : Nat)
  | priorityPreemption (part queue : Nat)
  | spanSave (sid : Nat)
  | preemptionWithdraw (sid : Nat)
  | spanReturn (sid : Nat)
  | pageReplay (gid : Nat)
  | prqdoneWrite (part : Nat) (val : Word)
  | priResponse (part pasid page : Nat) (write : Bool) (code : PriCode)
  | atsTranslationCompletion (part req : Nat) (res : AtsResult)
  | atsInvalidationRequest (part pasid va log2 : Nat)
  | walkComplete (w : WalkReq)
  | snufferInterval (part : Nat)
  | sweepIntervalEnd (part : Nat)
  | writeOwnershipRequest (r : OwnReq)
  | crierRound (part pa : Nat)
  | hostAtomicopCompletion (part req : Nat) (c : HostCpl)
  | lamplighterStart (core : Nat)
  | faultSlotFree (core slot : Nat)
  | completionTimeout (port : Nat) (r : TimedOut)
  | wrsNtoWake (hart : Nat)
  | illegalEncoding (w0 w1 w2 w3 : Word)
  | fetchFault (gid : Nat) (pc : DWord)
  | applicationCoreAccess (hart : Nat) (op : HartOp)
  | contextPreemptionRequest (part ctx : Nat)
  | directoryEntryDrop (part pa : Nat)
  | tilePlacementChange (sid name place : Nat)
  | sourceReadComplete (op : Nat)
  | homeWriteBack (part pa : Nat)
  -- events from outside the part
  | hostSnoop (part line : Nat) (inval : Bool) (data : List Byte)
  | hostHdmRequest (part addr : Nat) (stream : Option Nat) (op : HdmOp)   -- the stream it came on with the T bit
  | hostAtomicopRequest (part addr : Nat) (stream : Option Nat) (op : HostAtOp) (bytes : Nat) (operand compare : Nat)
  | hwtnWrite (part : Nat) (n : Word)
  | controlPageWrite (part off : Nat) (val : DWord)
  | slcmdResume (core : Nat) (pc : DWord)
  | slcmdReplay (core : Nat)
  | slcmdRetire (core : Nat)
  | slcmdEndContext (core : Nat)
  | partitionCountWrite (n : Nat)
  | tdiConfigLock (o : TdiLock)
  | tdiRun (part stream : Nat)                                           -- the stream it came on
  | tdiUnlock (part : Nat)
  | tdiError (part : Nat)
  | moduleReset
  | spdmRequest (pf : Nat) (r : SpdmReq)
  | imageWrite (off : Nat) (piece : List Byte)
  | imageCommit (len : Nat)
  | imageStatus
  | powerLimitWrite (watts : Nat)
  | pldmFirmwareUpdate (image : List Byte)
  | pldmMonitoring
  | channelPowerDown (ch : Nat)
  | channelSelfRefresh (ch : Nat)
  | linkDown (port : Nat)
  | linkTrained (port cap : Nat)
  | ideIntegrityFailure (stream : Nat)
  | poisonedDataReceived (part pa : Nat)
  | hbmUncorrectableError (part pa : Nat)
  | sramUncorrectableError (site : SramSite)
  | ucieRetrainTimeout (d1 d2 : Nat)
  | dieLoss (l : Loss)
  | hubDieLoss
  | priEnable (part : Nat)
  | ideStreamEstablish (stream : Nat)
  | linkReplay (port : Nat)
  | correctedEccError (die : Nat)
  deriving DecidableEq, Repr

end Sys2Proof
end

