-- ==== Sys2Proof/Decode.lean ====
section
/-!
DEFINITION. Instruction words (R57 to R69, R318 to R328): which words an instruction occupies, which field values are
legal, the decoder (total on any words, refusing by name) and, after it, the encoder.
-/
namespace Sys2Proof

/-! ## Numbers of names and codes -/

/-- The field value of a register (R60). -/
def Reg.num : Reg → Nat
  | .v n => n.val
  | .s n => 112 + n.val
  | .zero => 126

/-- The register of a field value (R60); 127 is judged before the result is used. -/
def Reg.ofNum (f : Nat) : Reg :=
  if h : f < 112 then .v ⟨f, h⟩ else if h : f < 126 then .s ⟨f - 112, by omega⟩ else .zero

def Src.num : Src → Nat
  | .reg r => r.num
  | .lit _ => 127

/-- The source of a field value and the literal word (R61). -/
def Src.ofNum (f : Nat) (l : Option Word) : Src :=
  if f = 127 then .lit (l.getD 0) else .reg (Reg.ofNum f)

def Src.isLit : Src → Bool
  | .reg _ => false
  | .lit _ => true

/-- R46: an even base; `zero` may stand for any pair. -/
def Reg.pairOk : Reg → Bool
  | .v n => n.val % 2 == 0
  | .s n => n.val % 2 == 0
  | .zero => true

/-- R46: a base that is a multiple of 4, v0 to v108 or s0, s4, s8. -/
def Reg.quadOk : Reg → Bool
  | .v n => n.val % 4 == 0
  | .s n => n.val % 4 == 0 && n.val < 12
  | .zero => true

def Src.pairOk : Src → Bool
  | .reg r => r.pairOk
  | .lit _ => true

def Src.quadOk : Src → Bool
  | .reg r => r.quadOk
  | .lit _ => true

/-- R197: CPY's B names v0 to v107, s0 to s9 or zero. -/
def Reg.fiveOk : Reg → Bool
  | .v n => n.val < 108
  | .s n => n.val < 10
  | .zero => true

def Scope.num : Scope → Nat
  | .core => 0 | .cluster => 1 | .device => 2 | .system => 3

def Scope.ofNum : Nat → Option Scope
  | 0 => some .core | 1 => some .cluster | 2 => some .device | 3 => some .system | _ => none

def Width.num : Width → Nat
  | .w8 => 0 | .w16 => 1 | .w32 => 2 | .w64 => 3 | .w128 => 4 | .w8s => 5 | .w16s => 6

def Width.ofNum : Nat → Option Width
  | 0 => some .w8 | 1 => some .w16 | 2 => some .w32 | 3 => some .w64 | 4 => some .w128 | 5 => some .w8s
  | 6 => some .w16s | _ => none

/-- Bytes of an access (R176). -/
def Width.bytes : Width → Nat
  | .w8 => 1 | .w8s => 1 | .w16 => 2 | .w16s => 2 | .w32 => 4 | .w64 => 8 | .w128 => 16

def Ord.num : Ord → Nat
  | .weak => 0 | .sync => 1 | .relaxed => 2 | .bypass => 3

def Ord.ofNum : Nat → Ord
  | 0 => .weak | 1 => .sync | 2 => .relaxed | _ => .bypass

def Hint.num : Hint → Nat
  | .normal => 0 | .stream => 1 | .keep => 2 | .gridRO => 3 | .noalloc => 4

def Hint.ofNum : Nat → Option Hint
  | 0 => some .normal | 1 => some .stream | 2 => some .keep | 3 => some .gridRO | 4 => some .noalloc | _ => none

def AtClass.num : AtClass → Nat
  | .relaxed => 0 | .acquire => 1 | .release => 2 | .acqRel => 3

def AtClass.ofNum : Nat → Option AtClass
  | 0 => some .relaxed | 1 => some .acquire | 2 => some .release | 3 => some .acqRel | _ => none

def AtOp.num : AtOp → Nat
  | .add => 0 | .smin => 1 | .smax => 2 | .umin => 3 | .umax => 4 | .and => 5 | .or => 6 | .xor => 7 | .xchg => 8
  | .incw => 9 | .decw => 10 | .fadd => 11 | .hadd2 => 12

def AtOp.ofNum : Nat → Option AtOp
  | 0 => some .add | 1 => some .smin | 2 => some .smax | 3 => some .umin | 4 => some .umax | 5 => some .and
  | 6 => some .or | 7 => some .xor | 8 => some .xchg | 9 => some .incw | 10 => some .decw | 11 => some .fadd
  | 12 => some .hadd2 | _ => none

def AtWidth.num : AtWidth → Nat
  | .w32 => 0 | .w64 => 1 | .w128 => 2

def AtWidth.ofNum : Nat → Option AtWidth
  | 0 => some .w32 | 1 => some .w64 | 2 => some .w128 | _ => none

def AtWidth.bytes : AtWidth → Nat
  | .w32 => 4 | .w64 => 8 | .w128 => 16

/-- The widths that R67 allows an operation. -/
def AtOp.allows : AtOp → AtWidth → Bool
  | .xchg, _ => true
  | .incw, w | .decw, w | .fadd, w | .hadd2, w => w == .w32
  | _, w => w != .w128

def ICond.num : ICond → Nat
  | .eq => 0 | .ne => 1 | .lt => 2 | .le => 3 | .gt => 4 | .ge => 5

def ICond.ofNum : Nat → Option ICond
  | 0 => some .eq | 1 => some .ne | 2 => some .lt | 3 => some .le | 4 => some .gt | 5 => some .ge | _ => none

def IType.num : IType → Nat
  | .i32 => 0 | .n32 => 1 | .i64 => 2 | .n64 => 3

def IType.ofNum : Nat → IType
  | 0 => .i32 | 1 => .n32 | 2 => .i64 | _ => .n64

def IType.wide : IType → Bool
  | .i64 => true | .n64 => true | _ => false

def FCond.num : FCond → Nat
  | .eq => 0 | .ne => 1 | .lt => 2 | .le => 3 | .gt => 4 | .ge => 5 | .ord => 6 | .unord => 7

def FCond.ofNum : Nat → FCond
  | 0 => .eq | 1 => .ne | 2 => .lt | 3 => .le | 4 => .gt | 5 => .ge | 6 => .ord | _ => .unord

def FType.num : FType → Nat
  | .f32 => 0 | .h16 => 1 | .bf16 => 2

def FType.ofNum : Nat → Option FType
  | 0 => some .f32 | 1 => some .h16 | 2 => some .bf16 | _ => none

def RCode.num : RCode → Nat
  | .default => 0 | .rne => 1 | .rz => 2 | .rdn => 3 | .rup => 4 | .rna => 5

def RCode.ofNum : Nat → Option RCode
  | 0 => some .default | 1 => some .rne | 2 => some .rz | 3 => some .rdn | 4 => some .rup | 5 => some .rna | _ => none

def NFmt.num : NFmt → Nat
  | .h16 => 1 | .bf16 => 2 | .f8a => 3 | .f8b => 4 | .f4 => 5 | .i32 => 6 | .n32 => 7 | .i16 => 8 | .n16 => 9
  | .i8 => 10 | .n8 => 11 | .i4 => 12 | .n4 => 13

def NFmt.ofNum : Nat → Option NFmt
  | 1 => some .h16 | 2 => some .bf16 | 3 => some .f8a | 4 => some .f8b | 5 => some .f4 | 6 => some .i32
  | 7 => some .n32 | 8 => some .i16 | 9 => some .n16 | 10 => some .i8 | 11 => some .n8 | 12 => some .i4
  | 13 => some .n4 | _ => none

/-- The conversion code of R125; 0, which R125 reserves, where the pair of formats has none. -/
def CvtCode.num : CvtCode → Nat
  | .fromF32 k => k.num
  | .toF32 k => 16 + k.num
  | .h16ToBf16 => 0x20
  | .bf16ToH16 => 0x21
  | .i32To .i16 => 0x22
  | .i32To .i8 => 0x23
  | .i32To .i4 => 0x24
  | .i32To _ => 0
  | .n32To .n16 => 0x25
  | .n32To .n8 => 0x26
  | .n32To .n4 => 0x27
  | .n32To _ => 0
  | .i32ToN32 => 0x28
  | .n32ToI32 => 0x29
  | .pairToH16 => 0x30
  | .pairToBf16 => 0x31

def CvtCode.ofNum (c : Nat) : Option CvtCode :=
  if c < 16 then (NFmt.ofNum c).map .fromF32
  else if c < 32 then (NFmt.ofNum (c - 16)).map .toF32
  else match c with
    | 0x20 => some .h16ToBf16
    | 0x21 => some .bf16ToH16
    | 0x22 => some (.i32To .i16)
    | 0x23 => some (.i32To .i8)
    | 0x24 => some (.i32To .i4)
    | 0x25 => some (.n32To .n16)
    | 0x26 => some (.n32To .n8)
    | 0x27 => some (.n32To .n4)
    | 0x28 => some .i32ToN32
    | 0x29 => some .n32ToI32
    | 0x30 => some .pairToH16
    | 0x31 => some .pairToBf16
    | _ => none

def CvtCode.isPair : CvtCode → Bool
  | .pairToH16 => true | .pairToBf16 => true | _ => false

def PackElem.num : PackElem → Nat
  | .e8 => 0 | .e4 => 1 | .e16 => 2

def PackElem.ofNum : Nat → Option PackElem
  | 0 => some .e8 | 1 => some .e4 | 2 => some .e16 | _ => none

def GredOp.num : GredOp → Nat
  | .addI32 => 0 | .addF32 => 1 | .minI32 => 2 | .maxI32 => 3 | .minN32 => 4 | .maxN32 => 5 | .minF32 => 6
  | .maxF32 => 7 | .and => 8 | .or => 9 | .xor => 10

def GredOp.ofNum : Nat → Option GredOp
  | 0 => some .addI32 | 1 => some .addF32 | 2 => some .minI32 | 3 => some .maxI32 | 4 => some .minN32
  | 5 => some .maxN32 | 6 => some .minF32 | 7 => some .maxF32 | 8 => some .and | 9 => some .or | 10 => some .xor
  | _ => none

def WCond.num : WCond → Nat
  | .eq => 0 | .ne => 1 | .lts => 2 | .ges => 3 | .ltn => 4 | .gen => 5

def WCond.ofNum : Nat → Option WCond
  | 0 => some .eq | 1 => some .ne | 2 => some .lts | 3 => some .ges | 4 => some .ltn | 5 => some .gen | _ => none

/-- The state register numbers of R47. -/
def SReg.num : SReg → Nat
  | .laneix => 0 | .grpix => 1 | .teamx => 2 | .teamy => 3 | .teamz => 4 | .roleix => 5 | .spanrk => 6 | .gridh => 7
  | .nlane => 8 | .clock => 9 | .stat => 10 | .allot => 11 | .wbasev => 12 | .link => 13 | .qcnt => 14 | .lpc => 15
  | .cap0 => 0x40 | .cap1 => 0x41 | .cap2 => 0x42 | .cap3 => 0x43 | .frecp => 0x44 | .hmode => 0x45 | .ctxid => 0x46

def SReg.ofNum : Nat → Option SReg
  | 0 => some .laneix | 1 => some .grpix | 2 => some .teamx | 3 => some .teamy | 4 => some .teamz | 5 => some .roleix
  | 6 => some .spanrk | 7 => some .gridh | 8 => some .nlane | 9 => some .clock | 10 => some .stat | 11 => some .allot
  | 12 => some .wbasev | 13 => some .link | 14 => some .qcnt | 15 => some .lpc | 0x40 => some .cap0 | 0x41 => some .cap1
  | 0x42 => some .cap2 | 0x43 => some .cap3 | 0x44 => some .frecp | 0x45 => some .hmode | 0x46 => some .ctxid
  | _ => none

/-- A 64-bit state register occupies a pair (R47). -/
def SReg.wide : SReg → Bool
  | .clock => true | .link => true | .lpc => true | .frecp => true | _ => false

/-- The state registers that MTS may write (R47, R328). -/
def SReg.writable : SReg → Bool
  | .stat => true | .link => true | .cap0 => true | .cap1 => true | .cap2 => true | .cap3 => true | _ => false

/-- Registers 0x40 to 0x46 (R47). -/
def SReg.privileged : SReg → Bool
  | .cap0 => true | .cap1 => true | .cap2 => true | .cap3 => true | .frecp => true | .hmode => true | .ctxid => true
  | _ => false

def QClass.num : QClass → Nat
  | .copy => 0 | .matrix => 1 | .gather => 2 | .coll => 3

def QClass.ofNum : Nat → Option QClass
  | 0 => some .copy | 1 => some .matrix | 2 => some .gather | 3 => some .coll | _ => none

/-- Bits 13:0 of CPY and GATH (R199). -/
def BarRef.num : BarRef → Nat
  | .none => 0
  | .team b => 0x1000 + b.toNat
  | .span b => 0x2000 + b.toNat

/-- R199; BK 3 and a BOFF under BK 0 are reserved. -/
def BarRef.ofNum (n : Nat) : Option BarRef :=
  if n = 0 then some .none
  else if n / 0x1000 = 1 then some (.team (BitVec.ofNat 12 (n % 0x1000)))
  else if n / 0x1000 = 2 then some (.span (BitVec.ofNat 12 (n % 0x1000)))
  else Option.none

def CollType.num : CollType → Nat
  | .f32 => 0 | .bf16 => 1

def PgAccess.num : PgAccess → Nat
  | .read => 0 | .write => 1

def PgAccess.ofNum : Nat → Option PgAccess
  | 0 => some .read | 1 => some .write | _ => none

/-! ## Legal fields -/

/-- The register operand of a width (R176): single, pair or quad. -/
def Reg.fits (n : Nat) (r : Reg) : Bool :=
  if n = 16 then r.quadOk else if n = 8 then r.pairOk else true

def Src.fits (n : Nat) (x : Src) : Bool :=
  if n = 16 then x.quadOk else if n = 8 then x.pairOk else true

/-- SCOPE, HINT and ORD of LD and ST that R66 and R174 allow. -/
def Ord.legal (o : Ord) (w : Width) (sc : Scope) (h : Hint) (load : Bool) : Bool :=
  (match o with
   | .weak => sc == .core && (h != .gridRO || load)
   | .bypass => sc == .core && h == .normal
   | .sync => h != .gridRO
   | .relaxed => h != .gridRO && (w == .w32 || w == .w64))
  && (load || (w != .w8s && w != .w16s))

/-- The field values that R46, R62, R66, R67, R174 and R327 allow, zeros of R64 apart. -/
def Instr.fieldsLegal : Instr → Bool
  | .jmpi o => o.a.pairOk
  | .calli o => o.a.pairOk
  | .mfs o => !o.sr.wide || o.d.pairOk
  | .mts o => o.sr.writable && (!o.sr.wide || o.a.pairOk)
  | .add64 o | .sub64 o | .mad64 o => o.d.pairOk && o.a.pairOk && o.b.pairOk
  | .shl64 o | .shr64 o | .sar64 o => o.d.pairOk && o.a.pairOk
  | .mov64 o => o.d.pairOk && o.a.pairOk
  | .lit o => o.d.pairOk
  | .icmp o => !o.ty.wide || (o.a.pairOk && o.b.pairOk)
  | .cvt o => CvtCode.ofNum o.code.num == some o.code && (!o.code.isPair || o.a.pairOk)
  | .ld o => o.d.fits o.w.bytes && o.a.pairOk && o.ord.legal o.w o.scope o.hint true
  | .ldNr o => o.d.fits o.w.bytes && o.a.pairOk && o.ps != 63
  | .st o => o.b.fits o.w.bytes && o.a.pairOk && o.ord.legal o.w o.scope o.hint false
  | .lds o => o.d.fits o.w.bytes
  | .sts o => o.b.fits o.w.bytes && o.w != .w8s && o.w != .w16s
  | .atom o => o.op.allows o.w && o.d.fits o.w.bytes && o.a.pairOk && o.b.fits o.w.bytes
  | .atomc o => o.d.fits o.w.bytes && o.a.pairOk && o.b.fits o.w.bytes
  | .red o => o.op.allows o.w && o.a.pairOk && o.b.fits o.w.bytes
  | .prf o => o.a.pairOk && o.hint != .gridRO
  | .flush o | .inv o => o.a.pairOk && o.scope != .core
  | .pgreq o | .pres o => o.a.pairOk
  | .tagst o => o.a.pairOk
  | .tagld o | .ghold o | .grel o => o.a.pairOk
  | .gqry o => o.a.pairOk && o.d.quadOk
  | .waitv o => o.a.pairOk && (!o.w64 || (o.d.pairOk && o.b.pairOk))
  | .cpySp o | .cpyTile o => o.a.pairOk && o.b.fiveOk && o.hint != .gridRO && BarRef.ofNum o.bar.num == some o.bar
  | .cpyMc o =>
    o.a.pairOk && o.b.fiveOk && o.hint != .gridRO && o.ranks != 0 && BarRef.ofNum o.bar.num == some o.bar
  | .gathSp o | .gathTile o => o.a.pairOk && o.hint != .gridRO && BarRef.ofNum o.bar.num == some o.bar
  | .sta o => o.a.pairOk && o.hint != .gridRO && o.len != 0
  | .collAdd o | .collMax o => o.len != 0
  | .collBcast o => o.len != 0
  | .launch o => o.d.pairOk && o.a.pairOk
  | .mmar o => o.b.pairOk
  | .accz o => o.len != 0
  | .accst o => o.len != 0
  | .fzres o => o.b.pairOk
  | .tlbiRange o => o.a.pairOk
  | .migr o => o.a.pairOk && o.b.pairOk
  | _ => true

/-- R61, R321: not two literals, and none where the operand is 128 bits wide. -/
def Instr.literalOk : Instr → Bool
  | .iadd o | .isub o | .imul o | .imulhs o | .imulhn o | .imad o | .imin o | .imax o | .nmin o | .nmax o | .iabsd o
  | .iaddc o | .isubb o | .and o | .or o | .xor o | .andn o | .orn o | .shl o | .shr o | .sar o | .rotl o | .prmt o
  | .bfx o | .bfi o | .add64 o | .sub64 o | .mad64 o | .shl64 o | .shr64 o | .sar64 o | .fadd o | .fsub o | .fmul o
  | .ffma o | .fmin o | .fmax o | .fminn o | .fmaxn o | .dot4F8a o | .dot4F8b o | .dot4I8 o | .dot4N8 o | .dot8F4 o
  | .dot8I4 o | .dot8N4 o | .shflIdx o | .shflUp o | .shflDown o | .shflXor o | .shflBcast o =>
    !(o.a.isLit && o.b.isLit)
  | .icmp o => !(o.a.isLit && o.b.isLit)
  | .fcmp o => !(o.a.isLit && o.b.isLit)
  | .add2 o | .mul2 o | .fma2 o | .min2 o | .max2 o => !(o.a.isLit && o.b.isLit)
  | .pack o | .unpack o => !(o.a.isLit && o.b.isLit)
  | .st o => !(o.a.isLit && o.b.isLit) && !(o.w == .w128 && o.b.isLit)
  | .sts o => !(o.a.isLit && o.b.isLit) && !(o.w == .w128 && o.b.isLit)
  | .atom o => !(o.a.isLit && o.b.isLit) && !(o.w == .w128 && o.b.isLit)
  | .atomc o => !(o.a.isLit && o.b.isLit) && !(o.w == .w128 && o.b.isLit)
  | .red o => !(o.a.isLit && o.b.isLit) && !(o.w == .w128 && o.b.isLit)
  | .flush o | .inv o => !(o.a.isLit && o.b.isLit)
  | .tagst o => !(o.a.isLit && o.b.isLit)
  | .waitv o => !(o.a.isLit && o.b.isLit)
  | .sta o => !(o.a.isLit && o.b.isLit)
  | .pset o | .pclr o => !(o.a.isLit && o.b.isLit)
  | .barinit o | .bartry o => !(o.a.isLit && o.b.isLit)
  | .barexp o => !(o.a.isLit && o.b.isLit)
  | .barwait o => !(o.a.isLit && o.b.isLit)
  | .accst o => !(o.a.isLit && o.b.isLit)
  | .fzrd o => !(o.a.isLit && o.b.isLit)
  | .fzwr o => !(o.a.isLit && o.b.isLit)
  | .fzres o => !(o.a.isLit && o.b.isLit)
  | .tlbiRange o => !(o.a.isLit && o.b.isLit)
  | .migr o => !(o.a.isLit && o.b.isLit)
  | _ => true

/-! ## The words of an instruction -/

/-- The formats of R58. -/
inductive Fmt where
  | a | l | i | p | b | g
  deriving DecidableEq, Repr

/-- The format of an OP; none for a reserved OP (R65). -/
def fmtOf (op : Nat) : Option Fmt :=
  if op ≤ 0x01 then some .a
  else if op = 0x02 then some .g
  else if op ≤ 0x04 then some .b
  else if op = 0x05 then some .a
  else if op ≤ 0x07 then none
  else if op ≤ 0x0B then some .a
  else if op ≤ 0x10 then some .i
  else if op ≤ 0x14 then some .p
  else if op ≤ 0x17 then none
  else if op = 0x1A then some .l
  else if op ≤ 0x1D then some .a
  else if op ≤ 0x1F then none
  else if op = 0x20 then some .a
  else if op = 0x21 then some .l
  else if op ≤ 0x23 then none
  else if op ≤ 0x2E then some .l
  else if op = 0x2F then none
  else if op ≤ 0x33 then some .l
  else if op ≤ 0x35 then some .a
  else if op ≤ 0x39 then some .l
  else if op ≤ 0x3B then some .a
  else if op ≤ 0x3F then some .l
  else none

/-- Field `w` bits wide at bit `lo`. -/
def bitsAt (n lo w : Nat) : Nat := n / 2 ^ lo % 2 ^ w

/-- The A field is a code, not a register (R60, R98, R103). -/
def aIsCode (op f : Nat) : Bool :=
  (op == 0x0B && f == 2) || op == 0x13 || (op == 0x14 && f < 4)

/-- The B field is a code or an immediate (R60). -/
def bIsCode (op f : Nat) : Bool :=
  (op == 0x00 && (f == 3 || f == 4 || f == 9)) || op == 0x13 || (op == 0x18 && f == 10) || op == 0x1B || op == 0x34

/-- Whether the base word implies a literal word (R57, R61). -/
def hasLiteral (n : Nat) : Bool :=
  let op := bitsAt n 26 6
  match fmtOf op with
  | some .a =>
    let f := bitsAt n 0 4
    (bitsAt n 11 7 == 127 && !aIsCode op f) || (bitsAt n 4 7 == 127 && !bIsCode op f)
  | some .l => bitsAt n 11 7 == 127 || bitsAt n 4 7 == 127
  | some .i => bitsAt n 11 7 == 127
  | some .p =>
    let f := bitsAt n 0 5
    (bitsAt n 12 7 == 127 && !aIsCode op f) || (bitsAt n 5 7 == 127 && !bIsCode op f)
  | _ => false

/-- The number of words that a base word implies (R57); a reserved OP implies none beyond itself (R319). -/
def wordCount (n : Nat) : Nat :=
  match fmtOf (bitsAt n 26 6) with
  | none => 1
  | some f =>
    1 + (if f = .l then 1 else 0) + (if hasLiteral n then 1 else 0) + (if bitsAt n 25 1 = 1 then 1 else 0)

/-! ## The decoder -/

/-- Why words are not an instruction: R68 or R321. PRIVILEGED is judged when they issue (R320). -/
inductive BadWord where
  | illegal
  | literalMisuse
  deriving DecidableEq, Repr

/-- `zeros`: the fields that must be zero are (R64). `regs`: no register field outside A and B literals holds 127. -/
def judge (zeros regs : Bool) (i : Instr) : Except BadWord Instr :=
  if !(zeros && i.fieldsLegal) then .error .illegal
  else if !(regs && i.literalOk) then .error .literalMisuse
  else .ok i

/-- As `judge`, for a form whose codes may be reserved. -/
def judge? (zeros regs : Bool) (i : Option Instr) : Except BadWord Instr :=
  match i with
  | none => .error .illegal
  | some i => judge zeros regs i

/-- Format A (R58, R65). -/
def decodeA (op d a b f : Nat) (l : Option Word) (m : SafeMask) : Except BadWord Instr :=
  let rd := Reg.ofNum d
  let sa := Src.ofNum a l
  let sb := Src.ofNum b l
  let r3 : R3 := ⟨rd, sa, sb, m⟩
  let r2 : R2 := ⟨rd, sa, m⟩
  let nd := d != 127
  match op with
  | 0x00 =>
    match f with
    | 0 => judge (d == 0 && a == 0 && b == 0) true (.nop m)
    | 1 => judge (d == 0 && a == 0 && b == 0) true (.yield m)
    | 2 => judge (d == 0 && a == 0 && b == 0) true (.exit m)
    | 3 => judge (d == 0 && a == 0) true (.brk ⟨BitVec.ofNat 7 b, m⟩)
    | 4 => judge (d == 0 && a == 0) true (.trap ⟨BitVec.ofNat 7 b, m⟩)
    | 5 => judge (d == 0 && a == 0 && b == 0) true (.ret m)
    | 6 => judge (d == 0 && b == 0) true (.jmpi ⟨sa, m⟩)
    | 7 => judge (d == 0 && b == 0) true (.calli ⟨sa, m⟩)
    | 8 => judge (d == 0 && a == 0 && b == 0) true (.genbump m)
    | 9 => judge? (a == 0) nd ((SReg.ofNum b).map fun r => .mfs ⟨rd, r, m⟩)
    | 10 => judge? (b == 0) true ((SReg.ofNum d).map fun r => .mts ⟨r, sa, m⟩)
    | _ => .error .illegal
  | 0x01 =>
    judge? (d == 0 && a == 0 && b == 0) true ((Scope.ofNum (f / 4)).map fun sc =>
      match f % 4 with
      | 0 => .fenceAcq ⟨sc, m⟩
      | 1 => .fenceRel ⟨sc, m⟩
      | 2 => .fenceAcqRel ⟨sc, m⟩
      | _ => .fenceFull ⟨sc, m⟩)
  | 0x05 =>
    match f with
    | 0 => judge (d == 0 && b == 0) true (.wbase ⟨sa, m⟩)
    | 1 => judge (b == 0) nd (.grow r2)
    | 2 => judge (d == 0 && b == 0) true (.shrink ⟨sa, m⟩)
    | _ => .error .illegal
  | 0x08 =>
    match f with
    | 0 => judge true nd (.iadd r3)
    | 1 => judge true nd (.isub r3)
    | 2 => judge true nd (.imul r3)
    | 3 => judge true nd (.imulhs r3)
    | 4 => judge true nd (.imulhn r3)
    | 5 => judge true nd (.imad r3)
    | 6 => judge true nd (.imin r3)
    | 7 => judge true nd (.imax r3)
    | 8 => judge true nd (.nmin r3)
    | 9 => judge true nd (.nmax r3)
    | 10 => judge true nd (.iabsd r3)
    | 11 => judge true nd (.iaddc r3)
    | 12 => judge true nd (.isubb r3)
    | _ => .error .illegal
  | 0x09 =>
    match f with
    | 0 => judge true nd (.and r3)
    | 1 => judge true nd (.or r3)
    | 2 => judge true nd (.xor r3)
    | 3 => judge true nd (.andn r3)
    | 4 => judge true nd (.orn r3)
    | 5 => judge true nd (.shl r3)
    | 6 => judge true nd (.shr r3)
    | 7 => judge true nd (.sar r3)
    | 8 => judge true nd (.rotl r3)
    | 9 => judge (b == 0) nd (.popc r2)
    | 10 => judge (b == 0) nd (.clz r2)
    | 11 => judge (b == 0) nd (.brev r2)
    | 12 => judge true nd (.prmt r3)
    | 13 => judge true nd (.bfx r3)
    | 14 => judge true nd (.bfi r3)
    | _ => .error .illegal
  | 0x0A =>
    match f with
    | 0 => judge true nd (.add64 r3)
    | 1 => judge true nd (.sub64 r3)
    | 2 => judge true nd (.mad64 r3)
    | 3 => judge true nd (.shl64 r3)
    | 4 => judge true nd (.shr64 r3)
    | 5 => judge true nd (.sar64 r3)
    | 6 => judge (b == 0) nd (.mov64 r2)
    | _ => .error .illegal
  | 0x0B =>
    match f with
    | 0 => judge (b == 0) nd (.mov r2)
    | 1 => judge (b == 0) nd (.movs r2)
    | 2 => judge (b == 0) nd (.p2v ⟨rd, BitVec.ofNat 7 a, m⟩)
    | 3 => judge (b == 0) nd (.lit r2)
    | _ => .error .illegal
  | 0x18 =>
    match f with
    | 0 => judge true nd (.fadd r3)
    | 1 => judge true nd (.fsub r3)
    | 2 => judge true nd (.fmul r3)
    | 3 => judge true nd (.ffma r3)
    | 4 => judge true nd (.fmin r3)
    | 5 => judge true nd (.fmax r3)
    | 6 => judge true nd (.fminn r3)
    | 7 => judge true nd (.fmaxn r3)
    | 8 => judge (b == 0) nd (.fabs r2)
    | 9 => judge (b == 0) nd (.fneg r2)
    | 10 => judge? true nd ((RCode.ofNum b).map fun r => .frnd ⟨rd, sa, r, m⟩)
    | _ => .error .illegal
  | 0x19 =>
    let hp : HpairOps := ⟨rd, sa, sb, f / 8 == 1, m⟩
    match f % 8 with
    | 0 => judge true nd (.add2 hp)
    | 1 => judge true nd (.mul2 hp)
    | 2 => judge true nd (.fma2 hp)
    | 3 => judge true nd (.min2 hp)
    | 4 => judge true nd (.max2 hp)
    | _ => .error .illegal
  | 0x1B =>
    judge? true nd ((CvtCode.ofNum b).bind fun c => (RCode.ofNum (f % 8)).map fun r => .cvt ⟨rd, sa, c, f / 8 == 1, r, m⟩)
  | 0x1C =>
    judge? true nd ((PackElem.ofNum (f / 2)).map fun e =>
      if f % 2 = 0 then .pack ⟨rd, sa, sb, e, m⟩ else .unpack ⟨rd, sa, sb, e, m⟩)
  | 0x1D =>
    match f with
    | 0 => judge true nd (.dot4F8a r3)
    | 1 => judge true nd (.dot4F8b r3)
    | 2 => judge true nd (.dot4I8 r3)
    | 3 => judge true nd (.dot4N8 r3)
    | 4 => judge true nd (.dot8F4 r3)
    | 5 => judge true nd (.dot8I4 r3)
    | 6 => judge true nd (.dot8N4 r3)
    | _ => .error .illegal
  | 0x20 =>
    match f with
    | 0 => judge true nd (.shflIdx r3)
    | 1 => judge true nd (.shflUp r3)
    | 2 => judge true nd (.shflDown r3)
    | 3 => judge true nd (.shflXor r3)
    | 4 => judge true nd (.shflBcast r3)
    | _ => .error .illegal
  | 0x34 => judge? (d == 0 && a == 0 && b < 64) true ((QClass.ofNum f).map fun q => .waitq ⟨q, BitVec.ofNat 6 b, m⟩)
  | 0x35 =>
    match f with
    | 0 => judge (d == 0) true (.pset ⟨sa, sb, m⟩)
    | 1 => judge (d == 0) true (.pclr ⟨sa, sb, m⟩)
    | _ => .error .illegal
  | 0x3A => judge (d == 0 && b == 0 && f == 0) true (.tkill ⟨sa, m⟩)
  | 0x3B => judge (b == 0 && f == 0) nd (.tqry r2)
  | _ => .error .illegal

/-- Format I (R58, R99, R100). -/
def decodeI (op d a i : Nat) (l : Option Word) (m : SafeMask) : Except BadWord Instr :=
  let rd := Reg.ofNum d
  let sa := Src.ofNum a l
  let ri : RI := ⟨rd, sa, BitVec.ofNat 11 i, m⟩
  let sh : RSh := ⟨rd, sa, BitVec.ofNat 5 (i % 32), m⟩
  let nd := d != 127
  match op with
  | 0x0C => judge true nd (.iaddi ri)
  | 0x0D => judge true nd (.andi ri)
  | 0x0E => judge true nd (.ori ri)
  | 0x0F => judge true nd (.xori ri)
  | 0x10 =>
    match i / 32 with
    | 0 => judge true nd (.shli sh)
    | 8 => judge true nd (.shri sh)
    | 16 => judge true nd (.sari sh)
    | 24 => judge true nd (.rotli sh)
    | _ => .error .illegal
  | _ => .error .illegal

/-- Format P (R58, R101 to R105). -/
def decodeP (op p a b c : Nat) (l : Option Word) (m : SafeMask) : Except BadWord Instr :=
  let pd := BitVec.ofNat 6 p
  let sa := Src.ofNum a l
  let sb := Src.ofNum b l
  match op with
  | 0x11 => judge? true true ((ICond.ofNum (c / 4)).map fun k => .icmp ⟨pd, sa, sb, k, IType.ofNum (c % 4), m⟩)
  | 0x12 => judge? true true ((FType.ofNum (c % 4)).map fun t => .fcmp ⟨pd, sa, sb, FCond.ofNum (c / 4), t, m⟩)
  | 0x13 =>
    let pl : PlogOps := ⟨pd, BitVec.ofNat 7 a, BitVec.ofNat 7 b, m⟩
    match c with
    | 0 => judge true true (.plogAnd pl)
    | 1 => judge true true (.plogOr pl)
    | 2 => judge true true (.plogXor pl)
    | 3 => judge true true (.plogNand pl)
    | 4 => judge true true (.plogNor pl)
    | 5 => judge true true (.plogXnor pl)
    | _ => .error .illegal
  | 0x14 =>
    match c with
    | 0 => judge (b == 0) true (.voteAny ⟨pd, BitVec.ofNat 7 a, m⟩)
    | 1 => judge (b == 0) true (.voteAll ⟨pd, BitVec.ofNat 7 a, m⟩)
    | 2 => judge (p == 63) (b != 127) (.voteBallot ⟨Reg.ofNum b, BitVec.ofNat 7 a, m⟩)
    | 3 => judge (p == 63) (b != 127) (.votePcount ⟨Reg.ofNum b, BitVec.ofNat 7 a, m⟩)
    | 4 => judge (a == 0) true (.voteV2p ⟨pd, sb, m⟩)
    | _ => .error .illegal
  | _ => .error .illegal

/-- Formats B and G (R58, R106, R107, R109). -/
def decodeB (op p n o : Nat) (m : SafeMask) : Except BadWord Instr :=
  let br : BrOps := ⟨BitVec.ofNat 6 p, n == 1, BitVec.ofNat 18 o, m⟩
  match op with
  | 0x02 => judge (o % 2 ^ 15 == 0) true (.guard ⟨BitVec.ofNat 6 p, n == 1, BitVec.ofNat 3 (o / 2 ^ 15), m⟩)
  | 0x03 => judge true true (.br br)
  | 0x04 => judge true true (.call br)
  | _ => .error .illegal

/-- The fields of a format-L instruction: base word and modifier word (R58, R62). -/
structure LFields where
  d : Nat
  a : Nat
  b : Nat
  la : Nat
  sub : Nat
  ps : Nat
  sc : Nat
  h : Nat
  off : Nat
  deriving DecidableEq, Repr

/-- Loads, stores and atomics, OP 0x24 to 0x2E (R174). -/
def decodeLMem (op : Nat) (f : LFields) (l : Option Word) (m : SafeMask) : Except BadWord Instr :=
  let rd := Reg.ofNum f.d
  let sa := Src.ofNum f.a l
  let sb := Src.ofNum f.b l
  let nd := f.d != 127
  let ps := BitVec.ofNat 6 f.ps
  let off := BitVec.ofNat 14 f.off
  let la := BitVec.ofNat 4 f.la
  let noPs := f.ps == 63
  match op with
  | 0x24 =>
    judge? (f.b == 0) nd ((Width.ofNum (f.sub / 8)).bind fun w => (Scope.ofNum f.sc).bind fun sc =>
      (Hint.ofNum f.h).bind fun h =>
        if f.sub / 4 % 2 = 1 then
          if f.sub % 4 = 0 ∧ sc = .core then some (.ldNr ⟨rd, sa, w, h, ps, off, la, m⟩) else none
        else some (.ld ⟨rd, sa, w, Ord.ofNum (f.sub % 4), sc, h, ps, off, la, m⟩))
  | 0x25 =>
    judge? (f.d == 0 && noPs && f.sub / 4 % 2 == 0) true ((Width.ofNum (f.sub / 8)).bind fun w =>
      (Scope.ofNum f.sc).bind fun sc => (Hint.ofNum f.h).map fun h =>
        .st ⟨sa, sb, w, Ord.ofNum (f.sub % 4), sc, h, off, la, m⟩)
  | 0x26 =>
    judge? (f.b == 0 && noPs && f.sub % 8 == 0 && f.sc == 0 && f.h == 0) nd ((Width.ofNum (f.sub / 8)).map fun w =>
      .lds ⟨rd, sa, w, off, la, m⟩)
  | 0x27 =>
    judge? (f.d == 0 && noPs && f.sub % 8 == 0 && f.sc == 0 && f.h == 0) true ((Width.ofNum (f.sub / 8)).map fun w =>
      .sts ⟨sa, sb, w, off, la, m⟩)
  | 0x28 =>
    judge? true nd ((AtOp.ofNum (f.sub / 4)).bind fun op => (AtWidth.ofNum (f.sub % 4)).bind fun w =>
      (Scope.ofNum f.sc).bind fun sc => (AtClass.ofNum f.h).map fun c => .atom ⟨rd, sa, sb, op, w, sc, c, ps, off, la, m⟩)
  | 0x29 =>
    judge? (f.sub / 4 == 0) nd ((AtWidth.ofNum (f.sub % 4)).bind fun w =>
      (Scope.ofNum f.sc).bind fun sc => (AtClass.ofNum f.h).map fun c => .atomc ⟨rd, sa, sb, w, sc, c, ps, off, la, m⟩)
  | 0x2A =>
    judge? (f.d == 0 && noPs && (f.h == 0 || f.h == 2)) true ((AtOp.ofNum (f.sub / 4)).bind fun op =>
      (AtWidth.ofNum (f.sub % 4)).bind fun w => (Scope.ofNum f.sc).map fun sc =>
        .red ⟨sa, sb, op, w, sc, f.h == 2, off, la, m⟩)
  | 0x2B =>
    match f.sub with
    | 0 => judge? (f.d == 0 && f.b == 0 && noPs && f.sc == 0) true ((Hint.ofNum f.h).map fun h => .prf ⟨sa, h, off, la, m⟩)
    | 1 => judge? (f.d == 0 && noPs && f.h == 0 && f.off == 0) true ((Scope.ofNum f.sc).map fun sc =>
        .flush ⟨sa, sb, sc, la, m⟩)
    | 2 => judge? (f.d == 0 && noPs && f.h == 0 && f.off == 0) true ((Scope.ofNum f.sc).map fun sc =>
        .inv ⟨sa, sb, sc, la, m⟩)
    | 3 => judge? (f.b == 0 && noPs && f.sc == 0) nd ((PgAccess.ofNum f.h).map fun x => .pgreq ⟨rd, sa, x, off, la, m⟩)
    | 4 => judge? (f.b == 0 && noPs && f.sc == 0) nd ((PgAccess.ofNum f.h).map fun x => .pres ⟨rd, sa, x, off, la, m⟩)
    | _ => .error .illegal
  | 0x2C =>
    match f.sub with
    | 0 => judge (f.d == 0 && noPs && f.sc == 0 && f.h == 0) true (.tagst ⟨sa, sb, off, la, m⟩)
    | 1 => judge (f.b == 0 && noPs && f.sc == 0 && f.h == 0) nd (.tagld ⟨rd, sa, off, la, m⟩)
    | _ => .error .illegal
  | 0x2D =>
    match f.sub with
    | 0 => judge (f.b == 0 && noPs && f.sc == 0 && f.h == 0) nd (.gqry ⟨rd, sa, off, la, m⟩)
    | 1 => judge (f.b == 0 && noPs && f.sc == 0 && f.h == 0) nd (.ghold ⟨rd, sa, off, la, m⟩)
    | 2 => judge (f.b == 0 && noPs && f.sc == 0 && f.h == 0) nd (.grel ⟨rd, sa, off, la, m⟩)
    | _ => .error .illegal
  | 0x2E =>
    judge? (noPs && f.h == 0 && f.sub % 8 < 2) nd ((WCond.ofNum (f.sub / 8)).bind fun c => (Scope.ofNum f.sc).map fun sc =>
      .waitv ⟨rd, sa, sb, c, f.sub % 8 == 1, sc, off, la, m⟩)
  | _ => .error .illegal

/-- The first of a run of vector names (R216, R327): none for 112 to 126; 127 is judged apart. -/
def runOf (k f : Nat) : Option (Fin (k + 1)) :=
  if h : f < k + 1 then some ⟨f, h⟩ else if f = 127 then some ⟨0, by omega⟩ else none

/-- The other format-L instructions (R122, R129, R197 to R204, R216, R244, R310 to R314). -/
def decodeLRest (op : Nat) (f : LFields) (l : Option Word) (m : SafeMask) : Except BadWord Instr :=
  let rd := Reg.ofNum f.d
  let sa := Src.ofNum f.a l
  let sb := Src.ofNum f.b l
  let nd := f.d != 127
  let off := BitVec.ofNat 14 f.off
  let la := BitVec.ofNat 4 f.la
  let plain := f.ps == 63 && f.sc == 0
  let bare := plain && f.h == 0 && f.off == 0
  match op with
  | 0x1A =>
    let o : SfuOps := ⟨rd, sa, la, m⟩
    match f.sub with
    | 0 => judge (bare && f.b == 0) nd (.frcp o)
    | 1 => judge (bare && f.b == 0) nd (.frsq o)
    | 2 => judge (bare && f.b == 0) nd (.fsqrt o)
    | 3 => judge (bare && f.b == 0) nd (.fexp2 o)
    | 4 => judge (bare && f.b == 0) nd (.flog2 o)
    | 5 => judge (bare && f.b == 0) nd (.fsin o)
    | 6 => judge (bare && f.b == 0) nd (.fcos o)
    | 7 => judge (bare && f.b == 0) nd (.ftanh o)
    | _ => .error .illegal
  | 0x21 =>
    judge? (bare && f.b == 0) nd ((GredOp.ofNum (f.sub % 16)).bind fun g =>
      match f.sub / 16 with
      | 0 => some (.gredReduce ⟨rd, sa, g, la, m⟩)
      | 1 => some (.gredIncl ⟨rd, sa, g, la, m⟩)
      | 2 => some (.gredExcl ⟨rd, sa, g, la, m⟩)
      | _ => none)
  | 0x30 =>
    judge? plain (nd && f.b != 127) ((Hint.ofNum f.h).bind fun h => (BarRef.ofNum f.off).bind fun r =>
      if f.sub = 0 then some (.cpySp ⟨rd, sa, Reg.ofNum f.b, h, r, la, m⟩)
      else if f.sub = 1 then some (.cpyTile ⟨rd, sa, Reg.ofNum f.b, h, r, la, m⟩)
      else if f.sub % 4 = 2 then some (.cpyMc ⟨rd, sa, Reg.ofNum f.b, BitVec.ofNat 4 (f.sub / 4), h, r, la, m⟩)
      else none)
  | 0x31 =>
    judge? plain (nd && f.b != 127) ((Hint.ofNum f.h).bind fun h => (BarRef.ofNum f.off).bind fun r =>
      if f.sub = 0 then some (.gathSp ⟨rd, sa, Reg.ofNum f.b, h, r, la, m⟩)
      else if f.sub = 1 then some (.gathTile ⟨rd, sa, Reg.ofNum f.b, h, r, la, m⟩)
      else none)
  | 0x32 =>
    judge? (plain && f.d == 0 && f.sub == 0) true ((Hint.ofNum f.h).map fun h => .sta ⟨sa, sb, h, off, la, m⟩)
  | 0x33 =>
    let ty : CollType := if f.sub / 4 % 2 = 1 then .bf16 else .f32
    match f.sub with
    | 0 | 4 => judge (plain && f.b == 0 && f.h == 0) nd (.collAdd ⟨rd, sa, ty, off, la, m⟩)
    | 1 | 5 => judge (plain && f.b == 0 && f.h == 0) nd (.collMax ⟨rd, sa, ty, off, la, m⟩)
    | 2 => judge (plain && f.b == 0) nd (.collBcast ⟨rd, sa, BitVec.ofNat 3 f.h, off, la, m⟩)
    | _ => .error .illegal
  | 0x36 =>
    match f.sub with
    | 0 => judge bare nd (.barinit ⟨rd, sa, sb, la, m⟩)
    | 1 => judge (bare && f.b == 0) nd (.bararr ⟨rd, sa, la, m⟩)
    | 2 => judge (bare && f.d == 0) true (.barexp ⟨sa, sb, la, m⟩)
    | 3 => judge (f.sc == 0 && f.h == 0 && f.off == 0 && f.d == 0) true (.barwait ⟨sa, sb, BitVec.ofNat 6 f.ps, la, m⟩)
    | 4 => judge bare nd (.bartry ⟨rd, sa, sb, la, m⟩)
    | 5 => judge (bare && f.d == 0 && f.b == 0) true (.barinv ⟨sa, la, m⟩)
    | _ => .error .illegal
  | 0x37 => judge (bare && f.b == 0 && f.sub == 0) nd (.launch ⟨rd, sa, la, m⟩)
  | 0x38 =>
    match f.sub with
    | 0 => judge (bare && f.b == 0) nd (.tdefSp ⟨rd, sa, la, m⟩)
    | 1 => judge? (bare && f.b == 0) (nd && f.a != 127) ((runOf 48 f.a).map fun r => .tdefReg ⟨rd, r, la, m⟩)
    | _ => .error .illegal
  | 0x39 =>
    match f.sub with
    | 0 => judge (bare && f.b == 0) nd (.treadSp ⟨rd, sa, la, m⟩)
    | 1 => judge? (bare && f.b == 0) nd ((runOf 48 f.d).map fun r => .treadReg ⟨r, sa, la, m⟩)
    | _ => .error .illegal
  | 0x3C => judge (bare && f.d == 0 && f.b == 0 && f.sub == 0) true (.mmat ⟨sa, la, m⟩)
  | 0x3D =>
    judge? (bare && f.sub < 4) (nd && f.a != 127) ((runOf 96 f.a).map fun r =>
      .mmar ⟨rd, r, sb, f.sub % 2 == 1, f.sub / 2 == 1, la, m⟩)
  | 0x3E =>
    match f.sub with
    | 0 => judge (plain && f.h == 0 && f.d == 0 && f.b == 0) true (.accz ⟨sa, off, la, m⟩)
    | 1 =>
      match f.h with
      | 0 => judge (plain && f.off == 0 && f.d == 0 && f.b == 0) true (.accldSp ⟨sa, la, m⟩)
      | 1 => judge? (plain && f.off == 0 && f.b == 0) nd ((runOf 111 f.d).map fun r => .accldReg ⟨r, sa, la, m⟩)
      | _ => .error .illegal
    | 2 => judge (plain && f.h == 0 && f.d == 0) true (.accst ⟨sa, sb, off, la, m⟩)
    | 3 => judge (bare && f.b == 0) nd (.accgrow ⟨rd, sa, la, m⟩)
    | 4 => judge (bare && f.d == 0 && f.b == 0) true (.accshr ⟨sa, la, m⟩)
    | _ => .error .illegal
  | 0x3F =>
    let cap := BitVec.ofNat 2 f.h
    match f.sub with
    | 0 => judge? (plain && f.off == 0 && f.h < 4 && f.a == 0 && f.b == 0) nd ((runOf 96 f.d).map fun r =>
        .fzrec ⟨r, cap, la, m⟩)
    | 1 => judge (f.sc == 0 && f.off == 0 && f.h < 4) nd (.fzrd ⟨rd, sa, sb, BitVec.ofNat 6 f.ps, cap, la, m⟩)
    | 2 => judge (plain && f.off == 0 && f.h < 4) nd (.fzwr ⟨rd, sa, sb, cap, la, m⟩)
    | 3 =>
      match f.off with
      | 0 => judge (plain && f.h < 4 && f.d == 0) true (.fzres ⟨sa, sb, cap, la, m⟩)
      | 1 => judge (plain && f.h < 4 && f.d == 0 && f.b == 0) true (.fzresRpl ⟨sa, cap, la, m⟩)
      | _ => .error .illegal
    | 4 => judge (plain && f.off == 0 && f.h < 4 && f.d == 0 && f.b == 0) true (.fzkill ⟨sa, cap, la, m⟩)
    | 5 =>
      match f.h with
      | 0 => judge (plain && f.off == 0 && f.d == 0) true (.tlbiRange ⟨sa, sb, la, m⟩)
      | 1 => judge (plain && f.off == 0 && f.d == 0 && f.a == 126 && f.b == 126) true (.tlbiCtx ⟨la, m⟩)
      | _ => .error .illegal
    | 6 => judge bare nd (.migr ⟨rd, sa, sb, la, m⟩)
    | _ => .error .illegal
  | _ => .error .illegal

/-- The fields of a format-L instruction's two words. -/
def lFields (n0 n1 : Nat) : LFields where
  d := bitsAt n0 18 7
  a := bitsAt n0 11 7
  b := bitsAt n0 4 7
  la := bitsAt n0 0 4
  sub := bitsAt n1 26 6
  ps := bitsAt n1 20 6
  sc := bitsAt n1 17 3
  h := bitsAt n1 14 3
  off := bitsAt n1 0 14

/-- The decoder on the words at an address (R57 to R69): words beyond the instruction's own are not looked at. -/
def decodeWords (w0 w1 w2 w3 : Word) : Except BadWord Instr :=
  let n := w0.toNat
  let op := bitsAt n 26 6
  let isL := fmtOf op = some .l
  let lit := if hasLiteral n then some (if isL then w2 else w1) else none
  let mask := if bitsAt n 25 1 = 1 then
      some (if isL then (if hasLiteral n then w3 else w2) else (if hasLiteral n then w2 else w1))
    else none
  match fmtOf op with
  | none => .error .illegal
  | some .a => decodeA op (bitsAt n 18 7) (bitsAt n 11 7) (bitsAt n 4 7) (bitsAt n 0 4) lit mask
  | some .i => decodeI op (bitsAt n 18 7) (bitsAt n 11 7) (bitsAt n 0 11) lit mask
  | some .p => decodeP op (bitsAt n 19 6) (bitsAt n 12 7) (bitsAt n 5 7) (bitsAt n 0 5) lit mask
  | some .b => decodeB op (bitsAt n 19 6) (bitsAt n 18 1) (bitsAt n 0 18) mask
  | some .g => decodeB op (bitsAt n 19 6) (bitsAt n 18 1) (bitsAt n 0 18) mask
  | some .l =>
    if op ≤ 0x2E ∧ 0x24 ≤ op then decodeLMem op (lFields n w1.toNat) lit mask
    else decodeLRest op (lFields n w1.toNat) lit mask

/-- What issues for the words at an address: the instruction, or the event that judges bad words (R318). -/
def decodeIssue (w0 w1 w2 w3 : Word) : Instr :=
  match decodeWords w0 w1 w2 w3 with
  | .ok i => i
  | .error _ =>
    let n := wordCount w0.toNat
    .illegalEncoding w0 (if n > 1 then w1 else 0) (if n > 2 then w2 else 0) (if n > 3 then w3 else 0)

/-- A word of rh.tlbi's opcode and funct3, whatever its funct7 and rd. -/
def isRhTlbi (n : Nat) : Bool := bitsAt n 0 7 == 0x0B && bitsAt n 12 3 == 1

/-- The custom RISC-V instructions of the application cores (R171, R233). -/
def decodeRh (w : Word) : Option Instr :=
  let n := w.toNat
  let o : RhOps := ⟨BitVec.ofNat 5 (bitsAt n 7 5), BitVec.ofNat 5 (bitsAt n 15 5), BitVec.ofNat 5 (bitsAt n 20 5)⟩
  if bitsAt n 0 7 = 0x0B then
    match bitsAt n 12 3, bitsAt n 25 7 with
    | 2, 0 => some (.rhLaunch o)
    | 1, 0 => if o.rd = 0 then some (.rhTlbiRange o) else none
    | 1, 1 => if o.rd = 0 then some (.rhTlbiCtx o) else none
    | _, _ => none
  else none

/-- The instruction of a word numbered as the opcode table numbers it, every bit above `nbits` zero. -/
def decodeTableWord (nbits w : Nat) : Option Instr :=
  let v := w % 2 ^ nbits
  let w0 := BitVec.ofNat 32 v
  match decodeWords w0 (BitVec.ofNat 32 (v / 2 ^ 32)) (BitVec.ofNat 32 (v / 2 ^ 64)) (BitVec.ofNat 32 (v / 2 ^ 96)) with
  | .ok i => some i
  | .error _ => decodeRh w0

/-! ## The encoder -/

/-- An instruction as fields: bits 24:0 of the base word, and the words that may follow it (R57). -/
structure Enc where
  op : Nat
  low : Nat
  m : Option Nat
  lit : Option Word
  mask : SafeMask
  deriving DecidableEq, Repr

def Src.word : Src → Option Word
  | .reg _ => none
  | .lit w => some w

/-- The literal word of two source fields. -/
def litOf (a b : Src) : Option Word :=
  match a with
  | .lit w => some w
  | .reg _ => b.word

def encA (op d a b f : Nat) (l : Option Word) (m : SafeMask) : Enc :=
  ⟨op, d * 2 ^ 18 + a * 2 ^ 11 + b * 2 ^ 4 + f, none, l, m⟩

def encI (op d a i : Nat) (l : Option Word) (m : SafeMask) : Enc := ⟨op, d * 2 ^ 18 + a * 2 ^ 11 + i, none, l, m⟩

def encP (op p a b c : Nat) (l : Option Word) (m : SafeMask) : Enc :=
  ⟨op, p * 2 ^ 19 + a * 2 ^ 12 + b * 2 ^ 5 + c, none, l, m⟩

def encB (op p : Nat) (n : Bool) (o : Nat) (m : SafeMask) : Enc :=
  ⟨op, p * 2 ^ 19 + (if n then 2 ^ 18 else 0) + o, none, none, m⟩

def encL (op : Nat) (f : LFields) (l : Option Word) (m : SafeMask) : Enc :=
  ⟨op, f.d * 2 ^ 18 + f.a * 2 ^ 11 + f.b * 2 ^ 4 + f.la,
    some (f.sub * 2 ^ 26 + f.ps * 2 ^ 20 + f.sc * 2 ^ 17 + f.h * 2 ^ 14 + f.off), l, m⟩

def encR3 (op f : Nat) (o : R3) : Enc := encA op o.d.num o.a.num o.b.num f (litOf o.a o.b) o.m
def encR2 (op f : Nat) (o : R2) : Enc := encA op o.d.num o.a.num 0 f o.a.word o.m
def encR1 (op f : Nat) (o : R1) : Enc := encA op 0 o.a.num 0 f o.a.word o.m
def encRI (op : Nat) (o : RI) : Enc := encI op o.d.num o.a.num o.imm.toNat o.a.word o.m
def encSh (k : Nat) (o : RSh) : Enc := encI 0x10 o.d.num o.a.num (k * 2 ^ 8 + o.c.toNat) o.a.word o.m
def encHp (f : Nat) (o : HpairOps) : Enc :=
  encA 0x19 o.d.num o.a.num o.b.num ((if o.bf then 8 else 0) + f) (litOf o.a o.b) o.m
def encPl (c : Nat) (o : PlogOps) : Enc := encP 0x13 o.pd.toNat o.a.toNat o.b.toNat c none o.m
def encFence (f : Nat) (o : FenceOps) : Enc := encA 0x01 0 0 0 (o.scope.num * 4 + f) none o.m
def encSfu (k : Nat) (o : SfuOps) : Enc :=
  encL 0x1A ⟨o.d.num, o.a.num, 0, o.la.toNat, k, 63, 0, 0, 0⟩ o.a.word o.m
def encGred (k : Nat) (o : GredOps) : Enc :=
  encL 0x21 ⟨o.d.num, o.a.num, 0, o.la.toNat, k * 16 + o.op.num, 63, 0, 0, 0⟩ o.a.word o.m
def encAddr (op k : Nat) (o : AddrOps) : Enc :=
  encL op ⟨o.d.num, o.a.num, 0, o.la.toNat, k, 63, 0, 0, o.off.toNat⟩ o.a.word o.m
def encFlush (k : Nat) (o : FlushOps) : Enc :=
  encL 0x2B ⟨0, o.a.num, o.b.num, o.la.toNat, k, 63, o.scope.num, 0, 0⟩ (litOf o.a o.b) o.m
def encPg (k : Nat) (o : PgOps) : Enc :=
  encL 0x2B ⟨o.d.num, o.a.num, 0, o.la.toNat, k, 63, 0, o.acc.num, o.off.toNat⟩ o.a.word o.m
def encCpy (k : Nat) (o : CpyOps) : Enc :=
  encL 0x30 ⟨o.d.num, o.a.num, o.b.num, o.la.toNat, k, 63, 0, o.hint.num, o.bar.num⟩ o.a.word o.m
def encGath (k : Nat) (o : GathOps) : Enc :=
  encL 0x31 ⟨o.d.num, o.a.num, o.b.num, o.la.toNat, k, 63, 0, o.hint.num, o.bar.num⟩ o.a.word o.m
def encColl (k : Nat) (o : CollOps) : Enc :=
  encL 0x33 ⟨o.d.num, o.a.num, 0, o.la.toNat, k + o.ty.num * 4, 63, 0, 0, o.len.toNat⟩ o.a.word o.m
def encDab (k : Nat) (o : BarDabOps) : Enc :=
  encL 0x36 ⟨o.d.num, o.a.num, o.b.num, o.la.toNat, k, 63, 0, 0, 0⟩ (litOf o.a o.b) o.m
def encDa (op k : Nat) (o : DaOps) : Enc :=
  encL op ⟨o.d.num, o.a.num, 0, o.la.toNat, k, 63, 0, 0, 0⟩ o.a.word o.m
def encAL (op k : Nat) (o : ALOps) : Enc :=
  encL op ⟨0, o.a.num, 0, o.la.toNat, k, 63, 0, 0, 0⟩ o.a.word o.m
def encTsp (op : Nat) (o : TileSpOps) : Enc :=
  encL op ⟨o.d.num, o.a.num, 0, o.la.toNat, 0, 63, 0, 0, 0⟩ o.a.word o.m
def encBr (op : Nat) (o : BrOps) : Enc := encB op o.p.toNat o.n o.off.toNat o.m
def encMemSub (w : Width) (o : Ord) : Nat := w.num * 8 + o.num

/-- The fields of an instruction (R58 to R69); none for an event and for the RISC-V instructions. -/
def Instr.enc : Instr → Option Enc
  | .nop m => some (encA 0x00 0 0 0 0 none m)
  | .yield m => some (encA 0x00 0 0 0 1 none m)
  | .exit m => some (encA 0x00 0 0 0 2 none m)
  | .brk o => some (encA 0x00 0 0 o.code.toNat 3 none o.m)
  | .trap o => some (encA 0x00 0 0 o.code.toNat 4 none o.m)
  | .ret m => some (encA 0x00 0 0 0 5 none m)
  | .jmpi o => some (encR1 0x00 6 o)
  | .calli o => some (encR1 0x00 7 o)
  | .genbump m => some (encA 0x00 0 0 0 8 none m)
  | .mfs o => some (encA 0x00 o.d.num 0 o.sr.num 9 none o.m)
  | .mts o => some (encA 0x00 o.sr.num o.a.num 0 10 o.a.word o.m)
  | .fenceAcq o => some (encFence 0 o)
  | .fenceRel o => some (encFence 1 o)
  | .fenceAcqRel o => some (encFence 2 o)
  | .fenceFull o => some (encFence 3 o)
  | .guard o => some (encB 0x02 o.p.toNat o.n (o.cnt.toNat * 2 ^ 15) o.m)
  | .br o => some (encBr 0x03 o)
  | .call o => some (encBr 0x04 o)
  | .wbase o => some (encR1 0x05 0 o)
  | .grow o => some (encR2 0x05 1 o)
  | .shrink o => some (encR1 0x05 2 o)
  | .iadd o => some (encR3 0x08 0 o)
  | .isub o => some (encR3 0x08 1 o)
  | .imul o => some (encR3 0x08 2 o)
  | .imulhs o => some (encR3 0x08 3 o)
  | .imulhn o => some (encR3 0x08 4 o)
  | .imad o => some (encR3 0x08 5 o)
  | .imin o => some (encR3 0x08 6 o)
  | .imax o => some (encR3 0x08 7 o)
  | .nmin o => some (encR3 0x08 8 o)
  | .nmax o => some (encR3 0x08 9 o)
  | .iabsd o => some (encR3 0x08 10 o)
  | .iaddc o => some (encR3 0x08 11 o)
  | .isubb o => some (encR3 0x08 12 o)
  | .and o => some (encR3 0x09 0 o)
  | .or o => some (encR3 0x09 1 o)
  | .xor o => some (encR3 0x09 2 o)
  | .andn o => some (encR3 0x09 3 o)
  | .orn o => some (encR3 0x09 4 o)
  | .shl o => some (encR3 0x09 5 o)
  | .shr o => some (encR3 0x09 6 o)
  | .sar o => some (encR3 0x09 7 o)
  | .rotl o => some (encR3 0x09 8 o)
  | .popc o => some (encR2 0x09 9 o)
  | .clz o => some (encR2 0x09 10 o)
  | .brev o => some (encR2 0x09 11 o)
  | .prmt o => some (encR3 0x09 12 o)
  | .bfx o => some (encR3 0x09 13 o)
  | .bfi o => some (encR3 0x09 14 o)
  | .add64 o => some (encR3 0x0A 0 o)
  | .sub64 o => some (encR3 0x0A 1 o)
  | .mad64 o => some (encR3 0x0A 2 o)
  | .shl64 o => some (encR3 0x0A 3 o)
  | .shr64 o => some (encR3 0x0A 4 o)
  | .sar64 o => some (encR3 0x0A 5 o)
  | .mov64 o => some (encR2 0x0A 6 o)
  | .mov o => some (encR2 0x0B 0 o)
  | .movs o => some (encR2 0x0B 1 o)
  | .p2v o => some (encA 0x0B o.d.num o.x.toNat 0 2 none o.m)
  | .lit o => some (encR2 0x0B 3 o)
  | .iaddi o => some (encRI 0x0C o)
  | .andi o => some (encRI 0x0D o)
  | .ori o => some (encRI 0x0E o)
  | .xori o => some (encRI 0x0F o)
  | .shli o => some (encSh 0 o)
  | .shri o => some (encSh 1 o)
  | .sari o => some (encSh 2 o)
  | .rotli o => some (encSh 3 o)
  | .icmp o => some (encP 0x11 o.pd.toNat o.a.num o.b.num (o.cond.num * 4 + o.ty.num) (litOf o.a o.b) o.m)
  | .fcmp o => some (encP 0x12 o.pd.toNat o.a.num o.b.num (o.cond.num * 4 + o.ty.num) (litOf o.a o.b) o.m)
  | .plogAnd o => some (encPl 0 o)
  | .plogOr o => some (encPl 1 o)
  | .plogXor o => some (encPl 2 o)
  | .plogNand o => some (encPl 3 o)
  | .plogNor o => some (encPl 4 o)
  | .plogXnor o => some (encPl 5 o)
  | .voteAny o => some (encP 0x14 o.pd.toNat o.x.toNat 0 0 none o.m)
  | .voteAll o => some (encP 0x14 o.pd.toNat o.x.toNat 0 1 none o.m)
  | .voteBallot o => some (encP 0x14 63 o.x.toNat o.d.num 2 none o.m)
  | .votePcount o => some (encP 0x14 63 o.x.toNat o.d.num 3 none o.m)
  | .voteV2p o => some (encP 0x14 o.pd.toNat 0 o.b.num 4 o.b.word o.m)
  | .fadd o => some (encR3 0x18 0 o)
  | .fsub o => some (encR3 0x18 1 o)
  | .fmul o => some (encR3 0x18 2 o)
  | .ffma o => some (encR3 0x18 3 o)
  | .fmin o => some (encR3 0x18 4 o)
  | .fmax o => some (encR3 0x18 5 o)
  | .fminn o => some (encR3 0x18 6 o)
  | .fmaxn o => some (encR3 0x18 7 o)
  | .fabs o => some (encR2 0x18 8 o)
  | .fneg o => some (encR2 0x18 9 o)
  | .frnd o => some (encA 0x18 o.d.num o.a.num o.mode.num 10 o.a.word o.m)
  | .add2 o => some (encHp 0 o)
  | .mul2 o => some (encHp 1 o)
  | .fma2 o => some (encHp 2 o)
  | .min2 o => some (encHp 3 o)
  | .max2 o => some (encHp 4 o)
  | .frcp o => some (encSfu 0 o)
  | .frsq o => some (encSfu 1 o)
  | .fsqrt o => some (encSfu 2 o)
  | .fexp2 o => some (encSfu 3 o)
  | .flog2 o => some (encSfu 4 o)
  | .fsin o => some (encSfu 5 o)
  | .fcos o => some (encSfu 6 o)
  | .ftanh o => some (encSfu 7 o)
  | .cvt o => some (encA 0x1B o.d.num o.a.num o.code.num ((if o.sat then 8 else 0) + o.rnd.num) o.a.word o.m)
  | .pack o => some (encA 0x1C o.d.num o.a.num o.b.num (o.e.num * 2) (litOf o.a o.b) o.m)
  | .unpack o => some (encA 0x1C o.d.num o.a.num o.b.num (o.e.num * 2 + 1) (litOf o.a o.b) o.m)
  | .dot4F8a o => some (encR3 0x1D 0 o)
  | .dot4F8b o => some (encR3 0x1D 1 o)
  | .dot4I8 o => some (encR3 0x1D 2 o)
  | .dot4N8 o => some (encR3 0x1D 3 o)
  | .dot8F4 o => some (encR3 0x1D 4 o)
  | .dot8I4 o => some (encR3 0x1D 5 o)
  | .dot8N4 o => some (encR3 0x1D 6 o)
  | .shflIdx o => some (encR3 0x20 0 o)
  | .shflUp o => some (encR3 0x20 1 o)
  | .shflDown o => some (encR3 0x20 2 o)
  | .shflXor o => some (encR3 0x20 3 o)
  | .shflBcast o => some (encR3 0x20 4 o)
  | .gredReduce o => some (encGred 0 o)
  | .gredIncl o => some (encGred 1 o)
  | .gredExcl o => some (encGred 2 o)
  | .ld o => some (encL 0x24 ⟨o.d.num, o.a.num, 0, o.la.toNat, encMemSub o.w o.ord, o.ps.toNat, o.scope.num, o.hint.num, o.off.toNat⟩
      o.a.word o.m)
  | .ldNr o => some (encL 0x24 ⟨o.d.num, o.a.num, 0, o.la.toNat, o.w.num * 8 + 4, o.ps.toNat, 0, o.hint.num, o.off.toNat⟩
      o.a.word o.m)
  | .st o => some (encL 0x25 ⟨0, o.a.num, o.b.num, o.la.toNat, encMemSub o.w o.ord, 63, o.scope.num, o.hint.num, o.off.toNat⟩
      (litOf o.a o.b) o.m)
  | .lds o => some (encL 0x26 ⟨o.d.num, o.a.num, 0, o.la.toNat, o.w.num * 8, 63, 0, 0, o.off.toNat⟩ o.a.word o.m)
  | .sts o => some (encL 0x27 ⟨0, o.a.num, o.b.num, o.la.toNat, o.w.num * 8, 63, 0, 0, o.off.toNat⟩ (litOf o.a o.b) o.m)
  | .atom o => some (encL 0x28 ⟨o.d.num, o.a.num, o.b.num, o.la.toNat, o.op.num * 4 + o.w.num, o.ps.toNat, o.scope.num, o.cls.num,
      o.off.toNat⟩ (litOf o.a o.b) o.m)
  | .atomc o => some (encL 0x29 ⟨o.d.num, o.a.num, o.b.num, o.la.toNat, o.w.num, o.ps.toNat, o.scope.num, o.cls.num, o.off.toNat⟩
      (litOf o.a o.b) o.m)
  | .red o => some (encL 0x2A ⟨0, o.a.num, o.b.num, o.la.toNat, o.op.num * 4 + o.w.num, 63, o.scope.num, if o.rel then 2 else 0,
      o.off.toNat⟩ (litOf o.a o.b) o.m)
  | .prf o => some (encL 0x2B ⟨0, o.a.num, 0, o.la.toNat, 0, 63, 0, o.hint.num, o.off.toNat⟩ o.a.word o.m)
  | .flush o => some (encFlush 1 o)
  | .inv o => some (encFlush 2 o)
  | .pgreq o => some (encPg 3 o)
  | .pres o => some (encPg 4 o)
  | .tagst o => some (encL 0x2C ⟨0, o.a.num, o.b.num, o.la.toNat, 0, 63, 0, 0, o.off.toNat⟩ (litOf o.a o.b) o.m)
  | .tagld o => some (encAddr 0x2C 1 o)
  | .gqry o => some (encAddr 0x2D 0 o)
  | .ghold o => some (encAddr 0x2D 1 o)
  | .grel o => some (encAddr 0x2D 2 o)
  | .waitv o => some (encL 0x2E ⟨o.d.num, o.a.num, o.b.num, o.la.toNat, o.cond.num * 8 + (if o.w64 then 1 else 0), 63,
      o.scope.num, 0, o.off.toNat⟩ (litOf o.a o.b) o.m)
  | .cpySp o => some (encCpy 0 o)
  | .cpyTile o => some (encCpy 1 o)
  | .cpyMc o => some (encL 0x30 ⟨o.d.num, o.a.num, o.b.num, o.la.toNat, o.ranks.toNat * 4 + 2, 63, 0, o.hint.num, o.bar.num⟩
      o.a.word o.m)
  | .gathSp o => some (encGath 0 o)
  | .gathTile o => some (encGath 1 o)
  | .sta o => some (encL 0x32 ⟨0, o.a.num, o.b.num, o.la.toNat, 0, 63, 0, o.hint.num, o.len.toNat⟩ (litOf o.a o.b) o.m)
  | .collAdd o => some (encColl 0 o)
  | .collMax o => some (encColl 1 o)
  | .collBcast o => some (encL 0x33 ⟨o.d.num, o.a.num, 0, o.la.toNat, 2, 63, 0, o.root.toNat, o.len.toNat⟩ o.a.word o.m)
  | .waitq o => some (encA 0x34 0 0 o.n.toNat o.cls.num none o.m)
  | .pset o => some (encA 0x35 0 o.a.num o.b.num 0 (litOf o.a o.b) o.m)
  | .pclr o => some (encA 0x35 0 o.a.num o.b.num 1 (litOf o.a o.b) o.m)
  | .barinit o => some (encDab 0 o)
  | .bararr o => some (encDa 0x36 1 o)
  | .barexp o => some (encL 0x36 ⟨0, o.a.num, o.b.num, o.la.toNat, 2, 63, 0, 0, 0⟩ (litOf o.a o.b) o.m)
  | .barwait o => some (encL 0x36 ⟨0, o.a.num, o.b.num, o.la.toNat, 3, o.ps.toNat, 0, 0, 0⟩ (litOf o.a o.b) o.m)
  | .bartry o => some (encDab 4 o)
  | .barinv o => some (encAL 0x36 5 o)
  | .launch o => some (encDa 0x37 0 o)
  | .tdefSp o => some (encTsp 0x38 o)
  | .tdefReg o => some (encL 0x38 ⟨o.d.num, o.run.val, 0, o.la.toNat, 1, 63, 0, 0, 0⟩ none o.m)
  | .treadSp o => some (encTsp 0x39 o)
  | .treadReg o => some (encL 0x39 ⟨o.run.val, o.a.num, 0, o.la.toNat, 1, 63, 0, 0, 0⟩ o.a.word o.m)
  | .tkill o => some (encR1 0x3A 0 o)
  | .tqry o => some (encR2 0x3B 0 o)
  | .mmat o => some (encAL 0x3C 0 o)
  | .mmar o => some (encL 0x3D ⟨o.d.num, o.run.val, o.b.num, o.la.toNat, (if o.h1 then 1 else 0) + (if o.reuse then 2 else 0),
      63, 0, 0, 0⟩ o.b.word o.m)
  | .accz o => some (encL 0x3E ⟨0, o.a.num, 0, o.la.toNat, 0, 63, 0, 0, o.len.toNat⟩ o.a.word o.m)
  | .accldSp o => some (encAL 0x3E 1 o)
  | .accldReg o => some (encL 0x3E ⟨o.run.val, o.a.num, 0, o.la.toNat, 1, 63, 0, 1, 0⟩ o.a.word o.m)
  | .accst o => some (encL 0x3E ⟨0, o.a.num, o.b.num, o.la.toNat, 2, 63, 0, 0, o.len.toNat⟩ (litOf o.a o.b) o.m)
  | .accgrow o => some (encDa 0x3E 3 o)
  | .accshr o => some (encAL 0x3E 4 o)
  | .fzrec o => some (encL 0x3F ⟨o.run.val, 0, 0, o.la.toNat, 0, 63, 0, o.cap.toNat, 0⟩ none o.m)
  | .fzrd o => some (encL 0x3F ⟨o.d.num, o.a.num, o.b.num, o.la.toNat, 1, o.ps.toNat, 0, o.cap.toNat, 0⟩ (litOf o.a o.b) o.m)
  | .fzwr o => some (encL 0x3F ⟨o.d.num, o.a.num, o.b.num, o.la.toNat, 2, 63, 0, o.cap.toNat, 0⟩ (litOf o.a o.b) o.m)
  | .fzres o => some (encL 0x3F ⟨0, o.a.num, o.b.num, o.la.toNat, 3, 63, 0, o.cap.toNat, 0⟩ (litOf o.a o.b) o.m)
  | .fzresRpl o => some (encL 0x3F ⟨0, o.a.num, 0, o.la.toNat, 3, 63, 0, o.cap.toNat, 1⟩ o.a.word o.m)
  | .fzkill o => some (encL 0x3F ⟨0, o.a.num, 0, o.la.toNat, 4, 63, 0, o.cap.toNat, 0⟩ o.a.word o.m)
  | .tlbiRange o => some (encL 0x3F ⟨0, o.a.num, o.b.num, o.la.toNat, 5, 63, 0, 0, 0⟩ (litOf o.a o.b) o.m)
  | .tlbiCtx o => some (encL 0x3F ⟨0, 126, 126, o.la.toNat, 5, 63, 0, 1, 0⟩ none o.m)
  | .migr o => some (encL 0x3F ⟨o.d.num, o.a.num, o.b.num, o.la.toNat, 6, 63, 0, 0, 0⟩ (litOf o.a o.b) o.m)
  | _ => none

/-- The base word of the fields. -/
def Enc.base (e : Enc) : Word :=
  BitVec.ofNat 32 (e.op * 2 ^ 26 + (if e.mask.isSome then 2 ^ 25 else 0) + e.low)

/-- The words in the order of R57. -/
def Enc.words (e : Enc) : List Word :=
  e.base :: ((e.m.map (BitVec.ofNat 32)).toList ++ e.lit.toList ++ e.mask.toList)

def encodeRh (f3 f7 : Nat) (o : RhOps) : Word :=
  BitVec.ofNat 32 (f7 * 2 ^ 25 + o.rs2.toNat * 2 ^ 20 + o.rs1.toNat * 2 ^ 15 + f3 * 2 ^ 12 + o.rd.toNat * 2 ^ 7 + 0x0B)

/-- The words of an instruction: of an Izide instruction, of a RISC-V custom instruction, or those that an
`illegalEncoding` carries; an event has none. -/
def encode (i : Instr) : List Word :=
  match i with
  | .rhLaunch o => [encodeRh 2 0 o]
  | .rhTlbiRange o => [encodeRh 1 0 o]
  | .rhTlbiCtx o => [encodeRh 1 1 o]
  | .illegalEncoding w0 w1 w2 w3 => [w0, w1, w2, w3].take (wordCount w0.toNat)
  | i => (i.enc.map Enc.words).getD []

/-- The decoder on a list of words, absent words read as zero. -/
def decodeList (ws : List Word) : Except BadWord Instr :=
  decodeWords (ws.getD 0 0) (ws.getD 1 0) (ws.getD 2 0) (ws.getD 3 0)

end Sys2Proof
end

