-- ==== Sys2Proof/Config.lean ====
section
/-!
DEFINITION. What an implementation fixes and the spec leaves open: constants and free values with no body, so that no
proof can see them (assumption log).
-/
namespace Sys2Proof.Config

/-- Arithmetic clocks that pass at the n-th step of the part (R48; timing is not given; log entry 6). -/
opaque elapsed : Nat → Nat

/-- GRIDH is opaque and unique among live grids (R18): the n-th grid's handle is this base plus n (log entry 7). -/
opaque gridhBase : Word

/-- FEXP2, FLOG2, FSIN, FCOS and FTANH may deliver either of the two values that bracket the exact one (R123): whether
operation `op` delivers the upper one for operand `x` (log entry 8). -/
opaque sfuUpper : Nat → Word → Bool

/-- Whether a firmware image's security version passes the check against the fused counter (R284; log entry 9). -/
opaque versionOk : List Byte → Bool

/-- Whether a firmware image's signature passes the check against the fused key (R284; log entry 9). -/
opaque signed : List Byte → Bool

/-- The device identity key that a measurement and the fused secret give (R284; log entry 9). -/
opaque deviceKey : List Byte → List Byte

/-- SHA-256 of the boot ROM (R285; log entry 9). -/
opaque romDigest : Nat

/-- The security version that an image carries (R284, R285; log entry 9). -/
opaque imageVersion : List Byte → Nat

/-- SHA-256 of a partition's configuration: count, LAYOUT, spill fields, TDISP state (R285; log entry 9). -/
opaque configDigest : List Nat → Nat

/-- The n-th SPDM signature given (R285; log entry 9). -/
opaque signature : Nat → Nat

/-- A byte whose value the spec leaves open: the n-th one drawn (log entry 10). -/
opaque freeByte : Nat → Byte

/-- A choice that the spec leaves open: the n-th one drawn (log entry 10). -/
opaque freeBool : Nat → Bool

/-- Which of its lines a full cache lets go: the n-th choice (R8 gives capacities and no rule; log entry 10). -/
opaque victim : Nat → Nat

/-- The partition whose context a hart's rh.tlbi names: no operand of it says which (R171; log entry 24). -/
opaque hartPart : Nat → Nat

/-- The 4 KiB page, counted from address 0, that holds a partition's control page (R271 gives the range and no place; log entry
24). -/
opaque ctlPage : Nat → Nat

end Sys2Proof.Config
end

