-- ==== Sys2Proof/Machine/Lists.lean ====
section
/-!
DEFINITION. Plain operations on the lists and masks that State is made of: sorted sparse maps, indexed updates, masks of
lanes, little-endian bytes.
-/
namespace Sys2Proof.Machine

/-- The element with key `k` of a keyed list. -/
def kget {α : Type} (key : α → Nat) (k : Nat) : List α → Option α
  | [] => none
  | x :: xs => if key x = k then some x else kget key k xs

/-- Put `x` in its place in a list of rising keys. -/
def kset {α : Type} (key : α → Nat) (x : α) : List α → List α
  | [] => [x]
  | y :: ys =>
    if key x < key y then x :: y :: ys
    else if key x = key y then x :: ys
    else y :: kset key x ys

/-- Remove the element with key `k`. -/
def kdel {α : Type} (key : α → Nat) (k : Nat) : List α → List α
  | [] => []
  | y :: ys => if key y = k then ys else y :: kdel key k ys

/-- Change the element at an index. -/
def upd {α : Type} (i : Nat) (f : α → α) : List α → List α
  | [] => []
  | x :: xs =>
    match i with
    | 0 => f x :: xs
    | i + 1 => x :: upd i f xs

/-- Map with the index. -/
def imap {α β : Type} (f : Nat → α → β) (n : Nat) : List α → List β
  | [] => []
  | x :: xs => f n x :: imap f (n + 1) xs

/-- A sparse byte map: listed bytes are not 0. -/
def bget (m : List (Nat × Byte)) (k : Nat) : Byte := ((kget Prod.fst k m).map Prod.snd).getD 0

def bset (m : List (Nat × Byte)) (k : Nat) (b : Byte) : List (Nat × Byte) :=
  if b = 0 then kdel Prod.fst k m else kset Prod.fst (k, b) m

/-- `n` bytes from `k`, looked up in the entries of their range alone. -/
def bnear (m : List (Nat × Byte)) (k n : Nat) : List Byte :=
  let near := m.filter fun p => decide (k ≤ p.1) && decide (p.1 < k + n)
  (List.range n).map fun i => bget near (k + i)

/-- `n` bytes from `k`, by blocks of 64. -/
def bread (m : List (Nat × Byte)) (k n : Nat) : List Byte :=
  if n ≤ 64 then bnear m k n
  else
    let near := m.filter fun p => decide (k ≤ p.1) && decide (p.1 < k + n)
    ((List.range (n / 64)).map fun j => bnear near (k + 64 * j) 64).flatten ++ bnear near (k + n / 64 * 64) (n % 64)

/-- Bytes as entries of a sparse map from `k` on. -/
def bcells (k : Nat) : List Byte → List (Nat × Byte)
  | [] => []
  | b :: bs => if b = 0 then bcells (k + 1) bs else (k, b) :: bcells (k + 1) bs

/-- Bytes written from `k` on. -/
def bwrite (m : List (Nat × Byte)) (k : Nat) (bs : List Byte) : List (Nat × Byte) :=
  if bs.isEmpty then m
  else (m.filter fun p => decide (p.1 < k)) ++ bcells k bs ++ m.filter fun p => decide (k + bs.length ≤ p.1)

/-- The sparse map of a list of bytes. -/
def bpack (bs : List Byte) : List (Nat × Byte) := bwrite [] 0 bs

/-- Little-endian value of bytes (R3). -/
def leNat : List Byte → Nat
  | [] => 0
  | b :: bs => b.toNat + 256 * leNat bs

/-- The low `n` bytes of a number (R3). -/
def leBytes : Nat → Nat → List Byte
  | 0, _ => []
  | n + 1, v => BitVec.ofNat 8 (v % 256) :: leBytes n (v / 256)

/-- The mask of the lanes below `n` that satisfy `p`. -/
def maskTo (p : Nat → Bool) : Nat → Lanes
  | 0 => 0
  | n + 1 => if p n then maskTo p n ||| (1#32 <<< n) else maskTo p n

/-- The mask of the lanes that satisfy `p`. -/
def maskOf (p : Nat → Bool) : Lanes := maskTo p 32

def hasLane (m : Lanes) (l : Nat) : Bool := m.getLsbD l

/-- Lane numbers 0 to 31. -/
def lanes32 : List Nat := List.range 32

/-- The lanes of a mask, ascending. -/
def lanesOf (m : Lanes) : List Nat := lanes32.filter (hasLane m)

def minNat : List Nat → Option Nat
  | [] => none
  | x :: xs =>
    match minNat xs with
    | none => some x
    | some y => some (if x ≤ y then x else y)

/-- No two elements differ. -/
def allSame {α : Type} [DecidableEq α] : List α → Bool
  | [] => true
  | x :: xs => xs.all (· == x)

/-- The n-th of `words` 32-bit words of a value. -/
def wordAt (v k : Nat) : Word := BitVec.ofNat 32 (v / 2 ^ (32 * k))

def wordsOf (v : Nat) : Nat → List Word
  | 0 => []
  | n + 1 => BitVec.ofNat 32 v :: wordsOf (v / 2 ^ 32) n

def natOfWords : List Word → Nat
  | [] => 0
  | w :: ws => w.toNat + 2 ^ 32 * natOfWords ws

end Sys2Proof.Machine
end

