-- ==== Sys2Proof/Machine/State.lean ====
section
/-!
DEFINITION. The state of the part: everything the spec gives the machine, as plain data (INVENTORY.md, State), the
reasons a step can stop, and the state right after module reset. Lists that stand for sparse maps are kept in one form:
ascending keys, no repeats. Identifiers (`gid`, `tid`, `sid`, `uid`, `rid`, operation ids) are the model's own names of
live objects, given out by `fresh`.
-/
namespace Sys2Proof.Machine

/-- Bytes of memory: addresses strictly rising, no listed byte 0 (an unlisted byte reads 0; R287, log entry 2). A key is
partition * 2^56 + address for partition HBM, 2^60 + partition * 2^56 + port * 2^52 + offset for an expander as the
partition's homes hold it, 2^64 + port * 2^70 + link address for memory behind a host window (R271, R273). -/
abbrev Memory := List Host.Cell

/-! ## Lanes and groups -/

/-- Whether a lane is frozen, and under which record (R293, R294). -/
inductive Hold where
  | free
  | frozen (rid : Nat)
  | held (rid : Nat)
  deriving DecidableEq, Repr

/-- What a lane waits in (R24); `next` is the PC it takes when released. -/
inductive Wait where
  | none
  | yield (met : Bool) (next : DWord)
  | bar (handle phase : Word) (ps : BitVec 6) (next : DWord)
  | waitv (mon : Nat) (next : DWord)
  | waitq (cls : QClass) (n : Nat) (next : DWord)
  deriving DecidableEq, Repr

/-- A pending replay (R312): the lane stands at `pc` until it has issued, then continues at `cont`, or after the
instruction where `cont` is none. `fetch`: a fetch fault's replay, which fetches again. `set`: of a group-collective
instruction, the record and the mask whose lanes alone take part. -/
structure Replay where
  pc : DWord
  words : List Word
  cont : Option DWord
  fetch : Bool
  set : Option (Nat × Lanes) := none
  deriving DecidableEq, Repr

/-- One lane (R14). -/
structure Lane where
  pc : DWord := 0
  link : DWord := 0
  wbase : BitVec 10 := 0
  names : List (Nat × Word) := []      -- names that hold a value (R42); any other name reads 0
  preds : DWord := 0                   -- p0 to p62; bit 63 is not used (R45)
  guardCnt : Nat := 0
  guardEn : Bool := false
  exited : Bool := false
  hold : Hold := .free
  wait : Wait := .none
  replay : Option Replay := none
  more : List Replay := []             -- replays still pending behind that one, the next first
  deriving DecidableEq, Repr

/-- One copy of a scalar and the lanes that hold it (R27). -/
structure ScCopy where
  r : Nat
  lanes : Lanes
  val : Word
  deriving DecidableEq, Repr

/-- One lane of an owed result: instructions it may still advance past, and the registers fixed at issue. -/
structure OwedLane where
  lane : Nat
  left : Nat
  ids : List Nat                       -- absolute name; 1024 + scalar; 2048 + predicate
  deriving DecidableEq, Repr

/-- A long-latency result whose lookahead has not run out, or which has not landed (R63). -/
structure Owed where
  id : Nat
  pc : DWord
  la15 : Bool
  landed : Bool
  lanes : List OwedLane
  deriving DecidableEq, Repr

/-- Why a group as a whole does not issue (R25). -/
inductive Park where
  | none
  | line (line : Nat)                  -- an absent scratchpad line (R134)
  | lock (off len : Nat)               -- an STS into locked source bytes (R202)
  | full (cls : QClass)                -- a full async class (R190)
  | page                               -- an access in `accs` waits: a page (R247), a translation (R166), a host atomic
  | tiles (pc : DWord) (names : List Nat)   -- a tile read at `pc`: tiles not yet defined (R213)
  | pending (name : Nat)               -- TKILL of a pending name (R214)
  | reserve                            -- no tile storage for a TDEF (R210)
  | owed (id : Nat)                    -- a result not yet landed (R63)
  | monitor (id : Nat)                 -- SHRINK below the D of a waiting WAITV (R117)
  | flags                              -- MFS or MTS of STAT (R48)
  | table                              -- a full reservation table (R226)
  | queueFull                          -- the fault queue (R303)
  | xlate (vp : Nat) (ats : Option (Nat × Bool))   -- a fetch or a record read: a page (R247), or an ATS request (R166) and
                                       -- whether it was sent after a Success response (R340)
  | answer (vp code : Nat) (detail : DWord)   -- that page's request was answered (code 0: Success); it issues again
  deriving DecidableEq, Repr

/-- A translation entry (R165); `gbase`, `glog2`: the granule bounds last reported; `leaf`: the leaf entry it comes from (R274,
R338). -/
structure TlbEntry where
  part : Nat
  ctx : Nat
  vbase : Nat
  log2 : Nat
  pbase : Nat
  r : Bool
  w : Bool
  x : Bool
  u : Bool
  d : Bool := true
  pbmt : Nat := 0
  te : Bool := false
  ats : Bool := false                  -- from an ATS completion (R166)
  filledAt : Nat := 0
  gbase : Nat := 0
  glog2 : Nat := 21
  leaf : Nat := 0
  deriving DecidableEq, Repr

/-- One lane's part of a memory access: operands and destinations as fixed at issue. -/
structure LaneAcc where
  lane : Nat
  va : DWord
  data : List Word := []
  cmp : List Word := []
  dst : List Nat := []                 -- absolute register ids, lowest word first
  deriving DecidableEq, Repr

/-- Why a lane's access has not been performed. -/
inductive AccWait where
  | page (vp : Nat) (write : Bool)     -- parked on a page request (R247)
  | room (vp : Nat) (write : Bool)     -- parked until that page request can be raised (R167)
  | ats (req : Nat) (after : Bool)     -- an ATS request in flight (R166); `after`: sent after a Success response (R340)
  | host (req : Nat)                   -- a host atomic in flight (R275)
  | behind (window : Nat)              -- held behind an atomic of the same instruction to the window (R275)
  | home (via : List TlbEntry)         -- translated, and on its way to its home (R147)
  | held (after : Option Nat)          -- held behind an older access that is parked on a page, until replay (R346); `after`: the
                                       -- page whose request was answered with Success before (R340)
  deriving DecidableEq, Repr

/-- An access of a group that is owed its performance (R346, R347). -/
structure PendAcc where
  instr : Instr
  pc : DWord
  owed : Nat                           -- id of its owed result (PGREQ: the group goes on meanwhile, R186)
  lanes : List (LaneAcc × AccWait)
  deriving DecidableEq, Repr

/-- A fault that a lane meets. -/
structure Flt where
  code : Nat
  faddr : DWord := 0
  detail : DWord := 0
  acc : AccKind := .none
  level : Nat := 7
  granule : Option (Nat × Nat) := none
  deriving DecidableEq, Repr

/-- A late fault of a lane that stood frozen or held when it was found: the lane freezes for it when it goes on (R295). -/
structure Later where
  lane : Nat
  flt : Flt
  grp : Bool
  pc : DWord
  words : List Word
  deriving DecidableEq, Repr

/-- What a lamplighter reads of the frozen group's grid and place (R302). -/
structure Served where
  uid : Nat
  x : Nat
  y : Nat
  z : Nat
  spanrk : Nat
  gridh : Word
  deriving DecidableEq, Repr

/-- A tile bound by a read (R213). -/
structure Bound where
  name : Nat
  gen : BitVec 4
  bytes : List (Nat × Byte)
  bad : List Nat := []                 -- poisoned 16-byte units (R357)
  deriving DecidableEq, Repr

/-- What a group is (R302, R306). -/
inductive GKind where
  | ordinary
  | handler (slot rid : Nat) (deleg : Bool)
  deriving DecidableEq, Repr

/-- The four async counters (R50, R190). -/
structure QCounts where
  copy : Nat := 0
  matrix : Nat := 0
  gather : Nat := 0
  coll : Nat := 0
  deriving DecidableEq, Repr

/-- A group (R14). -/
structure Group where
  gid : Nat
  tid : Nat
  part : Nat
  ctx : Nat
  kind : GKind := .ordinary
  core : Nat                           -- while its span is in the cellar, the core it was on
  away : Bool := false                 -- its span is in the cellar
  slot : Nat
  quarter : Nat
  age : Nat
  grpix : Nat := 0
  producer : Bool := false
  budget : Nat := 16
  allot : Nat := 16
  stat : Word := 0
  qcnt : QCounts := {}
  caps : List Word := [0, 0, 0, 0]
  frecp : DWord := 0
  lanes : List Lane
  scal : List ScCopy
  latch : Option (List Byte) := none   -- 32 rows of 64 bytes (R225)
  owed : List Owed := []
  bound : List (DWord × Bound) := []   -- tiles that a read parked at a PC has bound to already (R213)
  park : Park := .none
  accs : List PendAcc := []
  later : List Later := []             -- late faults of lanes that stand frozen or held, oldest first
  served : Option Served := none       -- a lamplighter's: of the group that it serves
  promoted : Bool := false
  deriving DecidableEq, Repr

/-! ## Teams, spans, grids -/

/-- Presence of a scratchpad line (R132); a line not listed is present. -/
structure LineState where
  line : Nat
  count : Nat
  held : Bool
  deriving DecidableEq, Repr

/-- A barrier object in use (R242); its 16 bytes lie in the scratchpad at `off`. -/
structure BarObj where
  off : Nat
  span : Bool
  marks : List (Nat × Lanes) := []     -- group, lanes marked arrived
  ahead : List Nat := []               -- groups whose working phase is the next one
  deriving DecidableEq, Repr

/-- A team (R14). -/
structure Team where
  tid : Nat
  sid : Nat
  rank : Nat
  t : Nat                              -- linear index (R16)
  core : Nat
  alloc : Nat                          -- scratchpad allocation in bytes (R132, R237)
  scratch : List (Nat × Byte) := []    -- non-zero bytes
  lines : List LineState := []
  accSize : Nat
  acc : List (Nat × Byte) := []        -- non-zero accumulator bytes
  bars : List BarObj := []
  barMax : Nat
  colls : Nat := 0                     -- COLL operations issued (R205)
  finished : Bool := false
  poison : List Nat := []              -- poisoned 16-byte units of the scratchpad (R357)
  accBad : List Nat := []              -- accumulator words with an uncorrectable error, by offset (R377)
  deriving DecidableEq, Repr

/-- State of a tile name in its generation (R209). -/
inductive TileSt where
  | undef | pending | defined
  deriving DecidableEq, Repr

/-- A tile name that is not as at start (R209): generation 0 and undefined is not listed. -/
structure Tile where
  name : Nat
  gen : BitVec 4 := 0
  st : TileSt := .undef
  bytes : List (Nat × Byte) := []      -- non-zero bytes
  storage : Bool := false              -- occupies the reserve (R210)
  place : Nat := 3                     -- R219
  bad : List Nat := []                 -- poisoned 16-byte units (R357)
  deriving DecidableEq, Repr

/-- Where a span is (R32, R34). -/
inductive Residence where
  | resident | cellar
  deriving DecidableEq, Repr

/-- Why a pre-emption is asked for (R247, R248, R303). -/
inductive PreCause where
  | page | priority | software
  | faults (core : Nat)
  deriving DecidableEq, Repr

/-- A span (R17). -/
structure Span where
  sid : Nat
  uid : Nat
  index : Nat
  count : Nat
  age : Nat                            -- order of its placement
  cluster : Nat
  home : Residence := .resident
  tiles : List Tile := []
  reserve : Nat
  sbarMax : Nat
  sbarBase : Nat                       -- start of the span barrier region in rank 0
  mcdisc : Bool := false
  collabs : Bool := false
  bcdisc : Bool := false
  engflt : Bool := false
  pre : Option PreCause := none
  forced : Bool := false               -- the forced-save timer has run out (R32)
  away : Option PreCause := none       -- why it lies in the cellar
  deriving DecidableEq, Repr

/-- How far a grid has come (R234 to R241). -/
inductive GridSt where
  | queued        -- accepted
  | failed (code : Nat)
  deriving DecidableEq, Repr

/-- The completion writes of a grid (R240, R382, R383). -/
inductive Compl where
  | no
  | completing    -- the counter has been read as OLDEV
  | again         -- the same, when a recovery came
  deriving DecidableEq, Repr

/-- A grid accepted by a queue (R232). -/
structure Grid where
  uid : Nat
  part : Nat
  queue : Nat
  seq : Nat
  ctx : Nat
  gridh : Word
  rcd : List Byte
  oldev : DWord := 0                   -- the journal's copy of the event counter (R381)
  depMet : Bool
  depKey : Option Nat := none          -- the dependence monitor, once armed (R235)
  depHit : Bool := false               -- the monitor has seen the value reached
  nextSpan : Nat := 0
  issued : Bool := false               -- every team issued
  teams : Nat := 0                     -- teams retired
  st : GridSt := .queued
  mcdisc : Bool := false
  collabs : Bool := false
  bcdisc : Bool := false
  engflt : Bool := false
  compl : Compl := .no
  recOut : Bool := false               -- the completion record is written, or discarded (R343)
  evOut : Bool := false                -- the counter's add is discarded (R343)
  evFlt : Option Nat := none           -- for the fault with this code, latched after the record's outcome
  bumped : Bool := false               -- its work is done, and the RDC generation has advanced for it (R240)
  wait : Option AccWait := none        -- a device access of the grid waits (R343), for a page
  waitVp : Nat := 0
  deny : Option (Nat × Bool × Nat × DWord) := none   -- its page request was answered as failed: page, kind, code, detail
  deriving DecidableEq, Repr

/-- A launch that waits for room in its queue (R232). -/
structure Launch where
  gid : Nat                            -- 0 for an application core
  hart : Nat
  rd : BitVec 5
  owed : Nat
  ctx : Nat
  part : Nat
  rcd : List Byte
  deriving DecidableEq, Repr

/-! ## Engine operations -/

/-- Where a copy is delivered (R197). -/
inductive CpyDst where
  | sp (off : Nat)
  | tile (name : Nat) (gen : BitVec 4)
  | mc (off : Nat) (ranks : BitVec 4)
  deriving DecidableEq, Repr

/-- A booking at a barrier (R199): one delivery. -/
structure Booking where
  rank : Nat                           -- receiving rank
  obj : Nat                            -- rank whose scratchpad holds the object
  off : Nat
  span : Bool
  inc : Nat
  phase : Nat
  deriving DecidableEq, Repr

/-- COLL's kind (R204). -/
inductive CollKind where
  | add (t : CollType)
  | max (t : CollType)
  | bcast (root : Nat)
  deriving DecidableEq, Repr

/-- What an engine operation does. -/
inductive OpKind where
  | cpy (lay : List Byte) (c : List Word) (dst : CpyDst)
  | gath (lay : List Byte) (rows : List (Nat × Word)) (dst : CpyDst)
  | sta (va : DWord) (src len : Nat) (hint : Hint)
  | coll (k : Nat) (kind : CollKind) (src dst len : Nat)
  | stage (region : Nat) (va : DWord) (dst len : Nat)
  | tdefSp (name : Nat) (gen : BitVec 4) (src : Nat)
  | tdefReg (name : Nat) (gen : BitVec 4) (bytes : List (Nat × Byte))
  | treadSp (b : Bound) (dst : Nat)
  | treadReg (b : Bound) (owed : Nat)
  | mmat (blk : List Byte) (tiles : List Bound)
  | mmar (off : Nat) (fmt : Word) (h1 : Bool) (a : List Byte) (rows : Lanes) (tile : Bound)
  | accz (off len : Nat)
  | accst (off src len : Nat)
  | accldSp (desc : List Byte)
  | accldReg (desc : List Byte) (run : Nat) (owed : Nat)
  | accgrow (q : Nat) (owed : Nat)
  | accshr (q : Nat)
  deriving DecidableEq, Repr

/-- An asynchronous operation (R190): outstanding until counted out in issue order within its class. -/
structure AOp where
  id : Nat
  gid : Nat
  tid : Nat
  sid : Nat
  uid : Nat
  core : Nat                           -- the core whose engine performs it
  cls : Option QClass
  pc : DWord
  instr : Instr
  lanes : Lanes
  kind : OpKind
  books : List Booking := []
  begun : Bool := true                 -- a tile definition has its storage (R210)
  srcRead : Bool := false              -- its scratchpad source has been read and is unlocked (R202)
  held : Option Nat := none            -- frozen under this record (R297)
  done : Bool := false                 -- complete, older operations of its class not
  data : List Byte := []               -- source bytes, once read
  pos : Nat := 0                       -- bytes of an STA written so far
  wait : Option AccWait := none        -- a page or a translation holds it up (R196)
  va : DWord := 0                      -- the address at which it waits
  again : Bool := false                -- frozen, and a lane of its record replays it (R297)
  saved : Option Owed := none          -- frozen: what it owed to registers, owed no more (R371)
  lost : Option Flt := none            -- an STA's unit met a failed link (R360)
  deriving DecidableEq, Repr

/-- A WAITV monitor (R189). -/
structure Monitor where
  id : Nat
  gid : Nat
  lane : Nat
  key : Nat
  va : DWord
  w64 : Bool
  cond : WCond
  cmp : DWord
  scope : Scope
  dst : List Nat
  la : Nat
  fired : Option DWord := none
  deriving DecidableEq, Repr

/-! ## Faults -/

/-- A fault record (R299) with what the device keeps beside it. -/
structure Record where
  rid : Nat
  gid : Nat
  code : Nat
  lanes : Lanes
  grp : Bool := false
  late : Bool := false
  level : Nat := 7
  words : List Word := []              -- NW + 1 words; none for a fetch fault
  nw0 : Bool := false                  -- a reserved OP: NW 0, WORD0 alone (R319)
  pc : DWord
  faddr : DWord := 0
  granule : Option (Nat × Nat) := none -- base and LOG2
  acc : Nat := 0
  gridh : Word := 0
  detail : DWord := 0
  op : Option Nat := none              -- the engine operation it stopped
  deleg : Bool := false
  deriving DecidableEq, Repr

/-- A record slot in use (R300). -/
structure FSlot where
  slot : Nat
  rcd : Record
  started : Bool := false              -- a lamplighter has started for it (R301)
  deriving DecidableEq, Repr

/-! ## Caches and translation -/

/-- A byte of an L1 (R136 to R138): `stale`, its cluster-cache copy was invalidated by a home since the fill; `past`, a lane of the
core has since read the byte beyond its L1 (R254); `born`, the step at which it was filled or written (R176); `bad`, in this
copy its unit is poisoned (R357). -/
structure L1Byte where
  key : Nat
  val : Byte
  dirty : Bool
  stale : Bool := false
  bad : Bool := false
  past : Bool := false
  born : Nat := 0
  deriving DecidableEq, Repr

/-- A byte of a cluster cache: its data, if held; whether dirty; whether the cluster holds write ownership (R400). -/
structure CcByte where
  key : Nat
  val : Option Byte
  dirty : Bool := false
  own : Bool := false
  bad : Bool := false
  deriving DecidableEq, Repr

/-- A byte of an RDC, the generation it was copied under (R140), and the step of its copy (R176). -/
structure RdcByte where
  key : Nat
  val : Byte
  gen : Nat
  bad : Bool := false
  born : Nat := 0
  deriving DecidableEq, Repr

/-- A non-leaf entry in a walk cache (R165). -/
structure WalkEntry where
  part : Nat
  ctx : Nat
  level : Nat
  index : Nat                          -- virtual address bits above the level's span
  table : Nat                          -- physical base of the next table
  deriving DecidableEq, Repr

/-- The granules a team holds and lost (R149). -/
structure TeamHold where
  tid : Nat
  holds : Nat
  lost : Bool
  deriving DecidableEq, Repr

/-- A write-ownership request as the home remembers it (R144). -/
structure OwnWrite where
  agent : Nat
  off : Nat
  len : Nat
  conflict : Bool                      -- another agent owned the granule and its bytes were disjoint
  deriving DecidableEq, Repr

/-- A division under DW or DR as the home remembers it (R351): the piece it covered, its moment, and whether it revoked every
access or writes alone. -/
structure Cut where
  base : Nat
  len : Nat
  moment : Nat
  reads : Bool
  deriving DecidableEq, Repr

/-- A granule that is not an untouched 2 MiB granule (R142); `base` is a memory key. -/
structure Granule where
  base : Nat
  log2 : Nat
  owner : Option Nat := none           -- agents: 0 to 7 cluster caches, 8 the application cores, 9 the host
  sharers : List Nat := []
  pr : Bool := false
  pw : Bool := false
  px : Bool := false
  te : Bool := false
  teNext : List (Nat × Nat × Bool) := []   -- tag-enable changes a hold defers: range and new state (R149)
  heat : Nat := 0
  count : Nat := 0                     -- accesses of the interval in progress
  lowUse : Bool := false
  highUse : Bool := false
  quiet : Nat := 0                     -- consecutive intervals equal to its buddy (R145)
  hold : Nat := 0
  teams : List TeamHold := []
  writes : List OwnWrite := []         -- latest first, at most 8
  entry : Bool := true                 -- the directory entry has not been dropped (R150)
  changed : Bool := false              -- its protection summary changed in the interval in progress (R368)
  cuts : List Cut := []                -- DW and DR divisions (R351)
  wrote : List (Nat × Nat) := []       -- what the application cores or the host have written as its owner: first byte, length (R144)
  deriving DecidableEq, Repr

/-- What a MIGR is about (R314): the leaf's level and address, the size of the page, the keys of its old and new places. -/
structure MigPlan where
  level : Nat
  leafAt : Nat
  size : Nat
  src : Nat
  dst : Nat
  deriving DecidableEq, Repr

/-- A migration whose copy is under way (R151): the group whose MIGR it is, the page's first address, recopies made, 256-byte
blocks that the dirty filter has marked during the last copy, and whether something has come that abandons it (R355). -/
structure Migr where
  gid : Nat
  part : Nat
  ctx : Nat
  v : Nat
  plan : MigPlan
  recopies : Nat := 0
  marked : List Nat := []
  lost : Bool := false
  deriving DecidableEq, Repr

structure Core where
  l1 : List L1Byte := []
  tlb : List TlbEntry := []
  divn : Nat := 0                      -- scratchpad in 512 KiB steps (R9)
  fslots : List FSlot := []
  late : List Record := []             -- records kept inside the core (R303)
  second : Option Record := none       -- second-level record (R307)
  nextAge : Nat := 0
  rr : Nat := 0                        -- the quarter that issues next
  deriving DecidableEq, Repr

structure Cluster where
  cc : List CcByte := []
  walk : List WalkEntry := []
  table : List (Nat × Nat) := []       -- reservation table: operation, step of posting (R226)
  deriving DecidableEq, Repr

structure Die where
  rdc : List RdcByte := []
  gen : Nat := 0
  lost : Bool := false
  stackLost : List Bool := [false, false]
  deriving DecidableEq, Repr

/-! ## Partitions and the outside -/

/-- A host window as last read (R272). -/
structure Window where
  dbase : Nat
  size : Nat
  hbase : Nat
  nofb : Bool
  port : Nat
  route : Nat
  mode : Nat
  tc : Nat := 0
  valid : Bool
  deriving DecidableEq, Repr

/-- A context as last read (R154, R278). -/
structure Ctx where
  ctx : Nat
  regime : Nat
  heaten : Bool
  pasid : Nat
  root : Nat
  lbase : Nat
  lsize : Nat
  celsize : Nat
  fvt : Nat                            -- the fault vector table (R306)
  ended : Bool := false
  deriving DecidableEq, Repr

/-- A page request outstanding (R167, R280): `entry` is its place in the ring of a native context. -/
structure PageReq where
  ctx : Nat
  vp : Nat                             -- virtual address div 4096
  write : Bool
  pri : Bool
  entry : Nat
  deriving DecidableEq, Repr

/-- An ATS Translation Request in flight (R166). -/
structure AtsReq where
  id : Nat
  core : Nat
  ctx : Nat
  vp : Nat
  priv : Bool
  exec : Bool
  write : Bool := false
  stale : Bool := false                -- an invalidation has come: its result is discarded (R168)
  deriving DecidableEq, Repr

/-- An ATS Invalidation Request not yet answered: its PASID and range, and the host atomics it waits for (R168). -/
structure Inval where
  pasid : Nat
  va : Nat
  log2 : Nat
  ids : List Nat
  deriving DecidableEq, Repr

/-- The phase of an ATOMICOP procedure (R275). -/
inductive HaPhase where
  | first                              -- FetchAdd, Swap or the CAS of ATOMC
  | read
  | cas (old : Nat)
  deriving DecidableEq, Repr

/-- An atomic sent to a host completer (R275), with the grid and context it was sent for, its address, and the window's entry as
it resolved it (R272, R274). -/
structure HostAtomic where
  id : Nat
  gid : Nat
  uid : Option Nat := none
  ctx : Nat := 0
  va : Nat := 0
  pc : DWord
  lane : Nat
  window : Nat
  win : Window
  link : Nat
  op : AtOp
  w : Nat                              -- width in bits
  b : Nat
  first : Nat                          -- the first request: 1 FetchAdd, 2 Swap, 3 CAS, 0 the loop's read
  phase : HaPhase
  hart : Option (Nat × BitVec 5) := none   -- an AMO of an application core: the hart and its rd
  deriving DecidableEq, Repr

/-- What translations have granted on a range of host memory (R143). -/
structure HostGrant where
  key : Nat
  len : Nat
  r : Bool
  w : Bool
  x : Bool
  deriving DecidableEq, Repr

/-- A 64-byte host line held by a home slice (R276). -/
structure HLine where
  line : Nat                           -- memory key div 64
  dirty : Bool
  was : List Byte := []                -- dirty: what the host's memory holds of it
  deriving DecidableEq, Repr

/-- TDISP states (R283). -/
inductive Tdi where
  | unlocked | locked | run | error
  deriving DecidableEq, Repr

structure Partition where
  ctxbase : DWord := 0
  ctxn : Nat := 0
  cmtbase : DWord := 0
  hwtbase : DWord := 0
  hwtn : Nat := 0
  layout : Word := 0
  spillbase : DWord := 0
  spillsize : DWord := 0
  grancap : Nat := 0
  sweep : Nat := 6
  snuff : Nat := 7
  fqbase : DWord := 0
  prqbase : DWord := 0
  qown : List Word := List.replicate 16 0
  ftoff : List Nat := [0, 0, 0]
  ftsize : List Nat := [0, 0, 0]
  jrn0 : DWord := 0
  jrn1 : DWord := 0
  lfseq : DWord := 0
  lfcode : Word := 0
  windows : List Window := []
  ctxs : List Ctx := []
  pageReqs : List PageReq := []
  priFailed : Bool := false
  prqTail : Nat := 0
  atsReqs : List AtsReq := []
  hostAtomics : List HostAtomic := []
  invals : List Inval := []
  hdmMaps : List TlbEntry := []        -- ATS translations given out that map the part's own HBM (R168)
  hlines : List HLine := []
  hostHeld : List Nat := []            -- device lines (64 bytes) the host holds (R276)
  hdmBase : Option Nat := none         -- host base of the HDM decoder, once the host has programmed it (R276)
  tdi : Tdi := .unlocked
  viral : Bool := false
  scanCore : Nat := 0                  -- where the next scans start: the core, cluster or queue after the last used (R234, R236)
  scanCluster : Nat := 0
  scanQueues : List Nat := List.replicate 8 0   -- for each PRIO
  seqs : List Nat := List.replicate 16 0
  launches : List Launch := []
  beat0 : Nat := 0                     -- the step at which the partition last started
  newHwtn : Option (Nat × List Window) := none   -- a write to HWTN, with the table read, that waits for accesses sent through old
                                       -- entries (R274)
  held : List Instr := []              -- inputs that wait for it, oldest first
  deriving DecidableEq, Repr

structure Port where
  up : Bool := true
  silent : Bool := false               -- no completion comes in time (R359)
  capacity : Nat := 0
  timeout : Nat := 0                   -- the completion timeout programmed in Device Control 2 (R359)
  deriving DecidableEq, Repr

/-- An IDE stream (R270): a link stream of its port, or a selective stream that a partition function uses. -/
structure Stream where
  id : Nat
  insecure : Bool
  part : Option Nat                    -- the partition whose interface is bound to it (R283)
  link : Bool := false
  port : Nat := 0
  user : Option Nat := none            -- of a selective stream: the partition whose requests use it
  deriving DecidableEq, Repr

/-- An entry of a function's MSI-X table (R270) that is not as at reset; a function is 0 for PF0, k for PFk. -/
structure Msix where
  key : Nat                            -- function * 64 + vector
  addr : Nat := 0
  data : Nat := 0
  masked : Bool := true
  pending : Bool := false
  deriving DecidableEq, Repr

/-- An application core (R281): what rh.launch, rh.tlbi and its accesses act on. -/
structure Hart where
  x : List DWord := List.replicate 31 0
  pc : DWord := 0
  resv : Option (Nat × Nat) := none
  waiting : Bool := false
  illegal : Bool := false              -- an illegal-instruction exception was raised (R171)
  mode : HartMode := .machine
  satp : DWord := 0                    -- its page table, of Sv57 where bits 63:60 are 10
  pageFault : Option DWord := none     -- the address of an access or fetch that met a page fault
  accessFault : Option DWord := none   -- the physical address of an access that met an access fault
  held : List Nat := []                -- lines (memory key div 64) that its L2 holds, the latest first (R12, R142, R356)
  deriving DecidableEq, Repr

/-- A pseudo-channel's power state (R288). -/
inductive ChState where
  | active | powerDown | selfRefresh
  deriving DecidableEq, Repr

/-- What a report is about (R372). -/
inductive ErrKind where
  | correctedEcc | linkReplay | linkDown | completionTimeout | ide | poison | hbm | sram | ucie | dieLoss | hubLoss | latched
  | tdi | unsupported
  deriving DecidableEq, Repr

/-- A report to the host (R372): function `pf`. -/
structure Report where
  cls : AerClass
  pf : Nat
  what : ErrKind
  deriving DecidableEq, Repr

/-- Messages that the part sends outside. -/
inductive MsgKind where
  | atsRequest | atsInvalidated | priRequest | hostRead | fetchAdd | swap | cas | snoopAnswer | hdmData | hdmPoison
  | hdmUnsupported | backInvalidate | atomicData | atomicUnsupported | interrupt | secondLevel | spdm | imageAnswer | pldm | tdiAnswer
  | msix | unsupported
  deriving DecidableEq, Repr

/-- A message the part sends outside. -/
structure Msg where
  kind : MsgKind
  part : Nat
  args : List Nat
  deriving DecidableEq, Repr

/-- Which agent moves next. -/
inductive Turn where
  | issue
  | device
  | hart (n : Nat)
  deriving DecidableEq, Repr

structure State where
  groups : List Group := []
  teams : List Team := []
  spans : List Span := []
  grids : List Grid := []
  ops : List AOp := []
  monitors : List Monitor := []
  granules : List Granule := []
  migs : List Migr := []
  cores : List Core := List.replicate 32 {}
  clusters : List Cluster := List.replicate 8 {}
  dies : List Die := List.replicate 4 {}
  parts : List Partition := List.replicate 4 {}
  ports : List Port := List.replicate 4 {}
  streams : List Stream := []
  harts : List Hart := List.replicate 16 {}
  mem : Memory := []
  hostGrants : List HostGrant := []    -- the protection summaries of host lines (R143, R148)
  tags : List (Nat × BitVec 4) := []   -- tags other than 0, by memory key div 32 (R153)
  poison : List Nat := []              -- poisoned 16-byte units, memory key div 16 (R357)
  l2dirty : List Nat := []             -- far-tier lines (key div 128) dirty at their homes, not yet written back (R360)
  behind : List (Nat × List Byte) := []   -- what the expanders hold of those lines
  channels : List (Nat × ChState) := []   -- pseudo-channels not active (R288)
  image : List Byte := []
  running : List Byte := []
  identity : List Byte := []           -- the device identity key (R284)
  errVecs : List Nat := List.replicate 5 0   -- the MSI-X vector of error reports: PF0's, PF1's to PF4's (R372)
  msix : List Msix := []               -- the functions' MSI-X tables (R270)
  imageBad : Bool := false             -- boot found the image wrong: image recovery (R286)
  pieces : List (Nat × List Byte) := []   -- 4 KiB pieces of a replacement image, by offset (R384)
  lastFail : Nat := 0                  -- the last check of an image that failed (R384): 1 its version, 2 its signature
  staged : Option (List Byte) := none
  powerLimit : Nat := 2600
  partCount : Nat := 1
  stopped : Bool := false              -- the hub die is lost (R381)
  aer : List Report := []
  out : List Msg := []
  inputs : List Instr := []
  turn : Turn := .issue
  travels : Bool := false              -- requests to homes are on their way for more than one step (R147)
  cur : Nat := 0                       -- the group that issues
  fresh : Nat := 1
  beat : Nat := 0                      -- steps taken
  free : Nat := 0                      -- counter of free values drawn
  deriving DecidableEq, Repr

/-- Why the machine stops. -/
inductive Fault where
  /-- The hub die is lost and the module is out of service (R381): raised by `step`. Safe: the spec gives no effect
  beyond it. -/
  | moduleStopped
  deriving DecidableEq, Repr

/-- Why an instruction has no meaning here. -/
inductive Refusal where
  /-- Not modelled yet, by name: raised by `exec`. Safe. -/
  | notModelled (mnemonic : String)
  /-- A hart's RISC-V instruction other than rh.launch and rh.tlbi: raised by `step`. Safe: the RV64 meanings are not in
  the spec (R281 names the architecture only). -/
  | hartInstruction
  deriving DecidableEq, Repr

/-- The part right after module reset (R287, R385): nothing resident, HBM and tags 0, no translation, no granule
divided, one partition. -/
def State.reset : State := {}

end Sys2Proof.Machine
end

