-- ==== Sys2Proof/Machine/Mem.lean ====
section
/-!
DEFINITION. Memory as the part holds it: physical addresses (R141, R271), bytes at their homes, the L1s and cluster
caches above them (R136 to R138), the RDC (R139, R140), granules (R142 to R149, R400), monitors that a home fires
(R189), poison and tags (R153, R357).
-/
namespace Sys2Proof.Machine

/-! ## Memory bytes -/

/-- A byte at its home. -/
def Memory.get (m : Memory) (k : Nat) : Byte := bget m k

/-- Write a byte at its home, keeping the canonical form. -/
def Memory.set (m : Memory) (k : Nat) (b : Byte) : Memory := bset m k b

/-- Addresses strictly rising. -/
def risingFrom : Nat → List (Nat × Byte) → Bool
  | _, [] => true
  | lo, (k, b) :: xs => lo ≤ k && b != 0 && risingFrom (k + 1) xs

/-- The canonical form: rising addresses, no entry equal to what an unlisted address reads as. -/
def Memory.wf (m : Memory) : Bool := risingFrom 0 m

/-! ## Keys and places -/

/-- Ranges meet. -/
def meets (a n b m : Nat) : Bool := decide (a < b + m) && decide (b < a + n)

def hbmKey (part pa : Nat) : Nat := part * 2 ^ 56 + pa
def farKey (part port off : Nat) : Nat := 2 ^ 60 + part * 2 ^ 56 + port * 2 ^ 52 + off
def hostKey (port a : Nat) : Nat := 2 ^ 64 + port * 2 ^ 70 + a

def isHost (k : Nat) : Bool := 2 ^ 64 ≤ k
def isFar (k : Nat) : Bool := 2 ^ 60 ≤ k && k < 2 ^ 64
def isHbm (k : Nat) : Bool := k < 2 ^ 60

/-- The partition of an HBM or far-tier key: the homes of each partition hold its own (R271). -/
def partOfKey (k : Nat) : Nat := k % 2 ^ 60 / 2 ^ 56

/-- The port behind a far-tier or host key. -/
def portOfKey (k : Nat) : Nat := if isHost k then (k - 2 ^ 64) / 2 ^ 70 else k % 2 ^ 56 / 2 ^ 52

def clusterOf (core : Nat) : Nat := core / 4
def dieOf (core : Nat) : Nat := core / 8

/-- Dies of a partition (R13). -/
def State.dieCount (s : State) : Nat := 4 / s.partCount

/-- The partition of a core (R13). -/
def State.partOfCore (s : State) (c : Nat) : Nat := dieOf c / s.dieCount

def State.firstCore (s : State) (part : Nat) : Nat := part * s.dieCount * 8

/-- The cores of a partition, ascending. -/
def State.coresOf (s : State) (part : Nat) : List Nat :=
  (List.range (s.dieCount * 8)).map (· + s.firstCore part)

def State.clustersOf (s : State) (part : Nat) : List Nat :=
  (List.range (s.dieCount * 2)).map (· + part * s.dieCount * 2)

def State.part (s : State) (p : Nat) : Partition := s.parts.getD p {}
def State.core (s : State) (c : Nat) : Core := s.cores.getD c {}
def State.cluster (s : State) (c : Nat) : Cluster := s.clusters.getD c {}
def State.die (s : State) (d : Nat) : Die := s.dies.getD d {}
def State.port (s : State) (p : Nat) : Port := s.ports.getD p {}

def State.updPart (s : State) (p : Nat) (f : Partition → Partition) : State := { s with parts := upd p f s.parts }
def State.updCore (s : State) (c : Nat) (f : Core → Core) : State := { s with cores := upd c f s.cores }
def State.updCluster (s : State) (c : Nat) (f : Cluster → Cluster) : State := { s with clusters := upd c f s.clusters }
def State.updDie (s : State) (d : Nat) (f : Die → Die) : State := { s with dies := upd d f s.dies }

/-- A write to HWTN waits for accesses sent through old entries; accesses that have not resolved their window wait for it
(R274). -/
def State.rewindowing (s : State) (part : Nat) : Bool := (s.part part).newHwtn.isSome

/-- RDC carve-out per die in bytes (R139, R277). -/
def Partition.carve (p : Partition) : Nat := p.layout.toNat / 256 % 16 * 2 ^ 30

/-- Visible HBM of a die (R141). -/
def Partition.visible (p : Partition) : Nat := 128 * 2 ^ 30 - p.carve

/-- HBM bytes of a partition (R271). -/
def State.hbmSize (s : State) (part : Nat) : Nat := s.dieCount * (s.part part).visible

/-- The stack of a partition-relative address (R141); `u`: the uniform rule. -/
def State.stackOf (s : State) (part pa : Nat) (u : Bool) : Nat :=
  let n := s.dieCount
  let d0 := part * n
  if u then
    let k := pa / 4096 % (2 * n)
    2 * (d0 + k / 2) + k % 2
  else
    let h := (s.part part).visible
    2 * (d0 + pa / h) + (pa % h / 4096) % 2

/-- The die whose L2 slice is the home of a key, for the agents of a partition (R11, R141, R276). -/
def State.homeDie (s : State) (part k : Nat) : Nat :=
  if isHbm k then s.stackOf (partOfKey k) (k % 2 ^ 56) ((s.part (partOfKey k)).layout.getLsbD 0) / 2
  else s.stackOf part (k % 2 ^ 52) true / 2

/-- What a device physical address names (R271, R272). -/
inductive Phys where
  | mem (key : Nat)
  | window (index : Nat)
  | nothing
  deriving DecidableEq, Repr

def farBase : Nat := 2 ^ 40

/-- The far-tier share of an offset from 1 TiB: port and offset in the expander (R271). -/
def State.farShare (s : State) (part o : Nat) : Option Nat :=
  let p := s.part part
  let go := fun (port : Nat) (o : Nat) =>
    let off := p.ftoff.getD (port - 1) 0 + o
    if off < (s.port port).capacity then some (farKey part port off) else none
  let z1 := p.ftsize.getD 0 0
  let z2 := p.ftsize.getD 1 0
  let z3 := p.ftsize.getD 2 0
  if o < z1 then go 1 o
  else if o < z1 + z2 then go 2 (o - z1)
  else if o < z1 + z2 + z3 then go 3 (o - z1 - z2)
  else none

/-- Index of the first window that satisfies `p`. -/
def findWindow (p : Window → Bool) : Nat → List Window → Option Nat
  | _, [] => none
  | n, w :: ws => if p w then some n else findWindow p (n + 1) ws

def State.physOf (s : State) (part pa : Nat) : Phys :=
  if pa < s.hbmSize part then .mem (hbmKey part pa)
  else if farBase ≤ pa ∧ pa < 5 * farBase then
    match s.farShare part (pa - farBase) with
    | some k => .mem k
    | none => .nothing
  else if 2 ^ 47 ≤ pa ∧ pa < 2 ^ 48 then
    match findWindow (fun w => w.valid && w.dbase ≤ pa && pa < w.dbase + w.size) 0 (s.part part).windows with
    | some i => .window i
    | none => .nothing
  else .nothing

/-- The key of the byte at a window's address (R273). -/
def Window.key (w : Window) (pa : Nat) : Nat := hostKey w.port (w.hbase + (pa - w.dbase))

/-- The key of a physical byte, through a window where it lies in one. -/
def State.keyOf (s : State) (part pa : Nat) : Option Nat :=
  match s.physOf part pa with
  | .mem k => some k
  | .window i => ((s.part part).windows[i]?).map fun w => w.key pa
  | .nothing => none

/-! ## Conditions of monitors -/

/-- R189. -/
def wcondHolds (c : WCond) (w64 : Bool) (v b : DWord) : Bool :=
  let sg := fun (x : DWord) => if w64 then x.toInt else (x.setWidth 32).toInt
  match c with
  | .eq => v == b
  | .ne => v != b
  | .lts => decide (sg v < sg b)
  | .ges => decide (sg b ≤ sg v)
  | .ltn => decide (v.toNat < b.toNat)
  | .gen => decide (b.toNat ≤ v.toNat)

def readMem (m : Memory) (k n : Nat) : Nat := leNat (bread m k n)

/-- Monitors, launch dependences and reservations that see the bytes `[k, k + n)` change at their home
(R189, R235, R281). -/
def State.fire (s : State) (k n : Nat) : State :=
  let hit := fun (mk mn : Nat) => mk < k + n && k < mk + mn
  { s with
    monitors := s.monitors.map fun m =>
      let w := if m.w64 then 8 else 4
      let v := BitVec.ofNat 64 (readMem s.mem m.key w)
      if m.fired.isNone && hit m.key w && wcondHolds m.cond m.w64 v m.cmp then { m with fired := some v } else m
    grids := s.grids.map fun g =>
      match g.depKey with
      | some d =>
        if hit d 8 && leNat ((g.rcd.drop 56).take 8) ≤ readMem s.mem d 8 then { g with depHit := true } else g
      | none => g
    harts := s.harts.map fun h =>
      match h.resv with
      | some (r, w) => if hit r w then { h with resv := none } else h
      | none => h }

/-! ## Poison at homes (R357) -/

/-- Some unit of `[k, k + n)` is poisoned at its home. -/
def State.poisoned (s : State) (k n : Nat) : Bool :=
  s.poison.any fun u => u * 16 < k + n && k < u * 16 + 16

def State.addPoison (s : State) (u : Nat) : State :=
  if s.poison.contains u then s else { s with poison := s.poison ++ [u] }

/-- A write that covers a whole unit clears its mark (R357). -/
def State.clearPoison (s : State) (k n : Nat) : State :=
  { s with poison := s.poison.filter fun u => !(k ≤ u * 16 && u * 16 + 16 ≤ k + n) }

/-! ## Caches -/

def l1Get (c : Core) (k : Nat) : Option L1Byte := kget L1Byte.key k c.l1
def ccGet (c : Cluster) (k : Nat) : Option CcByte := kget CcByte.key k c.cc

/-- Key j lies in `[k, k + n)`. -/
def inRange (k n j : Nat) : Bool := k ≤ j && j < k + n

/-- The keys of a range. -/
def keysOf (k n : Nat) : List Nat := (List.range n).map (k + ·)

/-- A keyed list with its elements in `[k, k + n)` replaced. -/
def kput {α : Type} (key : α → Nat) (k n : Nat) (new xs : List α) : List α :=
  (xs.filter fun x => decide (key x < k)) ++ new ++ xs.filter fun x => decide (k + n ≤ key x)

/-- What a core's L1 holds of a range. -/
def l1Run (c : Core) (k n : Nat) : List L1Byte := c.l1.filter fun x => inRange k n x.key

/-- What a cluster cache knows of a range. -/
def ccRun (c : Cluster) (k n : Nat) : List CcByte := c.cc.filter fun x => inRange k n x.key

def l1Put (x : L1Byte) (c : Core) : Core := { c with l1 := kset L1Byte.key x c.l1 }
def l1Del (k : Nat) (c : Core) : Core := { c with l1 := kdel L1Byte.key k c.l1 }
def l1Drop (k n : Nat) (c : Core) : Core := { c with l1 := c.l1.filter fun x => !inRange k n x.key }
def ccPut (x : CcByte) (c : Cluster) : Cluster := { c with cc := kset CcByte.key x c.cc }
def ccDel (k : Nat) (c : Cluster) : Cluster := { c with cc := kdel CcByte.key k c.cc }

/-- The dirty filter marks the 256-byte blocks of a page under migration that a write at the home meets (R151). -/
def Migr.mark (k n : Nat) (m : Migr) : Migr :=
  if n ≠ 0 ∧ meets m.plan.src m.plan.size k n then
    let bs := (List.range ((k + n - 1) / 256 - k / 256 + 1)).map (k / 256 + ·)
    { m with marked := (bs.filter fun b => inRange (m.plan.src / 256) (m.plan.size / 256) b && !m.marked.contains b) ++ m.marked }
  else m

/-- A permission or tag-enable change within the page abandons its migration (R355). -/
def State.spoilMigs (s : State) (k n : Nat) : State :=
  { s with migs := s.migs.map fun m => if meets m.plan.src m.plan.size k n then { m with lost := true } else m }

/-- A far-tier line is dirty at its home, and the expander keeps what it held (R360). -/
def State.farDirty (s : State) (line : Nat) : State :=
  { s with
    l2dirty := (s.l2dirty.filter (· != line)) ++ [line]
    behind := if s.l2dirty.contains line then s.behind else kset Prod.fst (line, bread s.mem (128 * line) 128) s.behind }

/-- A far-tier line dirty at its home is dropped there: its bytes are again what the expander holds (R360). -/
def State.loseFar (s : State) (line : Nat) : State :=
  if s.l2dirty.contains line then
    { s with
      mem := match kget Prod.fst line s.behind with
        | some p => bwrite s.mem (128 * line) p.2
        | none => s.mem
      l2dirty := s.l2dirty.filter (· != line)
      behind := kdel Prod.fst line s.behind }
  else s

/-- Put a byte at its home and note the line for a later write-back (R360). -/
def State.memPut (s : State) (k : Nat) (b : Byte) : State :=
  let s := if isFar k then s.farDirty (k / 128) else s
  { s with mem := s.mem.set k b, migs := s.migs.map (Migr.mark k 1) }

/-- Put bytes at their homes, and note their lines for a later write-back (R360). -/
def State.memPuts (s : State) (k : Nat) (bs : List Byte) : State :=
  let lines := (List.range ((k + bs.length - 1) / 128 - k / 128 + 1)).map (k / 128 + ·)
  let s := if isFar k && !bs.isEmpty then lines.foldl State.farDirty s else s
  { s with mem := bwrite s.mem k bs, migs := s.migs.map (Migr.mark k bs.length) }

/-- The cores of a cluster. -/
def clusterCores (cl : Nat) : List Nat := [4 * cl, 4 * cl + 1, 4 * cl + 2, 4 * cl + 3]

/-- The bytes among `ks` that some cache lists and `p` or `q` picks. Any other byte is in no cache so. -/
def State.cachedOf (s : State) (p : CcByte → Bool) (q : L1Byte → Bool) (ks : List Nat) : List Nat :=
  let lo := (minNat ks).getD 0
  let n := ks.foldl max 0 + 1 - lo
  let at' := fun j => inRange lo n j && ks.contains j
  let cc := (s.clusters.map fun (c : Cluster) => (c.cc.filter fun x => p x && at' x.key).map CcByte.key).flatten
  let l1 := (s.cores.map fun (c : Core) => (c.l1.filter fun x => q x && at' x.key).map L1Byte.key).flatten
  if cc.isEmpty && l1.isEmpty then [] else ks.filter fun k => cc.contains k || l1.contains k

/-- The bytes among `ks` that some cache holds dirty or owns. -/
def State.hot (s : State) (ks : List Nat) : List Nat := s.cachedOf (fun x => x.dirty || x.own) L1Byte.dirty ks

/-- The bytes among `ks` that some cache knows. -/
def State.known (s : State) (ks : List Nat) : List Nat := s.cachedOf (fun _ => true) (fun _ => true) ks

/-- A monitor of a WAITV or of a launch dependence watches the byte (R189, R235). -/
def State.watched (s : State) (k : Nat) : Bool :=
  (s.monitors.any fun m => m.fired.isNone && m.key ≤ k && k < m.key + (if m.w64 then 8 else 4)) ||
    s.grids.any fun g => g.depKey.any fun d => inRange d 8 k

/-- What armed WAITVs and launch dependences watch: first byte and length (R189, R235). -/
def State.watchedRanges (s : State) : List (Nat × Nat) :=
  ((s.monitors.filter fun m => m.fired.isNone).map fun m => (m.key, if m.w64 then 8 else 4)) ++
    s.grids.filterMap fun g => g.depKey.map fun d => (d, 8)

/-- A partition's home slice holds a host line, modified where `dirty`; of a line modified the host's memory keeps what it held
(R276). -/
def State.holdLine (s : State) (part line : Nat) (dirty : Bool) : State :=
  s.updPart part fun p =>
    let h := (p.hlines.find? fun h => h.line == line).getD ⟨line, false, []⟩
    let h := if h.dirty || !dirty then h else { h with dirty := true, was := bread s.mem (64 * line) 64 }
    { p with hlines := kset HLine.line h p.hlines }

/-- A host line that a home slice held modified is dropped: its bytes are again what the host's memory holds. -/
def State.loseLine (s : State) (h : HLine) : State := if h.dirty then { s with mem := bwrite s.mem (64 * h.line) h.was } else s

/-- The home slice of a cluster's partition takes bytes of a host line: the line is held modified (R276). -/
def State.lineDirty (s : State) (cl k : Nat) : State :=
  if isHost k then s.holdLine (s.partOfCore (4 * cl)) (k / 64) true else s

/-- A dirty byte of the cluster cache is written at its home (R138), a poisoned one with its mark; nothing watching it is told
yet. -/
def State.byteHome (s : State) (cl k : Nat) : State :=
  match ccGet (s.cluster cl) k with
  | some x =>
    match x.val, x.dirty with
    | some v, true =>
      (((if x.bad then s.addPoison (k / 16) else s).lineDirty cl k).memPut k v).updCluster cl (ccPut { x with dirty := false })
    | _, _ => s
  | none => s

/-- A byte that some L1 of the cluster holds dirty moves into the cluster cache (R137). -/
def State.byteCluster (s : State) (cl k : Nat) : State :=
  (clusterCores cl).foldl (fun s c =>
    match l1Get (s.core c) k with
    | some x =>
      if x.dirty then
        (s.updCore c (l1Put { x with dirty := false })).updCluster cl
          (ccPut ⟨k, some x.val, true, (ccGet (s.cluster cl) k).any CcByte.own, x.bad⟩)
      else s
    | none => s) s

/-- What watches bytes sees them, all of them having reached the home. -/
def State.seen (s : State) (ks : List Nat) : State := ks.foldl (fun s k => s.fire k 1) s

/-- A cluster's cache holds the byte dirty. -/
def State.dirtyIn (s : State) (cl k : Nat) : Bool :=
  match ccGet (s.cluster cl) k with
  | some x => x.dirty && x.val.isSome
  | none => false

/-- Runs of consecutive keys within lines of 128 bytes: first key and length. -/
def runsOf : List Nat → List (Nat × Nat)
  | [] => []
  | k :: ks =>
    match runsOf ks with
    | [] => [(k, 1)]
    | (a, n) :: rs => if a = k + 1 ∧ a % 128 ≠ 0 then (k, n + 1) :: rs else (k, 1) :: (a, n) :: rs

/-- Some cache holds the byte dirty. -/
def State.dirtyAny (s : State) (k : Nat) : Bool :=
  ((List.range 8).any fun cl => s.dirtyIn cl k) ||
  s.cores.any fun c => match l1Get c k with
    | some x => x.dirty
    | none => false

/-- Some cache holds the byte dirty and poisoned. -/
def State.dirtyBad (s : State) (k : Nat) : Bool :=
  (s.clusters.any fun c => c.cc.any fun x => x.bad && x.dirty && x.val.isSome && x.key == k) ||
    s.cores.any fun c => c.l1.any fun x => x.bad && x.dirty && x.key == k

/-- Every byte of a unit has been written anew, and waits in some cache to reach its home (R357). -/
def State.rewritten (s : State) (u : Nat) : Bool := (keysOf (16 * u) 16).all fun j => s.dirtyAny j && !s.dirtyBad j

/-- Before bytes of `[k, k + n)` are written at their home: the marks there of units that caches hold rewritten are cleared. -/
def State.cleanse (s : State) (ks : List Nat) : State :=
  if s.poison.isEmpty then s
  else { s with poison := s.poison.filter fun u => !(ks.any (fun k => k / 16 == u) && s.rewritten u) }

/-- What a cluster cache holds dirty of a range is written at its home, with its marks, and is dirty no longer (R138, R357);
nothing watching it is told yet. -/
def State.runHome (s : State) (cl k n : Nat) : State :=
  let xs := ccRun (s.cluster cl) k n
  let bs := imap (fun i b => match kget CcByte.key (k + i) xs with
    | some x => if x.dirty then x.val.getD b else b
    | none => b) 0 (bread s.mem k n)
  let put := xs.filter fun x => x.dirty && x.val.isSome
  let s := s.cleanse (put.map CcByte.key)
  let s := (put.filter CcByte.bad).foldl (fun (s : State) x => s.addPoison (x.key / 16)) s
  let s := if isHost k then (put.map CcByte.key).foldl (fun (s : State) j => s.lineDirty cl j) s else s
  (s.memPuts k bs).updCluster cl fun c => { c with
    cc := c.cc.map fun x => if inRange k n x.key && x.val.isSome then { x with dirty := false } else x }

/-- Dirty bytes of a cluster cache are written at their homes together (R138). -/
def State.sendHome (s : State) (cl : Nat) (ks : List Nat) : State :=
  ((runsOf ks).foldl (fun s r => s.runHome cl r.1 r.2) s).seen ks

/-- Those among `ks` that a cluster cache holds dirty are written at their homes (R138). -/
def State.moveHome (s : State) (cl : Nat) (ks : List Nat) : State :=
  let here := ((s.cluster cl).cc.filter fun x => x.dirty && ks.contains x.key).map CcByte.key
  s.sendHome cl ((ks.filter here.contains).filter (s.dirtyIn cl))

/-- Dirty L1 bytes of a cluster move into its cache together (R137), and on to their homes where a monitor watches them
(R189). -/
def State.moveCluster (s : State) (cl : Nat) (ks : List Nat) : State :=
  let s := (s.hot ks).foldl (fun s k => s.byteCluster cl k) s
  s.moveHome cl (ks.filter s.watched)

/-- The bytes that a request moves: those it states (R136), and where one of them is watched the others that the same monitor
watches, which its own read at the home states (R189; log entry 18). -/
def State.stated (s : State) (ks : List Nat) : List Nat :=
  (s.watchedRanges.filter fun r => ks.any (inRange r.1 r.2)).foldl (fun us r => us ++ (keysOf r.1 r.2).filter fun j => !us.contains j) ks

/-- A cluster's cache no longer holds the byte in the owned state. -/
def State.disown (s : State) (cl k : Nat) : State :=
  match ccGet (s.cluster cl) k with
  | some x => if x.own then s.updCluster cl (ccPut { x with own := false }) else s
  | none => s

/-- Some cache holds a dirty, poisoned byte of a range, or its home holds a poisoned unit that no cache has written anew. -/
def State.foundBad (s : State) (k n : Nat) : Bool :=
  (s.poison.any fun u => u * 16 < k + n && k < u * 16 + 16 && !s.rewritten u) ||
    (s.clusters.any fun c => c.cc.any fun x => x.bad && x.dirty && x.val.isSome && inRange k n x.key) ||
    s.cores.any fun c => c.l1.any fun x => x.bad && x.dirty && inRange k n x.key

/-- The cluster's cache holds the byte in the owned state. -/
def State.holdsOwn (s : State) (cl k : Nat) : Bool :=
  match ccGet (s.cluster cl) k with
  | some x => x.own
  | none => false

/-- Bytes go home from wherever they are dirty, and no cluster but `keep` (8: none) owns them any longer; what watches
them is not told yet. -/
def State.gather (s : State) (keep : Nat) (ks : List Nat) : State :=
  let ks := (s.hot ks).filter fun k => s.dirtyAny k || (List.range 8).any fun cl => s.holdsOwn cl k
  (List.range 8).foldl (fun s cl => if cl = keep then s
    else ks.foldl (fun s k => ((s.byteCluster cl k).byteHome cl k).disown cl k) s) (s.cleanse ks)

/-- The newest value of a byte, wherever a cache holds it dirty; no cache changes. -/
def State.newest (s : State) (k : Nat) : Byte :=
  match s.cores.findSome? fun (c : Core) => (l1Get c k).filter L1Byte.dirty with
  | some x => x.val
  | none => match s.clusters.findSome? fun (c : Cluster) => (ccGet c k).filter fun x => x.dirty && x.val.isSome with
    | some x => x.val.getD 0
    | none => s.mem.get k

/-- The home recalls bytes: wherever they are dirty, but for cluster `keep`, they are written at the home (R142, R276). -/
def State.recallFor (s : State) (keep : Nat) (ks : List Nat) : State :=
  let moved := (s.hot ks).filter s.dirtyAny
  (s.gather keep ks).seen moved

def State.recallAll (s : State) (ks : List Nat) : State := s.recallFor 8 ks

/-- Invalidate the byte in a cluster other than the writer's: data leaves the cluster cache, L1 copies are marked
(R137). -/
def State.dropCluster (s : State) (cl k : Nat) : State :=
  let s := match ccGet (s.cluster cl) k with
    | some x => s.updCluster cl (ccPut { x with val := none, dirty := false, own := false, bad := false })
    | none => s
  (clusterCores cl).foldl (fun s c =>
    match l1Get (s.core c) k with
    | some x => s.updCore c (l1Put { x with stale := true, dirty := false })
    | none => s) s

/-- Some cache of the cluster knows the byte. -/
def State.knows (s : State) (cl k : Nat) : Bool :=
  (ccGet (s.cluster cl) k).isSome || (clusterCores cl).any fun c => (l1Get (s.core c) k).isSome

/-- Take the byte from every cluster but `keep` (8: from all). -/
def State.dropOthers (s : State) (keep k : Nat) : State :=
  ((List.range 8).filter fun cl => cl != keep && s.knows cl k).foldl (fun s cl => s.dropCluster cl k) s

/-- Bytes as the home gives them, in one step. -/
def State.homeRead (s : State) (k n : Nat) : State × List Byte :=
  let s := s.recallAll (s.stated (keysOf k n))
  (s, bread s.mem k n)

/-- Bytes as the home gives them to a bypass load of a core (R138): what other clusters hold dirty is recalled; the core's own
caches keep what they hold, and its own newest bytes are what it finds (R179). -/
def State.bypassRead (s : State) (core k n : Nat) : State × List Byte :=
  let s := s.recallFor (clusterOf core) (s.stated (keysOf k n))
  (s, (keysOf k n).map s.newest)

/-- Write bytes at the home: every cached copy goes, then the monitors see the whole write. Used by accesses that act at
the home and by the device's own writes. -/
def State.homeWrite (s : State) (k : Nat) (bs : List Byte) : State :=
  let us := s.stated (keysOf k bs.length)
  let moved := (s.hot us).filter s.dirtyAny
  let s := s.gather 8 us
  let s := (s.known (keysOf k bs.length)).foldl (fun s k => s.dropOthers 8 k) s
  ((s.memPuts k bs).seen moved).fire k bs.length

/-- The agent's own L1 and its cluster forget a byte that was just written at the home by that agent, so that its later
reads find the new value (R179). -/
def State.forget (s : State) (core k n : Nat) : State :=
  let s := s.updCluster (clusterOf core) fun c => { c with cc := c.cc.filter fun x => !inRange k n x.key }
  (clusterCores (clusterOf core)).foldl (fun s c => s.updCore c (l1Drop k n)) s

/-- A lane of the core has read bytes beyond its L1: the copies there that a home has invalidated stay (R138), and serve no weak load
any more, so that the core's loads never go backward (R254). -/
def State.passStale (s : State) (core k n : Nat) : State :=
  s.updCore core fun c => { c with l1 := c.l1.map fun x => if x.stale && inRange k n x.key then { x with past := true } else x }

/-- What an L1 serves of a request (R136, R137): all of it where its copies are of one moment (R176), else those that no home has
invalidated. -/
def l1Serves (c : Core) (k n : Nat) : List L1Byte :=
  let xs := l1Run c k n
  if xs.length = n ∧ allSame (xs.map L1Byte.born) = true ∧ xs.all (fun x => !x.past) = true then xs
  else xs.filter fun x => !x.stale

/-- Bytes are made ready for a core's read: what its cluster holds dirty of them is in the cluster cache (R137), and the home
has recalled those that the cluster cache lacks. -/
def State.gatherFor (s : State) (core k n : Nat) : State :=
  let cl := clusterOf core
  let s := s.moveCluster cl (s.stated (keysOf k n))
  let xs := ccRun (s.cluster cl) k n
  s.recallFor cl (s.stated ((keysOf k n).filter fun j => ((kget CcByte.key j xs).bind CcByte.val).isNone))

/-- Bytes at the cluster's point of coherence (R177, ORD 2 at cluster scope): the cluster cache fills with those it lacks. -/
def State.clusterRead (s : State) (core k n : Nat) : State × List Byte :=
  let cl := clusterOf core
  let s := s.gatherFor core k n
  let xs := ccRun (s.cluster cl) k n
  let cells := imap (fun i v => match kget CcByte.key (k + i) xs with
    | some x => if x.val.isSome then x else ⟨k + i, some v, false, false, s.poisoned (k + i) 1⟩
    | none => ⟨k + i, some v, false, false, s.poisoned (k + i) 1⟩) 0 (bread s.mem k n)
  (if cells = xs then s else s.updCluster cl fun c => { c with cc := kput CcByte.key k n cells c.cc },
    cells.map fun x => x.val.getD 0)

/-- Bytes as a weak load of a core finds them: nearest valid copies (R137, R177). Those that its L1 does not serve come from the
cluster, and stay in the L1 where `alloc`. -/
def State.weakRead (s : State) (core k n : Nat) (alloc : Bool) : State × List Byte :=
  let xs := l1Serves (s.core core) k n
  let miss := (keysOf k n).filter fun j => (kget L1Byte.key j xs).isNone
  let (s, got) := (runsOf miss).foldl (fun (r : State × List (Nat × Byte)) m =>
    let (s, bs) := r.1.clusterRead core m.1 m.2
    let ys := ccRun (s.cluster (clusterOf core)) m.1 m.2
    let new := imap (fun i b =>
      ({ key := m.1 + i, val := b, dirty := false, bad := (kget CcByte.key (m.1 + i) ys).any CcByte.bad, born := s.beat } : L1Byte)) 0 bs
    (if alloc then s.updCore core fun c => { c with l1 := kput L1Byte.key m.1 m.2 new c.l1 } else s.passStale core m.1 m.2,
      r.2 ++ imap (fun i b => (m.1 + i, b)) 0 bs)) (s, [])
  (s, (keysOf k n).map fun j => match kget L1Byte.key j xs with
    | some x => x.val
    | none => ((kget Prod.fst j got).map Prod.snd).getD 0)

/-- Take bytes in the owned state for a cluster: recalled, and invalidated elsewhere. Bytes that a monitor watches stay in
the shared state at their home (R189). -/
def State.takeOwn (s : State) (cl k n : Nat) : State :=
  let xs := ccRun (s.cluster cl) k n
  let ks := (keysOf k n).filter fun j => !((kget CcByte.key j xs).any CcByte.own)
  let s := (s.recallFor cl (s.stated ks)).moveCluster cl ks
  (runsOf ks).foldl (fun s r =>
    let s := (s.known (keysOf r.1 r.2)).foldl (fun s j => s.dropOthers cl j) s
    let xs := ccRun (s.cluster cl) r.1 r.2
    let cells := imap (fun i v => match kget CcByte.key (r.1 + i) xs with
      | some x =>
        if x.val.isSome then { x with own := !s.watched x.key }
        else ⟨r.1 + i, some v, false, !s.watched (r.1 + i), s.poisoned (r.1 + i) 1⟩
      | none => ⟨r.1 + i, some v, false, !s.watched (r.1 + i), s.poisoned (r.1 + i) 1⟩) 0 (bread s.mem r.1 r.2)
    s.updCluster cl fun c => { c with cc := kput CcByte.key r.1 r.2 cells c.cc }) s

/-- The other L1s of a core's cluster let go of bytes. -/
def State.dropPeers (s : State) (core k n : Nat) (self : Bool) : State :=
  (clusterCores (clusterOf core)).foldl (fun s c => if c = core && !self then s else s.updCore c (l1Drop k n)) s

/-- The mark of the copy of a byte that serves a core: among `xs` of its L1, a dirty one of its cluster, the cluster cache's; none
where none of them holds it. -/
def State.nearBad (s : State) (core : Nat) (xs : List L1Byte) (k : Nat) : Option Bool :=
  match kget L1Byte.key k xs with
  | some x => some x.bad
  | none =>
    match (clusterCores (clusterOf core)).findSome? fun c => (l1Get (s.core c) k).filter L1Byte.dirty with
    | some x => some x.bad
    | none => ((ccGet (s.cluster (clusterOf core)) k).filter fun x => x.val.isSome).map CcByte.bad

/-- The mark that a byte has after a store of `[k, k + n)`: a write that covers its unit clears it (R357). -/
def State.badAfter (s : State) (core k n j : Nat) : Bool :=
  !(k ≤ j / 16 * 16 && j / 16 * 16 + 16 ≤ k + n) &&
    (s.nearBad core ((l1Run (s.core core) k n).filter fun x => !x.stale) j).getD false

/-- A weak store of bytes into the core's L1, under ownership (R138, R400). -/
def State.weakWrite (s : State) (core k : Nat) (bs : List Byte) : State :=
  (s.dropPeers core k bs.length false).updCore core fun c => { c with
    l1 := kput L1Byte.key k bs.length
      (imap (fun i b => { key := k + i, val := b, dirty := true, bad := s.badAfter core k bs.length (k + i), born := s.beat }) 0 bs) c.l1 }

/-- A store of bytes at the cluster's point of coherence. -/
def State.clusterWrite (s : State) (core k : Nat) (bs : List Byte) : State :=
  (s.dropPeers core k bs.length true).updCluster (clusterOf core) fun c => { c with
    cc := kput CcByte.key k bs.length
      (imap (fun i b => ⟨k + i, some b, true, (ccGet c (k + i)).any CcByte.own, s.badAfter core k bs.length (k + i)⟩) 0 bs)
      c.cc }

/-- After a store reaches a cluster cache: watched bytes go on to the home (R189). -/
def State.through (s : State) (core k n : Nat) : State :=
  s.moveHome (clusterOf core) ((keysOf k n).filter s.watched)

/-! ## Release and acquire (R138) -/

/-- The core's dirty L1 bytes reach the cluster cache. -/
def State.releaseCluster (s : State) (core : Nat) : State :=
  s.moveCluster (clusterOf core) (((s.core core).l1.filter L1Byte.dirty).map L1Byte.key)

/-- Every dirty byte of the core's cluster cache is written at its home. -/
def State.releaseDevice (s : State) (core : Nat) : State :=
  let s := s.releaseCluster core
  s.sendHome (clusterOf core) (((s.cluster (clusterOf core)).cc.filter fun x => x.dirty && x.val.isSome).map CcByte.key)

def State.release (s : State) (core : Nat) (sc : Scope) : State :=
  match sc with
  | .core => s
  | .cluster => s.releaseCluster core
  | .device => s.releaseDevice core
  | .system => s.releaseDevice core

def State.acquire (s : State) (core : Nat) (sc : Scope) : State :=
  match sc with
  | .core => s
  | .cluster => s
  | .device => s.updCore core fun c => { c with l1 := c.l1.filter fun x => !x.stale }
  | .system => s.updCore core fun c => { c with l1 := c.l1.filter fun x => !x.stale }

/-! ## Granules -/

/-- Agents of the directory (R142). -/
def hartAgent : Nat := 8
def hostAgent : Nat := 9

/-- The granule that holds a key; on host memory the 64-byte line (R142). -/
def State.granuleOf (s : State) (k : Nat) : Granule :=
  (s.granules.find? fun g => g.base ≤ k && k < g.base + 2 ^ g.log2).getD
    (if isHost k then { base := k / 64 * 64, log2 := 6 } else { base := k / 2 ^ 21 * 2 ^ 21, log2 := 21 })

def State.setGranule (s : State) (g : Granule) : State := { s with granules := kset Granule.base g s.granules }

/-- A host line that its home has cleaned is held modified no more: no cluster of the partition owns a byte of it (R276, R370). -/
def State.disownLine (s : State) (part line : Nat) : State :=
  let s := (s.clustersOf part).foldl (fun (s : State) cl => s.updCluster cl fun c => { c with
    cc := c.cc.map fun x => if inRange (64 * line) 64 x.key then { x with own := false } else x }) s
  let g := s.granuleOf (64 * line)
  match g.owner with
  | some a => s.setGranule { g with owner := none, sharers := if g.sharers.contains a then g.sharers else a :: g.sharers }
  | none => s

/-- The lines that the application cores' caches hold (R142, R356). -/
def State.hartHeld (s : State) : List Nat := (s.harts.map Hart.held).flatten

/-- The cluster holds write ownership of every byte of a range: the bytes in the owned state, and their granules (R400).
-/
def State.owns (s : State) (cl k n : Nat) : Bool :=
  let xs := ccRun (s.cluster cl) k n
  (keysOf k n).all fun j => (kget CcByte.key j xs).any CcByte.own && (s.granuleOf j).owner == some cl

/-- The two halves of a granule; coherence state, permissions and holds stay with each (R144, R149). The protection summary
that a half starts with after false sharing or partial use is the parent's, and its accesses of the interval in progress are
counted anew (log entry 43). -/
def Granule.halves (g : Granule) : List Granule :=
  let h := g.log2 - 1
  let half := fun (b : Nat) => { g with
    base := b
    log2 := h
    count := 0
    lowUse := false
    highUse := false
    quiet := 0
    writes := []
    wrote := g.wrote.filter fun w => meets w.1 w.2 b (2 ^ h)
    cuts := g.cuts.filter fun c => meets c.base c.len b (2 ^ h) }
  [half g.base, half (g.base + 2 ^ h)]

def State.splitGranule (s : State) (g : Granule) : State :=
  g.halves.foldl State.setGranule s

/-- Halve along two conflicting writes until they lie apart, the granule is 16 bytes, or a write straddles the middle
(R144). `fuel` bounds the halvings by the granule's size. -/
def State.halve (s : State) (a al b bl : Nat) : Nat → State
  | 0 => s
  | fuel + 1 =>
    let g := s.granuleOf a
    let mid := g.base + 2 ^ (g.log2 - 1)
    let whole := fun (k n : Nat) => g.base ≤ k && k + n ≤ g.base + 2 ^ g.log2
    if g.log2 ≤ 4 || !(whole a al && whole b bl) then s
    else if (a < mid && mid < a + al) || (b < mid && mid < b + bl) then s
    else (s.splitGranule g).halve a al b bl fuel

/-- Eight consecutive conflicting requests from at least two agents (R144). -/
def falseShared (ws : List OwnWrite) : Bool :=
  ws.length == 8 && ws.all OwnWrite.conflict && !(allSame (ws.map OwnWrite.agent))

/-- An agent holds bytes of a range of a partition's memory: the application cores and the host by lines, a cluster in its cache or,
as its record says, in an L1 (R137, R142). -/
def State.heldIn (s : State) (part agent k n : Nat) : Bool :=
  n != 0 && (
    if agent = hartAgent then s.hartHeld.any fun l => meets (l * 64) 64 k n
    else if agent = hostAgent then (s.part part).hostHeld.any fun l => meets (l * 64) 64 k n
    else ((s.cluster agent).cc.any fun b => inRange k n b.key && (b.val.isSome || b.own)) ||
      (clusterCores agent).any fun c => (s.core c).l1.any fun b => inRange k n b.key && !b.stale)

/-- The agents of a partition that answer a probe with bytes of a range: its clusters, the application cores, the host
(R150, R356). -/
def State.answers (s : State) (part base n : Nat) : List Nat :=
  (s.clustersOf part ++ [hartAgent, hostAgent]).filter fun a => s.heldIn part a base n

/-- The agents that an entry names, but for one. -/
def Granule.agents (g : Granule) (but : Nat) : List Nat :=
  ((g.owner.toList.filter fun a => !g.sharers.contains a) ++ g.sharers).filter (· != but)

/-- Those of them that hold bytes of the granule outside `[k, k + n)`: only the bytes of a request are taken from them (R136). -/
def State.leftWith (s : State) (g : Granule) (but k n : Nat) : List Nat :=
  (g.agents but).filter fun a =>
    s.heldIn (partOfKey g.base) a g.base (k - g.base) || s.heldIn (partOfKey g.base) a (k + n) (g.base + 2 ^ g.log2 - (k + n))

/-- A crier round: a dropped entry is rebuilt from the answers (R150, R356). -/
def State.cried (s : State) (g : Granule) : Granule :=
  if g.entry then g
  else
    let all := s.answers (partOfKey g.base) g.base (2 ^ g.log2)
    let owner := g.owner.filter all.contains
    { g with entry := true, owner := owner, sharers := all.filter fun a => owner != some a }

/-- A request that does not count for the heat class reaches a byte's home: a dropped entry is rebuilt first (R150). -/
def State.cry (s : State) (k : Nat) : State :=
  let g := s.granuleOf k
  if g.entry then s else s.setGranule (s.cried g)

/-- A range piece by piece, each within one granule (R142). -/
def State.byGranule (f : State → Nat → Nat → State) : Nat → Nat → Nat → State → State
  | 0, _, _, s => s
  | fuel + 1, k, n, s =>
    let g := s.granuleOf k
    let m := g.base + 2 ^ g.log2 - k
    if n = 0 then s
    else if m < n then State.byGranule f fuel (k + m) (n - m) (f s k m)
    else f s k n

/-- An access to bytes of one granule reaches its home: counted for heat and partial use (R143, R144); a dropped entry is
rebuilt first (R150). -/
def State.touchPiece (s : State) (k n : Nat) : State :=
  let g := s.cried (s.granuleOf k)
  let mid := g.base + 2 ^ (g.log2 - 1)
  s.setGranule { g with
    count := g.count + 1
    lowUse := g.lowUse || k < mid
    highUse := g.highUse || mid < k + n }

/-- An access reaches the home of `[k, k + n)`. Loads, stores, atomics, PRF, WAITV, engine, hart and host accesses count for
the heat class; TAGLD, TAGST, GQRY, GHOLD, GREL and the part's own reads of tables, records and rings do not (log entry
46). -/
def State.touch (s : State) (k n : Nat) : State := State.byGranule State.touchPiece (n + 1) k n s

/-- Bytes of a range that a granule's owner wrote as its owner (R144): a cluster those it owns and its last request's, the application
cores and the host those of every request since they became its owner. -/
def State.wroteIn (s : State) (g : Granule) (agent k n : Nat) : Bool :=
  if agent < 8 then
    ((ccRun (s.cluster agent) k n).any CcByte.own) ||
      (g.writes.find? fun w => w.agent == agent).any fun w => meets w.off w.len k n
  else g.wrote.any fun w => meets w.1 w.2 k n

/-- What the application cores or the host have written as the granule's owner, with one more request. -/
def Granule.wroteNow (g : Granule) (agent k n : Nat) : List (Nat × Nat) :=
  if agent < 8 then []
  else if g.owner != some agent then [(k, n)]
  else if g.wrote.any fun w => decide (w.1 ≤ k ∧ k + n ≤ w.1 + w.2) then g.wrote
  else (k, n) :: g.wrote

/-- A request for write ownership of bytes of one granule (R144, R400). Watched bytes stay shared at the home (R189); agents that
hold other bytes of the granule keep them (R136, R142). -/
def State.ownPiece (agent : Nat) (s : State) (k n : Nat) : State :=
  let s := s.touchPiece k n
  let g := s.granuleOf k
  let conflict := g.owner.any fun a => a != agent && !s.wroteIn g a k n
  let ws := (⟨agent, k, n, conflict⟩ :: g.writes).take 8
  let others := s.leftWith g agent k n
  let s := s.setGranule (
    if (keysOf k n).any s.watched then { g with owner := none, sharers := agent :: others, writes := ws, wrote := [] }
    else { g with owner := some agent, sharers := others, writes := ws, wrote := g.wroteNow agent k n })
  if falseShared ws && g.hold == 0 && !isHost k then
    match ws with
    | x :: y :: _ => s.halve x.off x.len y.off y.len 18
    | _ => s
  else s

def State.ownRequest (s : State) (agent k n : Nat) : State := State.byGranule (State.ownPiece agent) (n + 1) k n s

/-- A read of bytes of one granule at the home, by an agent or by none that holds any: the granule becomes shared, unless the
agent owns it (R142). `keeps`: the agent keeps a copy. -/
def State.sharePiece (agent : Option Nat) (keeps : Bool) (s : State) (k n : Nat) : State :=
  let s := s.touchPiece k n
  let g := s.granuleOf k
  if agent.isSome && g.owner == agent then s
  else
    let sh := if keeps then agent.toList.filter (fun a => !g.sharers.contains a) ++ g.sharers else g.sharers
    let sh := match g.owner with
      | some a => if sh.contains a then sh else a :: sh
      | none => sh
    s.setGranule { g with owner := none, sharers := sh }

def State.shareRequest (s : State) (agent k n : Nat) : State :=
  State.byGranule (State.sharePiece (some agent) true) (n + 1) k n s

/-- A read at the home that leaves no copy with its agent. -/
def State.peekRequest (s : State) (agent : Option Nat) (k n : Nat) : State :=
  State.byGranule (State.sharePiece agent false) (n + 1) k n s

/-- R351: an access to `[k, k + n)` translated at `filledAt` that binds after a permission division revoked what it needs. -/
def Granule.refuses (g : Granule) (k n filledAt : Nat) (write : Bool) : Bool :=
  g.cuts.any fun c => meets c.base c.len k n && decide (filledAt < c.moment) && (c.reads || write)

/-! ## Tags -/

/-- The tag of the 32-byte cell of a key (R153); memory other than HBM has none. -/
def State.tagOf (s : State) (k : Nat) : BitVec 4 :=
  if isHbm k then ((kget Prod.fst (k / 32) s.tags).map Prod.snd).getD 0 else 0

def State.setTag (s : State) (k : Nat) (t : BitVec 4) : State :=
  if isHbm k then
    { s with tags := if t = 0 then kdel Prod.fst (k / 32) s.tags else kset Prod.fst (k / 32, t) s.tags }
  else s

/-- The tags of every cell that `[k, k + n)` touches match (R153). -/
def State.tagsMatch (s : State) (k n : Nat) (t : BitVec 4) : Bool :=
  (List.range ((k + n - 1) / 32 - k / 32 + 1)).all fun i => s.tagOf ((k / 32 + i) * 32) == t

/-! ## The RDC (R139, R140) -/

/-- A grid-read-only load of bytes that its cluster does not hold may look up the RDC: their home is another die, and the
die has a carve-out. -/
def State.mayRdc (s : State) (core k : Nat) : Bool :=
  let part := s.partOfCore core
  s.homeDie part k != dieOf core && (s.part part).carve != 0

/-- The RDC's copies of bytes, if it holds each of them, copied in this generation and at one moment (R140, R176). -/
def State.rdcBytes (s : State) (core k n : Nat) : Option (List Byte) :=
  let d := s.die (dieOf core)
  let xs := d.rdc.filter fun x => inRange k n x.key && x.gen == d.gen
  if xs.length = n ∧ allSame (xs.map RdcByte.born) = true then some (xs.map RdcByte.val) else none

/-- The RDC takes exactly the bytes just read (R136). -/
def State.rdcFill (s : State) (core k : Nat) (bs : List Byte) : State :=
  s.updDie (dieOf core) fun d => { d with
    rdc := kput RdcByte.key k bs.length (imap (fun i b => { key := k + i, val := b, gen := d.gen, born := s.beat }) 0 bs) d.rdc }

/-- A core's RDC lets go of bytes that a lane of it stores, so that the lane's later loads never go behind its store (R179);
stores update no copy (R139). -/
def State.rdcForget (s : State) (core k n : Nat) : State :=
  s.updDie (dieOf core) fun d => { d with rdc := d.rdc.filter fun (x : RdcByte) => !inRange k n x.key }

/-- The generation advances on every die of a partition (R113, R140). -/
def State.bumpRdc (s : State) (part : Nat) : State :=
  (List.range s.dieCount).foldl (fun s i => s.updDie (part * s.dieCount + i) fun d => { d with gen := d.gen + 1 }) s

/-! ## Capacities (R8, R9, R139) -/

/-- The lines of 128 bytes that hold some keys, which rise. -/
def linesOfKeys : List Nat → List Nat
  | [] => []
  | k :: ks =>
    match linesOfKeys ks with
    | [] => [k / 128]
    | l :: ls => if l = k / 128 then l :: ls else k / 128 :: l :: ls

/-- Lines of a core's L1: what its scratchpad division leaves of 3,584 KiB (R9). -/
def Core.l1Room (c : Core) : Nat := (7 - c.divn) * 4096

/-- Lines of a cluster cache (R8). -/
def ccRoom : Nat := 65536

/-- Let `n` lines of `ls` go by `drop`, each the implementation's choice (log entry 10). -/
def State.evict (drop : State → Nat → State) : Nat → List Nat → State → State
  | 0, _, s => s
  | n + 1, ls, s =>
    let l := ls.getD (Config.victim s.free % ls.length) 0
    State.evict drop n (ls.filter (· != l)) (drop { s with free := s.free + 1 } l)

/-- An L1 lets a line go: its dirty bytes reach the cluster cache (R137). -/
def State.l1Evict (core : Nat) (s : State) (line : Nat) : State :=
  let dirty := ((l1Run (s.core core) (128 * line) 128).filter L1Byte.dirty).map L1Byte.key
  (s.moveCluster (clusterOf core) dirty).updCore core (l1Drop (128 * line) 128)

/-- A cluster cache lets the data of a line go: dirty bytes are written at their homes; its record of the bytes, and its
ownership of them, stay (R137, R400). -/
def State.ccEvict (cl : Nat) (s : State) (line : Nat) : State :=
  let ks := keysOf (128 * line) 128
  (s.moveHome cl ks).updCluster cl fun c => { c with
    cc := c.cc.map fun x => if inRange (128 * line) 128 x.key then { x with val := none, dirty := false, bad := false } else x }

/-- A die's RDC lets a line go. -/
def State.rdcEvict (d : Nat) (s : State) (line : Nat) : State :=
  s.updDie d fun x => { x with rdc := x.rdc.filter fun (b : RdcByte) => !inRange (128 * line) 128 b.key }

/-- Let lines go until no more than `room` are held; a list of at most `room` bytes needs no look. -/
def State.trim (s : State) (room : Nat) (keys : List Nat) (drop : State → Nat → State) : State :=
  if keys.length ≤ room then s
  else
    let ls := linesOfKeys keys
    State.evict drop (ls.length - room) ls s

/-- The keys of the bytes whose data a cluster cache holds. -/
def Cluster.dataKeys (c : Cluster) : List Nat := (c.cc.filter fun x => x.val.isSome).map CcByte.key

/-- No cache holds more lines than it has room for. -/
def State.trimAll (s : State) : State :=
  let s := (List.range 32).foldl (fun (s : State) c => s.trim (s.core c).l1Room ((s.core c).l1.map L1Byte.key) (State.l1Evict c)) s
  let s := (List.range 8).foldl (fun (s : State) c => s.trim ccRoom (s.cluster c).dataKeys (State.ccEvict c)) s
  (List.range 4).foldl (fun (s : State) d =>
    s.trim ((s.part (d / s.dieCount)).carve / 128) ((s.die d).rdc.map RdcByte.key) (State.rdcEvict d)) s

/-! ## Device reads and writes of physical memory -/

/-- Send a message out. -/
def State.send (s : State) (k : MsgKind) (part : Nat) (args : List Nat) : State :=
  { s with out := s.out ++ [⟨k, part, args⟩] }

/-- A device agent needs device lines that the host holds: the home sends a back-invalidation snoop for each, and the host,
which gives them up, answers before the request goes on (R276; log entry 21). The application cores' caches give up theirs
unasked. -/
def State.snoopHost (s : State) (k n : Nat) : State :=
  let hit := inRange (k / 64) ((k + n - 1) / 64 - k / 64 + 1)
  let part := partOfKey k
  let lines := (s.part part).hostHeld.filter hit
  if lines.isEmpty then s
  else
    { (s.updPart part fun p => { p with hostHeld := p.hostHeld.filter fun l => !hit l }) with
      out := s.out ++ lines.map fun l => ⟨.backInvalidate, part, [l % 2 ^ 50]⟩ }

/-- The application cores' caches let go of lines that another agent writes (R142). -/
def State.hartsForget (s : State) (k n : Nat) : State :=
  { s with harts := s.harts.map fun (h : Hart) => { h with
      held := h.held.filter fun l => !inRange (k / 64) ((k + n - 1) / 64 - k / 64 + 1) l } }

/-- Bytes of a partition's physical memory as the device's own accesses read them at the home; bytes of nothing read 0. -/
def State.physRead (s : State) (part pa n : Nat) : State × List Byte :=
  (List.range n).foldl (fun (r : State × List Byte) i =>
    match r.1.keyOf part (pa + i) with
    | some k =>
      let (s, b) := ((r.1.cry k).snoopHost k 1).homeRead k 1
      (s, r.2 ++ b)
    | none => (r.1, r.2 ++ [0])) (s, [])

/-- Bytes written at the home by the device itself; bytes of nothing are discarded. -/
def State.physWrite (s : State) (part pa : Nat) (bs : List Byte) : State :=
  match s.keyOf part pa with
  | some k => ((((s.cry k).snoopHost k bs.length).hartsForget k bs.length).homeWrite k bs).clearPoison k bs.length
  | none => s

end Sys2Proof.Machine
end

