-- ==== Sys2Proof/Machine/Lanes.lean ====
section
/-!
DEFINITION. Lanes and groups: who is live and eligible (R5, R20, R22), registers, scalars and predicates (R40 to R46,
R27), the state registers as MFS reads them (R47 to R51), advancing past an instruction (R23, R63, R109).
-/
namespace Sys2Proof.Machine

/-! ## Objects by name -/

def State.group? (s : State) (gid : Nat) : Option Group := s.groups.find? fun g => g.gid == gid
def State.team? (s : State) (tid : Nat) : Option Team := s.teams.find? fun t => t.tid == tid
def State.span? (s : State) (sid : Nat) : Option Span := s.spans.find? fun x => x.sid == sid
def State.grid? (s : State) (uid : Nat) : Option Grid := s.grids.find? fun x => x.uid == uid
def State.op? (s : State) (id : Nat) : Option AOp := s.ops.find? fun x => x.id == id

def State.updGroup (s : State) (gid : Nat) (f : Group → Group) : State :=
  { s with groups := s.groups.map fun g => if g.gid == gid then f g else g }
def State.setGroup (s : State) (g : Group) : State := s.updGroup g.gid fun _ => g
def State.updTeam (s : State) (tid : Nat) (f : Team → Team) : State :=
  { s with teams := s.teams.map fun t => if t.tid == tid then f t else t }
def State.updSpan (s : State) (sid : Nat) (f : Span → Span) : State :=
  { s with spans := s.spans.map fun x => if x.sid == sid then f x else x }
def State.updGrid (s : State) (uid : Nat) (f : Grid → Grid) : State :=
  { s with grids := s.grids.map fun x => if x.uid == uid then f x else x }
def State.updOp (s : State) (id : Nat) (f : AOp → AOp) : State :=
  { s with ops := s.ops.map fun x => if x.id == id then f x else x }

/-- The span of a group's team. -/
def State.spanOf (s : State) (g : Group) : Option Span := (s.team? g.tid).bind fun t => s.span? t.sid
def State.gridOf (s : State) (g : Group) : Option Grid := (s.spanOf g).bind fun x => s.grid? x.uid

/-- A new name for a live object. -/
def State.take (s : State) : State × Nat := ({ s with fresh := s.fresh + 1 }, s.fresh)

def GKind.isHandler : GKind → Bool
  | .ordinary => false
  | .handler _ _ _ => true

/-- A handler group that is not delegated (R306). -/
def GKind.isFull : GKind → Bool
  | .handler _ _ d => !d
  | .ordinary => false

/-! ## Lanes -/

/-- What a lane number outside 0 to 31 stands for: no live lane. -/
def deadLane : Lane := { exited := true }

def Group.lane (g : Group) (l : Nat) : Lane := g.lanes.getD l deadLane

def Group.mapLanes (g : Group) (f : Nat → Lane → Lane) : Group := { g with lanes := imap f 0 g.lanes }

def Group.updLane (g : Group) (l : Nat) (f : Lane → Lane) : Group := { g with lanes := upd l f g.lanes }

/-- R20. -/
def Lane.live (x : Lane) : Bool := !x.exited

/-- R22, R293. -/
def Lane.eligible (x : Lane) : Bool := !x.exited && x.hold == .free && x.wait == .none

/-- The lane is frozen, not merely held (R293, R294). -/
def Lane.isFrozen (x : Lane) : Bool :=
  match x.hold with
  | .frozen _ => true
  | _ => false

/-- Where the lane stands for R22: at the record's PC while a replay is pending (R312). -/
def Lane.at (x : Lane) : DWord :=
  match x.replay with
  | some r => r.pc
  | none => x.pc

def Group.live (g : Group) (l : Nat) : Bool := (g.lane l).live
def Group.eligible (g : Group) (l : Nat) : Bool := (g.lane l).eligible

def Group.liveLanes (g : Group) : List Nat := lanes32.filter g.live
def Group.eligibleLanes (g : Group) : List Nat := lanes32.filter g.eligible

/-- Number of live lanes (NLANE, R18). -/
def Group.nlane (g : Group) : Nat := g.liveLanes.length

/-- The issue address (R22). -/
def Group.issueAddr (g : Group) : Option DWord :=
  (minNat (g.eligibleLanes.map fun l => (g.lane l).at.toNat)).map (BitVec.ofNat 64)

/-- The replay that issues next, if the lanes at the issue address include one: that of the lowest such lane. -/
def Group.issueReplay (g : Group) : Option Replay :=
  match g.issueAddr with
  | none => none
  | some ia => (g.eligibleLanes.filter fun l => (g.lane l).at == ia).findSome? fun l => (g.lane l).replay

/-- The lane joins an issue at its address (R5, R312): a replay is made under the ordinary rules, with whatever else stands there,
but of a group-collective instruction with the lanes of its mask alone. Replays of words that differ stay apart (log entry
15). -/
def Lane.joins (x : Lane) (now : Option Replay) : Bool :=
  match x.replay, now with
  | none, none => true
  | none, some r => r.set.isNone
  | some _, none => false
  | some q, some r => q.set == r.set && (q.fetch || r.fetch || q.words == r.words)

/-- The lane stands at the issue (R22, R23): eligible, at the issue address, and one that joins what issues there. -/
def Group.stands (g : Group) (l : Nat) : Bool :=
  g.eligible l && some (g.lane l).at == g.issueAddr && (g.lane l).joins g.issueReplay

/-- The guard enables the lane (R109). -/
def Lane.enabled (x : Lane) : Bool := x.guardCnt == 0 || x.guardEn

/-- The lane takes part in the issue (R5). -/
def Group.takes (g : Group) (l : Nat) : Bool := g.stands l && (g.lane l).enabled

/-- The access waits for a translation alone. -/
def AccWait.isAts : AccWait → Bool
  | .ats _ _ => true
  | _ => false

/-- The access has left for a host's completer. -/
def AccWait.isSent : AccWait → Bool
  | .host _ => true
  | _ => false

def AtClass.rel : AtClass → Bool
  | .release => true
  | .acqRel => true
  | _ => false
def AtClass.acq : AtClass → Bool
  | .acquire => true
  | .acqRel => true
  | _ => false

/-- The group waits for the access. It goes on while a PGREQ waits, while LD.nr, PRES or PRF waits for a translation, and once a
RED, or an ATOM with D 126 that is no acquire, has left (R178, R181, R182, R186). -/
def PendAcc.blocks (a : PendAcc) : Bool :=
  match a.instr with
  | .pgreq _ => false
  | .ldNr _ | .pres _ | .prf _ => a.lanes.any fun q => !q.2.isAts
  | .red _ => a.lanes.any fun q => !q.2.isSent
  | .atom o => o.d != .zero || AtClass.acq o.cls || a.lanes.any fun q => !q.2.isSent
  | _ => true

/-- Accesses of the lanes that the group went on past, LD.nr and sent atomics, and that are not performed yet: what orders them,
and an access to the same bytes, waits for them (R179, R253, R256, R260, R275). -/
def Group.running (g : Group) : List (PendAcc × LaneAcc × AccWait) :=
  (g.accs.map fun a => match a.instr with
    | .ldNr _ | .red _ | .atom _ => a.lanes.map fun q => (a, q)
    | _ => []).flatten

/-- An access that the group waits for is not performed yet, in a lane that is not frozen (R348). -/
def Group.blocked (g : Group) : Bool := g.accs.any fun a => a.blocks && a.lanes.any fun q => !(g.lane q.1.lane).isFrozen

/-- With no access left to wait for but those of frozen lanes (R348), the group issues again. -/
def Group.unpark (g : Group) : Group := if g.park = .page && !g.blocked then { g with park := .none } else g

/-- Accesses that it must wait for park the group: those of lanes that are no longer frozen (R348), and one that it went on past and
that now waits for a page (R247). -/
def Group.repark (g : Group) : Group := if g.park = .none && g.blocked then { g with park := .page } else g

/-! ## Registers -/

def Lane.name (x : Lane) (n : Nat) : Word := ((kget Prod.fst n x.names).map Prod.snd).getD 0

/-- A write gives the name a value (R42). -/
def Lane.setName (x : Lane) (n : Nat) (w : Word) : Lane := { x with names := kset Prod.fst (n, w) x.names }

/-- Predicate p (R45): p63 reads 1. -/
def Lane.pred (x : Lane) (p : Nat) : Bool := p == 63 || x.preds.getLsbD p

/-- Write predicate p; p63 discards (R45). -/
def Lane.setPred (x : Lane) (p : Nat) (b : Bool) : Lane :=
  if 63 ≤ p then x
  else { x with preds := if b then x.preds ||| (1#64 <<< p) else x.preds &&& ~~~(1#64 <<< p) }

/-- A predicate code (R103). -/
def Lane.predCode (x : Lane) (c : BitVec 7) : Bool :=
  let p := x.pred (c.toNat % 64)
  if c.getLsbD 6 then !p else p

/-- The copy of a scalar that a lane holds (R27); a lane with no listed copy holds the initial 0. -/
def Group.scalar (g : Group) (r l : Nat) : Word :=
  ((g.scal.find? fun c => c.r == r && hasLane c.lanes l).map ScCopy.val).getD 0

/-- Give lanes a new copy of a scalar (R27). -/
def Group.newCopy (g : Group) (r : Nat) (m : Lanes) (v : Word) : Group :=
  let kept := g.scal.map fun c => if c.r == r then { c with lanes := c.lanes &&& ~~~m } else c
  { g with scal := (kept.filter fun c => c.lanes != 0) ++ [⟨r, m, v⟩] }

/-- Write the copy that a lane holds, for every lane that holds it (R54, R311). -/
def Group.pokeScalar (g : Group) (r l : Nat) (v : Word) : Group :=
  { g with scal := g.scal.map fun c => if c.r == r && hasLane c.lanes l then { c with val := v } else c }

/-- The register `k` members after `r` in a pair, quad or run (R46). -/
def regPlus (r : Reg) (k : Nat) : Reg :=
  match r with
  | .v n => if h : n.val + k < 112 then .v ⟨n.val + k, h⟩ else .zero
  | .s n => if h : n.val + k < 14 then .s ⟨n.val + k, h⟩ else .zero
  | .zero => .zero

/-- The absolute name of a window name (R41). -/
def Lane.abs (x : Lane) (n : Nat) : Nat := x.wbase.toNat + n

/-- A register of a lane (R41, R44, R60). -/
def Group.reg (g : Group) (l : Nat) (r : Reg) : Word :=
  match r with
  | .v n => (g.lane l).name ((g.lane l).abs n.val)
  | .s n => g.scalar n.val l
  | .zero => 0

/-- A pair, low word in the even member (R46). -/
def Group.pair (g : Group) (l : Nat) (r : Reg) : DWord := g.reg l (regPlus r 1) ++ g.reg l r

/-- `n` words from a register on. -/
def Group.regs (g : Group) (l : Nat) (r : Reg) : Nat → List Word
  | 0 => []
  | n + 1 => g.reg l r :: g.regs l (regPlus r 1) n

/-- A 32-bit source (R61). -/
def Group.src (g : Group) (l : Nat) : Src → Word
  | .reg r => g.reg l r
  | .lit w => w

/-- A 64-bit source; a literal is sign-extended (R61). -/
def Group.src64 (g : Group) (l : Nat) : Src → DWord
  | .reg r => g.pair l r
  | .lit w => w.signExtend 64

/-- A source of `n` words; a literal is sign-extended (R176). -/
def Group.srcWords (g : Group) (l : Nat) (x : Src) (n : Nat) : List Word :=
  match x with
  | .reg r => g.regs l r n
  | .lit w => wordsOf (w.signExtend 64).toNat n

/-- The absolute register id behind a register: a name, 1024 + a scalar; none for `zero`. -/
def Group.regId (g : Group) (l : Nat) (r : Reg) : Option Nat :=
  match r with
  | .v n => some ((g.lane l).abs n.val)
  | .s n => some (1024 + n.val)
  | .zero => none

/-- The ids of `n` registers from `r`. -/
def Group.regIds (g : Group) (l : Nat) (r : Reg) : Nat → List Nat
  | 0 => []
  | n + 1 => (g.regId l r).toList ++ g.regIds l (regPlus r 1) n

/-- Write one absolute register id in one lane: a name, the copy held, or a predicate (R41, R27, R175). Used where a
result lands in registers fixed at issue. -/
def Group.putId (g : Group) (l id : Nat) (w : Word) : Group :=
  if id < 1024 then (if id < g.allot then g.updLane l fun x => x.setName id w else g)
  else if id < 2048 then g.pokeScalar (id - 1024) l w
  else g.updLane l fun x => x.setPred (id - 2048) (w != 0)

/-! ## State registers (R18, R47 to R51) -/

def Grid.field (x : Grid) (off n : Nat) : Nat := leNat ((x.rcd.drop off).take n)

/-- Extents (R231). -/
def Grid.gx (x : Grid) : Nat := x.field 0x10 4
def Grid.gy (x : Grid) : Nat := x.field 0x14 2
def Grid.gz (x : Grid) : Nat := x.field 0x16 2
def Grid.shape (x : Grid) : Nat := x.field 0x18 4
def Grid.pgrp (x : Grid) : Nat := x.shape % 64
def Grid.cgrp (x : Grid) : Nat := x.shape / 2 ^ 8 % 64
def Grid.spanSize (x : Grid) : Nat := x.shape / 2 ^ 14 % 4 + 1
def Grid.pbud (x : Grid) : Nat := x.shape / 2 ^ 16 % 128
def Grid.cbud (x : Grid) : Nat := x.shape / 2 ^ 23 % 128
def Grid.prio (x : Grid) : Nat := x.field 0x28 4 / 16 % 8
def Grid.teamCount (x : Grid) : Nat := x.gx * x.gy * x.gz

/-- The groups of a team (R15). -/
def Grid.groupCount (x : Grid) : Nat := x.pgrp + x.cgrp

/-- Arithmetic clocks that have passed before a step (R48). -/
def clockAt : Nat → Nat
  | 0 => 0
  | n + 1 => clockAt n + Config.elapsed n

/-- CLOCK of a partition (R47, R48). -/
def State.clockOf (s : State) (part : Nat) : Nat := clockAt s.beat - clockAt (s.part part).beat0


def QCounts.word (q : QCounts) : Nat := q.copy + q.matrix * 2 ^ 8 + q.gather * 2 ^ 16 + q.coll * 2 ^ 24

/-- Grid, team indices, span place and handle of a group: a lamplighter's are those of the frozen group (R16, R18, R302). -/
def State.standing (s : State) (g : Group) : Served :=
  match g.served with
  | some v => v
  | none =>
    let team := s.team? g.tid
    let span := s.spanOf g
    let grid := s.gridOf g
    let t := (team.map Team.t).getD 0
    let gx := (grid.map Grid.gx).getD 1
    let gy := (grid.map Grid.gy).getD 1
    { uid := (grid.map Grid.uid).getD 0
      x := t % gx
      y := t / gx % gy
      z := t / (gx * gy)
      spanrk := ((span.map Span.count).getD 0) * 256 + (team.map Team.rank).getD 0
      gridh := (grid.map Grid.gridh).getD 0 }

/-- A state register as a lane of a group reads it. -/
def State.sreg (s : State) (g : Group) (l : Nat) (r : SReg) : Nat :=
  match r with
  | .laneix => l
  | .grpix => g.grpix
  | .teamx => (s.standing g).x
  | .teamy => (s.standing g).y
  | .teamz => (s.standing g).z
  | .roleix =>
    if g.kind.isHandler then 0
    else if g.producer then g.grpix
    else 256 + (g.grpix - ((s.gridOf g).map Grid.pgrp).getD 0)
  | .spanrk => (s.standing g).spanrk
  | .gridh => (s.standing g).gridh.toNat
  | .nlane => g.nlane
  | .clock => s.clockOf g.part
  | .stat => g.stat.toNat
  | .allot => g.budget * 2 ^ 16 + g.allot
  | .wbasev => (g.lane l).wbase.toNat
  | .link => (g.lane l).link.toNat
  | .qcnt => g.qcnt.word
  | .lpc => (g.lane l).at.toNat
  | .cap0 => (g.caps.getD 0 0).toNat
  | .cap1 => (g.caps.getD 1 0).toNat
  | .cap2 => (g.caps.getD 2 0).toNat
  | .cap3 => (g.caps.getD 3 0).toNat
  | .frecp => g.frecp.toNat
  | .hmode => if g.kind.isHandler then 1 else 0
  | .ctxid => g.ctx

/-- The writable bits of STAT (R49). -/
def statMask : Word := 0x1F9F

/-! ## Advancing -/

/-- A lane has advanced past one instruction: lookahead counts run down (R63); an entry with no lane left to judge and
its result landed is forgotten. -/
def Owed.step (o : Owed) (l : Nat) : Owed :=
  { o with lanes := o.lanes.map fun x => if x.lane == l then { x with left := x.left - 1 } else x }

def Owed.spent (o : Owed) : Bool := o.landed && (o.la15 || o.lanes.all fun x => x.left == 0)

/-- The lane moves to `pc` past an instruction: guard count and lookahead run down, a replay is over (R23, R63, R109,
R312). A replayed lane that had already advanced continues where it stood and counts nothing again. -/
def Group.pass (g : Group) (l : Nat) (pc : DWord) : Group :=
  match (g.lane l).replay.bind Replay.cont with
  | some c => g.updLane l fun x => { x with pc := c, replay := x.more.head?, more := x.more.tail, wait := .none }
  | none =>
    let g := g.updLane l fun x =>
      { x with pc := pc, replay := x.more.head?, more := x.more.tail, wait := .none, guardCnt := x.guardCnt - 1 }
    { g with owed := (g.owed.map fun o => o.step l).filter fun o => !o.spent }

end Sys2Proof.Machine
end

