-- ==== Sys2Proof/Machine/Flags.lean ====
section
/-!
DEFINITION. The STAT flags (R49) and the trap enables on them (R315).
-/
namespace Sys2Proof.Machine

/-- Flags as STAT bits 4:0: NV, DZ, OF, SAT, NX from bit 0. -/
abbrev Flags := BitVec 5

def fNV : Flags := 1
def fDZ : Flags := 2
def fOF : Flags := 4
def fSAT : Flags := 8
def fNX : Flags := 16

/-- A raised flag stays set until MTS clears it (R49). -/
def raiseFlags (stat : Word) (f : Flags) : Word := stat ||| f.setWidth 32

/-- SCDIV, bit 7 (R28, R49). -/
def raiseScdiv (stat : Word) : Word := stat ||| 0x80

/-- The raised flags whose trap enable is 1: TNV to TNX stand in bits 12:8 (R49, R315). -/
def trapped (stat : Word) (f : Flags) : Flags := f &&& stat.extractLsb' 8 5

def orFlags : List Flags → Flags
  | [] => 0
  | f :: fs => f ||| orFlags fs

end Sys2Proof.Machine
end

