-- ==== Sys2Proof/Machine/Scratch.lean ====
section
/-!
DEFINITION. A team's storage: scratchpad bytes and line presence (R132 to R134), locked source bytes (R202),
accumulators (R220), and barrier objects with their phases, marks and waiters (R242 to R246).
-/
namespace Sys2Proof.Machine

/-! ## Scratchpad -/

def lineState (t : Team) (ln : Nat) : LineState := (kget LineState.line ln t.lines).getD ⟨ln, 0, false⟩

/-- R132. -/
def LineState.present (x : LineState) : Bool := x.count == 0 && !x.held

def putLine (t : Team) (x : LineState) : Team :=
  { t with lines := if x.present then kdel LineState.line x.line t.lines else kset LineState.line x t.lines }

/-- The lines that `[off, off + n)` touches. -/
def linesOf (off n : Nat) : List Nat :=
  if n = 0 then [] else (List.range ((off + n - 1) / 128 - off / 128 + 1)).map (· + off / 128)

/-- The first absent line of a range (R134). -/
def Team.absent (t : Team) (off n : Nat) : Option Nat := (linesOf off n).find? fun ln => !(lineState t ln).present

/-- Count an operation into lines at its issue (R133). -/
def Team.countIn (t : Team) (lns : List Nat) : Team :=
  lns.foldl (fun t ln => let x := lineState t ln; putLine t { x with count := x.count + 1 }) t

/-- Its writes are complete (R133). -/
def Team.countOut (t : Team) (lns : List Nat) : Team :=
  lns.foldl (fun t ln => let x := lineState t ln; putLine t { x with count := x.count - 1 }) t

/-- PSET and PCLR (R133, R207). -/
def Team.hold (t : Team) (lns : List Nat) (b : Bool) : Team :=
  lns.foldl (fun t ln => putLine t { lineState t ln with held := b }) t

def Team.read (t : Team) (off n : Nat) : List Byte := bread t.scratch off n

/-- A write that covers a whole 16-byte unit clears its poison (R357). -/
def Team.write (t : Team) (off : Nat) (bs : List Byte) : Team :=
  { t with
    scratch := bwrite t.scratch off bs
    poison := t.poison.filter fun u => !(off ≤ u * 16 && u * 16 + 16 ≤ off + bs.length) }

/-- Units become poisoned. -/
def Team.addPoison (t : Team) (us : List Nat) : Team :=
  { t with poison := us.foldl (fun ps u => if ps.contains u then ps else ps ++ [u]) t.poison }

def Team.poisoned (t : Team) (off n : Nat) : Bool := t.poison.any fun u => u * 16 < off + n && off < u * 16 + 16

/-- The scratchpad source of an operation that has not been read yet (R202, R205, R217, R227). -/
def AOp.source (o : AOp) : Option (Nat × Nat) :=
  if o.srcRead then none
  else match o.kind with
    | .sta _ src len _ => some (src, len)
    | .coll _ _ src _ len => some (src, len)
    | .tdefSp _ _ src => some (src, 8192)
    | .accst _ src len => some (src, len)
    | _ => none

/-- Some operation issued before `before` has yet to read source bytes in the range (R200, R202). -/
def State.locked (s : State) (tid off n before : Nat) : Bool :=
  s.ops.any fun o => o.tid == tid && o.id < before &&
    match o.source with
    | some (a, len) => decide (a < off + n ∧ off < a + len)
    | none => false

/-! ## Accumulators -/

def Team.accRead (t : Team) (off n : Nat) : List Byte := bread t.acc off n
def Team.accWrite (t : Team) (off : Nat) (bs : List Byte) : Team :=
  { t with
    acc := bwrite t.acc off bs
    accBad := t.accBad.filter fun u => !(off ≤ u && u + 4 ≤ off + bs.length) }
def Team.accWord (t : Team) (off : Nat) : Word := BitVec.ofNat 32 (leNat (t.accRead off 4))
def Team.setAccWord (t : Team) (off : Nat) (w : Word) : Team := t.accWrite off (leBytes 4 w.toNat)

/-! ## Barrier objects (R242) -/

/-- The fields of an object's 16 bytes; owed counts as signed. -/
structure Bar where
  exp : Nat
  arr : Nat
  owe0 : Int
  owe1 : Int
  phase : Nat
  inc : Nat
  deriving DecidableEq, Repr

def toI32 (n : Nat) : Int := (BitVec.ofNat 32 n).toInt

def Team.bar (t : Team) (off : Nat) : Bar where
  exp := leNat (t.read off 2)
  arr := leNat (t.read (off + 2) 2)
  owe0 := toI32 (leNat (t.read (off + 4) 4))
  owe1 := toI32 (leNat (t.read (off + 8) 4))
  phase := leNat (t.read (off + 12) 3)
  inc := leNat (t.read (off + 15) 1)

def Bar.bytes (b : Bar) : List Byte :=
  leBytes 2 b.exp ++ leBytes 2 b.arr ++ leBytes 4 (BitVec.ofInt 32 b.owe0).toNat ++
  leBytes 4 (BitVec.ofInt 32 b.owe1).toNat ++ leBytes 3 b.phase ++ leBytes 1 b.inc

def Team.setBar (t : Team) (off : Nat) (b : Bar) : Team := { t with scratch := bwrite t.scratch off b.bytes }

/-- The owed count of a phase (R242). -/
def Bar.owed (b : Bar) (phase : Nat) : Int := if phase % 2 = 0 then b.owe0 else b.owe1

def Bar.addOwed (b : Bar) (phase : Nat) (d : Int) : Bar :=
  if phase % 2 = 0 then { b with owe0 := b.owe0 + d } else { b with owe1 := b.owe1 + d }

def BarObj.key (x : BarObj) : Nat := 2 * x.off + (if x.span then 1 else 0)

def Team.barObj? (t : Team) (off : Nat) (sp : Bool) : Option BarObj :=
  t.bars.find? fun x => x.off == off && x.span == sp

def Team.putObj (t : Team) (x : BarObj) : Team := { t with bars := kset BarObj.key x t.bars }

/-- Handle fields (R243). -/
def handleInc (h : Word) : Nat := h.toNat / 2 ^ 24
def handleSp (h : Word) : Bool := h.getLsbD 18
def handleOff (h : Word) : Nat := h.toNat % 2 ^ 18 * 16

/-- A barrier object's place: the team whose scratchpad holds it, and its offset there (R242, R243). -/
structure BarPlace where
  tid : Nat
  off : Nat
  span : Bool
  deriving DecidableEq, Repr

/-- Rank r of a span. -/
def State.rankTeam (s : State) (sid r : Nat) : Option Team := s.teams.find? fun t => t.sid == sid && t.rank == r

/-- The place of a barrier of a team by offset, none where it lies beyond the allocation or region (R330). -/
def State.barPlace (s : State) (t : Team) (sp : Bool) (off : Nat) : Option BarPlace :=
  if sp then
    match s.span? t.sid, s.rankTeam t.sid 0 with
    | some x, some r0 => if off < 16 * x.sbarMax then some ⟨r0.tid, x.sbarBase + off, true⟩ else none
    | _, _ => none
  else if off + 16 ≤ t.alloc then some ⟨t.tid, off, false⟩ else none

/-- Objects in use, of the team's or of the span's kind. -/
def Team.barsUsed (t : Team) (sp : Bool) : Nat := (t.bars.filter fun x => x.span == sp).length

/-- Whether the object has a slot or may take one (R242, R330). -/
def State.barRoom (s : State) (p : BarPlace) : Bool :=
  match s.team? p.tid with
  | none => false
  | some t =>
    (t.barObj? p.off p.span).isSome ||
      decide (t.barsUsed p.span < (if p.span then ((s.span? t.sid).map Span.sbarMax).getD 0 else t.barMax))

/-- The object, given its slot at its first operation. -/
def State.barOpen (s : State) (p : BarPlace) : State :=
  s.updTeam p.tid fun t => match t.barObj? p.off p.span with
    | some _ => t
    | none => t.putObj { off := p.off, span := p.span }

/-- The working phase of a group at an object (R242). -/
def State.workPhase (s : State) (p : BarPlace) (gid : Nat) : Nat :=
  match s.team? p.tid with
  | none => 0
  | some t =>
    let ph := (t.bar p.off).phase
    match t.barObj? p.off p.span with
    | some x => if x.ahead.contains gid then (ph + 1) % 2 ^ 24 else ph
    | none => ph

/-- R244: the wait for phase b is over when PHASE is past it. -/
def phasePast (phase : Nat) (b : Word) : Bool :=
  let d := (phase + 2 ^ 24 - b.toNat % 2 ^ 24) % 2 ^ 24
  1 ≤ d && d < 2 ^ 23

/-- Group arrivals that complete a phase (R242). -/
def State.barExpected (s : State) (p : BarPlace) (b : Bar) : Nat :=
  if b.exp = 0 then
    match s.team? p.tid with
    | none => 0
    | some t =>
      match s.span? t.sid with
      | none => 0
      | some x => ((s.grid? x.uid).map Grid.groupCount).getD 0 * (if p.span then x.count else 1)
  else b.exp

/-- Release every lane that waits at an object and whose condition holds (R244, R246): by a completed phase with PS 1,
by a changed incarnation with PS 0. -/
def State.barWake (s : State) (p : BarPlace) : State :=
  match s.team? p.tid with
  | none => s
  | some t =>
    let b := t.bar p.off
    let release := fun (g : Group) (l : Nat) =>
      match (g.lane l).wait with
      | .bar h ph ps next =>
        let mine := match s.team? g.tid with
          | some tg => decide (s.barPlace tg (handleSp h) (handleOff h) = some p)
          | none => false
        if mine && (g.lane l).live && (g.lane l).hold == .free then
          if handleInc h != b.inc then (g.updLane l fun x => x.setPred ps.toNat false).pass l next
          else if phasePast b.phase ph then (g.updLane l fun x => x.setPred ps.toNat true).pass l next
          else g
        else g
      | _ => g
    { s with groups := s.groups.map fun g => if g.kind.isHandler then g else lanes32.foldl release g }

/-- The unit's test for phase completion, after each operation and credit (R242, R244). -/
def State.barTest (s : State) (p : BarPlace) : State :=
  match s.team? p.tid with
  | none => s
  | some t =>
    let b := t.bar p.off
    let s :=
      if b.arr = s.barExpected p b && b.owed b.phase = 0 then
        let b := { b with phase := (b.phase + 1) % 2 ^ 24, arr := 0 }
        s.updTeam p.tid fun t =>
          let t := t.setBar p.off b
          match t.barObj? p.off p.span with
          | some x => t.putObj { x with ahead := [] }
          | none => t
      else s
    s.barWake p

/-- Every live lane of the group is marked at the object, and none is frozen, which counts as not arrived: the group arrives, a
release at core scope for a team barrier and at cluster scope for a span barrier (R244, R246, R298). -/
def State.barArrive (s : State) (p : BarPlace) (gid : Nat) : State :=
  match s.team? p.tid, s.group? gid with
  | some t, some g =>
    match t.barObj? p.off p.span with
    | none => s
    | some x =>
      let m := ((x.marks.find? fun y => y.1 == gid).map Prod.snd).getD 0
      if m != 0 && !g.liveLanes.isEmpty && g.liveLanes.all fun l => hasLane m l && !(g.lane l).isFrozen then
        let s := if p.span then s.releaseCluster g.core else s
        let b := t.bar p.off
        let x := { x with
          marks := x.marks.filter fun y => y.1 != gid
          ahead := (x.ahead.filter (· != gid)) ++ [gid] }
        (s.updTeam p.tid fun t => (t.setBar p.off { b with arr := (b.arr + 1) % 2 ^ 16 }).putObj x).barTest p
      else s
  | _, _ => s

/-- Mark lanes arrived, then test the group's arrival (R244). -/
def State.barMark (s : State) (p : BarPlace) (gid : Nat) (m : Lanes) : State :=
  let s := s.updTeam p.tid fun t => match t.barObj? p.off p.span with
    | some x =>
      let old := ((x.marks.find? fun y => y.1 == gid).map Prod.snd).getD 0
      t.putObj { x with marks := (x.marks.filter fun y => y.1 != gid) ++ [(gid, old ||| m)] }
    | none => t
  s.barArrive p gid

/-- Every object at which a group has marks is tested again when one of its lanes goes, or is frozen no longer (R298, R244). -/
def State.barRetest (s : State) (gid : Nat) : State :=
  s.teams.foldl (fun s t => t.bars.foldl (fun s x =>
    if x.marks.any (fun y => y.1 == gid) then s.barArrive ⟨t.tid, x.off, x.span⟩ gid else s) s) s

/-- Some lane waits at the object (R330). -/
def State.barWaiters (s : State) (p : BarPlace) : Bool :=
  s.groups.any fun g => match s.team? g.tid with
    | some tg => !g.kind.isHandler && lanes32.any fun l => (g.lane l).live && match (g.lane l).wait with
        | .bar h _ _ _ => decide (s.barPlace tg (handleSp h) (handleOff h) = some p)
        | _ => false
    | none => false

/-- BARINIT and BARINV (R244): new incarnation, counts cleared, marks and working phases cleared. -/
def State.barReset (s : State) (p : BarPlace) (exp : Option Nat) : State :=
  let s := s.updTeam p.tid fun t =>
    let b := t.bar p.off
    let b := { b with inc := (b.inc + 1) % 256, arr := 0, owe0 := 0, owe1 := 0 }
    let b := match exp with
      | some e => { b with exp := e, phase := 0 }
      | none => b
    (t.setBar p.off b).putObj { off := p.off, span := p.span }
  s.barTest p

/-- BAREXP (R244). -/
def State.barOwe (s : State) (p : BarPlace) (gid : Nat) (d : Int) : State :=
  let w := s.workPhase p gid
  (s.updTeam p.tid fun t => t.setBar p.off ((t.bar p.off).addOwed w d)).barTest p

/-- A credit of a delivery (R199, R245): discarded where its phase has completed or its incarnation has changed, which
sets BCDISC in the span status word of span `sid`. -/
def State.barCredit (s : State) (p : BarPlace) (k : Booking) (n : Nat) (sid : Nat) : State :=
  match s.team? p.tid with
  | none => s
  | some t =>
    let b := t.bar p.off
    let open? := k.phase == b.phase || k.phase == (b.phase + 1) % 2 ^ 24
    if b.inc = k.inc && open? then
      (s.updTeam p.tid fun t => t.setBar p.off (b.addOwed k.phase (-(n : Int)))).barTest p
    else s.updSpan sid fun x => { x with bcdisc := true }

end Sys2Proof.Machine
end

