-- ==== Sys2Proof/Machine/Ops.lean ====
section
/-!
DEFINITION. Taking an exception on this part: lanes freeze where they stand, a fault record is written, the exception's
state is saved in it (R293 to R300, R307, R309); and beside it the return: resuming lanes and resolving the record
(R301, R304, R312).
-/
namespace Sys2Proof.Machine

/-! ## Fault codes (R316) -/

def cIllegal : Nat := 0x0101
def cPrivileged : Nat := 0x0102
def cRegRange : Nat := 0x0103
def cLiteral : Nat := 0x0104
def cLookahead : Nat := 0x0105
def cNonuniform : Nat := 0x0106
def cFmtDivergence : Nat := 0x0107
def cFmtUnsupported : Nat := 0x0108
def cGuard : Nat := 0x0109
def cBreakpoint : Nat := 0x010A
def cTrapCall : Nat := 0x010B
def cMisaligned : Nat := 0x010C
def cWindow : Nat := 0x010D
def cArith : Nat := 0x010E
def cNotPresent : Nat := 0x0201
def cPermission : Nat := 0x0202
def cReservedBit : Nat := 0x0203
def cTag : Nat := 0x0204
def cAts : Nat := 0x0205
def cPageReq : Nat := 0x0206
def cScratch : Nat := 0x0207
def cAcc : Nat := 0x0208
def cAperture : Nat := 0x0209
def cPoison : Nat := 0x020A
def cHostAtomic : Nat := 0x020B
def cLinkDown : Nat := 0x020C
def cTimeout : Nat := 0x020D
def cIde : Nat := 0x020E
def cNoncanonical : Nat := 0x020F
def cLayout : Nat := 0x0301
def cMcast : Nat := 0x0302
def cBarBusy : Nat := 0x0303
def cBarStale : Nat := 0x0304
def cTileRedefine : Nat := 0x0305
def cTileName : Nat := 0x0306
def cQueue : Nat := 0x0307
def cMmatBlock : Nat := 0x0308
def cCap : Nat := 0x0401
def cNotFrozen : Nat := 0x0402
def cDouble : Nat := 0x0403

/-- KIND.ACC (R299). -/
def accNum : AccKind → Nat
  | .none => 0 | .fetch => 1 | .load => 2 | .store => 3 | .atomic => 4 | .engRead => 5 | .engWrite => 6 | .walk => 7
  | .pageReq => 8 | .tag => 9 | .granule => 10 | .wait => 11

/-! ## The record in memory (R299, R300) -/

/-- Words of a group-collective instruction (R294). -/
def collectiveWord (n : Nat) : Bool :=
  let op := bitsAt n 26 6
  op == 0x14 || op == 0x20 || op == 0x21 || op == 0x3D ||
    (op == 0x05 && (bitsAt n 0 4 == 1 || bitsAt n 0 4 == 2))

/-- The 64 bytes of a record (R299). -/
def Record.bytes (r : Record) : List Byte :=
  let nw := if r.nw0 then 0 else r.words.length - 1
  let info := (r.level % 8) * 2 ^ 6 + nw * 2 ^ 4 + (if r.deleg then 4 else 0) + (if r.late then 2 else 0)
    + (if r.grp then 1 else 0)
  let kind := match r.granule with
    | some (_, log2) => 2 ^ 13 + log2 * 2 ^ 8 + r.acc
    | none => r.acc
  leBytes 2 r.code ++ leBytes 2 info ++ leBytes 4 r.lanes.toNat ++ leBytes 8 r.pc.toNat ++ leBytes 8 r.faddr.toNat ++
  leBytes 8 ((r.granule.map Prod.fst).getD 0) ++ leBytes 4 kind ++ leBytes 4 r.gridh.toNat ++
  leBytes 4 (r.words.getD 0 0).toNat ++ leBytes 4 (r.words.getD 1 0).toNat ++ leBytes 4 (r.words.getD 2 0).toNat ++
  leBytes 4 (r.words.getD 3 0).toNat ++ leBytes 8 r.detail.toNat

/-- The core's fault-queue area, device physical (R300). -/
def State.fqArea (s : State) (core : Nat) : Nat :=
  let p := s.partOfCore core
  (s.part p).fqbase.toNat + 0x20000 * (core - s.firstCore p)

def State.writeArea (s : State) (core off : Nat) (bs : List Byte) : State :=
  s.physWrite (s.partOfCore core) (s.fqArea core + off) bs

/-- The lowest slot number not in use. -/
def freeSlot (used : List Nat) : Nat → Nat → Option Nat
  | _, 0 => none
  | n, fuel + 1 => if used.contains n then freeSlot used (n + 1) fuel else some n

def Core.freeFSlot (c : Core) : Option Nat := freeSlot (c.fslots.map FSlot.slot) 0 1024

/-- An early fault can be recorded: the queue has room for `n` records and none waits inside the core (R303). -/
def State.fqRoom (s : State) (core n : Nat) : Bool :=
  (s.core core).late.isEmpty && decide ((s.core core).fslots.length + n ≤ 1024)

/-- Write a record into a slot at device scope; it is pending from then on (R300). -/
def State.putRecord (s : State) (core slot : Nat) (r : Record) : State :=
  (s.writeArea core (64 * slot) r.bytes).updCore core fun c =>
    { c with fslots := kset FSlot.slot { slot := slot, rcd := r } c.fslots }

/-- Every record the device keeps for its cores. -/
def State.records (s : State) : List Record :=
  (s.cores.map fun c => c.fslots.map FSlot.rcd ++ c.late ++ c.second.toList).flatten

def State.record? (s : State) (rid : Nat) : Option Record := s.records.find? fun r => r.rid == rid

/-- Entry k of the core's capability table (R305): the word at its base, and GRIDH. -/
def State.capWrite (s : State) (core k : Nat) (w : Nat) (gridh : Word) : State :=
  s.writeArea core (0x10000 + 16 * k) (leBytes 4 w ++ leBytes 4 gridh.toNat ++ leBytes 8 0)

def State.capRead (s : State) (core k : Nat) : State × Nat × Nat :=
  let (s, bs) := s.physRead (s.partOfCore core) (s.fqArea core + 0x10000 + 16 * k) 8
  (s, leNat (bs.take 4), leNat (bs.drop 4))

/-- When no lane of a lamplighter's record remains frozen, the KIND of its capability entry becomes 0 (R305). -/
def State.capDrop (s : State) (core k : Nat) : State :=
  let (s, w, gh) := s.capRead core k
  if w / 256 % 4 = 1 then s.capWrite core k (w % 256) (BitVec.ofNat 32 gh) else s

/-! ## Ending a context (R309) -/

/-- The grid has finished its work: all spans issued and retired, every STA and every atomic at a host's completer visible (R240,
R268, R309). -/
def State.gridIdle (s : State) (g : Grid) : Bool :=
  g.issued && !(s.spans.any fun x => x.uid == g.uid) &&
    !(s.ops.any fun o => o.uid == g.uid) && !(s.part g.part).hostAtomics.any fun a => a.uid == some g.uid

/-- The spans of some grids are taken off their cores and out of the cellar, with their groups and handlers, records,
operations, monitors and holds (R309, R374, R378); their status words stay with the grids (R241). `more`: handlers that go with
them. -/
def State.removeWork (s : State) (uids : List Nat) (more : Group → Bool) : State :=
  let sids := (s.spans.filter fun x => uids.contains x.uid).map Span.sid
  let tids := (s.teams.filter fun t => sids.contains t.sid).map Team.tid
  let mine := fun (g : Group) => tids.contains g.tid || (g.served.any fun v => uids.contains v.uid) || more g
  let some' := fun (f : Span → Bool) (g : Grid) => s.spans.any fun x => uids.contains g.uid && x.uid == g.uid && f x
  let grids := s.grids.map fun (g : Grid) => { g with
    mcdisc := g.mcdisc || some' Span.mcdisc g
    collabs := g.collabs || some' Span.collabs g
    bcdisc := g.bcdisc || some' Span.bcdisc g
    engflt := g.engflt || some' Span.engflt g }
  let gids := (s.groups.filter mine).map Group.gid
  let gone := (s.ops.filter fun o => uids.contains o.uid).map AOp.id
  let s := (s.groups.filter mine).foldl (fun (s : State) g => match g.kind with
    | .handler k _ _ => s.capDrop g.core k
    | .ordinary => s) s
  { s with
    groups := s.groups.filter fun g => !mine g
    grids := grids
    teams := s.teams.filter fun t => !tids.contains t.tid
    spans := s.spans.filter fun x => !sids.contains x.sid
    ops := s.ops.filter fun o => !uids.contains o.uid
    monitors := s.monitors.filter fun m => !gids.contains m.gid
    migs := s.migs.filter fun m => !gids.contains m.gid
    clusters := s.clusters.map fun (c : Cluster) => { c with table := c.table.filter fun x => !gone.contains x.1 }
    granules := s.granules.map fun (g : Granule) =>
      let h := (g.teams.filter fun (t : TeamHold) => tids.contains t.tid).map TeamHold.holds
      { g with hold := g.hold - h.foldl (· + ·) 0, teams := g.teams.filter fun (t : TeamHold) => !tids.contains t.tid }
    cores := s.cores.map fun (c : Core) => { c with
      fslots := c.fslots.filter fun x => !gids.contains x.rcd.gid
      late := c.late.filter fun x => !gids.contains x.gid
      second := match c.second with
        | some r => if gids.contains r.gid then none else some r
        | none => none }
    parts := s.parts.map fun (p : Partition) => { p with
      hostAtomics := p.hostAtomics.filter fun a => !(gids.contains a.gid || a.uid.any uids.contains) } }

def State.removeGrids (s : State) (uids : List Nat) : State := s.removeWork uids fun _ => false

/-- Steps 1 to 3 of R309: spans, records, launches and engine operations of the context go, its queues are closed, its
accepted grids are reported failed with `code`. -/
def State.endContext (s : State) (part ctx code : Nat) : State :=
  let grids := s.grids.filter fun g => g.part == part && g.ctx == ctx
  let uids := grids.map Grid.uid
  let idle := (grids.filter s.gridIdle).map Grid.uid
  let s := s.removeWork uids fun g => g.kind.isHandler && g.part == part && g.ctx == ctx
  let s := { s with
    grids := s.grids.map fun (g : Grid) =>
      if uids.contains g.uid && decide (g.st = GridSt.queued) && !idle.contains g.uid then
        { g with st := .failed code, issued := true, depMet := true, depKey := none }
      else g }
  s.updPart part fun p => { p with
    qown := p.qown.map fun (w : Word) => if (w.setWidth 16).toNat = ctx then w &&& ~~~0x10000#32 else w
    launches := p.launches.filter fun x => x.ctx != ctx
    ctxs := p.ctxs.map fun (c : Ctx) => if c.ctx = ctx then { c with ended := true } else c }

/-! ## Freezing (R293 to R297, R303, R307) -/

/-- The codes present, ascending (R296). -/
def codesOf (fs : List (Nat × Flt)) : List Nat :=
  ((fs.map fun f => f.2.code).foldl (fun acc c => kset id c acc) [])

/-- What a fault leaves: the lanes frozen under the record, and with `grp` every other live lane held (R293, R294).
No PC, register or predicate changes. -/
def Group.freezeLanes (g : Group) (rid : Nat) (m : Lanes) (grp : Bool) : Group :=
  g.mapLanes fun l x =>
    if hasLane m l then { x with hold := .frozen rid }
    else if grp && x.live && x.hold == .free then { x with hold := .held rid }
    else x

/-- Place a record: an ordinary group's in a slot or, when none is free, inside the core; a handler's as the
second-level record, or the context ends by a double fault (R303, R307, R308). -/
def State.placeRecord (s : State) (g : Group) (r : Record) : State :=
  if g.kind.isHandler then
    let (s, code) := s.physRead (s.partOfCore g.core) (s.fqArea g.core + 0x11000) 2
    if leNat code != 0 then s.endContext g.part g.ctx cDouble
    else
      let s := (s.writeArea g.core 0x11000 r.bytes).updCore g.core fun c => { c with second := some r }
      { s with out := s.out ++ [⟨.secondLevel, g.part, [g.core]⟩] }
  else
    match (s.core g.core).late, (s.core g.core).freeFSlot with
    | [], some k =>
      let s := s.putRecord g.core k r
      if (s.core g.core).fslots.length = 768 then
        match s.spanOf g with
        | some x => s.updSpan x.sid fun x => { x with pre := some (.faults g.core) }
        | none => s
      else s
    | _, _ => s.updCore g.core fun c => { c with late := c.late ++ [r] }

/-- The first fault of each lane. -/
def firstPerLane (fs : List (Nat × Flt)) : List (Nat × Flt) :=
  fs.foldl (fun acc f => if acc.any fun y => y.1 == f.1 then acc else acc ++ [f]) []

/-- A late fault of lanes that stand frozen or held is kept until they go on (R295). -/
def Group.keepLater (g : Group) (fs : List (Nat × Flt)) (grp : Bool) (pc : DWord) (ws : List Word) : Group :=
  { g with later := g.later ++ fs.map fun f => { lane := f.1, flt := f.2, grp := grp, pc := pc, words := ws } }

/-- TAKING AN EXCEPTION: freeze the lanes of `fs` under one record per code, in ascending code order (R296). `pc` and
`ws` are the faulting instruction's; `late` and `grp` as R294, R295; `op` the engine operation that stopped. A lane reports
its first fault; one that is frozen or held already freezes for a late fault when it goes on. A record whose lanes went with
their context, by a double fault of an earlier record of the same issue, is not made. -/
def State.raise (s : State) (gid : Nat) (fs : List (Nat × Flt)) (late grp : Bool) (pc : DWord) (ws : List Word)
    (nw0 : Bool) (op : Option Nat) : State :=
  match s.group? gid with
  | none => s
  | some g =>
    let live := firstPerLane (fs.filter fun f => (g.lane f.1).live)
    let fs := live.filter fun f => (g.lane f.1).hold == .free
    let kept := live.filter fun f => (g.lane f.1).hold != .free
    let s := if late && op.isNone && !kept.isEmpty then s.updGroup gid fun g => g.keepLater kept grp pc ws else s
    (codesOf fs).foldl (fun s code =>
      if (s.group? gid).isNone then s else
      let mine := fs.filter fun f => f.2.code == code
      let m := maskOf fun l => mine.any fun f => f.1 == l
      match mine with
      | [] => s
      | f :: _ =>
        let (s, rid) := s.take
        let r : Record := {
          rid := rid
          gid := gid
          code := code
          lanes := m
          late := late
          level := f.2.level
          grp := grp && (lanes32.any fun l => g.live l && !hasLane m l)
          words := ws
          nw0 := nw0
          pc := pc
          faddr := f.2.faddr
          granule := f.2.granule
          acc := accNum f.2.acc
          gridh := (s.standing g).gridh
          detail := f.2.detail
          op := op }
        let s := s.updGroup gid fun g => g.freezeLanes rid m grp
        let s := match op with
          | some id => s.updOp id fun o => { o with held := some rid }
          | none => s
        s.placeRecord g r) s

/-! ## Returning (R301, R304, R312) -/

/-- Lanes of a record that are still frozen. -/
def Group.frozenBy (g : Group) (rid : Nat) : List Nat :=
  lanes32.filter fun l => (g.lane l).live && (g.lane l).hold == .frozen rid

/-- The handler slot that serves a record. -/
def State.handlerOf (s : State) (rid : Nat) : Option (Group × Nat) :=
  s.groups.findSome? fun g => match g.kind with
    | .handler k r _ => if r == rid then some (g, k) else none
    | .ordinary => none

/-- A record of the group, not `rid`, that holds its other lanes and of which a lane is still frozen (R294). -/
def State.otherHolder (s : State) (g : Group) (rid : Nat) : Option Nat :=
  (s.records.find? fun r => r.gid == g.gid && r.grp && r.rid != rid && !(g.frozenBy r.rid).isEmpty).map Record.rid

/-- The lanes that a resolved record held go on, one held in a wait by issuing the wait again; while lanes of another record
that holds them are frozen, they stay held under that one (R294). -/
def Group.freeHeld (g : Group) (rid : Nat) (other : Option Nat) : Group :=
  g.mapLanes fun _ x =>
    if x.hold == .held rid then
      match other with
      | some r => { x with hold := .held r }
      | none => { x with hold := .free, wait := .none }
    else x

/-- Faults kept for lanes that stand free now, one for each lane. -/
def Group.due (g : Group) : List Later :=
  (g.later.filter fun x => (g.lane x.lane).live && (g.lane x.lane).hold == .free).foldl
    (fun acc x => if acc.any fun y => y.lane == x.lane then acc else acc ++ [x]) []

/-- The issues whose faults are due. -/
def dueIssues (xs : List Later) : List (DWord × List Word × Bool) :=
  xs.foldl (fun acc x => if acc.contains (x.pc, x.words, x.grp) then acc else acc ++ [(x.pc, x.words, x.grp)]) []

/-- Lanes that go on freeze for the late faults kept for them (R295, R371). -/
def State.raiseLater (s : State) (gid : Nat) : State :=
  match s.group? gid with
  | none => s
  | some g =>
    let xs := g.due
    let s := s.updGroup gid fun g => { g with later := g.later.filter fun x => !xs.contains x }
    (dueIssues xs).foldl (fun (s : State) k =>
      let mine := (xs.filter fun x => x.pc == k.1 && x.words == k.2.1 && x.grp == k.2.2).map fun x => (x.lane, x.flt)
      s.raise gid mine true k.2.2 k.1 k.2.1 false none) s

/-- When no lane of the record remains frozen: held lanes go on, the capability entry's KIND becomes 0, the slot is no
longer pending (R294, R300, R305, R312). -/
def State.resolve (s : State) (gid rid : Nat) : State :=
  let left := match s.group? gid with
    | some g => !(g.frozenBy rid).isEmpty
    | none => false
  if left then s.raiseLater gid
  else
    let s := match s.group? gid with
      | some g => s.updGroup gid fun h => h.freeHeld rid (s.otherHolder g rid)
      | none => s
    let s := match s.handlerOf rid with
      | some (h, k) => s.capDrop h.core k
      | none => s
    ({ s with cores := s.cores.map fun (c : Core) =>
      { c with fslots := c.fslots.filter fun x => x.rcd.rid != rid } }).raiseLater gid

/-- How lanes resume (R312). -/
inductive Resume where
  | at (pc : DWord)
  | replay
  deriving DecidableEq, Repr

/-- The replay of a record's instruction for a lane of the mask `m` (R312). A lane that froze within a replay, for an early fault,
replays that again; one that froze late with a replay pending has that one still before it. -/
def Record.replayFor (r : Record) (m : Lanes) (x : Lane) : Replay where
  pc := r.pc
  words := r.words
  cont := if x.pc = r.pc && !(r.late && x.replay.isSome) then none else some x.pc
  fetch := r.words.isEmpty
  set := if (r.words.head?.map fun w => collectiveWord w.toNat) = some true then some (r.rid, m) else none

/-- The lane takes a pending replay before those it has. -/
def Lane.replaying (x : Lane) (r : Record) (m : Lanes) : Lane :=
  { x with
    hold := .free
    wait := .none
    replay := some (r.replayFor m x)
    more := if r.late then x.replay.toList ++ x.more else x.more }

/-- The lane goes on at `pc`, whatever it had still to replay. -/
def Lane.restart (x : Lane) (pc : DWord) : Lane :=
  { x with hold := .free, pc := pc &&& ~~~3#64, guardCnt := 0, guardEn := false, wait := .none, replay := none, more := [] }

/-- RETURNING FROM AN EXCEPTION: the lanes of the mask are no longer frozen; at a PC with their guard state cleared, or
with a replay pending, unless the record is an engine operation's, which is performed again itself (R297, R312). -/
def State.resume (s : State) (r : Record) (m : Lanes) (how : Resume) : State :=
  let s := s.updGroup r.gid fun g => g.mapLanes fun l x =>
    if hasLane m l && x.hold == .frozen r.rid then
      match how with
      | .at pc => x.restart pc
      | .replay => if r.op.isSome then { x with hold := .free, wait := .none } else x.replaying r m
    else x
  (s.resolve r.gid r.rid).barRetest r.gid

end Sys2Proof.Machine
end

