-- ==== Sys2Proof/Machine/Operands.lean ====
section
/-!
DEFINITION. The operand forms: which registers and predicates each instruction reads and writes and in which lanes
(R191, R216, R322, R323), its long-latency destination (R63, R175), whose fault freezes whom (R294), and the addresses
formed from operands (R173).
-/
namespace Sys2Proof.Machine

/-- What an instruction touches. `rd`: registers read in every lane taking part, with the number of members; `ld`: read
in the lowest-numbered lane taking part only; `wr`: written in every lane taking part; `pr`: predicates read or
written. -/
structure Uses where
  rd : List (Reg × Nat) := []
  ld : List (Reg × Nat) := []
  wr : List (Reg × Nat) := []
  pr : List Nat := []
  deriving DecidableEq, Repr

/-- A source of `n` registers; a literal names none. -/
def srcUse (x : Src) (n : Nat) : List (Reg × Nat) :=
  match x with
  | .reg r => [(r, n)]
  | .lit _ => []

/-- Registers of a memory width (R176). -/
def widthRegs (n : Nat) : Nat := if n = 16 then 4 else if n = 8 then 2 else 1

def codeUse (c : BitVec 7) : List Nat := [c.toNat % 64]

def use3 (o : R3) : Uses := { rd := srcUse o.a 1 ++ srcUse o.b 1, wr := [(o.d, 1)] }
/-- A form that also reads its old D (R6). -/
def use3d (o : R3) : Uses := { rd := (o.d, 1) :: (srcUse o.a 1 ++ srcUse o.b 1), wr := [(o.d, 1)] }
def use2 (o : R2) : Uses := { rd := srcUse o.a 1, wr := [(o.d, 1)] }
def useRI (o : RI) : Uses := { rd := srcUse o.a 1, wr := [(o.d, 1)] }
def useSh (o : RSh) : Uses := { rd := srcUse o.a 1, wr := [(o.d, 1)] }
def use64 (o : R3) : Uses := { rd := srcUse o.a 2 ++ srcUse o.b 2, wr := [(o.d, 2)] }
def useSh64 (o : R3) : Uses := { rd := srcUse o.a 2 ++ srcUse o.b 1, wr := [(o.d, 2)] }
def useHp (o : HpairOps) : Uses := { rd := srcUse o.a 1 ++ srcUse o.b 1, wr := [(o.d, 1)] }
def usePl (o : PlogOps) : Uses := { pr := o.pd.toNat :: (codeUse o.a ++ codeUse o.b) }
def useSfu (o : SfuOps) : Uses := { rd := srcUse o.a 1, wr := [(o.d, 1)] }
def useGred (o : GredOps) : Uses := { rd := srcUse o.a 1, wr := [(o.d, 1)] }
def useAddr (o : AddrOps) (n : Nat) : Uses := { rd := srcUse o.a 2, wr := [(o.d, n)] }
def usePg (o : PgOps) : Uses := { rd := srcUse o.a 2, wr := [(o.d, 1)] }
def useCpy (o : CpyOps) : Uses := { ld := [(o.d, 1), (o.b, 5)] ++ srcUse o.a 2 }
def useGath (o : GathOps) : Uses := { rd := [(o.b, 1)], ld := (o.d, 1) :: srcUse o.a 2 }
def useColl (o : CollOps) : Uses := { ld := (o.d, 1) :: srcUse o.a 1 }
def usePrs (o : PrsOps) : Uses := { rd := srcUse o.a 1 ++ srcUse o.b 1 }
def runReg (n k : Nat) (r : Fin k) : Reg × Nat := (Reg.ofNum r.val, n)

/-- The registers and predicates of an instruction. `latched`: the group's operand latch is held, so an MMAR does not
read its A run (R225). ACCLD.reg's m names depend on its descriptor and are judged apart. -/
def instrUses (latched : Bool) : Instr → Uses
  | .jmpi o => { rd := srcUse o.a 2 }
  | .calli o => { rd := srcUse o.a 2 }
  | .mfs o => { wr := [(o.d, if o.sr.wide then 2 else 1)] }
  | .mts o => if o.sr == .link then { rd := srcUse o.a 2 } else { ld := srcUse o.a 1 }
  | .guard o => { pr := [o.p.toNat] }
  | .br o => { pr := [o.p.toNat] }
  | .call o => { pr := [o.p.toNat] }
  | .wbase o => { rd := srcUse o.a 1 }
  | .grow o => { ld := srcUse o.a 1, wr := [(o.d, 1)] }
  | .shrink o => { ld := srcUse o.a 1 }
  | .iadd o | .isub o | .imul o | .imulhs o | .imulhn o | .imin o | .imax o | .nmin o | .nmax o | .iabsd o => use3 o
  | .imad o => use3d o
  | .iaddc o | .isubb o => { use3 o with pr := [62] }
  | .and o | .or o | .xor o | .andn o | .orn o | .shl o | .shr o | .sar o | .rotl o | .bfx o => use3 o
  | .prmt o | .bfi o => use3d o
  | .popc o | .clz o | .brev o => use2 o
  | .add64 o | .sub64 o => use64 o
  | .mad64 o => { use64 o with rd := (o.d, 2) :: (use64 o).rd }
  | .shl64 o | .shr64 o | .sar64 o => useSh64 o
  | .mov64 o => { rd := srcUse o.a 2, wr := [(o.d, 2)] }
  | .mov o => use2 o
  | .movs o => { ld := srcUse o.a 1, wr := [(o.d, 1)] }
  | .p2v o => { wr := [(o.d, 1)], pr := codeUse o.x }
  | .lit o => { rd := srcUse o.a 1, wr := [(o.d, 2)] }
  | .iaddi o | .andi o | .ori o | .xori o => useRI o
  | .shli o | .shri o | .sari o | .rotli o => useSh o
  | .icmp o =>
    let n := if o.ty.wide then 2 else 1
    { rd := srcUse o.a n ++ srcUse o.b n, pr := [o.pd.toNat] }
  | .fcmp o => { rd := srcUse o.a 1 ++ srcUse o.b 1, pr := [o.pd.toNat] }
  | .plogAnd o | .plogOr o | .plogXor o | .plogNand o | .plogNor o | .plogXnor o => usePl o
  | .voteAny o | .voteAll o => { pr := o.pd.toNat :: codeUse o.x }
  | .voteBallot o | .votePcount o => { wr := [(o.d, 1)], pr := codeUse o.x }
  | .voteV2p o => { rd := srcUse o.b 1, pr := [o.pd.toNat] }
  | .fadd o | .fsub o | .fmul o | .fmin o | .fmax o | .fminn o | .fmaxn o => use3 o
  | .ffma o => use3d o
  | .fabs o | .fneg o => use2 o
  | .frnd o => { rd := srcUse o.a 1, wr := [(o.d, 1)] }
  | .add2 o | .mul2 o | .min2 o | .max2 o => useHp o
  | .fma2 o => { useHp o with rd := (o.d, 1) :: (useHp o).rd }
  | .frcp o | .frsq o | .fsqrt o | .fexp2 o | .flog2 o | .fsin o | .fcos o | .ftanh o => useSfu o
  | .cvt o => { rd := srcUse o.a (if o.code.isPair then 2 else 1), wr := [(o.d, 1)] }
  | .pack o => { rd := (o.d, 1) :: (srcUse o.a 1 ++ srcUse o.b 1), wr := [(o.d, 1)] }
  | .unpack o => { rd := srcUse o.a 1 ++ srcUse o.b 1, wr := [(o.d, 1)] }
  | .dot4F8a o | .dot4F8b o | .dot4I8 o | .dot4N8 o | .dot8F4 o | .dot8I4 o | .dot8N4 o => use3d o
  | .shflIdx o | .shflUp o | .shflDown o | .shflXor o => use3 o
  | .shflBcast o => { rd := srcUse o.a 1, ld := srcUse o.b 1, wr := [(o.d, 1)] }
  | .gredReduce o | .gredIncl o | .gredExcl o => useGred o
  | .ld o => { rd := srcUse o.a 2, wr := [(o.d, widthRegs o.w.bytes)], pr := [o.ps.toNat] }
  | .ldNr o => { rd := srcUse o.a 2, wr := [(o.d, widthRegs o.w.bytes)], pr := [o.ps.toNat] }
  | .st o => { rd := srcUse o.a 2 ++ srcUse o.b (widthRegs o.w.bytes) }
  | .lds o => { rd := srcUse o.a 1, wr := [(o.d, widthRegs o.w.bytes)] }
  | .sts o => { rd := srcUse o.a 1 ++ srcUse o.b (widthRegs o.w.bytes) }
  | .atom o =>
    { rd := srcUse o.a 2 ++ srcUse o.b (widthRegs o.w.bytes), wr := [(o.d, widthRegs o.w.bytes)], pr := [o.ps.toNat] }
  | .atomc o =>
    let n := widthRegs o.w.bytes
    { rd := (o.d, n) :: (srcUse o.a 2 ++ srcUse o.b n), wr := [(o.d, n)], pr := [o.ps.toNat] }
  | .red o => { rd := srcUse o.a 2 ++ srcUse o.b (widthRegs o.w.bytes) }
  | .prf o => { rd := srcUse o.a 2 }
  | .flush o | .inv o => { rd := srcUse o.a 2 ++ srcUse o.b 1 }
  | .pgreq o | .pres o => usePg o
  | .tagst o => { rd := srcUse o.a 2 ++ srcUse o.b 1 }
  | .tagld o | .ghold o | .grel o => useAddr o 1
  | .gqry o => useAddr o 4
  | .waitv o =>
    let n := if o.w64 then 2 else 1
    { rd := srcUse o.a 2 ++ srcUse o.b n, wr := [(o.d, n)] }
  | .cpySp o | .cpyTile o => useCpy o
  | .cpyMc o => { ld := [(o.d, 1), (o.b, 5)] ++ srcUse o.a 2 }
  | .gathSp o | .gathTile o => useGath o
  | .sta o => { ld := srcUse o.a 2 ++ srcUse o.b 1 }
  | .collAdd o | .collMax o => useColl o
  | .collBcast o => { ld := (o.d, 1) :: srcUse o.a 1 }
  | .pset o | .pclr o => usePrs o
  | .barinit o => { ld := srcUse o.a 1 ++ srcUse o.b 1, wr := [(o.d, 1)] }
  | .bararr o => { rd := srcUse o.a 1, wr := [(o.d, 1)] }
  | .barexp o => { ld := srcUse o.a 1 ++ srcUse o.b 1 }
  | .barwait o => { rd := srcUse o.a 1 ++ srcUse o.b 1, pr := [o.ps.toNat] }
  | .bartry o => { rd := srcUse o.a 1 ++ srcUse o.b 1, wr := [(o.d, 1)] }
  | .barinv o => { ld := srcUse o.a 1 }
  | .launch o => { ld := srcUse o.a 2, wr := [(o.d, 2)] }
  | .tdefSp o => { ld := (o.d, 1) :: srcUse o.a 1 }
  | .tdefReg o => { ld := [(o.d, 1)], rd := [runReg 64 _ o.run] }
  | .treadSp o => { ld := (o.d, 1) :: srcUse o.a 1 }
  | .treadReg o => { ld := srcUse o.a 1, wr := [runReg 64 _ o.run] }
  | .tkill o => { ld := srcUse o.a 1 }
  | .tqry o => { ld := srcUse o.a 1, wr := [(o.d, 1)] }
  | .mmat o => { ld := srcUse o.a 1 }
  | .mmar o => { ld := [(o.d, 1)], rd := (if latched then [] else [runReg 16 _ o.run]) ++ srcUse o.b 2 }
  | .accz o => { ld := srcUse o.a 1 }
  | .accldSp o => { ld := srcUse o.a 1 }
  | .accldReg o => { ld := srcUse o.a 1 }
  | .accst o => { ld := srcUse o.a 1 ++ srcUse o.b 1 }
  | .accgrow o => { ld := srcUse o.a 1, wr := [(o.d, 1)] }
  | .accshr o => { ld := srcUse o.a 1 }
  | .fzrec o => { wr := [runReg 16 _ o.run] }
  | .fzrd o => { rd := srcUse o.a 1 ++ srcUse o.b 1, wr := [(o.d, 1)], pr := [o.ps.toNat] }
  | .fzwr o => { rd := (o.d, 1) :: (srcUse o.a 1 ++ srcUse o.b 1) }
  | .fzres o => { ld := srcUse o.a 1 ++ srcUse o.b 2 }
  | .fzresRpl o => { ld := srcUse o.a 1 }
  | .fzkill o => { ld := srcUse o.a 1 }
  | .tlbiRange o => { ld := srcUse o.a 2 ++ srcUse o.b 1 }
  | .migr o => { ld := srcUse o.a 2 ++ srcUse o.b 2, wr := [(o.d, 1)] }
  | _ => {}

/-- The long-latency destination of a format-L instruction: D with its members, PS, and LA (R63, R175). -/
structure LDest where
  d : Reg
  n : Nat
  ps : Nat
  la : Nat
  deriving DecidableEq, Repr

def instrLdest : Instr → Option LDest
  | .frcp o | .frsq o | .fsqrt o | .fexp2 o | .flog2 o | .fsin o | .fcos o | .ftanh o => some ⟨o.d, 1, 63, o.la.toNat⟩
  | .gredReduce o | .gredIncl o | .gredExcl o => some ⟨o.d, 1, 63, o.la.toNat⟩
  | .ld o => some ⟨o.d, widthRegs o.w.bytes, o.ps.toNat, o.la.toNat⟩
  | .ldNr o => some ⟨o.d, widthRegs o.w.bytes, o.ps.toNat, o.la.toNat⟩
  | .lds o => some ⟨o.d, widthRegs o.w.bytes, 63, o.la.toNat⟩
  | .atom o => some ⟨o.d, widthRegs o.w.bytes, o.ps.toNat, o.la.toNat⟩
  | .atomc o => some ⟨o.d, widthRegs o.w.bytes, o.ps.toNat, o.la.toNat⟩
  | .pgreq o | .pres o => some ⟨o.d, 1, 63, o.la.toNat⟩
  | .tagld o | .ghold o | .grel o => some ⟨o.d, 1, 63, o.la.toNat⟩
  | .gqry o => some ⟨o.d, 4, 63, o.la.toNat⟩
  | .waitv o => some ⟨o.d, if o.w64 then 2 else 1, 63, o.la.toNat⟩
  | .barinit o | .bartry o => some ⟨o.d, 1, 63, o.la.toNat⟩
  | .bararr o => some ⟨o.d, 1, 63, o.la.toNat⟩
  | .launch o => some ⟨o.d, 2, 63, o.la.toNat⟩
  | .treadReg o => some ⟨Reg.ofNum o.run.val, 64, 63, o.la.toNat⟩
  | .accgrow o => some ⟨o.d, 1, 63, o.la.toNat⟩
  | .fzrec o => some ⟨Reg.ofNum o.run.val, 16, 63, o.la.toNat⟩
  | .fzrd o => some ⟨o.d, 1, o.ps.toNat, o.la.toNat⟩
  | .migr o => some ⟨o.d, 1, 63, o.la.toNat⟩
  | _ => none

/-- Instructions that issue a single operation: any failing lane stops it for every lane taking part (R294, R296). -/
def instrSingle : Instr → Bool
  | .cpySp _ | .cpyTile _ | .cpyMc _ | .gathSp _ | .gathTile _ | .sta _ | .collAdd _ | .collMax _ | .collBcast _ => true
  | .barinit _ | .barexp _ | .barinv _ | .launch _ => true
  | .tdefSp _ | .tdefReg _ | .treadSp _ | .treadReg _ | .tkill _ | .tqry _ | .mmat _ | .mmar _ => true
  | .accz _ | .accldSp _ | .accldReg _ | .accst _ | .accgrow _ | .accshr _ => true
  | .fzrec _ | .fzres _ | .fzresRpl _ | .fzkill _ | .tlbiRange _ | .tlbiCtx _ | .migr _ => true
  | .grow _ | .shrink _ => true
  | _ => false

/-- Group-collective instructions: a fault holds the group's other live lanes (R294). -/
def instrCollective : Instr → Bool
  | .voteAny _ | .voteAll _ | .voteBallot _ | .votePcount _ | .voteV2p _ => true
  | .shflIdx _ | .shflUp _ | .shflDown _ | .shflXor _ | .shflBcast _ => true
  | .gredReduce _ | .gredIncl _ | .gredExcl _ | .mmar _ | .grow _ | .shrink _ => true
  | _ => false

/-- Instructions that are performed only after every earlier access of their lanes: releases (R256), and FENCE.acq, which no
earlier load may follow (R260). -/
def instrOrders : Instr → Bool
  | .st o => o.ord == .sync
  | .atom o => AtClass.rel o.cls
  | .atomc o => AtClass.rel o.cls
  | .red o => o.rel
  | .fenceAcq _ | .fenceRel _ | .fenceAcqRel _ | .fenceFull _ | .bararr _ | .launch _ => true
  | _ => false

/-- Instructions that may not stand in a guarded range (R110, R325). -/
def instrControl : Instr → Bool
  | .guard _ | .br _ | .call _ | .ret _ | .jmpi _ | .calli _ => true
  | _ => false

/-- The form is barred to the group (R47, R320). -/
def instrBarred (k : GKind) : Instr → Bool
  | .fzrec _ | .fzrd _ | .fzwr _ | .fzres _ | .fzresRpl _ | .fzkill _ => !k.isHandler
  | .tlbiRange _ | .tlbiCtx _ | .migr _ => !k.isFull
  | .mfs o => o.sr.privileged && !k.isHandler
  | .mts o => o.sr.privileged && !k.isHandler
  | _ => false

/-- R324: instructions whose scalar D needs equal operands (format L, but GRED.reduce and those of one operation). -/
def instrLUniform : Instr → Bool
  | .gredReduce _ => false
  | i => (instrLdest i).isSome

/-- GRED scans write a scalar only for one lane (R324). -/
def instrScan : Instr → Bool
  | .gredIncl _ | .gredExcl _ => true
  | _ => false

/-- The sign-extended offset of bits 13:0 (R173). -/
def memOff (o : BitVec 14) : DWord := o.signExtend 64

/-- A virtual address (R173). -/
def Group.va (g : Group) (l : Nat) (a : Src) (off : BitVec 14) : DWord := g.src64 l a + memOff off

/-- A scratchpad offset (R173). -/
def Group.spOff (g : Group) (l : Nat) (a : Src) (off : BitVec 14) : Word := g.src l a + off.signExtend 32

/-- Canonical (R131): bits 63:61 equal bit 56. -/
def canonical (va : DWord) : Bool :=
  let b := va.getLsbD 56
  va.getLsbD 63 == b && va.getLsbD 62 == b && va.getLsbD 61 == b

/-- The pointer tag, bits 60:57 (R131). -/
def ptrTag (va : DWord) : BitVec 4 := va.extractLsb' 57 4

/-- The bits that are translated, 56:0 (R131). -/
def transBits (va : DWord) : Nat := va.toNat % 2 ^ 57

end Sys2Proof.Machine
end

