-- ==== Sys2Proof/Machine/Issue.lean ====
section
/-!
DEFINITION. One issue of a group, the frame that every instruction's meaning fills: which lanes stand at the issue
address and take part (R5, R22, R23), the fold of scalars (R28, R399), the class-1 checks in their order (R318 to R325),
waiting for owed results (R63), writing results, advancing, freezing.
-/
namespace Sys2Proof.Machine

/-- What an issue works on: the group after the fold, the address and words of the instruction, the lanes that stand
there and those that take part, ascending. -/
structure Issue where
  g : Group
  ia : DWord
  next : DWord
  words : List Word
  nw0 : Bool
  es : List Nat
  ts : List Nat
  deriving DecidableEq, Repr

/-- The lowest-numbered lane taking part (R191). -/
def Issue.lead (x : Issue) : Nat := x.ts.headD 0

def Issue.tmask (x : Issue) : Lanes := maskOf fun l => x.ts.contains l

/-! ## The fold of scalars (R28) -/

/-- The distinct copies of scalar r that lanes hold. -/
def Group.copiesOf (g : Group) (r : Nat) (es : List Nat) : List ScCopy :=
  g.scal.filter fun c => c.r == r && es.any (hasLane c.lanes)

/-- Fold scalar r over the lanes: one copy afterwards, the lowest lane's value, SCDIV where values differ. -/
def Group.foldScalar (g : Group) (es : List Nat) (r : Nat) : Group :=
  let cs := g.copiesOf r es
  match cs, es with
  | _ :: _ :: _, l :: _ =>
    let v := g.scalar r l
    let g' := g.newCopy r (maskOf es.contains) v
    if cs.all fun c => c.val == v then g' else { g' with stat := raiseScdiv g'.stat }
  | _, _ => g

def Group.fold (g : Group) (es : List Nat) : Group := (List.range 14).foldl (fun g r => g.foldScalar es r) g

/-- A fold of different copies waits for a result still owed to one of them (R399). -/
def Group.foldWaits (g : Group) (es : List Nat) : Option Nat :=
  (g.owed.filter fun o => !o.landed).findSome? fun o =>
    if o.lanes.any fun x => es.contains x.lane && x.ids.any fun id =>
        1024 ≤ id && id < 2048 && decide ((g.copiesOf (id - 1024) es).length > 1) then some o.id else none

/-! ## What the lanes touch -/

/-- Absolute register ids that a lane reads or writes (R322), the leader's own operands in the leader only. -/
def Issue.ids (x : Issue) (u : Uses) (l : Nat) : List Nat :=
  let of := fun (p : Reg × Nat) => x.g.regIds l p.1 p.2
  ((u.rd ++ u.wr ++ (if l = x.lead then u.ld else [])).map of).flatten

/-- Ids with the predicates touched, as results name them (R63, R175). -/
def Issue.touched (x : Issue) (u : Uses) (l : Nat) : List Nat :=
  x.ids u l ++ (u.pr.filter (· != 63)).map (2048 + ·)

/-- REG_RANGE (R322). -/
def Issue.regFault (x : Issue) (u : Uses) (l : Nat) : Option Flt :=
  (minNat ((x.ids u l).filter fun id => id < 1024 && x.g.allot ≤ id)).map fun n =>
    { code := cRegRange, detail := BitVec.ofNat 64 n }

/-- LOOKAHEAD_VIOLATION (R323): the count alone decides; a replay waits instead. -/
def Issue.lookFault (x : Issue) (u : Uses) (l : Nat) : Option Flt :=
  if (x.g.lane l).replay.isSome then none
  else
    let t := x.touched u l
    (x.g.owed.find? fun o => !o.la15 && o.lanes.any fun y =>
      y.lane == l && decide (0 < y.left) && y.ids.any t.contains).map fun o => { code := cLookahead, detail := o.pc }

/-- The instruction orders what its lanes have done before, and an access of a lane taking part that the group went on past is not
performed yet (R256, R260). -/
def Issue.orderWaits (x : Issue) (i : Instr) : Option Nat :=
  if !instrOrders i then none
  else (x.g.running.find? fun p => x.ts.contains p.2.1.lane).map fun p => p.1.owed

/-- A result not yet landed that the issue must wait for (R63). -/
def Issue.waitsFor (x : Issue) (u : Uses) : Option Nat :=
  (x.g.owed.filter fun o => !o.landed).findSome? fun o =>
    if o.lanes.any fun y => x.ts.contains y.lane &&
        ((!o.la15 && y.left == 0) || ((o.la15 || (x.g.lane y.lane).replay.isSome) && y.ids.any (x.touched u y.lane).contains)) then some o.id
    else none

/-! ## Beginning an issue -/

/-- What comes of beginning an issue. -/
inductive Begun where
  | halt (s : State)
  | go (x : Issue)

/-- Park the group (R25): nothing else changes. -/
def State.park (s : State) (gid : Nat) (p : Park) : State := s.updGroup gid fun g => { g with park := p }

/-- Freeze lanes early, or park the group at the instruction while the fault queue is full (R295, R303). -/
def State.raiseEarly (s : State) (x : Issue) (fs : List (Nat × Flt)) (grp : Bool) : State :=
  if fs.isEmpty then s else s.raise x.g.gid fs false grp x.ia x.words x.nw0 none

/-- The fault queue cannot take the early records of an ordinary group (R303). -/
def State.queueBlocks (s : State) (x : Issue) (fs : List (Nat × Flt)) : Bool :=
  !fs.isEmpty && !x.g.kind.isHandler && !s.fqRoom x.g.core (codesOf fs).length

/-- The issue as the group stands, before any check. -/
def issueOf (g : Group) (i : Instr) : Option Issue :=
  match g.issueAddr with
  | none => none
  | some ia =>
    let es := lanes32.filter g.stands
    let ws := encode i
    some {
      g := g
      ia := ia
      next := ia + BitVec.ofNat 64 (4 * ws.length)
      words := ws
      nw0 := false
      es := es
      ts := es.filter fun l => (g.lane l).enabled }

/-- Faults of the word and its place in the stream, in every lane that stands there (R318, R320, R325). -/
def Issue.wordFault (x : Issue) (i : Instr) : Option Flt :=
  if instrBarred x.g.kind i then some { code := cPrivileged }
  else if instrControl i && x.es.any fun l => (x.g.lane l).guardCnt != 0 then some { code := cGuard }
  else none

/-- Bindings of tile reads at which a live lane still stands (R213). -/
def Group.boundKept (g : Group) : List (DWord × Bound) :=
  g.bound.filter fun p => g.liveLanes.any fun l => (g.lane l).at == p.1

/-- Begin the issue of `i` by the group that moves: find its lanes, judge the word, wait where R63, R256 and R399 ask it, and
fold. An issue that a fault of its word stops does not fold the scalars (log entry 47). -/
def State.begin (s : State) (i : Instr) : Begun :=
  match s.group? s.cur with
  | none => .halt s
  | some g =>
    match issueOf g i with
    | none => .halt s
    | some x =>
      match x.wordFault i with
      | some f =>
        let fs := x.es.map fun l => (l, f)
        if s.queueBlocks x fs then .halt (s.park g.gid .queueFull)
        else .halt ((s.park g.gid .none).raiseEarly x fs false)
      | none =>
        match (g.foldWaits x.es).orElse fun _ => x.orderWaits i with
        | some id => .halt (s.park g.gid (.owed id))
        | none =>
          let x := { x with g := { (g.fold x.es) with park := .none, promoted := false, bound := g.boundKept } }
          match x.waitsFor (instrUses x.g.latch.isSome i) with
          | some id => .halt (s.park g.gid (.owed id))
          | none => .go x

/-! ## Checks in the lanes -/

/-- The first fault of each lane taking part: REG_RANGE, LOOKAHEAD_VIOLATION, then `chk` (WINDOW_RANGE, MISALIGNED), then
SCALAR_NONUNIFORM where `bad`, then `chk2` (R296, R319). -/
def Issue.ownFaults (x : Issue) (i : Instr) (chk : Nat → Option Flt) (bad : Bool) (chk2 : Nat → Option Flt) :
    List (Nat × Flt) :=
  let u := instrUses x.g.latch.isSome i
  x.ts.filterMap fun l =>
    let f := (x.regFault u l).orElse fun _ => (x.lookFault u l).orElse fun _ => (chk l).orElse fun _ =>
      if bad then some { code := cNonuniform } else chk2 l
    f.map fun f => (l, f)

/-- For a single operation one failing lane stops all, with the lowest failing lane's code (R296). -/
def Issue.faults (x : Issue) (i : Instr) (chk : Nat → Option Flt) (bad : Bool) (chk2 : Nat → Option Flt) :
    List (Nat × Flt) :=
  let own := x.ownFaults i chk bad chk2
  if instrSingle i then
    match own with
    | [] => []
    | f :: _ => x.ts.map fun l => (l, f.2)
  else own

def Reg.isScalar : Reg → Bool
  | .s _ => true
  | _ => false

/-- SCALAR_NONUNIFORM of format L: a scalar D needs equal operands in every lane taking part (R324). -/
def Issue.operandsDiffer (x : Issue) (i : Instr) : Bool :=
  match instrLdest i with
  | none => false
  | some d =>
    match d.d with
    | .s _ =>
      if instrScan i then decide (1 < x.ts.length)
      else instrLUniform i &&
        !allSame (x.ts.map fun l => ((instrUses x.g.latch.isSome i).rd.map fun p => x.g.regs l p.1 p.2))
    | _ => false

/-! ## Results -/

/-- What one lane's part of an instruction writes. -/
structure LaneOut where
  d : List (Reg × Word) := []
  p : List (Nat × Bool) := []
  flags : Flags := 0
  jump : Option DWord := none
  link : Option DWord := none
  wbase : Option (BitVec 10) := none
  guard : Option (Nat × Bool) := none
  deriving DecidableEq, Repr

def LaneOut.scalars (o : LaneOut) : List (Nat × Word) :=
  o.d.filterMap fun p => match p.1 with
    | .s n => some (n.val, p.2)
    | _ => none

/-- One lane's own registers. -/
def Lane.apply (x : Lane) (o : LaneOut) : Lane :=
  let x := o.d.foldl (fun (y : Lane) p => match p.1 with
    | .v n => y.setName (x.abs n.val) p.2
    | _ => y) x
  let x := o.p.foldl (fun (y : Lane) p => y.setPred p.1 p.2) x
  let x := match o.link with
    | some v => { x with link := v }
    | none => x
  match o.wbase with
  | some b => { x with wbase := b }
  | none => x

/-- The results of the lanes in `oks` (R6: all were computed from the group as it stood), scalars as one new copy (R27): of
results that differ by lane though the operands are equal (ATOM, GHOLD, GREL) it takes the lowest lane's, and where they land
later the highest lane's remains (log entry 47). -/
def Group.applyAll (g : Group) (oks : List Nat) (out : Nat → LaneOut) : Group :=
  let sc := match oks with
    | [] => []
    | l :: _ => (out l).scalars
  let g := g.mapLanes fun l x => if oks.contains l then x.apply (out l) else x
  let g := sc.foldl (fun (g : Group) p => g.newCopy p.1 (maskOf oks.contains) p.2) g
  { g with stat := raiseFlags g.stat (orFlags (oks.map fun l => (out l).flags)) }

/-- The record that lookahead counts run against, for an instruction with LA 1 to 14 whose result has landed, or any
whose result has not (R63). One that writes no register (D 126) leaves none; where it names PS, which counts as part of D, LA
has no effect, and what touches PS waits (R63, R175, R323; log entry 15). -/
def Issue.owedOf (x : Issue) (i : Instr) (id : Nat) (lanes : List Nat) (landed : Bool) : List Owed :=
  match instrLdest i with
  | none => []
  | some d =>
    let ids := fun l => x.g.regIds l d.d d.n ++ (if d.ps = 63 then [] else [2048 + d.ps])
    let la := if d.d == .zero then 15 else d.la
    if lanes.isEmpty || (d.d == .zero && d.ps = 63) || (landed && (la == 0 || la == 15)) then []
    else [{
      id := id
      pc := x.ia
      la15 := la == 15
      landed := landed
      lanes := lanes.map fun l => ⟨l, if la == 15 then 0 else la, ids l⟩ }]

/-- Lanes that yield have seen the group issue without them (R24). -/
def Group.markYields (g : Group) : Group :=
  g.mapLanes fun _ x => match x.wait with
    | .yield _ n => { x with wait := .yield true n }
    | _ => x

/-- The lanes that stand at the issue and are not frozen advance (R23): to their jump, else to the next instruction; the
lanes of `waits` stay in their wait. -/
def Issue.advance (x : Issue) (g : Group) (frozen : List Nat) (jump : Nat → Option DWord) (waits : Nat → Option Wait) :
    Group :=
  x.es.foldl (fun g l =>
    if frozen.contains l then g
    else match waits l with
      | some w => g.updLane l fun y => { y with wait := w }
      | none => g.pass l ((jump l).getD x.next)) g.markYields

/-- A guard set by this issue applies from the next instruction on (R109). -/
def Group.setGuards (g : Group) (oks : List Nat) (out : Nat → LaneOut) : Group :=
  oks.foldl (fun g l => match (out l).guard with
    | some (n, en) => g.updLane l fun y => { y with guardCnt := n, guardEn := en }
    | none => g) g

/-- ARITH_TRAP of the lanes whose own result raised an enabled flag (R315). -/
def arithFaults (stat : Word) (oks : List Nat) (out : Nat → LaneOut) : List (Nat × Flt) :=
  oks.filterMap fun l =>
    let t := trapped stat (out l).flags
    if t = 0 then none else some (l, { code := cArith, detail := t.setWidth 64 })

/-- THE ISSUE OF AN INSTRUCTION THAT ACTS LANE BY LANE ON REGISTERS. `out` is each lane's result from the group as it
stood; `resultsMustAgree`: a scalar destination needs equal results (formats A and I, MFS; R324); `post`: what the lanes
that complete do to their group. -/
def State.issueWith (s : State) (i : Instr) (chk : Issue → Nat → Option Flt) (chk2 : Issue → Nat → Option Flt)
    (out : Issue → Nat → LaneOut) (resultsMustAgree : Bool) (post : Issue → List Nat → Group → Group) : State :=
  match s.begin i with
  | .halt s => s
  | .go x =>
    let o := out x
    let bad := if resultsMustAgree then !allSame (x.ts.map fun l => (o l).scalars) else x.operandsDiffer i
    let fs := x.faults i (chk x) bad (chk2 x)
    if s.queueBlocks x fs then s.park x.g.gid .queueFull
    else
      let frozen := fs.map Prod.fst
      let oks := x.ts.filter fun l => !frozen.contains l
      let g := post x oks (x.g.applyAll oks o)
      let g := x.advance g frozen (fun l => if oks.contains l then (o l).jump else none) (fun _ => none)
      let g := g.setGuards oks o
      let (s, id) := s.take
      let g := { g with owed := g.owed ++ x.owedOf i id oks true }
      let s := (s.setGroup g).raiseEarly x fs (instrCollective i)
      let traps := arithFaults x.g.stat oks o
      if traps.isEmpty then s else s.raise g.gid traps true (instrCollective i) x.ia x.words false none

def State.issueLanes (s : State) (i : Instr) (chk : Issue → Nat → Option Flt) (chk2 : Issue → Nat → Option Flt)
    (out : Issue → Nat → LaneOut) (resultsMustAgree : Bool) : State :=
  s.issueWith i chk chk2 out resultsMustAgree fun _ _ g => g

/-- What an instruction that acts beyond its group's registers has done for the lanes that passed its checks. `halt`:
the group parks at the instruction, which has not issued; `early` and `late`: lanes that meet a fault before or after
advancing; `pend`: lanes whose access waits; `waits`: lanes that stay in their wait. -/
structure Acted where
  s : State
  out : Nat → LaneOut := fun _ => {}
  waits : Nat → Option Wait := fun _ => none
  early : List (Nat × Flt) := []
  late : List (Nat × Flt) := []
  pend : List (LaneAcc × AccWait) := []
  goesOn : Bool := false               -- the group issues on while `pend` waits (PGREQ, LD.nr, PRES, RED)
  owes : Bool := false                 -- the result comes later, from an operation with the id `id`
  extra : List Owed := []              -- results that come later to registers known only now
  id : Nat := 0
  halt : Option Park := none

/-- The scalars an instruction's destination names: lanes with a pending result share a new copy (R399). -/
def Group.pendCopies (g : Group) (i : Instr) (lanes : List Nat) : Group :=
  match instrLdest i, lanes with
  | some d, l :: _ =>
    (List.range d.n).foldl (fun (g : Group) k =>
      match regPlus d.d k with
      | .s n => g.newCopy n.val (maskOf lanes.contains) (g.scalar n.val l)
      | _ => g) g
  | _, _ => g

/-- A single operation whose leader passes its own first checks while a higher lane fails one: the leader is the lowest
failing lane if a later check of it fails, among them the reading of a record, whose fault is late and which may still have to
wait (R296). `act` is asked, and what it would have done is dropped. -/
def State.leaderFaults (s : State) (i : Instr) (x : Issue) (own fs : List (Nat × Flt)) (act : State → Issue → List Nat → Acted) :
    List (Nat × Flt) :=
  match own with
  | [] => fs
  | (l, _) :: _ =>
    if !instrSingle i || l == x.lead then fs
    else
      let a := act (s.setGroup x.g) x x.ts
      match a.early, a.late, a.halt with
      | (_, f) :: _, _, _ => x.ts.map fun l => (l, f)
      | [], _ :: _, _ => []
      | [], [], some (.xlate _ _) => []
      | [], [], some (.owed _) => []
      | _, _, _ => fs

/-- The early faults of an issue in lane order: those of its own checks and those that `act` found (R296). -/
def Issue.inOrder (x : Issue) (own found : List (Nat × Flt)) : List (Nat × Flt) :=
  if found.isEmpty then own else x.ts.filterMap fun l => (own ++ found).find? fun f => f.1 == l

/-- THE ISSUE OF AN INSTRUCTION THAT ACTS ON MORE THAN REGISTERS: `act` is given the state with its scalars folded and
the lanes that passed the checks. -/
def State.issueAct (s : State) (i : Instr) (chk : Issue → Nat → Option Flt) (chk2 : Issue → Nat → Option Flt)
    (act : State → Issue → List Nat → Acted) : State :=
  match s.begin i with
  | .halt s => s
  | .go x =>
    let own := x.ownFaults i (chk x) (x.operandsDiffer i) (chk2 x)
    let fs := s.leaderFaults i x own (x.faults i (chk x) (x.operandsDiffer i) (chk2 x)) act
    let oks := x.ts.filter fun l => !(fs.map Prod.fst).contains l
    let a := if oks.isEmpty then { s := s.setGroup x.g } else act (s.setGroup x.g) x oks
    let fs := x.inOrder fs a.early
    if s.queueBlocks x fs then s.park x.g.gid .queueFull
    else
      match a.halt with
      | some p =>
        match s.group? x.g.gid with
        | some g => a.s.updGroup g.gid fun _ => { g with park := p }
        | none => a.s
      | none =>
        let frozen := fs.map Prod.fst
        let pend := a.pend.map fun p => p.1.lane
        let oks := oks.filter fun l =>
          !frozen.contains l && !(a.late.map Prod.fst).contains l && !pend.contains l && (a.waits l).isNone
        let (s, id) := a.s.take
        let (s, id2) := s.take
        let landing := if a.owes then [] else x.owedOf i id oks true
        let coming := if a.owes then x.owedOf i a.id oks false
          else x.owedOf i id2 (pend.filter fun l => (a.waits l).isNone) false
        let s := s.updGroup x.g.gid fun g =>
          let g := g.applyAll oks a.out
          let g := (g.pendCopies i pend).pendCopies i (a.late.map Prod.fst)
          let g := if a.owes then g.pendCopies i oks else g.pendCopies i (x.ts.filter fun l => (a.waits l).isSome)
          let g := x.advance g frozen (fun _ => none) a.waits
          let g := { g with owed := g.owed ++ landing ++ coming ++ a.extra }
          if a.pend.isEmpty then g
          else { g with
            park := if a.goesOn then g.park else .page
            accs := g.accs ++ [{ instr := i, pc := x.ia, owed := id2, lanes := a.pend }] }
        let s := s.raiseEarly x fs (instrCollective i)
        if a.late.isEmpty then s else s.raise x.g.gid a.late true (instrCollective i) x.ia x.words false none

def noChk (_ : Issue) (_ : Nat) : Option Flt := none

/-- The plain case: no check of its own. -/
def State.issueReg (s : State) (i : Instr) (out : Issue → Nat → LaneOut) : State :=
  s.issueLanes i noChk noChk out true

end Sys2Proof.Machine
end

