-- ==== Sys2Proof/Machine/Integer.lean ====
section
/-!
DEFINITION. Integer arithmetic, bit operations, 64-bit operations, moves and immediate forms (R91 to R100). None of them
sets a flag; arithmetic wraps.
-/
namespace Sys2Proof.Machine

/-! ## Values -/

/-- Bits 63:32 of the exact signed product (R92). -/
def mulhs (a b : Word) : Word := BitVec.ofInt 32 (a.toInt * b.toInt / 2 ^ 32)

/-- Bits 63:32 of the exact natural product (R92). -/
def mulhn (a b : Word) : Word := BitVec.ofNat 32 (a.toNat * b.toNat / 2 ^ 32)

def imin (a b : Word) : Word := if a.toInt ≤ b.toInt then a else b
def imax (a b : Word) : Word := if a.toInt ≤ b.toInt then b else a
def nmin (a b : Word) : Word := if a.toNat ≤ b.toNat then a else b
def nmax (a b : Word) : Word := if a.toNat ≤ b.toNat then b else a

/-- The exact absolute difference as n32 (R92). -/
def iabsd (a b : Word) : Word := BitVec.ofNat 32 (a.toInt - b.toInt).natAbs

/-- Shifts by the whole of b read as n32 (R94). -/
def shlW (a b : Word) : Word := if b.toNat < 32 then a <<< b.toNat else 0
def shrW (a b : Word) : Word := a >>> b.toNat
def sarW (a b : Word) : Word := a.sshiftRight b.toNat
def rotlW (a b : Word) : Word := a.rotateLeft (b.toNat % 32)

/-- The number of one bits of `a` below bit n. -/
def popTo (a : Word) : Nat → Nat
  | 0 => 0
  | n + 1 => popTo a n + (if a.getLsbD n then 1 else 0)

def popc (a : Word) : Word := BitVec.ofNat 32 (popTo a 32)

/-- Zero bits above the highest one bit below bit n. -/
def clzTo (a : Word) : Nat → Nat
  | 0 => 0
  | n + 1 => if a.getLsbD n then 0 else clzTo a n + 1

def clz (a : Word) : Word := BitVec.ofNat 32 (clzTo a 32)

def brev (a : Word) : Word := BitVec.reverse a

/-- The byte transforms of PRMT (R95). -/
def prmtByte (t : Nat) (x : Byte) : Byte :=
  match t with
  | 1 => 0
  | 2 => if x.getLsbD 7 then 0xFF else 0
  | 3 => x.extractLsb' 0 4 ++ x.extractLsb' 4 4
  | 4 => BitVec.reverse x
  | 5 => 0xFF
  | _ => x

/-- Byte j of a PRMT result. -/
def prmtAt (d a b : Word) (j : Nat) : Byte :=
  let c := b.extractLsb' (8 * j) 8
  let k := c.toNat % 8
  let x := if k < 4 then a.extractLsb' (8 * k) 8 else d.extractLsb' (8 * (k - 4)) 8
  prmtByte (c.toNat / 8 % 8) x

def prmt (d a b : Word) : Word := prmtAt d a b 3 ++ prmtAt d a b 2 ++ prmtAt d a b 1 ++ prmtAt d a b 0

/-- The low m bits set. -/
def lowMask (m : Nat) : Word := BitVec.ofNat 32 (2 ^ m - 1)

/-- BFX (R96). -/
def bfx (a b : Word) : Word :=
  let p := b.toNat % 256
  let l := b.toNat / 256 % 256
  if l = 0 then 0
  else
    let m := if l < 32 then l else 32
    let f := (a >>> p) &&& lowMask m
    if b.getLsbD 16 && decide (m < 32) && f.getLsbD (m - 1) then f ||| ~~~(lowMask m) else f

/-- BFI (R96). -/
def bfi (d a b : Word) : Word :=
  let p := b.toNat % 256
  let l := b.toNat / 256 % 256
  let m := BitVec.ofNat 32 ((2 ^ l - 1) * 2 ^ p)
  (d &&& ~~~m) ||| ((a <<< p) &&& m)

/-! ## Shapes of results -/

def outD (d : Reg) (w : Word) : LaneOut := { d := [(d, w)] }

/-- A 64-bit result, low word in the even member (R46). -/
def outPair (d : Reg) (v : DWord) : LaneOut := { d := [(d, v.setWidth 32), (regPlus d 1, v.extractLsb' 32 32)] }

def out3 (f : Word → Word → Word) (o : R3) (x : Issue) (l : Nat) : LaneOut := outD o.d (f (x.g.src l o.a) (x.g.src l o.b))
/-- A form that reads its old D. -/
def out3d (f : Word → Word → Word → Word) (o : R3) (x : Issue) (l : Nat) : LaneOut :=
  outD o.d (f (x.g.reg l o.d) (x.g.src l o.a) (x.g.src l o.b))
def out2 (f : Word → Word) (o : R2) (x : Issue) (l : Nat) : LaneOut := outD o.d (f (x.g.src l o.a))
def out64 (f : DWord → DWord → DWord) (o : R3) (x : Issue) (l : Nat) : LaneOut :=
  outPair o.d (f (x.g.src64 l o.a) (x.g.src64 l o.b))
def outSh64 (f : DWord → Nat → DWord) (o : R3) (x : Issue) (l : Nat) : LaneOut :=
  outPair o.d (f (x.g.src64 l o.a) (x.g.src l o.b).toNat)
def outRI (f : Word → Word → Word) (o : RI) (x : Issue) (l : Nat) : LaneOut :=
  outD o.d (f (x.g.src l o.a) (o.imm.signExtend 32))
def outSh (f : Word → Word → Word) (o : RSh) (x : Issue) (l : Nat) : LaneOut :=
  outD o.d (f (x.g.src l o.a) (o.c.setWidth 32))

/-! ## IALU (R92, R93) -/

abbrev Result := Host.Outcome State Fault Refusal

def execIadd (o : R3) (s : State) : Result := .next (s.issueReg (.iadd o) (out3 (· + ·) o))
def execIsub (o : R3) (s : State) : Result := .next (s.issueReg (.isub o) (out3 (· - ·) o))
def execImul (o : R3) (s : State) : Result := .next (s.issueReg (.imul o) (out3 (· * ·) o))
def execImulhs (o : R3) (s : State) : Result := .next (s.issueReg (.imulhs o) (out3 mulhs o))
def execImulhn (o : R3) (s : State) : Result := .next (s.issueReg (.imulhn o) (out3 mulhn o))
def execImad (o : R3) (s : State) : Result := .next (s.issueReg (.imad o) (out3d (fun d a b => d + a * b) o))
def execImin (o : R3) (s : State) : Result := .next (s.issueReg (.imin o) (out3 imin o))
def execImax (o : R3) (s : State) : Result := .next (s.issueReg (.imax o) (out3 imax o))
def execNmin (o : R3) (s : State) : Result := .next (s.issueReg (.nmin o) (out3 nmin o))
def execNmax (o : R3) (s : State) : Result := .next (s.issueReg (.nmax o) (out3 nmax o))
def execIabsd (o : R3) (s : State) : Result := .next (s.issueReg (.iabsd o) (out3 iabsd o))

/-- IADDC: the exact sum with p62, its carry to p62 (R93). -/
def outAddc (o : R3) (x : Issue) (l : Nat) : LaneOut :=
  let t := (x.g.src l o.a).toNat + (x.g.src l o.b).toNat + (if (x.g.lane l).pred 62 then 1 else 0)
  { d := [(o.d, BitVec.ofNat 32 t)], p := [(62, decide (2 ^ 32 ≤ t))] }

/-- ISUBB: the exact difference with p62, its borrow to p62 (R93). -/
def outSubb (o : R3) (x : Issue) (l : Nat) : LaneOut :=
  let t : Int := (x.g.src l o.a).toNat - (x.g.src l o.b).toNat - (if (x.g.lane l).pred 62 then 1 else 0)
  { d := [(o.d, BitVec.ofInt 32 t)], p := [(62, decide (t < 0))] }

def execIaddc (o : R3) (s : State) : Result := .next (s.issueReg (.iaddc o) (outAddc o))
def execIsubb (o : R3) (s : State) : Result := .next (s.issueReg (.isubb o) (outSubb o))

/-! ## BITS (R94 to R96) -/

def execAnd (o : R3) (s : State) : Result := .next (s.issueReg (.and o) (out3 (· &&& ·) o))
def execOr (o : R3) (s : State) : Result := .next (s.issueReg (.or o) (out3 (· ||| ·) o))
def execXor (o : R3) (s : State) : Result := .next (s.issueReg (.xor o) (out3 (· ^^^ ·) o))
def execAndn (o : R3) (s : State) : Result := .next (s.issueReg (.andn o) (out3 (fun a b => a &&& ~~~b) o))
def execOrn (o : R3) (s : State) : Result := .next (s.issueReg (.orn o) (out3 (fun a b => a ||| ~~~b) o))
def execShl (o : R3) (s : State) : Result := .next (s.issueReg (.shl o) (out3 shlW o))
def execShr (o : R3) (s : State) : Result := .next (s.issueReg (.shr o) (out3 shrW o))
def execSar (o : R3) (s : State) : Result := .next (s.issueReg (.sar o) (out3 sarW o))
def execRotl (o : R3) (s : State) : Result := .next (s.issueReg (.rotl o) (out3 rotlW o))
def execPopc (o : R2) (s : State) : Result := .next (s.issueReg (.popc o) (out2 popc o))
def execClz (o : R2) (s : State) : Result := .next (s.issueReg (.clz o) (out2 clz o))
def execBrev (o : R2) (s : State) : Result := .next (s.issueReg (.brev o) (out2 brev o))
def execPrmt (o : R3) (s : State) : Result := .next (s.issueReg (.prmt o) (out3d prmt o))
def execBfx (o : R3) (s : State) : Result := .next (s.issueReg (.bfx o) (out3 bfx o))
def execBfi (o : R3) (s : State) : Result := .next (s.issueReg (.bfi o) (out3d bfi o))

/-! ## ALU64 (R97) -/

def execAdd64 (o : R3) (s : State) : Result := .next (s.issueReg (.add64 o) (out64 (· + ·) o))
def execSub64 (o : R3) (s : State) : Result := .next (s.issueReg (.sub64 o) (out64 (· - ·) o))
def execMad64 (o : R3) (s : State) : Result :=
  .next (s.issueReg (.mad64 o) fun x l => outPair o.d (x.g.pair l o.d + x.g.src64 l o.a * x.g.src64 l o.b))
def execShl64 (o : R3) (s : State) : Result := .next (s.issueReg (.shl64 o) (outSh64 (fun a k => if k < 64 then a <<< k else 0) o))
def execShr64 (o : R3) (s : State) : Result := .next (s.issueReg (.shr64 o) (outSh64 (fun a k => a >>> k) o))
def execSar64 (o : R3) (s : State) : Result := .next (s.issueReg (.sar64 o) (outSh64 (fun a k => a.sshiftRight k) o))
def execMov64 (o : R2) (s : State) : Result := .next (s.issueReg (.mov64 o) fun x l => outPair o.d (x.g.src64 l o.a))

/-! ## MOVE (R98) -/

def execMov (o : R2) (s : State) : Result := .next (s.issueReg (.mov o) (out2 id o))
/-- The lowest lane's value in every lane taking part; a lowest lane that itself faults early supplies it all the same, and 0 of a name
outside its allotment (log entry 47). -/
def execMovs (o : R2) (s : State) : Result := .next (s.issueReg (.movs o) fun x _ => outD o.d (x.g.src x.lead o.a))
def execP2v (o : P2vOps) (s : State) : Result :=
  .next (s.issueReg (.p2v o) fun x l => outD o.d (if (x.g.lane l).predCode o.x then 1 else 0))
/-- The address of this instruction's base word plus a (R98). -/
def execLit (o : R2) (s : State) : Result :=
  .next (s.issueReg (.lit o) fun x l => outPair o.d (x.ia + (x.g.src l o.a).signExtend 64))

/-! ## Immediates (R99, R100) -/

def execIaddi (o : RI) (s : State) : Result := .next (s.issueReg (.iaddi o) (outRI (· + ·) o))
def execAndi (o : RI) (s : State) : Result := .next (s.issueReg (.andi o) (outRI (· &&& ·) o))
def execOri (o : RI) (s : State) : Result := .next (s.issueReg (.ori o) (outRI (· ||| ·) o))
def execXori (o : RI) (s : State) : Result := .next (s.issueReg (.xori o) (outRI (· ^^^ ·) o))
def execShli (o : RSh) (s : State) : Result := .next (s.issueReg (.shli o) (outSh shlW o))
def execShri (o : RSh) (s : State) : Result := .next (s.issueReg (.shri o) (outSh shrW o))
def execSari (o : RSh) (s : State) : Result := .next (s.issueReg (.sari o) (outSh sarW o))
def execRotli (o : RSh) (s : State) : Result := .next (s.issueReg (.rotli o) (outSh rotlW o))

end Sys2Proof.Machine
end

