-- ==== Sys2Proof/Machine/Num.lean ====
section
/-!
DEFINITION. Number formats and exact arithmetic (R70 to R87): values of codes, rounding, narrowing with its flags, exact
sums, the dot-product rule, and the functions of the special-function unit in fixed point (R122, R123).
-/
namespace Sys2Proof.Machine

/-! ## Formats (R70, R71) -/

/-- A floating-point format. -/
structure FloatFmt where
  ebits : Nat
  mbits : Nat
  bias : Nat
  inf : Bool                            -- has infinities
  nan : Option Nat                      -- canonical NaN code
  top : Nat                             -- largest finite code
  deriving DecidableEq, Repr

def fF32 : FloatFmt := ⟨8, 23, 127, true, some 0x7FC00000, 0x7F7FFFFF⟩
def fH16 : FloatFmt := ⟨5, 10, 15, true, some 0x7E00, 0x7BFF⟩
def fBf16 : FloatFmt := ⟨8, 7, 127, true, some 0x7FC0, 0x7F7F⟩
def fF8a : FloatFmt := ⟨4, 3, 7, false, some 0x7F, 0x7E⟩
def fF8b : FloatFmt := ⟨5, 2, 15, true, some 0x7E, 0x7B⟩
def fF4 : FloatFmt := ⟨2, 1, 1, false, none, 0x7⟩

/-- The sign bit as a number. -/
def FloatFmt.sign (f : FloatFmt) (neg : Bool) : Nat := if neg then 2 ^ (f.ebits + f.mbits) else 0

/-- What a code stands for: a NaN, an infinity, a zero, or m * 2^e with m not 0. -/
inductive Fp where
  | nan
  | inf (neg : Bool)
  | zero (neg : Bool)
  | fin (neg : Bool) (m : Nat) (e : Int)
  deriving DecidableEq, Repr

/-- The value of a code's low bits (R71). -/
def FloatFmt.value (f : FloatFmt) (code : Nat) : Fp :=
  let mag := code % 2 ^ (f.ebits + f.mbits)
  let neg := code / 2 ^ (f.ebits + f.mbits) % 2 == 1
  let ex := mag / 2 ^ f.mbits
  let mt := mag % 2 ^ f.mbits
  if f.inf && ex == 2 ^ f.ebits - 1 then (if mt = 0 then .inf neg else .nan)
  else if !f.inf && f.nan == some mag then .nan
  else if mag = 0 then .zero neg
  else if ex = 0 then .fin neg mt (1 - f.bias - f.mbits)
  else .fin neg (2 ^ f.mbits + mt) (ex - f.bias - f.mbits)

/-! ## Rounding (R77) -/

/-- The default mode of a target (R78). -/
def orMode (r d : RCode) : RCode := if r = .default then d else r

def FloatFmt.mode (f : FloatFmt) : RCode := if f.ebits + f.mbits < 8 then .rna else .rne

/-- Round m * 2^-sh to an integer: its magnitude, and whether anything was dropped. -/
def roundShift (mode : RCode) (neg : Bool) (m : Nat) (sh : Int) : Nat × Bool :=
  if sh ≤ 0 then (m * 2 ^ (-sh).toNat, false)
  else
    let p := 2 ^ sh.toNat
    let n := m / p
    let r := m % p
    let up := match mode with
      | .rz => false
      | .rup => !neg && r != 0
      | .rdn => neg && r != 0
      | .rna => r != 0 && decide (p ≤ 2 * r)
      | _ => decide (p < 2 * r) || (2 * r == p && n % 2 == 1)
    (if up then n + 1 else n, r != 0)

/-- round(): the magnitude code, with the exponent range unbounded above, and inexactness. -/
def FloatFmt.round (f : FloatFmt) (mode : RCode) (neg : Bool) (m : Nat) (e : Int) : Nat × Bool :=
  let emin : Int := 1 - f.bias
  let top : Int := m.log2 + e
  let e0 := if top < emin then emin else top
  let (n, nx) := roundShift mode neg m (e0 - f.mbits - e)
  ((e0 - emin).toNat * 2 ^ f.mbits + n, nx)

/-- Deliver a value in a target format: code and flags (R74, R76, R79). -/
def FloatFmt.narrow (f : FloatFmt) (mode : RCode) (sat : Bool) (x : Fp) : Nat × Flags :=
  let infCode := 2 ^ (f.ebits + f.mbits) - 2 ^ f.mbits
  match x with
  | .nan => match f.nan with
    | some c => (c, 0)
    | none => (0, fNV)
  | .inf neg => if f.inf && !sat then (f.sign neg + infCode, 0) else (f.sign neg + f.top, fSAT)
  | .zero neg => (f.sign neg, 0)
  | .fin neg m e =>
    let (c, nx) := f.round mode neg m e
    if c ≤ f.top then (f.sign neg + c, if nx then fNX else 0)
    else if !f.inf || sat then (f.sign neg + f.top, fSAT ||| fNX)
    else
      let big := match mode with
        | .rz => false
        | .rup => !neg
        | .rdn => neg
        | _ => true
      (f.sign neg + (if big then infCode else f.top), fOF ||| fNX)

/-! ## Exact operations -/

def Fp.isNan : Fp → Bool
  | .nan => true
  | _ => false

def Fp.isInf : Fp → Bool
  | .inf _ => true
  | _ => false

def Fp.isZero : Fp → Bool
  | .zero _ => true
  | _ => false

def Fp.neg? : Fp → Bool
  | .nan => false
  | .inf n => n
  | .zero n => n
  | .fin n _ _ => n

def Fp.flip : Fp → Fp
  | .nan => .nan
  | .inf n => .inf !n
  | .zero n => .zero !n
  | .fin n m e => .fin (!n) m e

/-- 0 times infinity. -/
def zeroInf (a b : Fp) : Bool := (a.isZero && b.isInf) || (a.isInf && b.isZero)

/-- The exact product (R76, R81). -/
def Fp.mul (a b : Fp) : Fp :=
  let n := a.neg? != b.neg?
  match a, b with
  | .nan, _ => .nan
  | _, .nan => .nan
  | .inf _, .zero _ => .nan
  | .zero _, .inf _ => .nan
  | .inf _, _ => .inf n
  | _, .inf _ => .inf n
  | .zero _, _ => .zero n
  | _, .zero _ => .zero n
  | .fin _ m e, .fin _ m' e' => .fin n (m * m') (e + e')

/-- The least exponent of the finite terms, at most `lo`. -/
def minExp (lo : Int) : List Fp → Int
  | [] => lo
  | .fin _ _ e :: xs => minExp (if e < lo then e else lo) xs
  | _ :: xs => minExp lo xs

/-- The finite terms over 2^lo. -/
def sumAt (lo : Int) : List Fp → Int
  | [] => 0
  | .fin n m e :: xs =>
    let v : Int := m * 2 ^ (e - lo).toNat
    (if n then -v else v) + sumAt lo xs
  | _ :: xs => sumAt lo xs

/-- v * 2^e, +0 for 0. -/
def Fp.ofInt (v e : Int) : Fp := if v = 0 then .zero false else .fin (decide (v < 0)) v.natAbs e

/-- The exact sum of finite terms (zeros count nothing), +0 when it is 0. -/
def finiteSum (xs : List Fp) : Fp :=
  let lo := minExp 0 xs
  .ofInt (sumAt lo xs) lo

/-- Infinities of both signs. -/
def clash (xs : List Fp) : Bool := xs.any (fun x => x == .inf true) && xs.any (fun x => x == .inf false)

/-- The exact sum of two terms, and whether it is invalid (R76, R81). -/
def Fp.add (a b : Fp) : Fp × Bool :=
  if a.isNan || b.isNan then (.nan, false)
  else if clash [a, b] then (.nan, true)
  else if a.isInf then (a, false)
  else if b.isInf then (b, false)
  else if a.isZero && b.isZero then (.zero (a.neg? && b.neg?), false)
  else (finiteSum [a, b], false)

def nvIf (b : Bool) : Flags := if b then fNV else 0

/-- Round an exact result once to a format under rne (R78). -/
def FloatFmt.deliver (f : FloatFmt) (x : Fp) (nv : Bool) : Nat × Flags :=
  let (c, fl) := f.narrow .rne false x
  (c, fl ||| nvIf nv)

def FloatFmt.add (f : FloatFmt) (a b : Nat) : Nat × Flags :=
  let (x, nv) := (f.value a).add (f.value b)
  f.deliver x nv

def FloatFmt.sub (f : FloatFmt) (a b : Nat) : Nat × Flags :=
  let (x, nv) := (f.value a).add (f.value b).flip
  f.deliver x nv

def FloatFmt.mul (f : FloatFmt) (a b : Nat) : Nat × Flags :=
  f.deliver ((f.value a).mul (f.value b)) (zeroInf (f.value a) (f.value b))

/-- a * b + d, rounded once (R119, R121). -/
def FloatFmt.fma (f : FloatFmt) (d a b : Nat) : Nat × Flags :=
  let (x, nv) := ((f.value a).mul (f.value b)).add (f.value d)
  f.deliver x (nv || zeroInf (f.value a) (f.value b))

/-- The order of minimum and maximum: −0 below +0 (R119). -/
def FloatFmt.key (f : FloatFmt) (c : Nat) : Int :=
  let mag := c % 2 ^ (f.ebits + f.mbits)
  if c / 2 ^ (f.ebits + f.mbits) % 2 = 1 then -(mag : Int) - 1 else mag

def FloatFmt.isNan (f : FloatFmt) (c : Nat) : Bool := (f.value c).isNan

def FloatFmt.fmin (f : FloatFmt) (a b : Nat) : Nat :=
  if f.isNan a || f.isNan b then f.nan.getD 0 else if f.key a ≤ f.key b then a else b

def FloatFmt.fmax (f : FloatFmt) (a b : Nat) : Nat :=
  if f.isNan a || f.isNan b then f.nan.getD 0 else if f.key b ≤ f.key a then a else b

def FloatFmt.fminn (f : FloatFmt) (a b : Nat) : Nat :=
  if f.isNan a && f.isNan b then f.nan.getD 0 else if f.isNan a then b else if f.isNan b then a else f.fmin a b

def FloatFmt.fmaxn (f : FloatFmt) (a b : Nat) : Nat :=
  if f.isNan a && f.isNan b then f.nan.getD 0 else if f.isNan a then b else if f.isNan b then a else f.fmax a b

/-- FCMP (R102): the zeros compare equal. -/
def FloatFmt.cmp (f : FloatFmt) (c : FCond) (a b : Nat) : Bool :=
  let un := f.isNan a || f.isNan b
  let v := fun (x : Nat) =>
    let mag : Int := (x % 2 ^ (f.ebits + f.mbits) : Nat)
    if x / 2 ^ (f.ebits + f.mbits) % 2 = 1 then -mag else mag
  match c with
  | .eq => !un && v a == v b
  | .ne => un || v a != v b
  | .lt => !un && decide (v a < v b)
  | .le => !un && decide (v a ≤ v b)
  | .gt => !un && decide (v b < v a)
  | .ge => !un && decide (v b ≤ v a)
  | .ord => !un
  | .unord => un

/-- FRND (R120): round with spacing 1. -/
def frnd (mode : RCode) (a : Nat) : Nat × Flags :=
  match fF32.value a with
  | .nan => (0x7FC00000, 0)
  | .inf _ => (a, 0)
  | .zero _ => (a, 0)
  | .fin neg m e =>
    let (n, nx) := roundShift (orMode mode .rne) neg m (-e)
    if !nx then (a, 0)
    else if n = 0 then (fF32.sign neg, fNX)
    else ((fF32.narrow .rne false (.fin neg n 0)).1, fNX)

/-! ## Integers (R72, R80) -/

/-- An integer format: signed, width. -/
structure IntFmt where
  signed : Bool
  w : Nat
  deriving DecidableEq, Repr

def IntFmt.lo (f : IntFmt) : Int := if f.signed then -(2 ^ (f.w - 1) : Int) else 0
def IntFmt.hi (f : IntFmt) : Int := if f.signed then 2 ^ (f.w - 1) - 1 else 2 ^ f.w - 1

/-- The value of the low bits of a word. -/
def IntFmt.value (f : IntFmt) (a : Word) : Int :=
  let n := a.toNat % 2 ^ f.w
  if f.signed && decide (2 ^ (f.w - 1) ≤ n) then (n : Int) - 2 ^ f.w else n

/-- The nearest value in range, with SAT and NX when it is another. -/
def IntFmt.clamp (f : IntFmt) (v : Int) : Int × Flags :=
  if v < f.lo then (f.lo, fSAT ||| fNX) else if f.hi < v then (f.hi, fSAT ||| fNX) else (v, 0)

/-- Floating-point to integer. -/
def IntFmt.fromFp (f : IntFmt) (mode : RCode) (x : Fp) : Int × Flags :=
  match x with
  | .nan => (0, fNV)
  | .inf neg => (if neg then f.lo else f.hi, fSAT)
  | .zero _ => (0, 0)
  | .fin neg m e =>
    let (n, nx) := roundShift (orMode mode .rne) neg m (-e)
    let (v, fl) := f.clamp (if neg then -(n : Int) else n)
    (v, fl ||| (if nx then fNX else 0))

/-- The formats of CVT: floating point or integer (R125). -/
def NFmt.float : NFmt → Option FloatFmt
  | .h16 => some fH16 | .bf16 => some fBf16 | .f8a => some fF8a | .f8b => some fF8b | .f4 => some fF4
  | _ => none

def NFmt.int : NFmt → IntFmt
  | .i32 => ⟨true, 32⟩ | .n32 => ⟨false, 32⟩ | .i16 => ⟨true, 16⟩ | .n16 => ⟨false, 16⟩
  | .i8 => ⟨true, 8⟩ | .n8 => ⟨false, 8⟩ | .i4 => ⟨true, 4⟩ | .n4 => ⟨false, 4⟩
  | _ => ⟨true, 32⟩

/-- A floating-point value to format k, in the low bits of a register as R73 extends it. -/
def toNFmt (k : NFmt) (mode : RCode) (sat : Bool) (x : Fp) : Word × Flags :=
  match NFmt.float k with
  | some f =>
    let (c, fl) := f.narrow (orMode mode f.mode) sat x
    (BitVec.ofNat 32 c, fl)
  | none =>
    let (v, fl) := (NFmt.int k).fromFp mode x
    (BitVec.ofInt 32 v, fl)

/-- A value of format k in a register's low bits. -/
def fromNFmt (k : NFmt) (a : Word) : Fp :=
  match NFmt.float k with
  | some f => f.value a.toNat
  | none => .ofInt ((NFmt.int k).value a) 0

def f32Of (r : Nat × Flags) : Word × Flags := (BitVec.ofNat 32 r.1, r.2)

/-- Integer to integer, by the nearest range end. -/
def intToInt (src dst : NFmt) (a : Word) : Word × Flags :=
  let (v, fl) := (NFmt.int dst).clamp ((NFmt.int src).value a)
  (BitVec.ofInt 32 v, fl)

/-- Two f32 words to a packed pair. -/
def pairTo (f : FloatFmt) (mode : RCode) (sat : Bool) (lo hi : Word) : Word × Flags :=
  let (a, fa) := f.narrow (orMode mode .rne) sat (fF32.value lo.toNat)
  let (b, fb) := f.narrow (orMode mode .rne) sat (fF32.value hi.toNat)
  (BitVec.ofNat 32 (a + b * 2 ^ 16), fa ||| fb)

/-- CVT of one value; `hi` is the second word of a pair (R125). -/
def cvt (c : CvtCode) (mode : RCode) (sat : Bool) (a hi : Word) : Word × Flags :=
  match c with
  | .fromF32 k => toNFmt k mode sat (fF32.value a.toNat)
  | .toF32 k => f32Of (fF32.narrow (orMode mode .rne) false (fromNFmt k a))
  | .h16ToBf16 => toNFmt .bf16 mode sat (fH16.value a.toNat)
  | .bf16ToH16 => toNFmt .h16 mode sat (fBf16.value a.toNat)
  | .i32To k => intToInt .i32 k a
  | .n32To k => intToInt .n32 k a
  | .i32ToN32 => intToInt .i32 .n32 a
  | .n32ToI32 => intToInt .n32 .i32 a
  | .pairToH16 => pairTo fH16 mode sat a hi
  | .pairToBf16 => pairTo fBf16 mode sat a hi

/-! ## Exact sums (R83, R129) -/

/-- dot_f(): the products of the pairs added to the accumulator with one rounding. -/
def dotF (ps : List (Fp × Fp)) (acc : Fp) : Nat × Flags :=
  let prods := ps.map fun p => p.1.mul p.2
  let all := acc :: prods
  let opNan := acc.isNan || ps.any fun p => p.1.isNan || p.2.isNan
  if all.any Fp.isNan || clash all then
    (0x7FC00000, nvIf (!opNan || ps.any fun p => zeroInf p.1 p.2))
  else match all.find? Fp.isInf with
    | some x => fF32.deliver x false
    | none => fF32.deliver (finiteSum all) false

/-- The sum of GRED.add.f32: as dot_f without products, no flag. -/
def gredSum (xs : List Fp) : Nat :=
  if xs.any Fp.isNan || clash xs then 0x7FC00000
  else match xs.find? Fp.isInf with
    | some x => (fF32.narrow .rne false x).1
    | none => (fF32.narrow .rne false (finiteSum xs)).1

/-- Element j of a packed word, `w` bits wide (R73). -/
def elem (a : Word) (w j : Nat) : Nat := a.toNat / 2 ^ (w * j) % 2 ^ w

/-- DOT4 and DOT8 on floating-point elements (R127). -/
def dotFloat (f : FloatFmt) (w n : Nat) (d a b : Word) : Word × Flags :=
  f32Of (dotF ((List.range n).map fun j => (f.value (elem a w j), f.value (elem b w j))) (fF32.value d.toNat))

/-- DOT4 and DOT8 on integers: exact, modulo 2^32 (R83). -/
def dotInt (f : IntFmt) (n : Nat) (d a b : Word) : Word :=
  let p := (List.range n).map fun j =>
    f.value (BitVec.ofNat 32 (elem a f.w j)) * f.value (BitVec.ofNat 32 (elem b f.w j))
  BitVec.ofInt 32 (p.foldl (· + ·) (d.toNat : Int))

/-! ## The special-function unit (R122, R123) -/

/-- The floor of a square root, bit by bit. -/
def isqrtFrom (n : Nat) : Nat → Nat → Nat
  | 0, r => r
  | k + 1, r => let t := r + 2 ^ k; isqrtFrom n k (if t * t ≤ n then t else r)

def isqrt (n : Nat) : Nat := isqrtFrom n (n.log2 / 2 + 1) 0

/-- A magnitude known to one bit below q, with a sticky bit. -/
def sticky (q : Nat) (exact : Bool) : Nat := 2 * q + (if exact then 0 else 1)

/-- 1 / a (R123): only OF and DZ. -/
def frcp (a : Nat) : Nat × Flags :=
  match fF32.value a with
  | .nan => (0x7FC00000, 0)
  | .inf n => (fF32.sign n, 0)
  | .zero n => (fF32.sign n + 0x7F800000, fDZ)
  | .fin n m e =>
    let (c, fl) := fF32.narrow .rne false (.fin n (sticky (2 ^ 80 / m) (2 ^ 80 % m == 0)) (-81 - e))
    (c, fl &&& fOF)

/-- The value with an even exponent. -/
def evenExp (m : Nat) (e : Int) : Nat × Int := if e % 2 = 0 then (m, e) else (2 * m, e - 1)

/-- 1 / √a. -/
def frsq (a : Nat) : Nat × Flags :=
  match fF32.value a with
  | .nan => (0x7FC00000, 0)
  | .inf n => if n then (0x7FC00000, fNV) else (0, 0)
  | .zero n => (fF32.sign n + 0x7F800000, fDZ)
  | .fin n m e =>
    if n then (0x7FC00000, fNV)
    else
      let (m, e) := evenExp m e
      let q := isqrt (2 ^ 160 / m)
      ((fF32.narrow .rne false (.fin false (sticky q (q * q * m == 2 ^ 160)) (-81 - e / 2))).1, 0)

/-- √a. -/
def fsqrt (a : Nat) : Nat × Flags :=
  match fF32.value a with
  | .nan => (0x7FC00000, 0)
  | .inf n => if n then (0x7FC00000, fNV) else (0x7F800000, 0)
  | .zero _ => (a, 0)
  | .fin n m e =>
    if n then (0x7FC00000, fNV)
    else
      let (m, e) := evenExp m e
      let q := isqrt (m * 2 ^ 100)
      ((fF32.narrow .rne false (.fin false (sticky q (q * q == m * 2 ^ 100)) (-51 + e / 2))).1, 0)

/-- 1.0 in the 400-bit fixed point of the functions below. -/
def one400 : Nat := 2 ^ 400

/-- π/2 * 2^600, rounded down. -/
def halfPi600 : Nat :=
  0x1921fb54442d18469898cc51701b839a252049c1114cf98e804177d4c76273644a29410f31c6809bbdf2a33679a748636605614dbe4be286e9fc26adadaa3848bc90b6aecc4bcfd8de89885

/-- ln 2 * 2^400, rounded down. -/
def ln2 : Nat :=
  0xb17217f7d1cf79abc9e3b39803f2f6af40f343267298b62d8a0d175b8baafa2be7b876206debac98559552fb4afa1b10ed2e

/-- Sums of a series whose n-th term is the one before times `z` over `den n`, alternating where `alt`. -/
def series (z : Nat) (den : Nat → Nat) (alt : Bool) : Nat → Nat → Nat → Int
  | 0, _, t => t
  | fuel + 1, n, t =>
    let r := series z den alt fuel (n + 1) (t * z / 2 ^ 400 / den n)
    if alt then t - r else t + r

/-- Sine and cosine of r in [0, π/2), fixed point. -/
def sinFix (r : Nat) : Nat := (series (r * r / 2 ^ 400) (fun n => (2 * n) * (2 * n + 1)) true 100 1 r).toNat
def cosFix (r : Nat) : Nat := (series (r * r / 2 ^ 400) (fun n => (2 * n - 1) * (2 * n)) true 100 1 one400).toNat

/-- e^r for r in [0, 1), fixed point. -/
def expFix (r : Nat) : Nat := (series r (fun n => n) false 100 1 one400).toNat

/-- The sum of z^(2n+1) / (2n+1): the inverse hyperbolic tangent. -/
def atanhSum (z2 : Nat) : Nat → Nat → Nat → Nat
  | 0, _, _ => 0
  | fuel + 1, n, p => p / (2 * n + 1) + atanhSum z2 fuel (n + 1) (p * z2 / 2 ^ 400)

/-- log2 of y in [1, 2), fixed point. -/
def log2Fix (y : Nat) : Nat :=
  let z := (y - one400) * 2 ^ 400 / (y + one400)
  2 * atanhSum (z * z / 2 ^ 400) 140 0 z * 2 ^ 400 / ln2

/-- m * 2^e in the 400-bit fixed point, for values that need no more. -/
def toFix (m : Nat) (e : Int) : Nat := if e < -400 then m / 2 ^ (-400 - e).toNat else m * 2 ^ (e + 400).toNat

/-- One of the two f32 values that bracket a value which no f32 code holds (R123): `op` is the SUB, `a` the operand. -/
def bracket (op a : Nat) (neg : Bool) (fix : Nat) : Nat :=
  (fF32.narrow (if Config.sfuUpper op (BitVec.ofNat 32 a) then .rup else .rdn) false (.fin neg (2 * fix + 1) (-401))).1

/-- The bracket just below a magnitude: for functions that lie between |a| and the code below it. -/
def below (op a : Nat) (neg : Bool) (mag : Nat) : Nat :=
  fF32.sign neg + (if Config.sfuUpper op (BitVec.ofNat 32 a) == neg then mag - 1 else mag)

/-- The magnitude is below 2^-40: sine and hyperbolic tangent lie between the code below it and it. -/
def tiny (m : Nat) (e : Int) : Bool := decide ((m.log2 : Int) + e < -40)

/-- Exact argument reduction: quadrant and remainder of a magnitude (R123). -/
def quadrant (m : Nat) (e : Int) : Nat × Nat :=
  let x := m * 2 ^ (e + 600).toNat
  (x / halfPi600 % 4, x % halfPi600 / 2 ^ 200)

def fsin (a : Nat) : Nat × Flags :=
  match fF32.value a with
  | .nan => (0x7FC00000, 0)
  | .inf _ => (0x7FC00000, fNV)
  | .zero _ => (a, 0)
  | .fin n m e =>
    if tiny m e then (below 5 a n (a % 2 ^ 31), 0)
    else
      let (k, r) := quadrant m e
      (bracket 5 a (n != decide (2 ≤ k)) (if k % 2 = 0 then sinFix r else cosFix r), 0)

def fcos (a : Nat) : Nat × Flags :=
  match fF32.value a with
  | .nan => (0x7FC00000, 0)
  | .inf _ => (0x7FC00000, fNV)
  | .zero _ => (0x3F800000, 0)
  | .fin _ m e =>
    let (k, r) := quadrant m e
    (bracket 6 a (k == 1 || k == 2) (if k % 2 = 0 then cosFix r else sinFix r), 0)

/-- 2^a. -/
def fexp2 (a : Nat) : Nat × Flags :=
  match fF32.value a with
  | .nan => (0x7FC00000, 0)
  | .inf n => (if n then 0 else 0x7F800000, 0)
  | .zero _ => (0x3F800000, 0)
  | .fin n m e =>
    let whole := m * 2 ^ e.toNat / 2 ^ (-e).toNat
    let isInt := whole * 2 ^ (-e).toNat == m * 2 ^ e.toNat
    if !n && decide (128 ≤ whole) then (0x7F800000, fOF)
    else if n && decide (149 ≤ whole) && !(whole == 149 && isInt) then
      (if Config.sfuUpper 3 (BitVec.ofNat 32 a) then 1 else 0, 0)
    else if isInt then
      ((fF32.narrow .rne false (.fin false 1 (if n then -(whole : Int) else whole))).1, 0)
    else
      let fr := toFix m e % one400
      let k : Int := if n then -(whole : Int) - 1 else whole
      let f := if n then one400 - fr else fr
      let y := expFix (f * ln2 / 2 ^ 400)
      ((fF32.narrow (if Config.sfuUpper 3 (BitVec.ofNat 32 a) then .rup else .rdn) false
        (.fin false (2 * y + 1) (k - 401))).1, 0)

def flog2 (a : Nat) : Nat × Flags :=
  match fF32.value a with
  | .nan => (0x7FC00000, 0)
  | .inf n => if n then (0x7FC00000, fNV) else (0x7F800000, 0)
  | .zero _ => (0xFF800000, fDZ)
  | .fin n m e =>
    if n then (0x7FC00000, fNV)
    else
      let k : Int := m.log2 + e
      if m = 2 ^ m.log2 then ((fF32.narrow .rne false (.ofInt k 0)).1, 0)
      else
        let v : Int := k * 2 ^ 400 + log2Fix (toFix m (-(m.log2 : Int)))
        (bracket 4 a (decide (v < 0)) v.natAbs, 0)

def ftanh (a : Nat) : Nat × Flags :=
  match fF32.value a with
  | .nan => (0x7FC00000, 0)
  | .inf n => (fF32.sign n + 0x3F800000, 0)
  | .zero _ => (a, 0)
  | .fin n m e =>
    if 91 * 2 ^ (-e).toNat ≤ 10 * m * 2 ^ e.toNat then (fF32.sign n + 0x3F800000, 0)
    else if tiny m e then (below 7 a n (a % 2 ^ 31), 0)
    else
      let t := toFix m (e + 1)
      let k := t / ln2
      let y := expFix (t % ln2) * 2 ^ k
      (bracket 7 a n ((y - one400) * 2 ^ 400 / (y + one400)), 0)

end Sys2Proof.Machine
end

