-- ==== Sys2Proof/Machine/Translate.lean ====
section
/-!
DEFINITION. Address translation: contexts (R154), the Sv57 walk with its updates (R155 to R165), ATS (R166, R167),
permissions (R162), page requests (R167, R247, R280), what a translated address names (R271 to R273), the granule state
that a fill leaves (R143, R153), and the register aperture (R52 to R56, R161).
-/
namespace Sys2Proof.Machine

/-- For whom an address is translated. `priv`: a handler group that is not delegated (R162). `deny`: a page request just
answered as failed or an ATS completion just received, the access it is for (either where none), and the fault it gives;
`final`: the page of an ATS completion just received; `after`: a page whose request has been answered with Success
(R340). -/
structure Who where
  part : Nat
  ctx : Nat
  core : Nat
  priv : Bool := false
  deny : Option (Nat × Option Bool × Flt) := none
  final : Option Nat := none
  after : Option Nat := none
  deriving DecidableEq, Repr

/-- The denial that holds for an access of a page, if any. -/
def Who.denied (w : Who) (vp : Nat) (write : Bool) : Option Flt :=
  match w.deny with
  | some (p, k, f) => if p = vp && (k == none || k == some write) then some f else none
  | none => none

/-- The page of an address is one whose request has been answered with Success (R340). -/
def Who.afterAt (w : Who) (va : DWord) : Bool := w.after == some (transBits va / 4096)

/-- What an access needs of its leaf (R162); `quiet`: a walk that sets A alone (R163). -/
structure Need where
  r : Bool := false
  w : Bool := false
  x : Bool := false
  quiet : Bool := false
  deriving DecidableEq, Repr

def needR : Need := { r := true }
def needW : Need := { w := true }
def needRW : Need := { r := true, w := true }
def needX : Need := { x := true }

/-- What comes of a translation. -/
inductive Trans where
  | ok (e : TlbEntry) (pa : Nat)
  | missing
  | ats (req : Nat)
  | flt (f : Flt)
  deriving DecidableEq, Repr

def b2n (b : Bool) (n : Nat) : Nat := if b then n else 0

/-- DETAIL of PERMISSION (R316). -/
def permDetail (n : Need) (r w x uMissing : Bool) : DWord :=
  BitVec.ofNat 64 (b2n n.r 1 + b2n n.w 2 + b2n n.x 4 + b2n r 16 + b2n w 32 + b2n x 64 + b2n uMissing 256)

/-- The permissions suffice (R162). -/
def permits (w : Who) (n : Need) (r wr x u : Bool) : Bool :=
  (!n.r || r) && (!n.w || wr) && (!n.x || x) && (w.priv || u)

/-- The address with its tag bits replaced by bit 56 (R131): what tables, ATS and page requests name. -/
def wide (v : Nat) : Nat := if 2 ^ 56 ≤ v % 2 ^ 57 then v % 2 ^ 57 + (2 ^ 64 - 2 ^ 57) else v % 2 ^ 57

def State.ctx? (s : State) (part ctx : Nat) : Option Ctx := (s.part part).ctxs.find? fun c => c.ctx == ctx

/-- The address is translated through the table at ROOT (R154). -/
def Ctx.local? (c : Ctx) (v : Nat) : Bool :=
  c.regime == 1 || (decide (c.lbase ≤ wide v) && decide (wide v < c.lbase + c.lsize))

/-! ## Translation entries (R165, R364) -/

def TlbEntry.covers (e : TlbEntry) (w : Who) (v : Nat) : Bool :=
  e.part == w.part && e.ctx == w.ctx && decide (e.vbase ≤ v) && decide (v < e.vbase + 2 ^ e.log2) &&
    (!e.ats || w.priv || e.u)

/-- Remove the first element that satisfies `p`. -/
def dropFirst {α : Type} (p : α → Bool) : List α → List α
  | [] => []
  | x :: xs => if p x then xs else x :: dropFirst p xs

/-- The same page of the same context, from a walk, or from an ATS completion with the same U. -/
def TlbEntry.same (e x : TlbEntry) : Bool :=
  e.part == x.part && e.ctx == x.ctx && e.vbase == x.vbase && e.log2 == x.log2 && e.ats == x.ats && (!e.ats || e.u == x.u)

/-- The most recently used entry stands first, in the place of one for the same page; the last goes when the unit is full. -/
def State.tlbPut (s : State) (core : Nat) (e : TlbEntry) : State :=
  s.updCore core fun c => { c with tlb := (e :: c.tlb.filter fun x => !e.same x).take 2048 }

def State.tlbDrop (s : State) (w : Who) (v : Nat) : State :=
  s.updCore w.core fun c => { c with tlb := dropFirst (fun e => e.covers w v) c.tlb }

/-! ## Granule state at a fill -/

/-- Cut the granules so that `k` begins one (R144, permission and tag-enable changes). A division that is forced on a
held granule ends its holds (R149). -/
def State.cutAt (s : State) (k : Nat) (forced : Bool) : Nat → State
  | 0 => s
  | fuel + 1 =>
    let g := s.granuleOf k
    if g.base = k || g.log2 ≤ 4 then s
    else
      let g := if forced && g.hold != 0 then
          { g with hold := 0, teNext := [], teams := g.teams.map fun (t : TeamHold) => { t with holds := 0, lost := t.lost || t.holds != 0 } }
        else g
      ((s.setGranule g).splitGranule g).cutAt k forced fuel

def State.cutRange (s : State) (k n : Nat) (forced : Bool) : State :=
  if isHost k then s else (s.cutAt k forced 18).cutAt (k + n) forced 18

/-- Change every granule within `[k, k + n)`, which begin and end on its bounds. -/
def State.eachGranule (s : State) (k n : Nat) (f : Granule → Granule) : Nat → State
  | 0 => s
  | fuel + 1 =>
    if n = 0 then s
    else
      let g := s.granuleOf k
      let m := g.base + 2 ^ g.log2 - k
      let s := s.setGranule (f g)
      if m < n then s.eachGranule (k + m) (n - m) f fuel else s

/-- A tag-enable change within one granule: it divides at the change's bounds; held, and only partly covered, it keeps its state
until its holds are gone (R144, R149, R153). -/
def State.changeTePiece (te : Bool) (s : State) (k n : Nat) : State :=
  let g := s.granuleOf k
  if (g.base != k || 2 ^ g.log2 != n) && g.hold != 0 then s.setGranule { g with teNext := g.teNext ++ [(k, n, te)] }
  else ((s.spoilMigs k n).cutRange k n false).eachGranule k n (fun (x : Granule) => { x with te := te }) (n / 16 + 1)

def State.changeTe (s : State) (k n : Nat) (te : Bool) : State :=
  if !isHbm k then s else State.byGranule (State.changeTePiece te) (n + 1) k n s

/-- Every granule of `[k, k + n)` has a tag-enable state, and none a change that waits. `fuel` bounds the granules. -/
def State.teIs (s : State) (te : Bool) : Nat → Nat → Nat → Bool
  | 0, _, _ => true
  | fuel + 1, k, n =>
    let g := s.granuleOf k
    let m := g.base + 2 ^ g.log2 - k
    g.te == te && g.teNext.isEmpty && (decide (n ≤ m) || s.teIs te fuel (k + m) (n - m))

/-- The same for a fill, which changes nothing where the state is what it was. -/
def State.setTe (s : State) (k n : Nat) (te : Bool) : State := if s.teIs te (n / 16 + 1) k n then s else s.changeTe k n te

/-- What translations have granted on host memory (R143). -/
def State.grantHost (s : State) (k n : Nat) (r w x : Bool) : State :=
  if s.hostGrants.any fun h => decide (h.key ≤ k ∧ k + n ≤ h.key + h.len) && (h.r || !r) && (h.w || !w) && (h.x || !x) then s
  else { s with hostGrants := s.hostGrants ++ [⟨k, n, r, w, x⟩] }

/-- A granule's protection summary with what a fill grants (R143, R368). -/
def Granule.grant (g : Granule) (r w x : Bool) : Granule :=
  { g with
    pr := g.pr || r
    pw := g.pw || w
    px := g.px || x
    changed := g.changed || (r && !g.pr) || (w && !g.pw) || (x && !g.px) }

/-- A fill adds what it grants to the protection summary and brings the leaf's TE (R143, R153). -/
def State.fillGranule (s : State) (part pbase n : Nat) (r w x te : Bool) : State :=
  match s.keyOf part pbase with
  | some k =>
    if isHost k then s.grantHost k n r w x
    else
      let s := s.setTe k n te
      s.eachGranule (s.granuleOf k).base (k + n - (s.granuleOf k).base) (fun (g : Granule) => g.grant r w x) (n / 16 + 1)
  | none => s

/-! ## What a request finds on its way (R359, R375) -/

/-- The keys of a request that caches near a core hold for it: at `some true` its L1 and its cluster, at `some false` its cluster's point of
coherence, at `none` no cache is asked (R137, R177). -/
def State.nearKeys (s : State) (core k n : Nat) : Option Bool → List Nat
  | none => []
  | some l1 =>
    (if l1 then (l1Serves (s.core core) k n).map L1Byte.key else []) ++
      ((ccRun (s.cluster (clusterOf core)) k n).filter fun x => x.val.isSome).map CcByte.key ++
      ((clusterCores (clusterOf core)).map fun c => ((l1Run (s.core c) k n).filter L1Byte.dirty).map L1Byte.key).flatten

/-- Every byte of a request lies there. -/
def State.allNear (s : State) (core k n : Nat) (near : Option Bool) : Bool :=
  near.isSome && (keysOf k n).all (s.nearKeys core k n near).contains

/-- Every byte of a range lies in the core's L1 or its cluster. -/
def State.bytesNear (s : State) (core k n : Nat) : Bool := s.allNear core k n (some true)

/-- The byte's home holds it: HBM, a far-tier line not yet written back, a host line held. -/
def State.atHome (s : State) (part k : Nat) : Bool :=
  isHbm k || (isFar k && s.l2dirty.contains (k / 128)) || (isHost k && (s.part part).hlines.any fun h => h.line == k / 64)

/-- The IDE stream of a partition's requests on a port (R270, R283): the one its interface is bound to, a selective stream that its
function uses, the port's link stream. -/
def State.streamFor (s : State) (part port : Nat) : Option Stream :=
  ((s.streams.find? fun x => x.part == some part && x.port == port).orElse fun _ =>
    s.streams.find? fun x => !x.link && x.user == some part && x.port == port).orElse fun _ =>
      s.streams.find? fun x => x.link && x.port == port

/-- What an outbound request names of its stream. -/
def State.onStream (s : State) (part port : Nat) : List Nat := (s.streamFor part port).toList.map Stream.id

/-- A request on a stream that has gone Insecure (R375). -/
def State.streamFlt (s : State) (part port : Nat) : Option Flt :=
  ((s.streamFor part port).filter Stream.insecure).map fun x => { code := cIde, detail := BitVec.ofNat 64 x.id }

/-- What the link behind the bytes gives, where one must be used (R359, R375). A port that brings no completions lets a request
that needs one time out; `posted`: a write that needs none. -/
def State.linkFlt (s : State) (part core : Nat) (near : Option Bool) (k n : Nat) (posted : Bool := false) : Option Flt :=
  if isHbm k then none
  else if (keysOf k n).all fun j =>
      s.atHome part j || (s.nearKeys core k n near).contains j || s.dirtyAny j then none
  else if !(s.port (portOfKey k)).up then some { code := cLinkDown, detail := BitVec.ofNat 64 (portOfKey k) }
  else if (s.port (portOfKey k)).silent && !posted then
    some { code := cTimeout, detail := BitVec.ofNat 64 (portOfKey k) }
  else s.streamFlt part (portOfKey k)

/-- What reading bytes of physical memory at their home meets on a link. -/
def State.physFlt (s : State) (part core pa n : Nat) : Option Flt :=
  (s.keyOf part pa).bind fun k => s.linkFlt part core none k n

/-! ## The walk (R155 to R159, R338) -/

/-- Where a walk ends. -/
inductive Walked where
  | leaf (level entry addr : Nat)
  | absent
  | bad (level entry : Nat)
  | stop (f : Flt)                     -- the table cannot be read (R359)
  deriving DecidableEq, Repr

/-- A non-leaf entry may stand (R156, R159, R338). -/
def State.nonLeafOk (s : State) (part level e : Nat) : Bool :=
  level != 0 && e / 2 ^ 54 == 0 && bitsAt e 6 2 == 0 && bitsAt e 4 1 == 0 &&
    decide (s.physOf part (bitsAt e 10 44 * 4096) ≠ .nothing)

/-- The size and base of a leaf's page (R158). -/
def leafLog2 (level e : Nat) : Nat := if level = 0 then (if bitsAt e 63 1 = 1 then 16 else 12) else 12 + 9 * level
def leafBase (e : Nat) : Nat :=
  (if bitsAt e 63 1 = 1 then bitsAt e 10 44 / 16 * 16 else bitsAt e 10 44) * 4096

/-- A leaf of any level may stand, as application cores accept it (R158, R159, R338). -/
def State.leafFits (s : State) (part level e : Nat) : Bool :=
  let n := bitsAt e 63 1
  let ppn := bitsAt e 10 44
  let aperture := bitsAt e 61 2 == 3
  bitsAt e 54 2 == 0 && !(bitsAt e 2 1 == 1 && bitsAt e 1 1 == 0) &&
  !(n == 1 && (level != 0 || ppn % 16 != 8)) && ppn % 2 ^ (9 * level) == 0 &&
  !(aperture && (n == 1 || bitsAt e 56 1 == 1)) &&
  (aperture || (decide (s.physOf part (leafBase e) ≠ .nothing) &&
    decide (s.physOf part (leafBase e + 2 ^ leafLog2 level e - 1) ≠ .nothing)))

/-- A leaf may stand for a compute core (R158, R159, R338). -/
def State.leafOk (s : State) (part level e : Nat) : Bool := decide (level ≤ 1) && s.leafFits part level e

/-- Table index of a level, and all address bits from it up. -/
def levelIndex (v level : Nat) : Nat := v / 2 ^ (12 + 9 * level) % 512
def levelKey (v level : Nat) : Nat := v / 2 ^ (12 + 9 * level)

/-- The entry of a level that serves an address. -/
def WalkEntry.serves (x : WalkEntry) (w : Who) (v level : Nat) : Bool :=
  x.part == w.part && x.ctx == w.ctx && x.level == level && x.index == levelKey v level

/-- A non-leaf entry is the most recent of the cluster's walk cache, which lets go of the last when it is full
(R165, R364). -/
def State.walkPut (s : State) (w : Who) (level v table : Nat) : State :=
  s.updCluster (clusterOf w.core) fun c => { c with
    walk := ((⟨w.part, w.ctx, level, levelKey v level, table⟩ : WalkEntry) ::
      c.walk.filter fun x => !x.serves w v level).take 512 }

/-- Read one entry: where the walk ends, or the table it goes on to (R155, R156). -/
def State.walkStep (s : State) (w : Who) (v table level : Nat) : State × Except Walked Nat :=
  let addr := table + 8 * levelIndex v level
  match s.physFlt w.part w.core addr 8 with
  | some f => (s, .error (.stop f))
  | none =>
    let (s, bs) := s.physRead w.part addr 8
    let e := leNat bs
    if e % 2 = 0 then (s, .error .absent)
    else if bitsAt e 1 3 = 0 then
      if s.nonLeafOk w.part level e then
        (s.walkPut w level v (bitsAt e 10 44 * 4096), .ok (bitsAt e 10 44 * 4096))
      else (s, .error (.bad level e))
    else if s.leafOk w.part level e then (s, .error (.leaf level e addr))
    else (s, .error (.bad level e))

/-- Walk from a table at a level down. -/
def State.walkAt (w : Who) (v : Nat) : Nat → State → Nat → State × Walked
  | 0, s, table =>
    match s.walkStep w v table 0 with
    | (s, .error r) => (s, r)
    | (s, .ok _) => (s, .absent)
  | l + 1, s, table =>
    match s.walkStep w v table (l + 1) with
    | (s, .error r) => (s, r)
    | (s, .ok next) => State.walkAt w v l s next

/-- The lowest level whose table the walk cache gives (R165). -/
def Cluster.walkStart (c : Cluster) (w : Who) (v root : Nat) : Nat × Nat :=
  match [1, 2, 3, 4].findSome? fun l =>
    (c.walk.find? fun x => x.serves w v l).map fun x => (l - 1, x.table) with
  | some r => r
  | none => (4, root)

/-- The leaf after a walk that grants (R163). -/
def leafUpdate (e : Nat) (n : Need) (heat : Bool) : Nat :=
  let set := fun (x bit : Nat) => if bitsAt x bit 1 = 1 then x else x + 2 ^ bit
  let bump := fun (x lo : Nat) => if bitsAt x lo 2 < 3 then x + 2 ^ lo else x
  let e := set e 6
  let e := if n.w && !n.quiet then set e 7 else e
  let e := if heat && (n.r || n.x) && !n.quiet then bump e 59 else e
  if heat && n.w && !n.quiet then bump e 57 else e

/-- The granule bounds of a record found at a home (R299, R148): base as an offset within the granule's memory. -/
def State.boundOf (s : State) (k : Nat) : Nat × Nat :=
  let g := s.granuleOf k
  (if isHost k then g.base % 2 ^ 64 else if isFar k then g.base % 2 ^ 52 else g.base % 2 ^ 56, g.log2)

/-- The granule bounds that a translation of a page starts with (R146, R165). -/
def State.pageBound (s : State) (part base : Nat) : Nat × Nat :=
  match s.keyOf part base with
  | some k => s.boundOf k
  | none => (0, 21)

/-- Walk, check, update the leaf, install (R162 to R165, R365). -/
def State.walk (s : State) (w : Who) (c : Ctx) (n : Need) (v : Nat) : State × Trans :=
  let (l, t) := (s.cluster (clusterOf w.core)).walkStart w v c.root
  let s := if l < 4 then s.walkPut w (l + 1) v t else s
  let (s, r) := State.walkAt w v l s t
  match r with
  | .absent =>
    match w.denied (v / 4096) n.w with
    | some f => (s, .flt f)
    | none => (s, .missing)
  | .bad level e => (s, .flt { code := cReservedBit, level := level, detail := BitVec.ofNat 64 e })
  | .stop f => (s, .flt f)
  | .leaf level e addr =>
    let rr := bitsAt e 1 1 == 1
    let ww := bitsAt e 2 1 == 1
    let xx := bitsAt e 3 1 == 1
    let uu := bitsAt e 4 1 == 1
    if !permits w n rr ww xx uu then
      (s, .flt { code := cPermission, detail := permDetail n rr ww xx (!w.priv && !uu) })
    else
      let e' := leafUpdate e n c.heaten
      let s := if e' = e then s else s.physWrite w.part addr (leBytes 8 e')
      let lg := leafLog2 level e
      let ap := bitsAt e 61 2 == 3
      let base := if ap then bitsAt e 10 44 * 16 else leafBase e
      let s := if ap then s else s.fillGranule w.part base (2 ^ lg) rr ww xx (bitsAt e 56 1 == 1)
      let (s, now) := s.take
      let t : TlbEntry := {
        part := w.part
        ctx := w.ctx
        vbase := v / 2 ^ lg * 2 ^ lg
        log2 := lg
        pbase := base
        r := rr
        w := ww
        x := xx
        u := uu
        d := bitsAt e' 7 1 == 1
        pbmt := bitsAt e 61 2
        te := bitsAt e 56 1 == 1
        filledAt := now
        leaf := e'
        gbase := if ap then 0 else (s.pageBound w.part base).1
        glog2 := if ap then 21 else (s.pageBound w.part base).2 }
      (s.tlbPut w.core t, .ok t (base + v % 2 ^ lg))

/-! ## ATS and page requests (R166, R167, R280) -/

/-- Send a Translation Request unless one for the page is in flight. -/
def State.askAts (s : State) (w : Who) (c : Ctx) (n : Need) (v : Nat) : State × Nat :=
  match (s.part w.part).atsReqs.find? fun r =>
      r.core == w.core && r.ctx == w.ctx && r.vp == v / 4096 && r.priv == w.priv with
  | some r => (s, r.id)
  | none =>
    let (s, id) := s.take
    let s := s.updPart w.part fun p => { p with atsReqs := p.atsReqs ++
      [{ id := id, core := w.core, ctx := w.ctx, vp := v / 4096, priv := w.priv, exec := n.x, write := n.w }] }
    ({ s with out := s.out ++ [⟨.atsRequest, w.part, [id, c.pasid, wide v / 4096 * 4096, b2n n.x 1, b2n w.priv 1] ++ s.onStream w.part 0⟩] }, id)

/-- The page request of a page, context and kind (R247). -/
def Partition.pageReq? (p : Partition) (ctx vp : Nat) (write : Bool) : Option PageReq :=
  p.pageReqs.find? fun q => q.ctx == ctx && q.vp == vp && q.write == write

/-- A page request can be raised now, or is outstanding: 512 groups at most, and a free place in a native context's ring
(R167, R280). -/
def State.canRequest (s : State) (part ctx vp : Nat) (write : Bool) : Bool :=
  let p := s.part part
  (p.pageReq? ctx vp write).isSome || (decide (p.pageReqs.length < 512) && match s.ctx? part ctx with
    | some c => !(c.local? (vp * 4096) && p.pageReqs.any fun q => !q.pri && q.entry == p.prqTail % 512)
    | none => false)

/-- Raise a page request unless the same one is outstanding, or none can be taken now (R167, R247, R280). -/
def State.requestPage (s : State) (part ctx vp : Nat) (write : Bool) : State :=
  let p := s.part part
  if (p.pageReq? ctx vp write).isSome || !s.canRequest part ctx vp write then s
  else
    match s.ctx? part ctx with
    | none => s
    | some c =>
      if c.local? (vp * 4096) then
        let k := p.prqTail % 512
        let ring := p.prqbase.toNat
        let s := s.physWrite part (ring + 32 * k)
          (leBytes 8 (wide (vp * 4096)) ++ leBytes 4 (ctx + b2n write (2 ^ 16)) ++ leBytes 20 0)
        let s := s.physWrite part (ring + 0x4000) (leBytes 8 (p.prqTail + 1))
        s.updPart part fun p => { p with
          prqTail := p.prqTail + 1
          pageReqs := p.pageReqs ++ [{ ctx := ctx, vp := vp, write := write, pri := false, entry := k }] }
      else
        let s := s.updPart part fun p => { p with
          pageReqs := p.pageReqs ++ [{ ctx := ctx, vp := vp, write := write, pri := true, entry := 0 }] }
        { s with out := s.out ++ [⟨.priRequest, part, [c.pasid, wide (vp * 4096), b2n write 1] ++ s.onStream part 0⟩] }

/-- How an access waits for its page. -/
def State.pageOrRoom (s : State) (part ctx vp : Nat) (write : Bool) : AccWait :=
  if s.canRequest part ctx vp write then .page vp write else .room vp write

/-- The fault that every further PRI request of a function meets while its Response Failure status is set (R340). -/
def fltPriFailed : Flt := { code := cPageReq, detail := 0xF }

/-- What a Translation Request of a partition meets on port 0 at once (R373, R375). -/
def State.atsFlt (s : State) (part : Nat) : Option Flt :=
  if !(s.port 0).up then some { code := cLinkDown }
  else s.streamFlt part 0

/-- Translate outside the local range of a host-shared context. -/
def State.atsPath (s : State) (w : Who) (c : Ctx) (n : Need) (v : Nat) : State × Trans :=
  match w.denied (v / 4096) n.w with
  | some f => (s, .flt f)
  | none =>
    match s.atsFlt w.part with
    | some f => (s, .flt f)
    | none =>
      let (s, id) := s.askAts w c n v
      (s, .ats id)

/-- Translate an address (bits 56:0 of it). A check that fails against an installed entry discards it and walks once
more (R165); after an ATS completion it is final (R340). A store's walk that is to set D takes the place of the entry only
where it succeeds (R163, R364). -/
def State.translate (s : State) (w : Who) (n : Need) (va : DWord) : State × Trans :=
  let v := transBits va
  match s.ctx? w.part w.ctx with
  | none => (s, .missing)
  | some c =>
    let again := fun (s : State) => if c.local? v then s.walk w c n v else s.atsPath w c n v
    match (s.core w.core).tlb.find? fun e => e.covers w v with
    | some e =>
      if permits w n e.r e.w e.x e.u && (!n.w || e.d) then
        ((s.tlbDrop w v).tlbPut w.core e, .ok e (e.pbase + (v - e.vbase)))
      else if e.ats && w.final == some (v / 4096) then
        (s, .flt { code := cPermission, detail := permDetail n e.r e.w e.x (!w.priv && !e.u) })
      else if permits w n e.r e.w e.x e.u then
        match again (s.tlbDrop w v) with
        | (t, .ok e pa) => (t, .ok e pa)
        | _ => again s
      else again (s.tlbDrop w v)
    | none => again s

/-! ## What an address names -/

/-- The place of a translated byte. -/
inductive Place where
  | mem (key : Nat) (pbmt : Nat)
  | win (index : Nat) (w : Window) (key : Nat) (pbmt : Nat)
  | aperture (desc : Nat)
  | nothing
  deriving DecidableEq, Repr

def State.placeOf (s : State) (part : Nat) (e : TlbEntry) (pa : Nat) : Place :=
  if e.pbmt = 3 && !e.ats then .aperture e.pbase
  else if e.ats then
    let hdm := match (s.part part).hdmBase with
      | some b => if b ≤ pa ∧ pa < b + s.hbmSize part then some (pa - b) else none
      | none => none
    match hdm with
    | some off => .mem (hbmKey part off) 0
    | none =>
      match findWindow (fun w => w.valid && w.hbase ≤ pa && pa < w.hbase + w.size) 0 (s.part part).windows with
      | some i =>
        match (s.part part).windows[i]? with
        | some w => .win i w (hostKey w.port pa) 0
        | none => .nothing
      | none => .nothing
  else match s.physOf part pa with
    | .mem k => .mem k e.pbmt
    | .window i =>
      match (s.part part).windows[i]? with
      | some w => .win i w (w.key pa) e.pbmt
      | none => .nothing
    | .nothing => .nothing

/-- What a translated address that no valid window contains gives (R274, R338). -/
def fltNoPlace (e : TlbEntry) : Flt :=
  if e.ats then { code := cAts, detail := 0x100 }
  else { code := cReservedBit, level := if e.log2 = 21 then 1 else 0, detail := BitVec.ofNat 64 e.leaf }

/-- Addresses of the place are cached (R160, R273). -/
def Place.cached : Place → Bool
  | .mem _ pbmt => pbmt == 0
  | .win _ w _ pbmt => w.mode == 0 && pbmt == 0
  | _ => false

def Place.key? : Place → Option Nat
  | .mem k _ => some k
  | .win _ _ k _ => some k
  | _ => none

/-! ## The register aperture (R52 to R56, R161, R339) -/

/-- A window descriptor (R52). -/
structure ApDesc where
  gridh : Nat
  flags : Nat
  base : Nat
  deriving DecidableEq, Repr

def State.apDesc (s : State) (part desc : Nat) : State × ApDesc :=
  let (s, bs) := s.physRead part desc 16
  (s, ⟨leNat (bs.take 4), leNat ((bs.drop 4).take 4), leNat (bs.drop 8)⟩)

/-- Some capability of the group is valid for the window (R305). -/
def State.capFits (s : State) (g : Group) (gridh : Nat) : State × Bool :=
  g.caps.foldl (fun (r : State × Bool) (h : Word) =>
    let entry := h.toNat % 65536
    let (s, w, gh) := r.1.capRead g.core entry
    let ok := decide (entry < 256) && w % 256 == h.toNat / 2 ^ 24 && (w / 256 % 4 == 1 || w / 256 % 4 == 2) && gh == gridh
    (s, r.2 || ok)) (s, false)

/-- The checks of R339 on an access: the fault, if any, with a DETAIL bit for each condition that failed. -/
def State.apDenied (s : State) (g : Option Group) (d : ApDesc) (write : Bool) : State × Option Flt :=
  let bits := b2n (d.flags % 2 = 0 || d.flags / 8 != 0) 1 + b2n (write && d.flags / 2 % 2 == 0) 2
  let say := fun (b : Nat) => if b = 0 then none else some ({ code := cAperture, detail := BitVec.ofNat 64 b } : Flt)
  if d.flags / 4 % 2 = 0 then (s, say bits)
  else
    match g with
    | some g =>
      let (s, ok) := s.capFits g d.gridh
      (s, say (bits + b2n (!ok) 4))
    | none => (s, say (bits + 4))

/-- The descriptor is read, over a link that may fail (R359), and the access judged. -/
def State.apOpen (s : State) (g : Option Group) (part desc : Nat) (write : Bool) : State × Except Flt ApDesc :=
  match s.physFlt part (s.firstCore part) desc 16 with
  | some f => (s, .error f)
  | none =>
    let (s, d) := s.apDesc part desc
    match s.apDenied g d write with
    | (s, some f) => (s, .error f)
    | (s, none) => (s, .ok d)

/-- The thread that an address names: group and lane (R53, R54). -/
def State.apThread (s : State) (part : Nat) (d : ApDesc) (a : Nat) : Option (Group × Nat) :=
  match s.grids.find? fun x => x.part == part && x.gridh.toNat == d.gridh with
  | none => none
  | some x =>
    let t := d.base + bitsAt a 23 15
    s.groups.findSome? fun g =>
      match s.team? g.tid, s.spanOf g with
      | some tm, some sp =>
        if sp.uid == x.uid && tm.t == t && g.grpix == bitsAt a 18 5 && !g.kind.isHandler && g.live (bitsAt a 13 5) then
          some (g, bitsAt a 13 5)
        else none
      | _, _ => none

/-- The 4-byte unit of a thread's area as it reads (R53, R54). -/
def Group.apWord (g : Group) (l off : Nat) : Word :=
  let x := g.lane l
  let half := fun (v : DWord) (hi : Bool) => if hi then v.extractLsb' 32 32 else v.setWidth 32
  if off < 0x1000 then (if off / 4 < g.allot then x.name (off / 4) else 0)
  else if off < 0x1038 then g.scalar ((off - 0x1000) / 4) l
  else if off < 0x1040 then 0
  else if off < 0x1048 then half (x.preds ||| 0x8000000000000000) (off == 0x1044)
  else if off < 0x1050 then half x.pc (off == 0x104C)
  else if off < 0x1058 then half x.link (off == 0x1054)
  else if off = 0x1058 then g.stat
  else if off = 0x105C then x.wbase.setWidth 32
  else if off = 0x1060 then BitVec.ofNat 32 (g.budget * 2 ^ 16 + g.allot)
  else if off = 0x1064 then BitVec.ofNat 32 g.qcnt.word
  else 0

/-- Write a half of a 64-bit value. -/
def putHalf (v : DWord) (hi : Bool) (w : Word) : DWord := if hi then w ++ v.setWidth 32 else v.extractLsb' 32 32 ++ w

/-- Write a 4-byte unit (R53, R54). -/
def Group.apPut (g : Group) (l off : Nat) (w : Word) : Group :=
  if off < 0x1000 then (if off / 4 < g.allot then g.updLane l fun x => x.setName (off / 4) w else g)
  else if off < 0x1038 then g.pokeScalar ((off - 0x1000) / 4) l w
  else if 0x1040 ≤ off && off < 0x1048 then
    g.updLane l fun x => { x with preds := putHalf x.preds (off == 0x1044) w &&& 0x7FFFFFFFFFFFFFFF }
  else if 0x1050 ≤ off && off < 0x1058 then g.updLane l fun x => { x with link := putHalf x.link (off == 0x1054) w }
  else g

/-- Read bytes through the aperture; a thread that is not there reads zero. -/
def State.apRead (s : State) (part : Nat) (d : ApDesc) (a n : Nat) : List Byte :=
  match s.apThread part d a with
  | none => List.replicate n 0
  | some (g, l) =>
    (List.range n).map fun i =>
      let off := a % 8192 + i
      (g.apWord l (off / 4 * 4)).extractLsb' (8 * (off % 4)) 8

/-- Write bytes through the aperture, byte by byte into their units. -/
def State.apWrite (s : State) (part : Nat) (d : ApDesc) (a : Nat) (bs : List Byte) : State :=
  match s.apThread part d a with
  | none => s
  | some (g, l) =>
    s.updGroup g.gid fun g => (imap (fun i b => (i, b)) 0 bs).foldl (fun (g : Group) (ib : Nat × Byte) =>
      let off := a % 8192 + ib.1
      let old := g.apWord l (off / 4 * 4)
      let m : Word := 0xFF#32 <<< (8 * (off % 4))
      g.apPut l (off / 4 * 4) ((old &&& ~~~m) ||| ((ib.2.setWidth 32) <<< (8 * (off % 4))))) g

end Sys2Proof.Machine
end

