-- ==== Sys2Proof/Machine/Layout.lean ====
section
/-!
DEFINITION. Layout records (R192 to R195, R201), the swizzle (R89), and which elements of memory go where.
-/
namespace Sys2Proof.Machine

/-- swz() (R89) for a span of 16 * 2^c bytes. -/
def swz (c o : Nat) : Nat :=
  let n := 2 ^ c
  let sp := 16 * n
  let j := o / sp
  let u := o % sp / 16
  j * sp + 16 * (u ^^^ (j % n)) + o % 16

/-- The 64 bytes of a layout record. -/
abbrev Lay := List Byte

def Lay.at (r : Lay) (off n : Nat) : Nat := leNat ((r.drop off).take n)
def Lay.base (r : Lay) : Nat := Lay.at r 0 8
def Lay.ctrl (r : Lay) : Nat := Lay.at r 8 4
def Lay.window (r : Lay) : Bool := Lay.ctrl r / 2 ^ 12 % 2 == 1
def Lay.swzCode (r : Lay) : Nat := Lay.ctrl r / 2 ^ 8 % 8
def Lay.eszCode (r : Lay) : Nat := Lay.ctrl r / 2 ^ 4 % 8
def Lay.ndim (r : Lay) : Nat := Lay.ctrl r % 8
/-- BOXk: the field plus 1. -/
def Lay.box (r : Lay) (k : Nat) : Nat := Lay.at r (12 + k) 1 + 1
def Lay.ext (r : Lay) (k : Nat) : Nat := Lay.at r (0x14 + 4 * k) 4
/-- Stride of dimension k, 1 to 4, in bytes. -/
def Lay.str (r : Lay) (k : Nat) : Nat := Lay.at r (0x28 + 4 * (k - 1)) 4 * 16
def toI16 (n : Nat) : Int := (BitVec.ofNat 16 n).toInt
def Lay.ox (r : Lay) : Int := toI16 (Lay.at r 0x38 2)
def Lay.oy (r : Lay) : Int := toI16 (Lay.at r 0x3A 2)
def Lay.ww (r : Lay) : Nat := Lay.at r 0x3C 2
def Lay.wh (r : Lay) : Nat := Lay.at r 0x3E 2

/-- Element size in bytes, 1 for the pairs of a 4-bit record. -/
def Lay.esz (r : Lay) : Nat := if Lay.eszCode r = 0 then 1 else 2 ^ (Lay.eszCode r - 1)

/-- 2 for 4-bit elements: dimension 0 counts in pairs of them (R193). -/
def Lay.per (r : Lay) : Nat := if Lay.eszCode r = 0 then 2 else 1

/-- Dimension 0 of the box in whole bytes' elements. -/
def Lay.box0 (r : Lay) : Nat := Lay.box r 0 / Lay.per r

/-- Elements in the rows above dimension 0. -/
def Lay.rows (r : Lay) : Nat :=
  if Lay.window r then Lay.box r 1
  else ((List.range 5).filter fun k => 1 ≤ k && k < Lay.ndim r).foldl (fun n k => n * Lay.box r k) 1

/-- T, in bytes (R193 to R195). -/
def Lay.size (r : Lay) : Nat := Lay.rows r * Lay.box0 r * Lay.esz r

/-- Every field of a dimension at or above NDIM is zero. -/
def Lay.unusedZero (r : Lay) : Bool :=
  (List.range 5).all fun k => k < Lay.ndim r ||
    (Lay.at r (12 + k) 1 == 0 && Lay.ext r k == 0 && (k == 0 || Lay.str r k == 0))

/-- R193, which states no fate for the zero fields of CTRL: they are not looked at (R4). `c0` is the coordinate of dimension 0 that the instruction gives. -/
def Lay.valid (r : Lay) (c0 : Word) : Bool :=
  let n := Lay.ndim r
  let b := BitVec.ofNat 64 (Lay.base r)
  let t := Lay.size r
  Lay.eszCode r ≤ 5 && 1 ≤ n && n ≤ 5 && Lay.unusedZero r &&
  ((List.range 5).all fun k => n ≤ k || 1 ≤ Lay.ext r k) &&
  canonical b && Lay.base r % Lay.esz r == 0 &&
  (Lay.eszCode r != 0 || (Lay.box r 0 % 2 == 0 && Lay.ext r 0 % 2 == 0 && c0.toNat % 2 == 0)) &&
  t % 16 == 0 && t ≤ 2 ^ 20 && (Lay.swzCode r == 0 || t % (16 * 2 ^ Lay.swzCode r) == 0) &&
  (if Lay.window r then
    n == 4 && Lay.at r 0x10 1 == 0 && 1 ≤ Lay.ww r && 1 ≤ Lay.wh r && Lay.ww r * Lay.wh r < 2 ^ 31
  else Lay.at r 0x11 3 == 0 && Lay.at r 0x38 8 == 0)

/-- GATH's own rules on a record (R201, R329). -/
def Lay.gathValid (r : Lay) (tile : Bool) : Bool :=
  let rr := Lay.box0 r * Lay.esz r
  Lay.valid r 0 && !Lay.window r && Lay.ndim r == 2 && Lay.box r 1 == 32 && rr % 16 == 0 && (!tile || rr == 256)

/-- An element of a box: its logical offset in the destination, and its address or none where it is filled with zero. -/
structure Elem where
  o : Nat
  va : Option DWord
  deriving DecidableEq, Repr

def vaOf (n : Int) : DWord := BitVec.ofInt 64 n

/-- Coordinate of dimension k of the e-th element of a plain box, dimension 0 given apart. -/
def plainCoord (r : Lay) (c : List Word) (row k : Nat) : Int :=
  let below := ((List.range 5).filter fun j => 1 ≤ j && j < k).foldl (fun n j => n * Lay.box r j) 1
  (c.getD k 0).toInt + (row / below % Lay.box r k : Nat)

/-- R194: element e0 of row `row`. -/
def plainElem (r : Lay) (c : List Word) (row e0 : Nat) : Elem :=
  let i0 : Int := (c.getD 0 0).toInt / Lay.per r + e0
  let dims := (List.range 5).filter fun k => 1 ≤ k && k < Lay.ndim r
  let inb := decide (0 ≤ i0) && decide (i0 < Lay.ext r 0 / Lay.per r) &&
    dims.all fun k => decide (0 ≤ plainCoord r c row k) && decide (plainCoord r c row k < Lay.ext r k)
  let off := dims.foldl (fun (n : Int) k => n + plainCoord r c row k * Lay.str r k) (i0 * Lay.esz r)
  { o := (row * Lay.box0 r + e0) * Lay.esz r
    va := if inb then some (vaOf (Lay.base r + off)) else none }

/-- R195: element e of position row `row`. -/
def windowElem (r : Lay) (c : List Word) (row e : Nat) : Elem :=
  let cc : Int := (c.getD 0 0).toInt / Lay.per r + e
  let q : Int := (c.getD 1 0).toInt + row
  let n : Int := (c.getD 2 0).toInt
  let t : Int := (c.getD 3 0).toInt
  let fw : Int := Lay.at r 0x13 1 % 16 + 1
  let fh : Int := Lay.at r 0x13 1 / 16 + 1
  let disp := c.getD 4 0
  let ww : Int := Lay.ww r
  let x := Lay.ox r + q % ww * Lay.box r 2 + t % fw * (Lay.at r 0x11 1 + 1) + toI16 (disp.toNat % 65536)
  let y := Lay.oy r + q / ww * Lay.box r 3 + t / fw * (Lay.at r 0x12 1 + 1) + toI16 (disp.toNat / 65536)
  let inb := decide (0 ≤ t) && decide (t < fw * fh) && decide (0 ≤ q) && decide (q < ww * Lay.wh r) &&
    decide (0 ≤ cc) && decide (cc < Lay.ext r 0 / Lay.per r) && decide (0 ≤ x) && decide (x < Lay.ext r 1) &&
    decide (0 ≤ y) && decide (y < Lay.ext r 2) && decide (0 ≤ n) && decide (n < Lay.ext r 3)
  { o := (row * Lay.box0 r + e) * Lay.esz r
    va := if inb then some (vaOf (Lay.base r + cc * Lay.esz r + x * Lay.str r 1 + y * Lay.str r 2 + n * Lay.str r 3))
      else none }

/-- Every element of a box, in order. -/
def Lay.elems (r : Lay) (c : List Word) : List Elem :=
  ((List.range (Lay.rows r)).map fun row => (List.range (Lay.box0 r)).map fun e =>
    if Lay.window r then windowElem r c row e else plainElem r c row e).flatten

/-- R201: the elements of the row that lane l gathers. -/
def Lay.gathRow (r : Lay) (l : Nat) (row : Word) : List Elem :=
  let rr := Lay.box0 r * Lay.esz r
  (List.range (Lay.box0 r)).map fun e =>
    let inb := decide (row.toNat < Lay.ext r 1) && decide (e < Lay.ext r 0 / Lay.per r)
    { o := l * rr + e * Lay.esz r
      va := if inb then some (vaOf (Lay.base r + e * Lay.esz r + row.toNat * Lay.str r 1)) else none }

/-- The offsets of the 16-byte units that a gather writes for some lanes (R201). -/
def Lay.gathUnits (r : Lay) (dst : Nat) (lanes : List Nat) : List Nat :=
  let rr := Lay.box0 r * Lay.esz r
  (lanes.map fun l => (List.range (rr / 16)).map fun u => dst + swz (Lay.swzCode r) (l * rr + 16 * u)).flatten

/-- The scratchpad lines that rows written by a gather touch at a destination. -/
def Lay.gathLines (r : Lay) (dst : Nat) (lanes : List Nat) : List Nat :=
  ((Lay.gathUnits r dst lanes).map (· / 128)).foldl (fun acc k => kset id k acc) []

end Sys2Proof.Machine
end

