-- ==== Sys2Proof/Machine/Async.lean ====
section
/-!
DEFINITION. Asynchronous operations as such: issuing and counting them (R190), the lines they count (R133, R198), their
credits (R199), tiles and their storage (R209 to R214), completing them, also without their remaining writes (R297).
-/
namespace Sys2Proof.Machine

/-! ## Counters (R190, R206) -/

def QCounts.get (q : QCounts) : QClass → Nat
  | .copy => q.copy
  | .matrix => q.matrix
  | .gather => q.gather
  | .coll => q.coll

def QCounts.map (q : QCounts) (c : QClass) (f : Nat → Nat) : QCounts :=
  match c with
  | .copy => { q with copy := f q.copy }
  | .matrix => { q with matrix := f q.matrix }
  | .gather => { q with gather := f q.gather }
  | .coll => { q with coll := f q.coll }

/-- Lanes in WAITQ whose condition holds continue (R206). -/
def Group.wakeQ (g : Group) : Group :=
  lanes32.foldl (fun (g : Group) l =>
    match (g.lane l).wait with
    | .waitq c n next =>
      if (g.lane l).live && (g.lane l).hold == .free && decide (g.qcnt.get c ≤ n) then g.pass l next else g
    | _ => g) g

/-- Put an operation at the end of the issue order and count it. -/
def State.addOp (s : State) (o : AOp) : State :=
  let s := { s with ops := s.ops ++ [o] }
  match o.cls with
  | some c => s.updGroup o.gid fun g => { g with qcnt := g.qcnt.map c (· + 1) }
  | none => s

/-- Count out the oldest operations of a class while they are complete (R190). -/
def State.retireClass (s : State) (gid : Nat) (c : QClass) : State :=
  let mine := s.ops.filter fun o => o.gid == gid && o.cls == some c
  let gone := (mine.takeWhile AOp.done).map AOp.id
  let s := { s with ops := s.ops.filter fun o => !gone.contains o.id }
  s.updGroup gid fun g => { g with qcnt := g.qcnt.map c (· - gone.length) }.wakeQ

/-- The operation is complete. -/
def State.opDone (s : State) (id : Nat) : State :=
  match s.op? id with
  | none => s
  | some o =>
    match o.cls with
    | none => { s with ops := s.ops.filter fun x => x.id != id }
    | some c => (s.updOp id fun x => { x with done := true, srcRead := true }).retireClass o.gid c

/-! ## Lines (R133) -/

/-- Ranks of a mask. -/
def ranksOf (m : BitVec 4) : List Nat := (List.range 4).filter fun r => m.getLsbD r

/-- The scratchpad bytes that an operation writes: team, offset and length of each piece. -/
def State.opBytes (s : State) (o : AOp) : List (Nat × Nat × Nat) :=
  match o.kind with
  | .cpy lay _ (.sp off) => [(o.tid, off, Lay.size lay)]
  | .cpy lay _ (.mc off m) =>
    (ranksOf m).filterMap fun r => (s.rankTeam o.sid r).map fun t => (t.tid, off, Lay.size lay)
  | .gath lay rows (.sp off) => (Lay.gathUnits lay off (rows.map Prod.fst)).map fun u => (o.tid, u, 16)
  | .coll _ _ _ dst len => [(o.tid, dst, len)]
  | .stage _ _ dst len => [(o.tid, dst, len)]
  | .treadSp _ dst => [(o.tid, dst, 8192)]
  | _ => []

/-- The team and lines that an operation has counted: those of the bytes that it writes, each once (R133). -/
def State.opLines (s : State) (o : AOp) : List (Nat × List Nat) :=
  match o.kind with
  | .gath lay rows (.sp off) => [(o.tid, Lay.gathLines lay off (rows.map Prod.fst))]
  | _ => (s.opBytes o).map fun p => (p.1, linesOf p.2.1 p.2.2)

def State.linesIn (s : State) (o : AOp) : State :=
  (s.opLines o).foldl (fun s p => s.updTeam p.1 fun t => t.countIn p.2) s

def State.linesOut (s : State) (o : AOp) : State :=
  (s.opLines o).foldl (fun s p => s.updTeam p.1 fun t => t.countOut p.2) s

/-! ## Bookings and credits (R199) -/

/-- The place of a booking: `span` objects lie at their offset in rank 0's region. -/
def State.bookPlace (s : State) (sid : Nat) (k : Booking) : Option BarPlace :=
  match s.rankTeam sid (if k.span then 0 else k.obj) with
  | some t => some ⟨t.tid, k.off, k.span⟩
  | none => none

/-- Credit `n` bytes to every booking of the ranks in `del`. -/
def State.creditAll (s : State) (o : AOp) (del : Nat → Bool) (n : Nat) : State :=
  o.books.foldl (fun s k =>
    if del k.rank then
      match s.bookPlace o.sid k with
      | some p => s.barCredit p k n o.sid
      | none => s
    else s) s

/-- The bytes that one delivery of an operation credits. -/
def AOp.credit (o : AOp) : Nat :=
  match o.kind with
  | .cpy _ _ (.tile _ _) => 8192
  | .cpy lay _ _ => Lay.size lay
  | .gath _ _ (.tile _ _) => 8192
  | .gath lay rows _ => rows.length * (Lay.box0 lay * Lay.esz lay)
  | _ => 0

/-! ## Tiles (R209, R210) -/

def Span.tile (x : Span) (n : Nat) : Tile := (kget Tile.name n x.tiles).getD { name := n }

/-- A tile is listed unless it is as at start. -/
def Span.putTile (x : Span) (t : Tile) : Span :=
  { x with tiles := if t = { name := t.name } then kdel Tile.name t.name x.tiles else kset Tile.name t x.tiles }

/-- The tiles a bound read holds (R213). -/
def AOp.bound (o : AOp) : List Bound :=
  if o.done then []
  else match o.kind with
    | .treadSp b _ => [b]
    | .treadReg b _ => [b]
    | .mmat _ ts => ts
    | .mmar _ _ _ _ _ t => [t]
    | _ => []

/-- Change the tiles that an operation is bound to. -/
def OpKind.mapBounds (f : Bound → Bound) (k : OpKind) : OpKind :=
  match k with
  | .treadSp b dst => .treadSp (f b) dst
  | .treadReg b w => .treadReg (f b) w
  | .mmat blk ts => .mmat blk (ts.map f)
  | .mmar off w h1 a rows t => .mmar off w h1 a rows (f t)
  | k => k

/-- What the reads of a span are bound to: operations, and parked reads that bound when a definition completed (R213). -/
def State.boundsOf (s : State) (sid : Nat) : List Bound :=
  ((s.ops.filter fun o => o.sid == sid).map AOp.bound).flatten ++
  ((s.groups.filter fun g => (s.team? g.tid).any fun t => t.sid == sid).map fun g => g.bound.map Prod.snd).flatten

/-- Reads bound to an earlier generation of a name are outstanding (R214, R219). -/
def State.boundOld (s : State) (sid name : Nat) (gen : BitVec 4) : Bool :=
  (s.boundsOf sid).any fun b => b.name == name && b.gen != gen

/-- Killed tiles to which bound reads remain: pairs of name and generation. -/
def State.killedBound (s : State) (x : Span) : List (Nat × BitVec 4) :=
  (s.boundsOf x.sid).foldl (fun acc b =>
    let live := decide ((x.tile b.name).st = .defined) && (x.tile b.name).gen == b.gen
    if live || acc.contains (b.name, b.gen) then acc else (b.name, b.gen) :: acc) []

/-- Tiles of the span that occupy the reserve (R210). -/
def State.tilesUsed (s : State) (x : Span) : Nat :=
  (x.tiles.filter fun t => t.storage).length + (s.killedBound x).length

/-- A definition becomes pending; `storage`: it has begun (R209, R210). -/
def State.tilePend (s : State) (sid name : Nat) (storage : Bool) : State :=
  s.updSpan sid fun x => x.putTile { x.tile name with
    st := .pending, bytes := [], bad := [], storage := storage, place := if storage then 0 else 3 }

/-- A group that is parked on the name binds to the definition (R213). -/
def Group.bindNow (g : Group) (b : Bound) : Group :=
  match g.park with
  | .tiles pc names =>
    if names.contains b.name && !(g.bound.any fun p => p.1 == pc && p.2.name == b.name) then
      { g with bound := g.bound ++ [(pc, b)] }
    else g
  | _ => g

/-- A definition is complete (R209). -/
def State.tileDefine (s : State) (sid name : Nat) (bytes : List (Nat × Byte)) : State :=
  let gen := ((s.span? sid).map fun x => (x.tile name).gen).getD 0
  let mine := fun (g : Group) => (s.team? g.tid).any fun t => t.sid == sid
  let s := s.updSpan sid fun x => x.putTile { x.tile name with st := .defined, bytes := bytes, storage := true, place := 0, bad := [] }
  { s with groups := s.groups.map fun g => if mine g then g.bindNow { name := name, gen := gen, bytes := bytes } else g }

/-- The tile an operation defines, with its generation and, for a copy, the bytes written so far. -/
def AOp.defines (o : AOp) : Option (Nat × BitVec 4) :=
  match o.kind with
  | .cpy _ _ (.tile n g) => some (n, g)
  | .gath _ _ (.tile n g) => some (n, g)
  | .tdefSp n g _ => some (n, g)
  | .tdefReg n g _ => some (n, g)
  | _ => none

/-- The name that an operation defines waits for no read of an earlier generation (R214). -/
def State.nameFree (s : State) (o : AOp) : Bool :=
  match o.defines with
  | some (n, g) => !s.boundOld o.sid n g
  | none => true

/-- Accumulators that a team holds: its own while it runs, and until its matrix operations have completed (R20). -/
def State.accHeld (s : State) (t : Team) : Bool :=
  !t.finished || s.ops.any fun o => o.tid == t.tid && o.cls == some .matrix && !o.done

/-- Accumulator bytes in use on a core (R20, R229). -/
def State.accUsed (s : State) (core : Nat) : Nat :=
  ((s.teams.filter fun t => t.core == core && s.accHeld t).map Team.accSize).foldl (· + ·) 0

/-! ## Completion without the remaining writes (R297) -/

/-- The registers that an operation's result goes to: the id of its owed result. -/
def OpKind.owes : OpKind → Option Nat
  | .treadReg _ w | .accldReg _ _ w | .accgrow _ w => some w
  | _ => none

/-- The operation ends: its lines become present, its credits are given, a tile it was defining is defined with the bytes
written, what it still owed to a register is owed no more. A TDEF.sp defines its name once R214 allows it. -/
def State.abandonOp (s : State) (id : Nat) : State :=
  match s.op? id with
  | none => s
  | some o =>
    match o.kind with
    | .tdefSp _ _ _ => s.updOp id fun o => { o with held := none, srcRead := true }
    | k =>
      let s := match o.defines with
        | some (n, _) => s.tileDefine o.sid n (bpack o.data)
        | none => s
      let s := s.linesOut o
      let s := { s with clusters := s.clusters.map fun (c : Cluster) => { c with table := c.table.filter fun x => x.1 != id } }
      let s := s.creditAll o (fun _ => true) o.credit
      let s := match k.owes with
        | some w => s.updGroup o.gid fun g => { g with owed := g.owed.filter fun x => x.id != w }
        | none => s
      s.opDone id

/-- An operation faulted with no lane left to freeze: noted for the completion record (R241, R297). -/
def State.noteEngflt (s : State) (o : AOp) : State :=
  if (s.span? o.sid).isSome then s.updSpan o.sid fun x => { x with engflt := true }
  else s.updGrid o.uid fun x => { x with engflt := true }

/-- Lanes that took part in an operation's issue and are still live. -/
def State.opLanes (s : State) (o : AOp) : List Nat :=
  match s.group? o.gid with
  | some g => (lanesOf o.lanes).filter g.live
  | none => []

/-- The operation owes its result to its lanes no longer (R371). -/
def State.owesNone (s : State) (o : AOp) : State :=
  match (s.group? o.gid).bind fun g => g.owed.find? fun x => some x.id == o.kind.owes with
  | none => s
  | some w =>
    (s.updOp o.id fun o => { o with saved := some w }).updGroup o.gid fun g =>
      { g with owed := g.owed.filter fun x => x.id != w.id }

/-- Lanes that replay a frozen operation are owed its result again (R297). -/
def State.oweAgain (s : State) (gid id : Nat) (m : Lanes) : State :=
  match (s.op? id).bind AOp.saved with
  | none => s
  | some w =>
    let mine := w.lanes.filter fun x => hasLane m x.lane
    s.updGroup gid fun g =>
      if mine.isEmpty then g
      else if g.owed.any fun x => x.id == w.id then
        { g with owed := g.owed.map fun x => if x.id = w.id then { x with lanes := x.lanes ++ mine } else x }
      else { g with owed := g.owed ++ [{ w with lanes := mine }] }

/-- An engine operation meets a fault (R297): its live lanes freeze late, or, with none, it completes and ENGFLT is set.
Lanes that are frozen already keep the operation waiting (R293). -/
def State.opFault (s : State) (o : AOp) (f : Flt) : State :=
  let ls := s.opLanes o
  if ls.isEmpty then (s.noteEngflt o).abandonOp o.id
  else
    match s.group? o.gid with
    | none => s
    | some g =>
      if ls.all fun l => (g.lane l).hold == .free then
        (s.owesNone o).raise o.gid (ls.map fun l => (l, f)) true (instrCollective o.instr) o.pc (encode o.instr) false
          (some o.id)
      else s

/-- When no lane of a record is frozen any more, the operation that it holds is performed again from its start, if a lane
replays it, else completed without its remaining writes (R297). -/
def State.settleOps (s : State) (gid rid : Nat) : State :=
  let left := match s.group? gid with
    | some g => !(g.frozenBy rid).isEmpty
    | none => false
  if left then s
  else (s.ops.filter fun o => o.held == some rid).foldl (fun (s : State) o =>
    if o.again then
      s.updOp o.id fun o => { o with held := none, pos := 0, again := false, saved := none, lost := none }
    else s.abandonOp o.id) s

end Sys2Proof.Machine
end

