-- ==== Sys2Proof/Machine/Retire.lean ====
section
/-!
DEFINITION. Lanes that exit or are retired, and what is released with them: owed results (R112), group slots and names,
teams (R20), the lanes of a lamplighter's record (R304), and the pre-emption that faults ask for.
-/
namespace Sys2Proof.Machine

/-- Results owed to lanes that go are discarded (R112, R371). -/
def Group.dropOwed (g : Group) (m : Lanes) : Group :=
  let kept := g.owed.map fun (o : Owed) => { o with lanes := o.lanes.filter fun x => !hasLane m x.lane }
  { g with owed := kept.filter fun o => !o.lanes.isEmpty }

/-- Accesses of lanes that go are not performed any more (R348); with none left the group is no longer parked on them. -/
def Group.dropAccs (g : Group) (m : Lanes) : Group :=
  let kept := (g.accs.map fun (a : PendAcc) => { a with lanes := a.lanes.filter fun x => !hasLane m x.1.lane }).filter
    fun a => !a.lanes.isEmpty
  { g with accs := kept }.unpark

/-- Lanes become exited: no wait, no hold, their scalar copies go with them (R20, R28, R112). -/
def Group.exitLanes (g : Group) (m : Lanes) : Group :=
  let g := g.mapLanes fun l x =>
    if hasLane m l then { x with exited := true, hold := .free, wait := .none, replay := none, more := [] } else x
  let g := { g with scal := (g.scal.map fun (c : ScCopy) => { c with lanes := c.lanes &&& ~~~m }).filter fun c => c.lanes != 0 }
  let g := { g with later := g.later.filter fun x => !hasLane m x.lane }
  (g.dropOwed m).dropAccs m

/-- A team whose groups have all gone has finished (R20). -/
def State.finishTeam (s : State) (tid : Nat) : State :=
  if s.groups.any fun g => g.tid == tid && !g.kind.isHandler then s
  else s.updTeam tid fun t => { t with finished := true }

/-- An ordinary group whose lanes have all exited releases its slot and names (R20). -/
def State.releaseGroup (s : State) (gid : Nat) : State :=
  match s.group? gid with
  | none => s
  | some g =>
    if !g.liveLanes.isEmpty then s
    else
      let s := { s with groups := s.groups.filter fun x => x.gid != gid }
      if g.kind.isHandler then s else s.finishTeam g.tid

/-- Lanes go: monitors and marks with them, then the group if it was the last (R20, R112, R244). -/
def State.exitOf (s : State) (gid : Nat) (m : Lanes) : State :=
  let s := s.updGroup gid fun g => g.exitLanes m
  let s := { s with monitors := s.monitors.filter fun x => !(x.gid == gid && hasLane m x.lane) }
  (s.barRetest gid).releaseGroup gid

/-- Retire lanes frozen under a record as FZKILL does (R313): exit, then resolve. -/
def State.killLanes (s : State) (r : Record) (m : Lanes) : State :=
  ((s.exitOf r.gid m).settleOps r.gid r.rid).resolve r.gid r.rid

/-- A lamplighter has gone: the lanes of its record still frozen are retired, held lanes released (R304). -/
def State.handlerGone (s : State) (rid : Nat) : State :=
  match s.record? rid with
  | none => s
  | some r =>
    match s.group? r.gid with
    | none => s.resolve r.gid rid
    | some g => s.killLanes r (maskOf fun l => (g.frozenBy rid).contains l)

/-- Lanes of any group exit (R20, R304). -/
def State.retire (s : State) (gid : Nat) (m : Lanes) : State :=
  match s.group? gid with
  | none => s
  | some g =>
    match g.kind with
    | .ordinary => s.exitOf gid m
    | .handler _ rid _ => if g.liveLanes.all (hasLane m) then (s.handlerGone rid).exitOf gid m else s.exitOf gid m

/-- Resume the lanes of a record (R312). The operation that it held is performed again once no lane of it is frozen, if one
replays, and owes its result to the lanes that do; else it completes (R297, R371). -/
def State.resumeRecord (s : State) (r : Record) (m : Lanes) (how : Resume) : State :=
  let s := match how, r.op with
    | .replay, some id => if m = 0 then s else (s.oweAgain r.gid id m).updOp id fun o => { o with again := true }
    | _, _ => s
  ((s.resume r m how).settleOps r.gid r.rid).updGroup r.gid Group.repark

end Sys2Proof.Machine
end

