-- ==== Sys2Proof/Machine/Parking.lean ====
section
/-!
DEFINITION. Groups parked on pages, and the pre-emption that they bring about (R247, R345, R350); the size of a span's
image in the cellar (R250).
-/
namespace Sys2Proof.Machine

def AccWait.isPage : AccWait → Bool
  | .page _ _ => true
  | .room _ _ => true
  | _ => false

/-- A page request of its own has been answered with Success, or it sent for a translation after that (R340). -/
def AccWait.after : AccWait → Bool
  | .page _ _ => true
  | .ats _ after => after
  | .held after => after.isSome
  | _ => false

/-- Held behind an older access that is parked on a page (R346). -/
def AccWait.isHeld : AccWait → Bool
  | .held _ => true
  | _ => false

/-- The translations of an access on its way to its home. -/
def AccWait.via : AccWait → List TlbEntry
  | .home es => es
  | _ => []

/-- The page that an access waits for is outstanding: its request is, or there is no room for one. -/
def State.pageOut (s : State) (part ctx : Nat) (w : AccWait) : Bool :=
  match w with
  | .page vp wr => ((s.part part).pageReq? ctx vp wr).isSome
  | .room vp wr => !s.canRequest part ctx vp wr
  | _ => false

/-- An access of the group waits for a page, in a lane that is not frozen (R348). -/
def State.accOut (s : State) (g : Group) (a : PendAcc) : Bool :=
  a.lanes.any fun q => !(g.lane q.1.lane).isFrozen && s.pageOut g.part g.ctx q.2

/-- An engine operation held up by a page (R196). -/
def State.opOnPage (s : State) (o : AOp) : Bool :=
  !o.done && (s.grid? o.uid).any fun g => o.wait.any (s.pageOut g.part g.ctx)

/-- The group waits on the operation. -/
def State.waitsOn (s : State) (g : Group) (o : AOp) : Bool :=
  match g.park with
  | .line ln => (s.opLines o).any fun p => p.1 == g.tid && p.2.contains ln
  | .lock off len => o.tid == g.tid && o.source.any fun r => decide (r.1 < off + len ∧ off < r.1 + r.2)
  | .full c => o.gid == g.gid && o.cls == some c
  | .tiles _ ns => o.defines.any fun d => ns.contains d.1
  | .pending n => o.defines.any fun d => d.1 == n
  | _ => o.gid == g.gid && g.eligibleLanes.isEmpty && g.liveLanes.any fun l => match (g.lane l).wait with
      | .waitq c _ _ => o.cls == some c
      | _ => false

/-- The group is parked on a page that is not there yet: an access, a fetch or record read, a PGREQ result, or an engine operation
that a page holds up (R247, R362). -/
def State.pageParked (s : State) (g : Group) : Bool :=
  (g.accs.any fun a => a.blocks && s.accOut g a) ||
  (match g.park with
    | .xlate vp none => s.pageOut g.part g.ctx (.page vp false) || s.pageOut g.part g.ctx (.room vp false)
    | .owed id => g.accs.any fun a => a.owed == id && s.accOut g a
    | _ => false) ||
  s.ops.any fun o => s.opOnPage o && (s.team? g.tid).any (fun t => t.sid == o.sid) && s.waitsOn g o

/-- Bytes of a group's part of an image (R250). -/
def Group.image (g : Group) : Nat := 32 * (4 * g.allot + 128) + 2304

/-- Bytes that the cellar image of a span needs at most (R250). -/
def State.imageSize (s : State) (x : Span) : Nat :=
  let team := fun (t : Team) => t.alloc + t.alloc / 1024 + t.accSize +
    ((s.groups.filter fun g => g.tid == t.tid && !g.kind.isHandler).map Group.image).foldl (· + ·) 0
  4096 + 8192 * x.reserve + ((s.teams.filter fun t => t.sid == x.sid).map team).foldl (· + ·) 0

/-- The context of a span. -/
def State.spanCtx (s : State) (x : Span) : Option Ctx :=
  (s.grid? x.uid).bind fun g => (s.part g.part).ctxs.find? fun c => c.ctx == g.ctx

/-- The image fits the context's cellar beside those that lie there (R350). -/
def State.cellarFits (s : State) (x : Span) : Bool :=
  match s.grid? x.uid, s.spanCtx x with
  | some g, some c =>
    let others := s.spans.filter fun y => y.home == .cellar && (s.grid? y.uid).any fun h => h.part == g.part && h.ctx == g.ctx
    decide (s.imageSize x + (others.map s.imageSize).foldl (· + ·) 0 ≤ c.celsize)
  | _, _ => false

/-- The scheduler asks for the span's pre-emption, unless it already has, or the image would not fit (R247, R350). Another cause
takes the place of R247's, whose withdrawal would lose it (R362). -/
def State.askPre (s : State) (sid : Nat) (c : PreCause) : State :=
  match s.span? sid with
  | some x =>
    if x.home = .resident ∧ s.cellarFits x = true ∧ (x.pre = none ∨ x.pre = some .page ∧ c ≠ .page) then
      s.updSpan sid fun x => { x with pre := some c, forced := x.forced && x.pre.isSome }
    else s
  | none => s

/-- Half of the groups of one team, rounded up, are parked on pages (R247, R345). -/
def State.halfParked (s : State) (x : Span) : Bool :=
  let n := ((s.grid? x.uid).map Grid.groupCount).getD 0
  (s.teams.filter fun t => t.sid == x.sid).any fun t =>
    let k := (s.groups.filter fun g => g.tid == t.tid && !g.kind.isHandler && s.pageParked g).length
    decide (0 < k ∧ (n + 1) / 2 ≤ k)

/-- The limit of half a team, for one span (R247). -/
def State.testParked (s : State) (x : Span) : State := if s.halfParked x then s.askPre x.sid .page else s

/-- It is tested continuously (R345). -/
def State.testAll (s : State) : State := s.spans.foldl State.testParked s

end Sys2Proof.Machine
end

