-- ==== Sys2Proof/Machine/Access.lean ====
section
/-!
DEFINITION. Accesses to memory as they bind at their places: tags, poison, links and homes (R153, R357 to R360), bytes
read and written at the point that an order and a scope name (R138, R177), atomics (R181 to R183, R275), and the
performance of one lane's part of every memory instruction, at issue or at replay (R346, R347).
-/
namespace Sys2Proof.Machine

/-! ## What an access finds at its place -/

/-- Bytes that an access has been translated to. -/
structure Reach where
  key : Nat
  pa : Nat
  va : DWord
  n : Nat
  cached : Bool
  win : Option (Nat × Window) := none
  deriving DecidableEq, Repr

/-- The home of the byte is lost (R378). -/
def State.homeLost (s : State) (part k : Nat) : Bool :=
  let d := s.homeDie part k
  (s.die d).lost || (isHbm k &&
    (s.die d).stackLost.getD (s.stackOf (partOfKey k) (k % 2 ^ 56) ((s.part (partOfKey k)).layout.getLsbD 0) % 2) false)

/-- The first cell whose tag differs (R153). -/
def State.badTag (s : State) (k n : Nat) (t : BitVec 4) : Option (BitVec 4) :=
  ((List.range ((k + n - 1) / 32 - k / 32 + 1)).map fun i => s.tagOf ((k / 32 + i) * 32)).find? (· != t)

def tagDetail (ptr cell : BitVec 4) : DWord := BitVec.ofNat 64 (ptr.toNat + 16 * cell.toNat)

/-- TAG_MISMATCH at the home (R153). -/
def State.tagFlt (s : State) (r : Reach) : Option Flt :=
  if isHbm r.key && (s.granuleOf r.key).te then
    (s.badTag r.key r.n (ptrTag r.va)).map fun c =>
      { code := cTag, detail := tagDetail (ptrTag r.va) c, granule := some (s.boundOf r.key) }
  else none

/-- Consumed bytes are poisoned: in the copies that serve the access where its core's caches do, in its die's RDC where that does,
else as their home finds them (R357, R358). -/
def State.servedBad (s : State) (core k n : Nat) (near : Option Bool) (rdc : Bool) : Bool :=
  if rdc then (s.die (dieOf core)).rdc.any fun x => x.bad && inRange k n x.key
  else match near with
    | some l1 =>
      let xs := if l1 then l1Serves (s.core core) k n else []
      (keysOf k n).any fun j => (s.nearBad core xs j).getD (s.foundBad j 1)
    | none => s.foundBad k n

/-- POISON of consumed units, or of a home that is lost (R358, R378). `found`: it is found at the home (R336). -/
def State.poisonFlt (s : State) (part : Nat) (r : Reach) (bad found : Bool) : Option Flt :=
  if s.homeLost part r.key || bad then
    some {
      code := cPoison
      detail := BitVec.ofNat 64 r.pa
      granule := if found || s.homeLost part r.key then some (s.boundOf r.key) else none }
  else none

/-- The first fault at the place (R296): tag, then poison, then link. `near`: the caches that may serve the access (`State.nearKeys`);
`rdc`: its die's RDC does. -/
def State.placeFlt (s : State) (part core : Nat) (r : Reach) (consumes : Bool) (near : Option Bool) (link : Bool)
    (posted : Bool := false) (rdc : Bool := false) : Option Flt :=
  (s.tagFlt r).orElse fun _ =>
    (s.poisonFlt part r (consumes && s.servedBad core r.key r.n near rdc) !(rdc || s.allNear core r.key r.n near)).orElse
      fun _ => if link && !rdc then s.linkFlt part core near r.key r.n posted else none

/-! ## Bytes at the point of an order and a scope (R138, R177) -/

/-- A request that reaches the home of bytes: a dropped entry is rebuilt (R150), the host gives up lines it holds (R276), a host line
is taken (R276). -/
def State.atHomeNow (s : State) (part : Nat) (r : Reach) (write : Bool) : State :=
  if isHost r.key then
    match r.win with
    | some (_, w) =>
      if w.mode = 0 then s.holdLine part (r.key / 64) write
      else s
    | none => s
  else
    ((s.cry r.key).cry (r.key + r.n - 1)).snoopHost r.key r.n

/-- The caches that a load may be served by (R177). -/
def Reach.near (r : Reach) (ord : Ord) (sc : Scope) : Option Bool :=
  if !r.cached then none
  else match ord, sc with
    | .bypass, _ => none
    | .weak, _ => some true
    | _, .core => some true
    | _, .cluster => some false
    | _, _ => none

/-- The bytes as a load with this order, scope and hint finds them (R137, R138, R177). -/
def State.loadAt (s : State) (part core : Nat) (r : Reach) (ord : Ord) (sc : Scope) (h : Hint) : State × List Byte :=
  let home := fun (s : State) =>
    let (s, bs) := ((s.atHomeNow part r false).peekRequest none r.key r.n).homeRead r.key r.n
    (s.passStale core r.key r.n, bs)
  let bypass := fun (s : State) =>
    let (s, bs) := ((s.atHomeNow part r false).peekRequest (some (clusterOf core)) r.key r.n).bypassRead core r.key r.n
    (s.passStale core r.key r.n, bs)
  let share := fun (s : State) (near : Option Bool) =>
    if s.allNear core r.key r.n near then s
    else (s.atHomeNow part r false).shareRequest (clusterOf core) r.key r.n
  let weak := fun (s : State) => (share s (some true)).weakRead core r.key r.n (h != .noalloc)
  if !r.cached then bypass s
  else
    match ord, sc with
    | .bypass, _ => bypass s
    | .weak, _ =>
      if h = .gridRO && !s.bytesNear core r.key r.n && s.mayRdc core r.key then
        match s.rdcBytes core r.key r.n with
        | some bs => (s, bs)
        | none =>
          let (s, bs) := weak s
          (s.rdcFill core r.key bs, bs)
      else weak s
    | _, .core => weak s
    | _, .cluster =>
      let (s, bs) := (share s (some false)).clusterRead core r.key r.n
      (s.passStale core r.key r.n, bs)
    | _, _ => home s

/-- The load is served by its die's RDC. -/
def State.loadRdc (s : State) (core : Nat) (r : Reach) (ord : Ord) (h : Hint) : Bool :=
  r.cached && ord == .weak && h == .gridRO && !s.bytesNear core r.key r.n && s.mayRdc core r.key &&
    (s.rdcBytes core r.key r.n).isSome

/-- The load is served by the core's caches, or by its die's RDC. -/
def State.loadNear (s : State) (core : Nat) (r : Reach) (ord : Ord) (sc : Scope) (h : Hint) : Bool :=
  s.allNear core r.key r.n (r.near ord sc) || s.loadRdc core r ord h

/-- The cluster owns every byte. -/
def State.ownsAll (s : State) (core : Nat) (r : Reach) : Bool :=
  s.owns (clusterOf core) r.key r.n

/-- The store is performed under ownership that the cluster holds (R400). -/
def State.storeNear (s : State) (core : Nat) (r : Reach) (ord : Ord) (sc : Scope) (h : Hint) : Bool :=
  let wide := sc == .device || sc == .system
  r.cached && ord != .bypass && h != .noalloc && (ord == .weak || !wide) && s.ownsAll core r

/-- A core's bytes are written where their home or their host has them; its own caches forget them (R138, R265). -/
def State.postBytes (s : State) (core : Nat) (r : Reach) (bs : List Byte) : State :=
  ((((s.hartsForget r.key r.n).touch r.key r.n).homeWrite r.key bs).forget core r.key r.n).clearPoison r.key r.n

/-- Write bytes at their home for a core (R138). -/
def State.storeHome (s : State) (part core : Nat) (r : Reach) (bs : List Byte) : State :=
  (s.atHomeNow part r true).postBytes core r bs

/-- The cluster takes write ownership of the bytes that it does not own (R400). -/
def State.ownBytes (s : State) (part core : Nat) (r : Reach) : State :=
  let cl := clusterOf core
  if s.ownsAll core r then s
  else
    (((s.atHomeNow part r true).hartsForget r.key r.n).ownRequest cl r.key r.n).takeOwn cl r.key r.n

/-- Store bytes with an order, scope and hint. One that is written at its home under ownership that its cluster holds is an access
that reaches the home (R143). -/
def State.storeAt (s : State) (part core : Nat) (r : Reach) (ord : Ord) (sc : Scope) (h : Hint) (bs : List Byte) : State :=
  let weak := fun (s : State) => (s.ownBytes part core r).weakWrite core r.key bs
  let s :=
    if !r.cached || h = .noalloc then s.storeHome part core r bs
    else
      match ord, sc with
      | .bypass, _ => s.storeHome part core r bs
      | .weak, _ => weak s
      | _, .core => weak s
      | _, .cluster =>
        ((s.ownBytes part core r).clusterWrite core r.key bs).through core r.key r.n
      | _, _ =>
        let s := if s.ownsAll core r then s.touch r.key r.n else s.ownBytes part core r
        (s.clusterWrite core r.key bs).moveHome (clusterOf core) (keysOf r.key r.n)
  (s.rdcForget core r.key r.n).clearPoison r.key r.n

/-! ## Atomics (R181 to R183) -/

def toSigned (n v : Nat) : Int := (BitVec.ofNat n v).toInt

/-- The new value of R181, for a width of `n` bits. -/
def atNew (op : AtOp) (n old b : Nat) : Nat :=
  match op with
  | .add => (old + b) % 2 ^ n
  | .smin => if toSigned n old ≤ toSigned n b then old else b
  | .smax => if toSigned n old ≤ toSigned n b then b else old
  | .umin => if old ≤ b then old else b
  | .umax => if old ≤ b then b else old
  | .and => old &&& b
  | .or => old ||| b
  | .xor => old ^^^ b
  | .xchg => b
  | .incw => if b ≤ old then 0 else old + 1
  | .decw => if old = 0 ∨ b < old then b else old - 1
  | .fadd => (fF32.add old b).1
  | .hadd2 => (fH16.add (old % 2 ^ 16) (b % 2 ^ 16)).1 + 2 ^ 16 * (fH16.add (old / 2 ^ 16) (b / 2 ^ 16)).1

/-- Read, change and write the pieces of an atomic in one step, at the cluster's cache or at the homes (R183). -/
def State.atomicAt (s : State) (part core : Nat) (rs : List Reach) (near : Bool) (f : Nat → Nat) : State × Nat :=
  if near then
    let s := rs.foldl (fun s r => s.ownBytes part core r) s
    let (s, bs) := rs.foldl (fun (x : State × List Byte) r =>
      let (s, b) := x.1.clusterRead core r.key r.n
      (s, x.2 ++ b)) (s, [])
    let new := leBytes bs.length (f (leNat bs))
    let (s, _) := rs.foldl (fun (x : State × List Byte) r =>
      let s := (x.1.clusterWrite core r.key (x.2.take r.n)).through core r.key r.n
      ((s.rdcForget core r.key r.n).clearPoison r.key r.n, x.2.drop r.n)) (s, new)
    (s, leNat bs)
  else
    let (s, bs) := rs.foldl (fun (x : State × List Byte) r =>
      let (s, b) := (x.1.atHomeNow part r true).homeRead r.key r.n
      (s, x.2 ++ b)) (s, [])
    let new := leBytes bs.length (f (leNat bs))
    let (s, _) := rs.foldl (fun (x : State × List Byte) r =>
      ((x.1.storeHome part core r (x.2.take r.n)).rdcForget core r.key r.n, x.2.drop r.n)) (s, new)
    (s, leNat bs)

/-! ## One lane's access -/

/-- What performing a lane's access comes to: the words of D and the value of PS; a fault, late or found before the lane
advances; a wait, with what remains to be done; a monitor armed. -/
inductive MemRes where
  | done (ws : List Word) (ps : Bool)
  | flt (f : Flt)
  | early (f : Flt)
  | wait (w : AccWait) (a : LaneAcc)
  | armed (mon : Nat)
  deriving DecidableEq, Repr

/-- A lane's access in hand. `via`: the translations of an access that has been on its way to its home (R147). -/
structure Acc where
  who : Who
  gid : Nat
  tid : Nat
  pc : DWord
  kind : AccKind
  a : LaneAcc
  via : List TlbEntry := []
  deriving DecidableEq, Repr

def Acc.core (x : Acc) : Nat := x.who.core
def Acc.part (x : Acc) : Nat := x.who.part

/-- A fault of the access, at its address. -/
def Acc.flt (x : Acc) (f : Flt) : MemRes := .flt { f with faddr := x.a.va, acc := x.kind }

abbrev Perf := State × MemRes

/-- Translate; a denial with code 0 says only that the page is not there (a completion that grants nothing, R167). -/
def State.reach (s : State) (w : Who) (n : Need) (va : DWord) : State × Trans :=
  match s.translate w n va with
  | (s, .flt f) => if f.code = 0 then (s, .missing) else (s, .flt f)
  | r => r

/-- Translate an access's address; one that has been on its way keeps the translation it left with. -/
def State.reachAcc (s : State) (x : Acc) (n : Need) (va : DWord) : State × Trans :=
  match x.via.find? fun (e : TlbEntry) => e.covers x.who (transBits va) with
  | some e => (s, .ok e (e.pbase + (transBits va - e.vbase)))
  | none => s.reach x.who n va

/-- Page requests of the address go to the host, which has answered with Response Failure (R340). -/
def State.priDown (s : State) (w : Who) (va : DWord) : Bool :=
  (s.part w.part).priFailed && match s.ctx? w.part w.ctx with
    | some c => !c.local? (transBits va)
    | none => false

/-- The address is translated by ATS (R154, R166). -/
def State.byAts (s : State) (w : Who) (va : DWord) : Bool :=
  match s.ctx? w.part w.ctx with
  | some c => !c.local? (transBits va)
  | none => false

/-- The page of an address is absent and no request may be raised: PRI has failed, or the completion after a Success response
grants nothing (R340). -/
def State.absentFlt (s : State) (w : Who) (va : DWord) : Option Flt :=
  if s.priDown w va then some fltPriFailed
  else if w.afterAt va && s.byAts w va then some { code := cPageReq }
  else none

/-- A page is not present: one request per page, context and kind of access, and the access waits (R247). -/
def State.pageWait (s : State) (x : Acc) (va : DWord) (write : Bool) : Perf :=
  match s.absentFlt x.who va with
  | some f => (s, .flt { f with faddr := va, acc := x.kind })
  | none =>
    (s.requestPage x.part x.who.ctx (transBits va / 4096) write,
      .wait (s.pageOrRoom x.part x.who.ctx (transBits va / 4096) write) x.a)

/-- Go on with the translated address, or end as the translation does. -/
def State.access (s : State) (x : Acc) (n : Need) (va : DWord) (k : State → TlbEntry → Nat → Perf) : Perf :=
  match s.reachAcc x n va with
  | (s, .ok e pa) => k s e pa
  | (s, .missing) => s.pageWait x va n.w
  | (s, .ats r) => (s, .wait (.ats r (x.who.afterAt va)) x.a)
  | (s, .flt f) => (s, .flt { f with faddr := va, acc := x.kind })

/-- The value of a table entry now; no cache changes. -/
def State.entryNow (s : State) (part pa : Nat) : Nat :=
  leNat ((List.range 8).map fun i => ((s.keyOf part (pa + i)).map s.newest).getD 0)

/-- The leaf of any level that maps an address below a table of a level: level, entry and its address (R155, R158). -/
def State.leafBelow (s : State) (part v : Nat) : Nat → Nat → Option (Nat × Nat × Nat)
  | level, table =>
    let addr := table + 8 * levelIndex v level
    let e := s.entryNow part addr
    if e % 2 = 0 then none
    else if bitsAt e 1 3 = 0 then
      match level with
      | 0 => none
      | l + 1 => if s.nonLeafOk part (l + 1) e then s.leafBelow part v l (bitsAt e 10 44 * 4096) else none
    else if s.leafFits part level e then some (level, e, addr)
    else none

/-- The leaf that maps an address now, for application cores too; nothing is changed by looking. -/
def State.leafAny (s : State) (part ctx v : Nat) : Option (Nat × Nat × Nat) :=
  match s.ctx? part ctx with
  | none => none
  | some c => if !c.local? v || c.regime == 0 then none else s.leafBelow part v 4 c.root

/-- The leaf that maps an address now for a compute core (R158). -/
def State.leafNow (s : State) (part ctx v : Nat) : Option (Nat × Nat × Nat) :=
  (s.leafAny part ctx v).filter fun p => decide (p.1 ≤ 1)

/-- The leaves in the tables of a context below a table of a level: first address, level and entry (R155, R158). -/
def State.leavesBelow (s : State) (part v : Nat) : Nat → Nat → List (Nat × Nat × Nat)
  | level, table =>
    ((List.range 512).map fun i =>
      let e := s.entryNow part (table + 8 * i)
      let at' := v + i * 2 ^ (12 + 9 * level)
      if e % 2 = 0 then []
      else if bitsAt e 1 3 = 0 then
        match level with
        | 0 => []
        | l + 1 => if s.nonLeafOk part (l + 1) e then s.leavesBelow part at' l (bitsAt e 10 44 * 4096) else []
      else if s.leafFits part level e then [(at', level, e)]
      else []).flatten

/-- Every leaf that a context's own table gives now. -/
def State.leaves (s : State) (part ctx : Nat) : List (Nat × Nat × Nat) :=
  match s.ctx? part ctx with
  | none => []
  | some c => if c.regime == 0 then [] else (s.leavesBelow part 0 4 c.root).filter fun p => c.local? p.1

/-- DETAIL of a refusal: what is needed, and what the current leaf of the address gives (R351). -/
def State.leafGrants (s : State) (part ctx : Nat) (n : Need) (va : DWord) : DWord :=
  match s.leafNow part ctx (transBits va) with
  | some (_, e, _) => permDetail n (bitsAt e 1 1 == 1) (bitsAt e 2 1 == 1) (bitsAt e 3 1 == 1) false
  | none => permDetail n false false false false

/-- A piece of an access, at its home, and the translation that took it there. -/
abbrev Piece := TlbEntry × Reach

/-- The home refuses a piece that was translated before a division took away what it needs (R351); no cache changes (R367). -/
def State.refuseFlt (s : State) (who : Who) (kind : AccKind) (n : Need) (p : Piece) : Option Flt :=
  if isHost p.2.key || !(s.granuleOf p.2.key).refuses p.2.key p.2.n p.1.filledAt n.w then none
  else some {
    code := cPermission
    faddr := p.2.va
    detail := s.leafGrants who.part who.ctx n p.2.va
    acc := kind
    granule := some (s.boundOf p.2.key) }

/-- The same for an access that caches serve where `near`, and that therefore asks no home. -/
def State.refuseNow (s : State) (who : Who) (kind : AccKind) (n : Need) (near : Bool) (p : Piece) : Option Flt :=
  if near then none else s.refuseFlt who kind n p

/-- The home's response corrects the granule bounds that the core's translation carries (R146, R165). -/
def State.noteBound (s : State) (core : Nat) (p : Piece) : State :=
  let b := s.boundOf p.2.key
  if p.1.gbase = b.1 ∧ p.1.glog2 = b.2 then s
  else s.updCore core fun c => { c with tlb := c.tlb.map fun (e : TlbEntry) => if e = p.1 then { e with gbase := b.1, glog2 := b.2 } else e }

/-- An access that its caches do not serve binds at its home (R147, R400): it may still be on its way there, and a home may
refuse it, the lowest piece that is refused (R353). -/
def State.bindHome (s : State) (x : Acc) (n : Need) (near : Bool) (ps : List Piece) (k : State → Perf) : Perf :=
  if near then k s
  else if s.travels && x.via.isEmpty && !ps.all (fun (p : Piece) => isHost p.2.key) then
    (s, .wait (.home (ps.map Prod.fst)) x.a)
  else
    match ps.findSome? (s.refuseFlt x.who x.kind n) with
    | some f => (s, .flt f)
    | none =>
      let (s, r) := k s
      (ps.foldl (fun (s : State) (p : Piece) => s.noteBound x.core p) s, r)

/-- Bytes of a place that memory holds. -/
def reachOf (pl : Place) (pa : Nat) (va : DWord) (n : Nat) : Option Reach :=
  match pl with
  | .mem k _ => some { key := k, pa := pa, va := va, n := n, cached := pl.cached }
  | .win i w k _ => some { key := k, pa := pa, va := va, n := n, cached := pl.cached, win := some (i, w) }
  | _ => none

/-- An access to the register aperture (R161, R339). -/
def State.apAccess (s : State) (x : Acc) (desc : Nat) (write : Bool) (k : State → ApDesc → Perf) : Perf :=
  match s.apOpen (s.group? x.gid) x.part desc write with
  | (s, .error f) => (s, x.flt f)
  | (s, .ok d) => k s d

/-- Bits 37:0 of the address name the byte (R53). -/
def apAddr (va : DWord) : Nat := va.toNat % 2 ^ 38

/-- APERTURE_DENIED with DETAIL 0, for kinds barred from the aperture (R339). -/
def fltBarred : Flt := { code := cAperture }

/-- The words that a load of a width fills its register with (R176). -/
def loadWords (w : Width) (bs : List Byte) : List Word :=
  let v := leNat bs
  match w with
  | .w8s => [(BitVec.ofNat 8 v).signExtend 32]
  | .w16s => [(BitVec.ofNat 16 v).signExtend 32]
  | .w64 => wordsOf v 2
  | .w128 => wordsOf v 4
  | _ => [BitVec.ofNat 32 v]

/-- LD and LD.nr (R177, R178). On the register aperture an acquire is one of device scope (R55). -/
def State.doLd (s : State) (x : Acc) (w : Width) (ord : Ord) (sc : Scope) (h : Hint) (nr : Bool) : Perf :=
  let go := fun (s : State) (e : TlbEntry) (pa : Nat) =>
    match s.placeOf x.part e pa with
    | .aperture desc => s.apAccess x desc false fun s d =>
        let bs := s.apRead x.part d (apAddr x.a.va) w.bytes
        (if ord = .sync then s.acquire x.core .device else s, .done (loadWords w bs) false)
    | .nothing => (s, x.flt (fltNoPlace e))
    | pl =>
      match reachOf pl pa x.a.va w.bytes with
      | none => (s, x.flt (fltNoPlace e))
      | some r => s.bindHome x needR (s.loadNear x.core r ord sc h) [(e, r)] fun s =>
        match s.placeFlt x.part x.core r true (r.near ord sc) true false (s.loadRdc x.core r ord h) with
        | some f => (s, x.flt f)
        | none =>
          let (s, bs) := s.loadAt x.part x.core r ord sc h
          let s := if ord = .sync then s.acquire x.core sc else s
          (s, .done (loadWords w bs) false)
  match s.reachAcc x needR x.a.va with
  | (s, .ok e pa) => go s e pa
  | (s, .missing) => if nr then (s, MemRes.done (List.replicate (widthRegs w.bytes) 0) true) else s.pageWait x x.a.va false
  | (s, .ats r) => (s, .wait (.ats r (x.who.afterAt x.a.va)) x.a)
  | (s, .flt f) => (s, x.flt f)

/-- The bytes that a store of `n` bytes writes. -/
def storeBytes (ws : List Word) (n : Nat) : List Byte := leBytes n (natOfWords ws)

/-- ST (R177). On the register aperture a release is one of device scope (R55). -/
def State.doSt (s : State) (x : Acc) (w : Width) (ord : Ord) (sc : Scope) (h : Hint) : Perf :=
  let bs := storeBytes x.a.data w.bytes
  s.access x needW x.a.va fun s e pa =>
    match s.placeOf x.part e pa with
    | .aperture desc => s.apAccess x desc true fun s d =>
        ((if ord = .sync then s.release x.core .device else s).apWrite x.part d (apAddr x.a.va) bs, .done [] false)
    | .nothing => (s, x.flt (fltNoPlace e))
    | pl =>
      match reachOf pl pa x.a.va w.bytes with
      | none => (s, x.flt (fltNoPlace e))
      | some r => s.bindHome x needW (s.storeNear x.core r ord sc h) [(e, r)] fun s =>
        let sends := !r.cached || isHost r.key
        match s.placeFlt x.part x.core r false (if r.cached then some true else none) sends (!r.cached && isHost r.key) with
        | some f => (s, x.flt f)
        | none =>
          let s := if ord = .sync then s.release x.core sc else s
          (s.storeAt x.part x.core r ord sc h bs, .done [] false)

/-! ## Atomics -/

/-- What an atomic does to the old value; `cas`: ATOMC compares with `cmp` (R181). -/
def atApply (op : AtOp) (cas : Bool) (n : Nat) (a : LaneAcc) (old : Nat) : Nat :=
  if cas then (if old = natOfWords a.cmp then natOfWords a.data else old) else atNew op n old (natOfWords a.data)

/-- The first request of the ATOMICOP procedure: its phase and number, 0 where the procedure starts at the loop (R275). -/
def haFirst (op : AtOp) (cas : Bool) (n : Nat) : Nat :=
  if !cas && op = .add && n ≤ 64 then 1 else if !cas && op = .xchg && n ≤ 64 then 2 else if cas then 3 else 0

/-- SYS_ATOMIC_UNSUPPORTED (R316). -/
def fltHostAtomic (window last : Nat) (loop : Bool) : Flt :=
  { code := cHostAtomic, detail := BitVec.ofNat 64 (window + 256 * last + b2n loop 4096) }

/-- A request of the procedure goes out on the window's port (R275, R283). -/
def State.sendLoop (s : State) (part : Nat) (a : HostAtomic) (m : MsgKind) (args : List Nat) : State :=
  { s with out := s.out ++ [⟨m, part, [a.id, a.window, a.link, a.w / 8, a.win.tc] ++ args ++ s.onStream part a.win.port⟩] }

/-- The first request of an atomic is sent to the host's completer (R275). -/
def State.postAtomic (s : State) (part : Nat) (a : HostAtomic) (cmp : Nat) : State :=
  let s := match a.first with
    | 1 => s.sendLoop part a .fetchAdd [a.b]
    | 2 => s.sendLoop part a .swap [a.b]
    | 3 => s.sendLoop part a .cas [cmp, a.b]
    | _ => s.sendLoop part a .hostRead []
  s.updPart part fun p => { p with hostAtomics := p.hostAtomics ++ [a] }

/-- Send an atomic of a lane. -/
def State.sendAtomic (s : State) (x : Acc) (i : Nat) (win : Window) (link : Nat) (op : AtOp) (cas : Bool) (n : Nat) :
    Perf :=
  let (s, id) := s.take
  let k := haFirst op cas n
  let a : HostAtomic := {
    id := id
    gid := x.gid
    pc := x.pc
    lane := x.a.lane
    uid := ((s.team? x.tid).bind fun t => s.span? t.sid).map Span.uid
    ctx := x.who.ctx
    va := transBits x.a.va
    window := i
    win := win
    link := link
    op := op
    w := n
    b := natOfWords x.a.data
    first := k
    phase := if k = 0 then .read else .first }
  (s.postAtomic x.part a (natOfWords x.a.cmp), .wait (.host id) x.a)

/-- The pieces of an 8-byte atomic at 4 modulo 8, else the whole (R183). -/
def atPieces (va : DWord) (n : Nat) : List (DWord × Nat) :=
  if n = 8 && va.toNat % 8 = 4 then [(va, 4), (va + 4, 4)] else [(va, n)]

/-- The order of R296 among the faults of a translation and of a place. -/
def fltOrder (c : Nat) : Nat :=
  if c = cReservedBit then 0 else if c = cPermission || c = cAperture then 1 else if c = cTag then 2 else c

/-- The fault of the piece that R353 names: the first code under R296, the lowest piece that has it. -/
def firstFlt (fs : List (DWord × Flt)) (kind : AccKind) : Option Flt :=
  (minNat (fs.map fun f => fltOrder f.2.code)).bind fun c =>
    (fs.find? fun f => fltOrder f.2.code == c).map fun f => { f.2 with faddr := f.1, acc := kind }

/-- A piece of an atomic whose address has been translated: its place, translation, and bytes. -/
structure AtPiece where
  pl : Place
  e : TlbEntry
  r : Reach

/-- What the translations of the pieces of an atomic come to: places, faults with their addresses, a wait. -/
structure AtRun where
  s : State
  ps : List AtPiece := []
  bad : List (DWord × Flt) := []
  wait : Option MemRes := none

/-- One piece is translated and placed; the register aperture takes no atomics (R339). -/
def State.atPiece (x : Acc) (run : AtRun) (p : DWord × Nat) : AtRun :=
  match run.s.reachAcc x needRW p.1 with
  | (s, .flt f) => { run with s := s, bad := run.bad ++ [(p.1, f)] }
  | (s, .ats q) => { run with s := s, wait := run.wait.orElse fun _ => some (.wait (.ats q (x.who.afterAt p.1)) x.a) }
  | (s, .missing) =>
    match s.pageWait x p.1 true with
    | (s, .flt f) => { run with s := s, bad := run.bad ++ [(p.1, f)] }
    | (s, m) => { run with s := s, wait := run.wait.orElse fun _ => some m }
  | (s, .ok e pa) =>
    let pl := s.placeOf x.part e pa
    match pl, reachOf pl pa p.1 p.2 with
    | _, some r => { run with s := s, ps := run.ps ++ [⟨pl, e, r⟩] }
    | .aperture _, none => { run with s := s, bad := run.bad ++ [(p.1, fltBarred)] }
    | _, none => { run with s := s, bad := run.bad ++ [(p.1, fltNoPlace e)] }

/-- Translate the pieces, both pages where there are two (R183): a RESERVED_BIT of either is reported, then an absent page is
waited for, then the other faults are reported (R296, R353). -/
def State.atTrans (s : State) (x : Acc) (pieces : List (DWord × Nat)) (k : State → List AtPiece → Perf) : Perf :=
  let r := pieces.foldl (State.atPiece x) { s := s }
  match firstFlt (r.bad.filter fun f => r.wait.isNone || f.2.code == cReservedBit) x.kind, r.wait with
  | some f, _ => (r.s, .flt f)
  | none, some m => (r.s, m)
  | none, none => k r.s r.ps

/-- Atomics of a context through a range of its addresses on their way to a host completer (R168, R170). -/
def State.atomicIds (s : State) (part ctx v n : Nat) : List Nat :=
  ((s.part part).hostAtomics.filter fun a => a.hart.isNone && a.ctx == ctx && meets a.va 8 v n).map HostAtomic.id

/-- ATOM, ATOMC and RED (R181 to R183, R275, R344, R360): on host memory an atomic follows the route of the window, whatever its
scope. -/
def State.doAtomic (s : State) (x : Acc) (op : AtOp) (cas : Bool) (n : Nat) (sc : Scope) (rel acq : Bool) (soft red : Bool) :
    Perf :=
  s.atTrans x (atPieces x.a.va n) fun s ps =>
    let rs := ps.map AtPiece.r
    let host := rs.findSome? fun r => if isHost r.key then r.win.map fun w => (w, r) else none
    match host, n == 8 && x.a.va.toNat % 8 != 0 with
    | some _, true =>
      (s, .early { code := cMisaligned, faddr := x.a.va, detail := x.a.va, acc := x.kind })
    | h, _ =>
      let remote := match h with
        | some ((_, w), _) => w.mode != 0
        | none => false
      let link := fun (f : Flt) =>
        if f.code != cLinkDown then (s, x.flt f)
        else if red then (s, x.flt { f with detail := f.detail ||| 0x100 })
        else if soft then (s, MemRes.done (List.replicate (n / 4) 0) true)
        else (s, x.flt f)
      let near := !(sc matches .device) && !(sc matches .system) && rs.length == 1 && rs.all fun r => r.cached && !isHost r.key
      s.bindHome x needRW (near && rs.all (s.ownsAll x.core)) (ps.map fun p => (p.e, p.r)) fun s =>
      match firstFlt (rs.filterMap fun r => (s.placeFlt x.part x.core r true (if near then some false else none) true).map fun f => (r.va, f)) x.kind with
      | some f =>
        if f.code = cLinkDown then link f
        else (s, .flt (if f.code = cTimeout then { f with detail := f.detail ||| 0x100 } else f))
      | none =>
        let out := fun (s : State) => if rel then s.release x.core sc else s
        match h, remote with
        | some ((i, w), r), true =>
          if w.route = 1 then
            if (s.part x.part).hostAtomics.any fun h => h.gid == x.gid && h.window == i then (s, .wait (.behind i) x.a)
            else (out s).sendAtomic x i w (r.key % 2 ^ 64) op cas (8 * n)
          else (s, x.flt (fltHostAtomic i 0 false))
        | _, _ =>
          let (s, old) := (out s).atomicAt x.part x.core rs near (atApply op cas (8 * n) x.a)
          let s := if near then s else s.passStale x.core (rs.headD ⟨0, 0, 0, 0, false, none⟩).key n
          let s := if acq then s.acquire x.core sc else s
          (s, .done (if red then [] else wordsOf old (n / 4)) false)

/-! ## MEMOP, TAG, GRAN -/

/-- PRF: the 128-byte line, as a weak load with the hint would allocate it (R184); where the address is translated by ATS it is
brought when the completion comes. Whatever would make the load fault, a failed link, ATS request or home among it, it does
nothing (log entry 48). -/
def State.doPrf (s : State) (x : Acc) (h : Hint) : Perf :=
  let va := x.a.va &&& ~~~127#64
  if !canonical x.a.va then (s, .done [] false)
  else
    match s.reach x.who needR va with
    | (s, .ats q) => (s, .wait (.ats q (x.who.afterAt va)) x.a)
    | (s, .ok e pa) =>
      match reachOf (s.placeOf x.part e pa) pa va 128 with
      | some r =>
        let near := s.bytesNear x.core r.key r.n
        if r.cached && (s.linkFlt x.part x.core (some true) r.key r.n).isNone && !s.homeLost x.part r.key &&
            (s.refuseNow x.who x.kind needR near (e, r)).isNone then
          let s := (s.loadAt x.part x.core r .weak .core h).1
          (if near then s else s.noteBound x.core (e, r), .done [] false)
        else (s, .done [] false)
      | none => (s, .done [] false)
    | (s, _) => (s, .done [] false)

/-- A host line of the range is written back (R185). -/
def HLine.clean (k n : Nat) (h : HLine) : HLine :=
  if inRange (k / 64) ((k + n - 1) / 64 - k / 64 + 1) h.line then { h with dirty := false, was := [] } else h

/-- FLUSH and INV on bytes that lie together (R185). -/
def State.flushRange (s : State) (part core k n : Nat) (sc : Scope) (inv : Bool) : State :=
  let dirty := ((s.core core).l1.filter fun b => b.dirty && inRange k n b.key).map L1Byte.key
  let s := s.moveCluster (clusterOf core) dirty
  let dev := sc == .device || sc == .system
  let s := if dev then
      s.moveHome (clusterOf core)
        (((s.cluster (clusterOf core)).cc.filter fun b => b.dirty && inRange k n b.key).map CcByte.key)
    else s
  let s := if sc == .system && isHost k then
      let held := ((s.part part).hlines.filter fun (h : HLine) => inRange (k / 64) ((k + n - 1) / 64 - k / 64 + 1) h.line).map HLine.line
      (held.foldl (fun (s : State) l => s.disownLine part l) s).updPart part fun p => { p with hlines := p.hlines.map (HLine.clean k n) }
    else s
  if !inv then s
  else
    let s := s.updCore core fun c => { c with l1 := c.l1.filter fun b => !inRange k n b.key }
    let s := if dev then
        s.updDie (dieOf core) fun d => { d with rdc := d.rdc.filter fun b => !inRange k n b.key }
      else s
    if sc == .system && isHost k then
      s.updCluster (clusterOf core) fun c => { c with cc := c.cc.filter fun b => !inRange k n b.key }
    else s

/-- FLUSH and INV page by page (R185): no permission is needed, pages that are not there are skipped. Where addresses
are translated by ATS, whether a page is there is asked by an ATS request (log entry 41). `fuel` bounds the pages. -/
def State.flushPages (x : Acc) (sc : Scope) (inv : Bool) : Nat → State → DWord → Nat → Perf
  | 0, s, _, _ => (s, .done [] false)
  | fuel + 1, s, va, left =>
    if left = 0 then (s, .done [] false)
    else
      let n := 4096 - va.toNat % 4096
      let n := if left < n then left else n
      let on := fun (s : State) => State.flushPages x sc inv fuel s (va + BitVec.ofNat 64 n) (left - n)
      if !canonical va then on s
      else
        let w := match s.ctx? x.part x.who.ctx with
          | some c => if c.local? (transBits va) then { x.who with priv := true } else x.who
          | none => x.who
        match s.reach w { quiet := true } va with
        | (s, .ok e pa) =>
          let pl := s.placeOf x.part e pa
          match pl.key? with
          | some k => on (if pl.cached then s.flushRange x.part x.core k n sc inv else s)
          | none => on s
        | (s, .ats r) => (s, .wait (.ats r (x.who.afterAt va)) { x.a with va := va, data := [BitVec.ofNat 32 left] })
        | (s, _) => on s

def State.doFlush (s : State) (x : Acc) (sc : Scope) (inv : Bool) : Perf :=
  let b := (x.a.data.headD 0).toNat
  if !canonical x.a.va then (s, .done [] false)
  else State.flushPages x sc inv (b / 4096 + 2) s x.a.va b

/-- The need of PRES and PGREQ, in a walk that sets A alone (R163, R186). -/
def pgNeed (a : PgAccess) : Need := { r := a == .read, w := a == .write, quiet := true }

/-- PRES (R186). -/
def State.doPres (s : State) (x : Acc) (a : PgAccess) : Perf :=
  if !canonical x.a.va then (s, .done [0] false)
  else
    match s.reach x.who (pgNeed a) x.a.va with
    | (s, .ok _ _) => (s, .done [1] false)
    | (s, .ats r) => (s, .wait (.ats r (x.who.afterAt x.a.va)) x.a)
    | (s, _) => (s, .done [0] false)

/-- PGREQ (R186): the request is raised for a page that is absent or lacks the access; a failed answer gives 0. -/
def State.doPgreq (s : State) (x : Acc) (a : PgAccess) : Perf :=
  if !canonical x.a.va then (s, .done [0] false)
  else
    match s.reach x.who (pgNeed a) x.a.va with
    | (s, .ok _ _) => (s, .done [1] false)
    | (s, .ats r) => (s, .wait (.ats r (x.who.afterAt x.a.va)) x.a)
    | (s, .flt f) =>
      if f.code = cReservedBit || f.code = cAts then (s, .flt { f with faddr := x.a.va, acc := if f.code = cReservedBit then .walk else x.kind })
      else if x.who.afterAt x.a.va then (s, .done [0] false)
      else if s.priDown x.who x.a.va then (s, .done [0] false)
      else s.pageWait x x.a.va (a == .write)
    | (s, .missing) =>
      if x.who.afterAt x.a.va || s.priDown x.who x.a.va then (s, .done [0] false) else s.pageWait x x.a.va (a == .write)

/-- The granule or tag instructions' common part: the place, with the aperture as `ap` says. -/
def State.atPlace (s : State) (x : Acc) (n : Need) (len : Nat) (ap : State → ApDesc → Perf) (barred : Bool)
    (k : State → Reach → Perf) : Perf :=
  s.access x n x.a.va fun s e pa =>
    match s.placeOf x.part e pa with
    | .aperture desc => if barred then (s, x.flt fltBarred) else s.apAccess x desc false ap
    | .nothing => (s, x.flt (fltNoPlace e))
    | pl =>
      match reachOf pl pa x.a.va len with
      | some r => s.bindHome x n false [(e, r)] fun s => k (s.cry r.key) r
      | none => (s, x.flt (fltNoPlace e))

def noAp (s : State) (_ : ApDesc) : Perf := (s, .done [] false)

/-- TAGST (R187): only HBM has tags. -/
def State.doTagst (s : State) (x : Acc) : Perf :=
  s.atPlace x needW 1 noAp true fun s r =>
    if !isHbm r.key then (s, .done [] false)
    else match s.poisonFlt x.part r false true with
      | some f => (s, x.flt f)
      | none => (s.setTag r.key ((x.a.data.headD 0).setWidth 4), .done [] false)

/-- TAGLD (R187). -/
def State.doTagld (s : State) (x : Acc) : Perf :=
  s.atPlace x needR 1 noAp true fun s r =>
    if !isHbm r.key then (s, .done [0] false)
    else match s.poisonFlt x.part { r with key := r.key / 32 * 32, n := 32 } (s.foundBad (r.key / 32 * 32) 32) true with
      | some f => (s, x.flt f)
      | none => (s, .done [(s.tagOf r.key).setWidth 32] false)

/-- The status word of GQRY (R148). -/
def State.granStatus (s : State) (tid core : Nat) (k : Nat) : Word :=
  let g := s.granuleOf k
  let lost := g.teams.any fun t => t.tid == tid && t.lost
  let self := (s.cluster (clusterOf core)).cc.any fun b => b.val.isSome && inRange g.base (2 ^ g.log2) b.key
  let grants := s.hostGrants.filter fun h => meets h.key h.len g.base (2 ^ g.log2)
  let st := if g.owner.isSome then 2 else if g.sharers.isEmpty then 0 else 1
  BitVec.ofNat 32 (g.log2 + st * 2 ^ 8 + b2n self (2 ^ 10) + b2n (g.hold != 0) (2 ^ 11) + b2n lost (2 ^ 12) +
    b2n g.te (2 ^ 13) + g.heat * 2 ^ 14 + b2n (g.pr || grants.any HostGrant.r) (2 ^ 16) +
    b2n (g.pw || grants.any HostGrant.w) (2 ^ 17) + b2n (g.px || grants.any HostGrant.x) (2 ^ 18))

/-- Teams that hold nothing and lost nothing are not listed. -/
def Granule.tidy (g : Granule) : Granule :=
  { g with teams := g.teams.filter fun (t : TeamHold) => t.holds != 0 || t.lost }

def State.doGqry (s : State) (x : Acc) : Perf :=
  let zeros := fun (s : State) (_ : ApDesc) => (s, MemRes.done [0, 0, 0, 0] false)
  s.atPlace x needR 1 zeros false fun s r =>
    let g := s.granuleOf r.key
    let ws := wordsOf (s.boundOf r.key).1 2 ++ [s.granStatus x.tid x.core r.key, 0]
    let s := if g.teams.any fun (t : TeamHold) => t.tid == x.tid && t.lost then
        s.setGranule { g with teams := g.teams.map fun (t : TeamHold) => if t.tid = x.tid then { t with lost := false } else t }.tidy
      else s
    (s, .done ws false)

/-- The count of holds has returned to zero: deferred tag-enable changes apply (R149). -/
def State.holdsGone (s : State) (base : Nat) : State :=
  let g := s.granuleOf base
  if g.hold = 0 && !g.teNext.isEmpty then
    g.teNext.foldl (fun s c => s.setTe c.1 c.2.1 c.2.2) (s.setGranule { g with teNext := [] })
  else s

def State.doGhold (s : State) (x : Acc) : Perf :=
  let zero := fun (s : State) (_ : ApDesc) => (s, MemRes.done [0] false)
  s.atPlace x needR 1 zero false fun s r =>
    let g := s.granuleOf r.key
    if isHost r.key || 255 ≤ g.hold then (s, .done [0] false)
    else
      let old := (kget TeamHold.tid x.tid g.teams).getD ⟨x.tid, 0, false⟩
      (s.setGranule { g with hold := g.hold + 1, teams := kset TeamHold.tid { old with holds := old.holds + 1 } g.teams },
        .done [1] false)

def State.doGrel (s : State) (x : Acc) : Perf :=
  let zero := fun (s : State) (_ : ApDesc) => (s, MemRes.done [0] false)
  s.atPlace x needR 1 zero false fun s r =>
    let g := s.granuleOf r.key
    match kget TeamHold.tid x.tid g.teams with
    | some t =>
      if t.holds = 0 then (s, .done [0] false)
      else
        let s := s.setGranule { g with
          hold := g.hold - 1
          teams := kset TeamHold.tid { t with holds := t.holds - 1 } g.teams }.tidy
        (s.holdsGone g.base, .done [1] false)
    | none => (s, .done [0] false)

/-! ## WAITV (R189) -/

/-- Compare at the home, and arm a monitor where the condition does not hold. -/
def State.doWaitv (s : State) (x : Acc) (o : WaitvOps) : Perf :=
  let n := if o.w64 then 8 else 4
  s.access x needR x.a.va fun s e pa =>
    match s.placeOf x.part e pa with
    | .aperture _ => (s, x.flt fltBarred)
    | .nothing => (s, x.flt (fltNoPlace e))
    | pl =>
      match reachOf pl pa x.a.va n with
      | none => (s, x.flt (fltNoPlace e))
      | some r => s.bindHome x needR false [(e, r)] fun s =>
        match s.placeFlt x.part x.core r true none true with
        | some f => (s, x.flt f)
        | none =>
          let (s, bs) := ((s.atHomeNow x.part r false).peekRequest none r.key r.n).homeRead r.key n
          let v := BitVec.ofNat 64 (leNat bs)
          let b := BitVec.ofNat 64 (natOfWords x.a.data)
          if wcondHolds o.cond o.w64 v b then
            ((s.passStale x.core r.key n).acquire x.core o.scope, .done (wordsOf v.toNat (n / 4)) false)
          else
            let (s, id) := s.take
            let m : Monitor := {
              id := id
              gid := x.gid
              lane := x.a.lane
              key := r.key
              va := x.a.va
              w64 := o.w64
              cond := o.cond
              cmp := b
              scope := o.scope
              dst := x.a.dst
              la := o.la.toNat }
            ({ s with monitors := s.monitors ++ [m] }, .armed id)

/-! ## Every memory instruction -/

/-- KIND.ACC of an instruction's accesses (R299). -/
def instrAcc : Instr → AccKind
  | .ld _ | .ldNr _ => .load
  | .st _ => .store
  | .atom _ | .atomc _ | .red _ => .atomic
  | .pgreq _ | .pres _ => .pageReq
  | .tagst _ | .tagld _ => .tag
  | .gqry _ | .ghold _ | .grel _ => .granule
  | .waitv _ => .wait
  | .prf _ => .load
  | _ => .none

/-- Where PS is named, a failed link sets it in place of the fault, and D reads zero (R344): for a load also where no completion
comes in time, its ATS request's included. -/
def softLink (n ps : Nat) (load : Bool) (r : Perf) : Perf :=
  match r with
  | (s, .flt f) =>
    if ps != 63 && (f.code = cLinkDown || (load && f.code = cTimeout)) && !f.detail.getLsbD 8 then
      (s, .done (List.replicate n 0) true)
    else r
  | r => r

/-- Perform one lane's access. -/
def State.perform (s : State) (i : Instr) (x : Acc) : Perf :=
  match i with
  | .ld o => softLink (widthRegs o.w.bytes) o.ps.toNat true (s.doLd x o.w o.ord o.scope o.hint false)
  | .ldNr o => softLink (widthRegs o.w.bytes) o.ps.toNat true (s.doLd x o.w .weak .core o.hint true)
  | .st o => s.doSt x o.w o.ord o.scope o.hint
  | .atom o => softLink (o.w.bytes / 4) o.ps.toNat false
    (s.doAtomic x o.op false o.w.bytes o.scope (AtClass.rel o.cls) (AtClass.acq o.cls) (o.ps != 63) false)
  | .atomc o => softLink (o.w.bytes / 4) o.ps.toNat false
    (s.doAtomic x .xchg true o.w.bytes o.scope (AtClass.rel o.cls) (AtClass.acq o.cls) (o.ps != 63) false)
  | .red o => s.doAtomic x o.op false o.w.bytes o.scope o.rel false false true
  | .prf o => s.doPrf x o.hint
  | .flush o => s.doFlush x o.scope false
  | .inv o => s.doFlush x o.scope true
  | .pgreq o => s.doPgreq x o.acc
  | .pres o => s.doPres x o.acc
  | .tagst _ => s.doTagst x
  | .tagld _ => s.doTagld x
  | .gqry _ => s.doGqry x
  | .ghold _ => s.doGhold x
  | .grel _ => s.doGrel x
  | .waitv o => s.doWaitv x o
  | _ => (s, .done [] false)

end Sys2Proof.Machine
end

