-- ==== Sys2Proof/Machine/Memory.lean ====
section
/-!
DEFINITION. The memory instructions as a group issues them (R173 to R189): the checks at issue (R326, R335), the lanes'
accesses in ascending order, and their performance later, when what they wait for has come (R346 to R348).
-/
namespace Sys2Proof.Machine

/-! ## Operands -/

/-- How an instruction forms an access: address, alignment, bytes, data and comparand (R173, R176). -/
structure MemForm where
  a : Src
  off : BitVec 14 := 0
  n : Nat := 1
  align : Nat := 1
  b : Option (Src × Nat) := none
  c : Option (Reg × Nat) := none
  strict : Bool := true                -- a non-canonical address faults (R326)
  need : Need := {}
  deriving DecidableEq, Repr

/-- Alignment of an atomic of n bytes: 8-byte ones need 4 (R176, R183). -/
def atAlign (n : Nat) : Nat := if n = 8 then 4 else n

def instrMem : Instr → Option MemForm
  | .ld o => some { a := o.a, off := o.off, n := o.w.bytes, align := o.w.bytes, need := needR }
  | .ldNr o => some { a := o.a, off := o.off, n := o.w.bytes, align := o.w.bytes, need := needR }
  | .st o => some { a := o.a, off := o.off, n := o.w.bytes, align := o.w.bytes, b := some (o.b, widthRegs o.w.bytes), need := needW }
  | .atom o => some { a := o.a, off := o.off, n := o.w.bytes, align := atAlign o.w.bytes, b := some (o.b, o.w.bytes / 4), need := needRW }
  | .atomc o => some { a := o.a, off := o.off, n := o.w.bytes, align := atAlign o.w.bytes, b := some (o.b, o.w.bytes / 4), c := some (o.d, o.w.bytes / 4), need := needRW }
  | .red o => some { a := o.a, off := o.off, n := o.w.bytes, align := atAlign o.w.bytes, b := some (o.b, o.w.bytes / 4), need := needRW }
  | .prf o => some { a := o.a, off := o.off, strict := false }
  | .flush o => some { a := o.a, b := some (o.b, 1), strict := false }
  | .inv o => some { a := o.a, b := some (o.b, 1), strict := false }
  | .pgreq o => some { a := o.a, off := o.off, strict := false }
  | .pres o => some { a := o.a, off := o.off, strict := false }
  | .tagst o => some { a := o.a, off := o.off, b := some (o.b, 1) }
  | .tagld o => some { a := o.a, off := o.off }
  | .gqry o => some { a := o.a, off := o.off }
  | .ghold o => some { a := o.a, off := o.off }
  | .grel o => some { a := o.a, off := o.off }
  | .waitv o =>
    let n := if o.w64 then 8 else 4
    some { a := o.a, off := o.off, n := n, align := n, b := some (o.b, n / 4), need := needR }
  | _ => none

/-- The instruction's checks of tags are made where an L1 holds them (R335). -/
def instrTagged : Instr → Bool
  | .ld _ | .ldNr _ | .st _ | .atom _ | .atomc _ | .red _ | .waitv _ => true
  | _ => false

/-- A lane's access, with its operands and destinations as at issue. -/
def Group.laneAcc (g : Group) (i : Instr) (f : MemForm) (l : Nat) : LaneAcc where
  lane := l
  va := g.va l f.a f.off
  data := match f.b with
    | some (b, n) => g.srcWords l b n
    | none => []
  cmp := match f.c with
    | some (r, n) => g.regs l r n
    | none => []
  dst := match instrLdest i with
    | some d => g.regIds l d.d d.n
    | none => []

/-- For whom a group's accesses translate (R162). -/
def Group.who (g : Group) : Who := { part := g.part, ctx := g.ctx, core := g.core, priv := g.kind.isFull }

/-! ## Checks at issue -/

/-- MISALIGNED (R326). -/
def memAlign (i : Instr) (f : MemForm) (x : Issue) (l : Nat) : Option Flt :=
  let va := x.g.va l f.a f.off
  if va.toNat % f.align = 0 then none
  else some { code := cMisaligned, faddr := va, detail := va, acc := instrAcc i }

/-- TAG_MISMATCH where an installed translation gives the place and the L1 holds a byte of the cell (R335). -/
def State.earlyTag (s : State) (g : Group) (i : Instr) (f : MemForm) (va : DWord) : Option Flt :=
  match (s.core g.core).tlb.find? fun e => e.covers g.who (transBits va) with
  | none => none
  | some e =>
    if !permits g.who f.need e.r e.w e.x e.u || (f.need.w && !e.d) then none
    else
      match s.placeOf g.part e (e.pbase + (transBits va - e.vbase)) with
      | .mem k 0 =>
        if isHbm k && (s.granuleOf k).te then
          ((List.range ((k + f.n - 1) / 32 - k / 32 + 1)).findSome? fun j =>
            let cell := (k / 32 + j) * 32
            if s.tagOf cell != ptrTag va && (s.core g.core).l1.any fun b => inRange cell 32 b.key then some (s.tagOf cell)
            else none).map fun t =>
              { code := cTag, faddr := va, detail := tagDetail (ptrTag va) t, acc := instrAcc i }
        else none
      | _ => none

/-- NONCANONICAL (R131), then tags. -/
def State.memForm (s : State) (i : Instr) (f : MemForm) (x : Issue) (l : Nat) : Option Flt :=
  let va := x.g.va l f.a f.off
  if f.strict && !(canonical va && canonical (va + BitVec.ofNat 64 (f.n - 1))) then
    some { code := cNoncanonical, faddr := va, acc := instrAcc i }
  else if instrTagged i then s.earlyTag x.g i f va
  else none

/-! ## The accesses of an issue -/

/-- The lanes' results so far. -/
structure MemRun where
  s : State
  res : List (Nat × MemRes) := []

/-- What the results of a lane write: D from its words, PS (R175). -/
def outMem (i : Instr) (ws : List Word) (ps : Bool) : LaneOut :=
  match instrLdest i with
  | none => {}
  | some d => {
      d := ((List.range d.n).map (regPlus d.d)).zip ws
      p := if d.ps = 63 then [] else [(d.ps, ps)] }

/-- An instruction that parks its lanes in the wait (R22). -/
def instrWaits : Instr → Bool
  | .waitv _ => true
  | _ => false

/-- The home of an address as an installed translation gives it. -/
def State.keyNow (s : State) (w : Who) (va : DWord) : Option Nat :=
  ((s.core w.core).tlb.find? fun e => e.covers w (transBits va)).bind fun e =>
    (s.placeOf w.part e (e.pbase + (transBits va - e.vbase))).key?

/-- Bytes as an access names them: address, length, and the key of the first where it is known. -/
structure Named where
  va : DWord
  n : Nat
  key : Option Nat

/-- Two ranges may share a byte: by their addresses in one page, else by their keys, and where one has none yet (R179). -/
def Named.meets (p q : Named) : Bool :=
  if transBits p.va / 4096 = transBits q.va / 4096 then Machine.meets (transBits p.va) p.n (transBits q.va) q.n
  else match p.key, q.key with
    | some j, some k => Machine.meets j p.n k q.n
    | _, _ => true

/-- The bytes of an access that the group went on past: an atomic at a host's completer has its home, LD.nr still waits for its
translation. -/
def State.ranOn (s : State) (part : Nat) (p : PendAcc × LaneAcc × AccWait) : Named where
  va := p.2.1.va
  n := ((instrMem p.1.instr).map MemForm.n).getD 16
  key := match p.2.2 with
    | .host id => ((s.part part).hostAtomics.find? fun h => h.id == id).map fun h => hostKey h.win.port h.link
    | _ => none

/-- Accesses to some bytes, each an address and a length, meet bytes of one that the group went on past (R179, R253). -/
def State.meetsRunning (s : State) (g : Group) (rs : List (DWord × Nat)) : Option Nat :=
  (g.running.find? fun p => rs.any fun r => (s.ranOn g.part p).meets ⟨r.1, r.2, s.keyNow g.who r.1⟩).map fun p => p.1.owed

/-- Memory requests of a core that wait: each lane's is one (R8). -/
def State.requestsOut (s : State) (core : Nat) : Nat :=
  (((s.groups.filter fun g => g.core == core && !g.away).map fun g => (g.accs.map fun a => a.lanes.length).foldl (· + ·) 0)).foldl (· + ·) 0

def isPgreq : Instr → Bool
  | .pgreq _ => true
  | _ => false

def MemRun.find (r : MemRun) (l : Nat) : Option MemRes := (kget Prod.fst l r.res).map Prod.snd

/-- What holds the accesses of an issue back: those that the group went on past to the same bytes, or a core whose 16,384
requests are all out (R8). -/
def State.memWaits (f : MemForm) (s : State) (x : Issue) (oks : List Nat) : Option Park :=
  match s.meetsRunning x.g (oks.map fun l => atPieces (x.g.va l f.a f.off) f.n).flatten with
  | some id => some (.owed id)
  | none => if 16384 < s.requestsOut x.g.core + oks.length then some (.owed 0) else none

/-- The accesses of the lanes, in ascending order (R179, R183, R188). -/
def State.memAct (i : Instr) (f : MemForm) (s : State) (x : Issue) (oks : List Nat) : Acted :=
  match s.memWaits f x oks with
  | some p => { s := s, halt := some p }
  | none =>
  let r := oks.foldl (fun (r : MemRun) l =>
    let (s, m) := r.s.perform i {
      who := x.g.who
      gid := x.g.gid
      tid := x.g.tid
      pc := x.ia
      kind := instrAcc i
      a := x.g.laneAcc i f l }
    { s := s, res := r.res ++ [(l, m)] }) { s := s }
  let pend := r.res.filterMap fun p => match p.2 with
    | .wait w a => some (a, w)
    | _ => none
  { s := r.s
    out := fun l => match r.find l with
      | some (.done ws ps) => outMem i ws ps
      | _ => {}
    waits := fun l => match r.find l with
      | some (.armed m) => some (.waitv m x.next)
      | some (.wait _ _) => if instrWaits i then some (.waitv 0 x.next) else none
      | some (.flt _) => if instrWaits i then some (.waitv 0 x.next) else none
      | _ => none
    early := r.res.filterMap fun p => match p.2 with
      | .early f => some (p.1, f)
      | _ => none
    late := r.res.filterMap fun p => match p.2 with
      | .flt f => some (p.1, f)
      | _ => none
    pend := pend
    goesOn := !PendAcc.blocks { instr := i, pc := x.ia, owed := 0, lanes := pend } }

/-- Issue a memory instruction. -/
def State.issueMem (s : State) (i : Instr) : State :=
  match instrMem i with
  | none => s
  | some f => s.issueAct i (memAlign i f) (s.memForm i f) (State.memAct i f)

def execLd (o : LdOps) (s : State) : Result := .next (s.issueMem (.ld o))
def execLdNr (o : LdnrOps) (s : State) : Result := .next (s.issueMem (.ldNr o))
def execSt (o : StOps) (s : State) : Result := .next (s.issueMem (.st o))
def execAtom (o : AtomOps) (s : State) : Result := .next (s.issueMem (.atom o))
def execAtomc (o : AtomcOps) (s : State) : Result := .next (s.issueMem (.atomc o))
def execRed (o : RedOps) (s : State) : Result := .next (s.issueMem (.red o))
def execPrf (o : PrfOps) (s : State) : Result := .next (s.issueMem (.prf o))
def execFlush (o : FlushOps) (s : State) : Result := .next (s.issueMem (.flush o))
def execInv (o : FlushOps) (s : State) : Result := .next (s.issueMem (.inv o))
def execPgreq (o : PgOps) (s : State) : Result := .next (s.issueMem (.pgreq o))
def execPres (o : PgOps) (s : State) : Result := .next (s.issueMem (.pres o))
def execTagst (o : TagstOps) (s : State) : Result := .next (s.issueMem (.tagst o))
def execTagld (o : AddrOps) (s : State) : Result := .next (s.issueMem (.tagld o))
def execGqry (o : AddrOps) (s : State) : Result := .next (s.issueMem (.gqry o))
def execGhold (o : AddrOps) (s : State) : Result := .next (s.issueMem (.ghold o))
def execGrel (o : AddrOps) (s : State) : Result := .next (s.issueMem (.grel o))
def execWaitv (o : WaitvOps) (s : State) : Result := .next (s.issueMem (.waitv o))

/-! ## Performing accesses later (R346 to R348) -/

/-- Lookahead of a result that has come only now, for a lane that has waited for it (WAITV). -/
def owedNow (d : LDest) (id : Nat) (pc : DWord) (lane : Nat) (ids : List Nat) : List Owed :=
  if d.la = 0 || d.la = 15 then []
  else [{ id := id, pc := pc, la15 := false, landed := true, lanes := [⟨lane, d.la, ids⟩] }]

/-- A lane leaves WAITV with its value (R189). -/
def Group.leaveWaitv (g : Group) (l id : Nat) (la : Nat) (dst : List Nat) : Group :=
  match (g.lane l).wait with
  | .waitv _ next =>
    let pc := (g.lane l).pc
    let g := g.pass l next
    { g with owed := g.owed ++ owedNow ⟨.zero, 0, 63, la⟩ id pc l dst }
  | _ => g

/-- Results go to the registers fixed at issue (R41, R347). -/
def Group.land (g : Group) (l : Nat) (dst : List Nat) (ws : List Word) : Group :=
  (dst.zip ws).foldl (fun (g : Group) p => g.putId l p.1 p.2) g

/-- One lane's access has been performed. -/
def Group.landAcc (g : Group) (a : PendAcc) (q : LaneAcc) (ws : List Word) (ps : Bool) : Group :=
  let g := g.land q.lane q.dst ws
  match instrLdest a.instr with
  | none => g
  | some d =>
    let g := if d.ps = 63 then g else g.updLane q.lane fun x => x.setPred d.ps ps
    if instrWaits a.instr then g.leaveWaitv q.lane a.owed d.la q.dst else g

/-- A lane of WAITV whose wait was broken off issues it again instead (R24). -/
def Group.waitGone (g : Group) (i : Instr) (l : Nat) : Bool :=
  instrWaits i && !((g.lane l).hold == .free && match (g.lane l).wait with
    | .waitv 0 _ => true
    | _ => false)

/-- What came of performing some lanes of an access again. -/
structure Redone where
  s : State
  left : List (LaneAcc × AccWait) := []
  bad : List (Nat × Flt) := []

def State.redoLane (r : Redone) (gid : Nat) (a : PendAcc) (q : LaneAcc) (via : List TlbEntry) (who : Who → Who) :
    Redone :=
  match r.s.group? gid with
  | none => r
  | some g =>
    if g.waitGone a.instr q.lane then r
    else
      let (s, m) := r.s.perform a.instr {
        who := who g.who
        gid := gid
        tid := g.tid
        pc := a.pc
        kind := instrAcc a.instr
        a := q
        via := via }
      match m with
      | .done ws ps => { r with s := s.updGroup gid fun g => g.landAcc a q ws ps }
      | .flt f => { r with s := s, bad := r.bad ++ [(q.lane, f)] }
      | .early f => { r with s := s, bad := r.bad ++ [(q.lane, f)] }
      | .wait w q => { r with s := s, left := r.left ++ [(q, w)] }
      | .armed id =>
        let arm := fun (x : Lane) => match x.wait with
          | .waitv _ next => { x with wait := .waitv id next }
          | _ => x
        { r with s := s.updGroup gid fun g => g.updLane q.lane arm }

/-- The lanes of an access that still wait; with none left its result has landed. -/
def Group.putAcc (g : Group) (id : Nat) (left : List (LaneAcc × AccWait)) (bad : List Nat) : Group :=
  let accs := (g.accs.map fun (a : PendAcc) => if a.owed = id then { a with lanes := left } else a).filter
    fun a => !a.lanes.isEmpty
  let cut := fun (o : Owed) =>
    if o.id = id then { o with lanes := o.lanes.filter fun x => !bad.contains x.lane, landed := left.isEmpty } else o
  { g with
    accs := accs
    owed := (g.owed.map cut).filter fun o => !o.spent && !o.lanes.isEmpty }

/-- Perform again the accesses of a group that `sel` picks, in issue order; faults found are late (R347, R348). -/
def State.redo (s : State) (gid : Nat) (sel : PendAcc → LaneAcc → AccWait → Bool) (who : AccWait → Who → Who) : State :=
  match s.group? gid with
  | none => s
  | some g =>
    let s := g.accs.foldl (fun (s : State) a =>
      let r := a.lanes.foldl (fun (r : Redone) q =>
        if sel a q.1 q.2 then State.redoLane r gid a q.1 q.2.via (who q.2) else { r with left := r.left ++ [q] }) { s := s }
      let s := r.s.updGroup gid fun g => g.putAcc a.owed r.left (r.bad.map Prod.fst)
      if r.bad.isEmpty then s else s.raise gid r.bad true false a.pc (encode a.instr) false none) s
    s.updGroup gid fun g => g.unpark.repark

/-- Accesses of a partition that are on their way reach their homes (R147). -/
def State.arrive (s : State) (part : Nat) : State :=
  let away := fun (g : Group) => g.part == part && g.accs.any fun a => a.lanes.any fun q => !q.2.via.isEmpty
  (s.groups.filter away).foldl (fun (s : State) g =>
    s.redo g.gid (fun _ _ w => !w.via.isEmpty) (fun _ w => w)) s

/-! ## LDS and STS (R180) -/

/-- The team's allocation; a handler has none (R302). -/
def State.allocOf (s : State) (g : Group) : Nat :=
  if g.kind.isHandler then 0 else ((s.team? g.tid).map Team.alloc).getD 0

def spAlign (a : Src) (off : BitVec 14) (n : Nat) (x : Issue) (l : Nat) : Option Flt :=
  let o := x.g.spOff l a off
  if o.toNat % n = 0 then none else some { code := cMisaligned, detail := o.setWidth 64 }

/-- SCRATCH_RANGE of `[o, o + n)` (R336). -/
def State.spFlt (s : State) (g : Group) (o n : Nat) : Option Flt :=
  if o + n ≤ s.allocOf g then none else some { code := cScratch, detail := BitVec.ofNat 64 o }

def State.spRange (s : State) (a : Src) (off : BitVec 14) (n : Nat) (x : Issue) (l : Nat) : Option Flt :=
  s.spFlt x.g (x.g.spOff l a off).toNat n

/-- The first absent line that a lane touches parks the group (R134). -/
def State.absentFor (s : State) (x : Issue) (a : Src) (off : BitVec 14) (n : Nat) (oks : List Nat) : Option Park :=
  (s.team? x.g.tid).bind fun t =>
    (oks.findSome? fun l => t.absent (x.g.spOff l a off).toNat n).map Park.line

def execLds (o : LdsOps) (s : State) : Result :=
  let n := o.w.bytes
  .next (s.issueAct (.lds o) (spAlign o.a o.off n) (s.spRange o.a o.off n) fun s x oks =>
    match s.team? x.g.tid with
    | none => { s := s }
    | some t =>
      let at' := fun (l : Nat) => (x.g.spOff l o.a o.off).toNat
      { s := s
        halt := s.absentFor x o.a o.off n oks
        out := fun l => outMem (.lds o) (loadWords o.w (t.read (at' l) n)) false
        late := oks.filterMap fun l =>
          if t.poisoned (at' l) n then some (l, { code := cPoison, detail := BitVec.ofNat 64 (at' l + 2 ^ 63), acc := .load })
          else none })

/-- The bytes that an in-flight operation has yet to read hold the store back (R202). -/
def State.lockedFor (s : State) (x : Issue) (a : Src) (off : BitVec 14) (n : Nat) (oks : List Nat) : Option Park :=
  (oks.find? fun l => s.locked x.g.tid (x.g.spOff l a off).toNat n s.fresh).map fun l =>
    .lock (x.g.spOff l a off).toNat n

def execSts (o : StsOps) (s : State) : Result :=
  let n := o.w.bytes
  .next (s.issueAct (.sts o) (spAlign o.a o.off n) (s.spRange o.a o.off n) fun s x oks =>
    let put := fun (t : Team) (l : Nat) =>
      t.write (x.g.spOff l o.a o.off).toNat (storeBytes (x.g.srcWords l o.b (widthRegs n)) n)
    match (s.absentFor x o.a o.off n oks).orElse fun _ => s.lockedFor x o.a o.off n oks with
    | some p => { s := s, halt := some p }
    | none => { s := s.updTeam x.g.tid fun t => oks.foldl put t })

end Sys2Proof.Machine
end

