-- ==== Sys2Proof/Machine/Engine.lean ====
section
/-!
DEFINITION. The copy engine (R190 to R207): issuing CPY, GATH, STA, COLL, WAITQ, PSET and PCLR with their checks (R329),
and carrying out the operations that were issued: reading boxes, rows, blocks and staging regions, writing them,
combining collectives.
-/
namespace Sys2Proof.Machine

/-! ## Records and blocks read at issue (R196, R232) -/

/-- What reading a record in memory comes to: its bytes, a fault found after the walk (late, R335), or a wait. -/
inductive RecRead where
  | ok (bs : List Byte)
  | late (f : Flt)
  | park (p : Park)
  deriving DecidableEq, Repr

/-- The group that moves, as it was parked before this issue: the answer to its page request (R341). -/
def State.curPark (s : State) : Park := ((s.group? s.cur).map Group.park).getD .none

/-- The denial that an answered page request leaves. -/
def Park.deny : Park → Option (Nat × Option Bool × Flt)
  | .answer _ 0 _ => Option.none
  | .answer vp code detail => some (vp, some false, { code := code, detail := detail })
  | _ => Option.none

/-- The page request has been answered with Success (R340). -/
def Park.after : Park → Option Nat
  | .answer vp 0 _ => some vp
  | _ => Option.none

/-- Read a record as a weak load at device scope by the issuing lane (R196), after the group's earlier accesses to its bytes
(R253). -/
def State.readRecord (s : State) (x : Issue) (ans : Park) (va : DWord) (n : Nat) : State × RecRead :=
  match s.meetsRunning x.g [(va, n)] with
  | some id => (s, .park (.owed id))
  | none =>
  let w := { x.g.who with deny := ans.deny, after := ans.after }
  let bad := fun (f : Flt) => RecRead.late { f with faddr := va, acc := .load }
  let vp := transBits va / 4096
  match s.reach w needR va with
  | (s, .flt f) => (s, bad f)
  | (s, .ats r) => (s, .park (.xlate vp (some (r, w.afterAt va))))
  | (s, .missing) =>
    match s.absentFlt w va with
    | some f => (s, bad f)
    | none => (s.requestPage w.part w.ctx vp false, .park (.xlate vp none))
  | (s, .ok e pa) =>
    match s.placeOf w.part e pa with
    | .aperture desc =>
      match s.apOpen (some x.g) w.part desc false with
      | (s, .error f) => (s, bad f)
      | (s, .ok d) => (s, .ok (s.apRead w.part d (apAddr va) n))
    | pl =>
      match reachOf pl pa va n with
      | none => (s, bad (fltNoPlace e))
      | some r =>
        let near := s.allNear w.core r.key r.n (r.near .relaxed .cluster)
        match (s.refuseNow w .load needR near (e, r)).orElse fun _ =>
            s.placeFlt w.part w.core r true (r.near .relaxed .cluster) true with
        | some f => (s, bad f)
        | none =>
          let (s, bs) := s.loadAt w.part w.core r .relaxed .cluster .normal
          (if near then s else s.noteBound w.core (e, r), .ok bs)

/-! ## Common parts of an issue -/

/-- One fault stops the operation for every lane taking part (R296). -/
def stopAll (s : State) (x : Issue) (f : Flt) : Acted := { s := s, early := x.ts.map fun l => (l, f) }
def lateAll (s : State) (x : Issue) (f : Flt) : Acted := { s := s, late := x.ts.map fun l => (l, f) }
def haltAt (s : State) (p : Park) : Acted := { s := s, halt := some p }

/-- The class counter stands at 63 (R190). -/
def Issue.full (x : Issue) (c : QClass) : Bool := decide (63 ≤ x.g.qcnt.get c)

/-- A new operation of the group. -/
def State.newOp (s : State) (x : Issue) (i : Instr) (c : Option QClass) (k : OpKind) : State × AOp :=
  let (s, id) := s.take
  (s, {
    id := id
    gid := x.g.gid
    tid := x.g.tid
    sid := ((s.team? x.g.tid).map Team.sid).getD 0
    uid := ((s.spanOf x.g).map Span.uid).getD 0
    core := x.g.core
    cls := c
    pc := x.ia
    instr := i
    lanes := x.tmask
    kind := k })

/-- Ranks of a mask that the span has. -/
def State.ranksIn (s : State) (sid : Nat) (m : BitVec 4) : List Nat :=
  (ranksOf m).filter fun r => (s.rankTeam sid r).isSome

/-- The barriers that a reference names, one for each receiving rank (R199). -/
def State.barRefs (s : State) (t : Team) (bar : BarRef) (ranks : List Nat) : List (Nat × Option BarPlace) :=
  match bar with
  | .none => []
  | .team b => ranks.map fun r => (r, (s.rankTeam t.sid r).bind fun tr => s.barPlace tr false (16 * b.toNat))
  | .span b => ranks.map fun r => (r, s.barPlace t true (16 * b.toNat))

/-- The reference as a handle without its incarnation (R243). -/
def BarRef.handle : BarRef → Nat
  | .none => 0
  | .team b => b.toNat
  | .span b => b.toNat + 2 ^ 18

/-- SCRATCH_RANGE of a barrier reference (R329). -/
def State.refRange (s : State) (t : Team) (bar : BarRef) (ranks : List Nat) : Option Flt :=
  if (s.barRefs t bar ranks).any fun p => p.2.isNone then
    some { code := cScratch, detail := BitVec.ofNat 64 (16 * (BarRef.handle bar % 2 ^ 18)) }
  else none

/-- BAR_BUSY of a barrier reference (R329). -/
def State.refBusy (s : State) (t : Team) (bar : BarRef) (ranks : List Nat) : Option Flt :=
  if (s.barRefs t bar ranks).any fun p => match p.2 with
      | some q => !s.barRoom q
      | none => false then
    some { code := cBarBusy, detail := BitVec.ofNat 64 (BarRef.handle bar) }
  else none

/-- Book a delivery to each receiving rank (R199). -/
def State.book (s : State) (t : Team) (bar : BarRef) (ranks : List Nat) (gid : Nat) : State × List Booking :=
  (s.barRefs t bar ranks).foldl (fun (r : State × List Booking) p =>
    match p.2 with
    | none => r
    | some q =>
      let s := r.1.barOpen q
      let inc := ((s.team? q.tid).map fun t => (t.bar q.off).inc).getD 0
      (s, r.2 ++ [{ rank := p.1, obj := p.1, off := q.off, span := q.span, inc := inc, phase := s.workPhase q gid }]))
    (s, [])

/-- Room in the tile reserve (R210). -/
def State.tileRoom (s : State) (sid : Nat) : Bool :=
  match s.span? sid with
  | some x => decide (s.tilesUsed x < x.reserve)
  | none => false

/-- A handler has no name space (R401). -/
def nameFlt (g : Group) (w : Word) : Option Flt :=
  if g.kind.isHandler || w.toNat / 2 ^ 12 != 0 then some { code := cTileName, detail := w.setWidth 64 } else none

def State.redefFlt (s : State) (sid : Nat) (w : Word) : Option Flt :=
  match s.span? sid with
  | some x => if (x.tile w.toNat).st = .undef then none else some { code := cTileRedefine, detail := w.setWidth 64 }
  | none => none

/-- The first fault of a list. -/
def firstOf (fs : List (Option Flt)) : Option Flt := fs.findSome? id

/-! ## CPY and GATH at issue (R197 to R201, R329) -/

/-- The destination of a form. -/
inductive CpyForm where
  | sp
  | tile
  | mc (ranks : BitVec 4)
  deriving DecidableEq, Repr

def CpyForm.isTile : CpyForm → Bool
  | .tile => true
  | _ => false

/-- Receiving ranks: the issuing team's own but for a multicast. -/
def CpyForm.mask (f : CpyForm) (t : Team) : BitVec 4 :=
  match f with
  | .mc m => m
  | _ => 1#4 <<< t.rank

/-- MISALIGNED (R326): of two misaligned operands the record's address is reported (log entry 50). -/
def recAlign (d : Reg) (a : Src) (tile : Bool) (x : Issue) (_ : Nat) : Option Flt :=
  let ra := x.g.src64 x.lead a
  let dst := x.g.reg x.lead d
  if ra.toNat % 64 != 0 then some { code := cMisaligned, faddr := ra, detail := ra, acc := .load }
  else if !tile && dst.toNat % 16 != 0 then some { code := cMisaligned, detail := dst.setWidth 64 }
  else none

/-- Scratchpad bytes up to `hi` beyond a receiving team's allocation (R329). -/
def State.recRange (s : State) (sid : Nat) (ranks : List Nat) (dst hi : Nat) : Option Flt :=
  if ranks.any fun r => ((s.rankTeam sid r).map fun t => decide (t.alloc < hi)).getD false then
    some { code := cScratch, detail := BitVec.ofNat 64 dst }
  else none

/-- Step 3 of R296: the record's address, the destination's offset, the barrier reference. -/
def State.recForm (s : State) (d : Reg) (a : Src) (f : CpyForm) (bar : BarRef) (x : Issue) (_ : Nat) : Option Flt :=
  let ra := x.g.src64 x.lead a
  if !canonical ra then some { code := cNoncanonical, faddr := ra, acc := .load }
  else
    firstOf [
      if f.isTile then none
      else if x.g.kind.isHandler then s.spFlt x.g (x.g.reg x.lead d).toNat 1
      else (s.team? x.g.tid).bind fun t =>
        s.recRange t.sid (s.ranksIn t.sid (f.mask t)) (x.g.reg x.lead d).toNat ((x.g.reg x.lead d).toNat + 1),
      if x.g.kind.isHandler then
        (if bar = .none then none
        else some { code := cScratch, detail := BitVec.ofNat 64 (16 * (BarRef.handle bar % 2 ^ 18)) })
      else (s.team? x.g.tid).bind fun t => s.refRange t bar (s.ranksIn t.sid (f.mask t))]

/-- Steps 5 and 6 of R296, then the operation is issued. `hi`: the end of the bytes written. -/
def State.copyIssue (s : State) (x : Issue) (i : Instr) (c : QClass) (f : CpyForm) (bar : BarRef) (dst : Word)
    (valid : Bool) (ctrl hi : Nat) (kind : CpyDst → OpKind) : Acted :=
  let layout := if valid then none else some { code := cLayout, detail := BitVec.ofNat 64 ctrl }
  match s.team? x.g.tid with
  | none =>
    match firstOf [layout, if f.isTile then nameFlt x.g dst else none] with
    | some f => stopAll s x f
    | none => { s := s }
  | some t =>
    let m := f.mask t
    let ranks := s.ranksIn t.sid m
    let count := ((s.span? t.sid).map Span.count).getD 0
    let flt := firstOf [
      layout,
      if f.isTile then nameFlt x.g dst else none,
      if m.toNat / 2 ^ count != 0 then some { code := cMcast, detail := m.setWidth 64 } else none,
      s.refBusy t bar ranks,
      if f.isTile then s.redefFlt t.sid dst else none,
      if f.isTile then none else s.recRange t.sid ranks dst.toNat hi]
    match flt with
    | some f => stopAll s x f
    | none =>
      let gen := ((s.span? t.sid).map fun y => (y.tile dst.toNat).gen).getD 0
      let place := match f with
        | .sp => CpyDst.sp dst.toNat
        | .tile => .tile dst.toNat gen
        | .mc m => .mc dst.toNat m
      let room := s.tileRoom t.sid
      let (s, o) := s.newOp x i (some c) (kind place)
      let (s, books) := s.book t bar ranks x.g.gid
      let o := { o with books := books, begun := !f.isTile || room }
      let s := if f.isTile then s.tilePend t.sid dst.toNat room else s
      { s := (s.addOp o).linesIn o }

def State.cpyAct (ans : Park) (i : Instr) (d : Reg) (a : Src) (b : Reg) (f : CpyForm) (bar : BarRef)
    (s : State) (x : Issue) (_ : List Nat) : Acted :=
  if x.full .copy then haltAt s (.full .copy)
  else
    match s.readRecord x ans (x.g.src64 x.lead a) 64 with
    | (s, .late e) => lateAll s x e
    | (s, .park p) => haltAt s p
    | (s, .ok r) =>
      let c := x.g.regs x.lead b 5
      let dst := x.g.reg x.lead d
      let ok := Lay.valid r (c.headD 0) && (!f.isTile || Lay.size r == 8192)
      s.copyIssue x i .copy f bar dst ok (Lay.ctrl r) (dst.toNat + Lay.size r) fun place => .cpy r c place

def State.issueCpy (s : State) (i : Instr) (d : Reg) (a : Src) (b : Reg) (f : CpyForm) (bar : BarRef) : State :=
  s.issueAct i (recAlign d a f.isTile) (s.recForm d a f bar) (State.cpyAct s.curPark i d a b f bar)

def execCpySp (o : CpyOps) (s : State) : Result := .next (s.issueCpy (.cpySp o) o.d o.a o.b .sp o.bar)
def execCpyTile (o : CpyOps) (s : State) : Result := .next (s.issueCpy (.cpyTile o) o.d o.a o.b .tile o.bar)
def execCpyMc (o : CpyMcOps) (s : State) : Result := .next (s.issueCpy (.cpyMc o) o.d o.a o.b (.mc o.ranks) o.bar)

/-- The end of the rows that a gather writes (R201). -/
def gathEnd (r : Lay) (dst : Nat) (lanes : List Nat) : Nat :=
  let rr := Lay.box0 r * Lay.esz r
  (lanes.map fun l => (List.range (rr / 16)).map fun u => dst + swz (Lay.swzCode r) (l * rr + 16 * u) + 16).flatten.foldl
    (fun m e => if m < e then e else m) dst

def State.gathAct (ans : Park) (i : Instr) (o : GathOps) (f : CpyForm) (s : State) (x : Issue) (_ : List Nat) : Acted :=
  if x.full .gather then haltAt s (.full .gather)
  else
    match s.readRecord x ans (x.g.src64 x.lead o.a) 64 with
    | (s, .late e) => lateAll s x e
    | (s, .park p) => haltAt s p
    | (s, .ok r) =>
      let dst := x.g.reg x.lead o.d
      let rows := x.ts.map fun l => (l, x.g.reg l o.b)
      s.copyIssue x i .gather f o.bar dst (Lay.gathValid r f.isTile) (Lay.ctrl r) (gathEnd r dst.toNat x.ts)
        fun place => .gath r rows place

def State.issueGath (s : State) (i : Instr) (o : GathOps) (f : CpyForm) : State :=
  s.issueAct i (recAlign o.d o.a f.isTile) (s.recForm o.d o.a f o.bar) (State.gathAct s.curPark i o f)

def execGathSp (o : GathOps) (s : State) : Result := .next (s.issueGath (.gathSp o) o .sp)
def execGathTile (o : GathOps) (s : State) : Result := .next (s.issueGath (.gathTile o) o .tile)

/-! ## STA and COLL at issue (R202 to R205, R329) -/

/-- MISALIGNED of STA (R326): of two misaligned operands the address is reported (log entry 50). -/
def staAlign (o : StaOps) (x : Issue) (_ : Nat) : Option Flt :=
  let va := x.g.src64 x.lead o.a
  let src := x.g.src x.lead o.b
  if va.toNat % 16 != 0 then some { code := cMisaligned, faddr := va, detail := va, acc := .engWrite }
  else if src.toNat % 16 != 0 then some { code := cMisaligned, detail := src.setWidth 64 }
  else none

def State.staForm (s : State) (o : StaOps) (x : Issue) (_ : Nat) : Option Flt :=
  let va := x.g.src64 x.lead o.a
  if !canonical va then some { code := cNoncanonical, faddr := va, acc := .engWrite }
  else s.spFlt x.g (x.g.src x.lead o.b).toNat (16 * o.len.toNat)

def execSta (o : StaOps) (s : State) : Result :=
  .next (s.issueAct (.sta o) (staAlign o) (s.staForm o) fun s x _ =>
    if x.full .copy then haltAt s (.full .copy)
    else
      let k := OpKind.sta (x.g.src64 x.lead o.a) (x.g.src x.lead o.b).toNat (16 * o.len.toNat) o.hint
      let (s, op) := s.newOp x (.sta o) (some .copy) k
      { s := s.addOp op })

/-- MISALIGNED of COLL (R326): of two misaligned offsets the destination is reported (log entry 50). -/
def collAlign (d : Reg) (a : Src) (x : Issue) (_ : Nat) : Option Flt :=
  let src := x.g.src x.lead a
  let dst := x.g.reg x.lead d
  if dst.toNat % 16 != 0 then some { code := cMisaligned, detail := dst.setWidth 64 }
  else if src.toNat % 16 != 0 then some { code := cMisaligned, detail := src.setWidth 64 }
  else none

def State.collForm (s : State) (d : Reg) (a : Src) (len : Nat) (x : Issue) (_ : Nat) : Option Flt :=
  firstOf [s.spFlt x.g (x.g.reg x.lead d).toNat len, s.spFlt x.g (x.g.src x.lead a).toNat len]

def State.issueColl (s : State) (i : Instr) (d : Reg) (a : Src) (len : Nat) (kind : CollKind) : State :=
  s.issueAct i (collAlign d a) (s.collForm d a len) fun s x _ =>
    match s.team? x.g.tid with
    | none => { s := s }
    | some t =>
      let count := ((s.span? t.sid).map Span.count).getD 0
      match kind with
      | .bcast root =>
        if count ≤ root then stopAll s x { code := cMcast, detail := BitVec.ofNat 64 (2 ^ root) }
        else if x.full .coll then haltAt s (.full .coll)
        else
          let (s, op) := s.newOp x i (some .coll) (.coll t.colls kind (x.g.src x.lead a).toNat (x.g.reg x.lead d).toNat len)
          { s := ((s.updTeam t.tid fun t => { t with colls := t.colls + 1 }).addOp op).linesIn op }
      | _ =>
        if x.full .coll then haltAt s (.full .coll)
        else
          let (s, op) := s.newOp x i (some .coll) (.coll t.colls kind (x.g.src x.lead a).toNat (x.g.reg x.lead d).toNat len)
          { s := ((s.updTeam t.tid fun t => { t with colls := t.colls + 1 }).addOp op).linesIn op }

def execCollAdd (o : CollOps) (s : State) : Result :=
  .next (s.issueColl (.collAdd o) o.d o.a (16 * o.len.toNat) (.add o.ty))
def execCollMax (o : CollOps) (s : State) : Result :=
  .next (s.issueColl (.collMax o) o.d o.a (16 * o.len.toNat) (.max o.ty))
def execCollBcast (o : CollBOps) (s : State) : Result :=
  .next (s.issueColl (.collBcast o) o.d o.a (16 * o.len.toNat) (.bcast o.root.toNat))

/-! ## WAITQ, PSET, PCLR (R206, R207) -/

def execWaitq (o : WaitqOps) (s : State) : Result :=
  .next (s.issueAct (.waitq o) noChk noChk fun s x oks =>
    let more := decide (o.n.toNat < x.g.qcnt.get o.cls)
    { s := s, waits := fun l => if more && oks.contains l then some (.waitq o.cls o.n.toNat x.next) else none })

/-- A range beyond the allocation (R329); an empty one selects no line. -/
def State.prsRange (s : State) (o : PrsOps) (x : Issue) (l : Nat) : Option Flt :=
  if x.g.src l o.b = 0 then none else s.spFlt x.g (x.g.src l o.a).toNat (x.g.src l o.b).toNat

def State.issuePrs (s : State) (i : Instr) (o : PrsOps) (held : Bool) : State :=
  s.issueAct i noChk (s.prsRange o) fun s x oks =>
    let act := fun (t : Team) (l : Nat) => t.hold (linesOf (x.g.src l o.a).toNat (x.g.src l o.b).toNat) held
    { s := s.updTeam x.g.tid fun t => oks.foldl act t }

def execPset (o : PrsOps) (s : State) : Result := .next (s.issuePrs (.pset o) o false)
def execPclr (o : PrsOps) (s : State) : Result := .next (s.issuePrs (.pclr o) o true)

/-! ## Carrying operations out -/

/-- For whom an operation's memory accesses translate: its grid, as an ordinary group (R162, R343). -/
def State.opWho (s : State) (o : AOp) : Option Who :=
  (s.grid? o.uid).map fun g =>
    let page := if o.wait.any AccWait.after then some (transBits o.va / 4096) else none
    { part := g.part, ctx := g.ctx, core := o.core, after := page }

/-- What an engine's access of one unit comes to. `lost`: the unit's link failed (R360). -/
inductive EngRes where
  | ok (bs : List Byte)
  | lost (f : Flt)
  | wait (w : AccWait)
  | flt (f : Flt)
  deriving DecidableEq, Repr

/-- A request that fails on its link makes the unit lost (R360), but stops a staging region (R343); any other fault stops the
operation. -/
def engFlt (o : AOp) (f : Flt) : EngRes :=
  if (f.code = cLinkDown ∨ f.code = cTimeout) && !(o.kind matches .stage _ _ _ _) then .lost f else .flt f

/-- Translate an engine's unit, then go on with its place. -/
def State.engAt (s : State) (o : AOp) (w : Who) (n : Need) (va : DWord) (k : State → TlbEntry → Nat → State × EngRes) :
    State × EngRes :=
  if !canonical va then (s, .flt { code := cNoncanonical })
  else
    match s.reach w n va with
    | (s, .ok e pa) => k s e pa
    | (s, .flt f) => (s, engFlt o f)
    | (s, .ats r) => (s, .wait (.ats r (w.afterAt va)))
    | (s, .missing) =>
      let vp := transBits va / 4096
      match s.absentFlt w va with
      | some f => (s, .flt f)
      | none => (s.requestPage w.part w.ctx vp n.w, .wait (s.pageOrRoom w.part w.ctx vp n.w))

/-- Read a unit of memory for an engine, as a weak load at device scope (R196). -/
def State.engRead (s : State) (o : AOp) (w : Who) (va : DWord) (n : Nat) : State × EngRes :=
  s.engAt o w needR va fun s e pa =>
    match s.placeOf w.part e pa with
    | .aperture desc =>
      match s.apOpen (s.group? o.gid) w.part desc false with
      | (s, .error f) => (s, engFlt o f)
      | (s, .ok d) => (s, .ok (s.apRead w.part d (apAddr va) n))
    | pl =>
      match reachOf pl pa va n with
      | none => (s, .flt (fltNoPlace e))
      | some r =>
        let near := s.allNear w.core r.key r.n (r.near .relaxed .cluster)
        match (s.refuseNow w .engRead needR near (e, r)).orElse fun _ =>
            s.placeFlt w.part w.core r true (r.near .relaxed .cluster) true with
        | some f => (s, engFlt o f)
        | none =>
          let (s, bs) := s.loadAt w.part w.core r .relaxed .cluster .normal
          (if near then s else s.noteBound w.core (e, r), .ok bs)

/-- Write a unit of memory for an engine: in the issuing cluster's cache or at its home, with its hint, or posted to the host
(R202, R265). -/
def State.engWrite (s : State) (o : AOp) (w : Who) (h : Hint) (va : DWord) (bs : List Byte) : State × EngRes :=
  s.engAt o w needW va fun s e pa =>
    match s.placeOf w.part e pa with
    | .aperture desc =>
      match s.apOpen (s.group? o.gid) w.part desc true with
      | (s, .error f) => (s, engFlt o f)
      | (s, .ok d) => (s.apWrite w.part d (apAddr va) bs, .ok [])
    | pl =>
      match reachOf pl pa va bs.length with
      | none => (s, .flt (fltNoPlace e))
      | some r =>
        let near := !isHost r.key && s.storeNear w.core r .relaxed .cluster h
        match (s.refuseNow w .engWrite needW near (e, r)).orElse fun _ =>
            s.placeFlt w.part w.core r false (some false) (!r.cached || isHost r.key) (isHost r.key) with
        | some f => (s, engFlt o f)
        | none =>
          let s := if isHost r.key then s.postBytes w.core r bs else s.storeAt w.part w.core r .relaxed .cluster h bs
          (if near then s else s.noteBound w.core (e, r), .ok [])

/-- The progress of an operation's reads: the bytes, a link failure met, and what stopped them, with its address. -/
structure EngRun where
  s : State
  bs : List Byte := []
  lost : Option Flt := none
  stop : Option (DWord × EngRes) := none

/-- Read elements in ascending order until one stops the operation. -/
def State.engElems (o : AOp) (w : Who) (n : Nat) : List Elem → EngRun → EngRun
  | [], r => r
  | e :: es, r =>
    match e.va with
    | none => State.engElems o w n es { r with bs := r.bs ++ List.replicate n 0 }
    | some va =>
      match r.s.engRead o w va n with
      | (s, .ok bs) => State.engElems o w n es { r with s := s, bs := r.bs ++ bs }
      | (s, .lost f) =>
        let f := { f with faddr := va, acc := .engRead }
        State.engElems o w n es { r with s := s, bs := r.bs ++ List.replicate n 0, lost := r.lost.orElse fun _ => some f }
      | (s, x) => { r with s := s, stop := some (va, x) }

/-- A staging region's fault freezes the lowest-numbered group of the team that has a live lane (R343). -/
def State.stageFault (s : State) (o : AOp) (f : Flt) : State :=
  match (s.groups.filter fun g => g.tid == o.tid && !g.kind.isHandler && !g.liveLanes.isEmpty).map Group.grpix |> minNat with
  | none => s.abandonOp o.id
  | some k =>
    match s.groups.find? fun g => g.tid == o.tid && !g.kind.isHandler && g.grpix == k with
    | none => s
    | some g =>
      if g.liveLanes.all fun l => (g.lane l).hold == .free then
        s.raise g.gid (g.liveLanes.map fun l => (l, f)) true false o.pc [] false (some o.id)
      else s

/-- Stop an operation at an address: it waits, or it meets a fault (R196, R297). -/
def State.engStop (s : State) (o : AOp) (va : DWord) (write : Bool) (x : EngRes) : State :=
  match x with
  | .wait w => s.updOp o.id fun y => { y with wait := some w, va := va }
  | .flt f =>
    let f := { f with faddr := va, acc := if write then .engWrite else .engRead }
    let s := s.updOp o.id fun y => { y with wait := none, va := va }
    match o.kind with
    | .stage _ _ _ _ => s.stageFault o f
    | _ => s.opFault o f
  | _ => s

/-- A completed operation whose units met a failed link: its lanes freeze late, and replay issues it again (R360). -/
def State.lostLate (s : State) (o : AOp) (f : Option Flt) : State :=
  match f with
  | none => s
  | some f =>
    let ls := s.opLanes o
    if ls.isEmpty then s.noteEngflt o
    else s.raise o.gid (ls.map fun l => (l, f)) true (instrCollective o.instr) o.pc (encode o.instr) false none

/-- The page or translation that held the operation up has been answered. -/
def State.waitOver (s : State) (part ctx : Nat) : AccWait → Bool
  | .page vp w => ((s.part part).pageReq? ctx vp w).isNone
  | .room vp w => s.canRequest part ctx vp w
  | _ => false

/-- The operation may go on: not complete, not frozen, begun, its span not in the cellar, nothing holds it up. -/
def State.opReady (s : State) (o : AOp) : Bool :=
  let away := match s.span? o.sid with
    | some x => x.home == .cellar
    | none => false
  !o.done && o.held.isNone && o.begun && !away && !s.rewindowing (s.partOfCore o.core) && match o.wait, s.opWho o with
    | none, _ => true
    | some w, some who => s.waitOver who.part who.ctx w
    | some _, none => false

/-- No atomic that a lane of its issue sent to a host's completer before it is still on its way: an engine's reads of memory observe
the issuing lane's earlier accesses (R263). -/
def State.readsFree (s : State) (o : AOp) : Bool :=
  !(s.parts.any fun p => p.hostAtomics.any fun a => a.gid == o.gid && decide (a.id < o.id) && hasLane o.lanes a.lane)

/-- Ranges of a scratchpad that share a byte. -/
def bytesMeet (p q : Nat × Nat × Nat) : Bool := p.1 == q.1 && meets p.2.1 p.2.2 q.2.1 q.2.2

/-- The scratchpad bytes that an operation writes may be written now: no older operation of its engine has still to write one
of them, frozen ones included (R135, R200), and none has yet to read one (R202). -/
def State.dstFree (s : State) (o : AOp) : Bool :=
  let mine := s.opBytes o
  let clash := fun (x : AOp) =>
    x.id < o.id && !x.done && x.core == o.core && (s.opBytes x).any fun p => mine.any (bytesMeet p)
  !(s.ops.any clash) && mine.all fun p => !s.locked p.1 p.2.1 p.2.2 o.id

/-- A scratchpad source may be read: no line of it is held or still owed to an older operation (R134, R202). -/
def State.srcReady (s : State) (o : AOp) : Bool :=
  match o.source, s.team? o.tid with
  | some (src, len), some t =>
    (linesOf src len).all fun ln => !(lineState t ln).held &&
      !(s.ops.any fun x => x.id < o.id && !x.done && (s.opLines x).any fun p => p.1 == o.tid && p.2.contains ln)
  | _, _ => false

/-- Put the 16-byte units of a box at their swizzled places (R89). -/
def putUnits (t : Team) (c dst : Nat) (o : Nat) (bs : List Byte) : Nat → Team
  | 0 => t
  | n + 1 => putUnits (t.write (dst + swz c o) (bs.take 16)) c dst (o + 16) (bs.drop 16) n

/-- A delivery into rank r: that of a multicast is discarded where the team has finished, any other is written and credited, also
after its group has gone (R112, R198, R199). -/
def State.deliver (s : State) (o : AOp) (r : Nat) (put : Team → Team) (n : Nat) (mc : Bool) : State :=
  match s.rankTeam o.sid r with
  | none => s
  | some t =>
    if t.finished && mc then s.updSpan o.sid fun x => { x with mcdisc := true }
    else (s.updTeam t.tid put).creditAll o (fun k => k == r) n

/-- The tile image of a box: byte o of the box at swz(o). -/
def tileImage (c : Nat) (bs : List Byte) : List (Nat × Byte) :=
  (putUnits { tid := 0, sid := 0, rank := 0, t := 0, core := 0, alloc := 0, accSize := 0, barMax := 0 } c 0 0 bs
    (bs.length / 16)).scratch

/-- The rank of an operation's own team. -/
def State.ownRank (s : State) (o : AOp) : Nat := ((s.team? o.tid).map Team.rank).getD 0

/-- A CPY whose box has been read is delivered and completes (R198). -/
def State.cpyDone (s : State) (o : AOp) (lay : Lay) (dst : CpyDst) (bs : List Byte) : State :=
  let c := Lay.swzCode lay
  let n := bs.length
  let put := fun (off : Nat) (t : Team) => putUnits t c off 0 bs (n / 16)
  let s := match dst with
    | .sp off => s.deliver o (s.ownRank o) (put off) n false
    | .mc off m => (ranksOf m).foldl (fun s r => s.deliver o r (put off) n true) s
    | .tile name _ => (s.tileDefine o.sid name (tileImage c bs)).creditAll o (fun _ => true) 8192
  (s.linesOut o).opDone o.id

/-- A GATH whose rows have been read (R201). -/
def State.gathDone (s : State) (o : AOp) (lay : Lay) (rows : List Nat) (dst : CpyDst) (bs : List Byte) : State :=
  let c := Lay.swzCode lay
  let rr := Lay.box0 lay * Lay.esz lay
  let put := fun (off : Nat) (t : Team) =>
    (imap (fun j l => (j, l)) 0 rows).foldl (fun t (p : Nat × Nat) =>
      putUnits t c off (p.2 * rr) ((bs.drop (p.1 * rr)).take rr) (rr / 16)) t
  let none' : Team := { tid := 0, sid := 0, rank := 0, t := 0, core := 0, alloc := 0, accSize := 0, barMax := 0 }
  let s := match dst with
    | .sp off => s.deliver o (s.ownRank o) (put off) bs.length false
    | .mc _ _ => s
    | .tile name _ => (s.tileDefine o.sid name (put 0 none').scratch).creditAll o (fun _ => true) 8192
  (s.linesOut o).opDone o.id

/-- Run the reads of an operation, then `fin` with the bytes. -/
def State.engRun (s : State) (o : AOp) (n : Nat) (es : List Elem) (fin : State → List Byte → State) : State :=
  match s.opWho o with
  | none => s
  | some w =>
    let s := s.updOp o.id fun y => { y with wait := none }
    let r := State.engElems o w n es { s := s }
    match r.stop with
    | some (va, x) => r.s.engStop o va false x
    | none => (fin r.s r.bs).lostLate o r.lost

/-- A copy operation that may complete does (R196 to R198). -/
def State.runCopy (s : State) (id : Nat) : State :=
  match s.op? id with
  | some o =>
    match o.kind with
    | .cpy lay c dst =>
      if s.opReady o && s.readsFree o && s.dstFree o && s.nameFree o then
        s.engRun o (Lay.esz lay) (Lay.elems lay c) fun s bs => s.cpyDone o lay dst bs
      else s
    | _ => s
  | none => s

def State.runGath (s : State) (id : Nat) : State :=
  match s.op? id with
  | some o =>
    match o.kind with
    | .gath lay rows dst =>
      if s.opReady o && s.readsFree o && s.dstFree o && s.nameFree o then
        s.engRun o (Lay.esz lay) (rows.map fun p => Lay.gathRow lay p.1 p.2).flatten
          fun s bs => s.gathDone o lay (rows.map Prod.fst) dst bs
      else s
    | _ => s
  | none => s

/-- A staging region is read and written; its lines become present (R133, R135). -/
def State.runStage (s : State) (id : Nat) : State :=
  match s.op? id with
  | some o =>
    match o.kind with
    | .stage _ va dst len =>
      if s.opReady o && s.dstFree o then
        let es := (List.range (len / 16)).map fun k => ({ o := 16 * k, va := some (va + BitVec.ofNat 64 (16 * k)) } : Elem)
        s.engRun o 16 es fun s bs =>
          (((s.updTeam o.tid fun t => putUnits t 0 dst 0 bs (len / 16)).linesOut o).opDone o.id)
      else s
    | _ => s
  | none => s

/-- An engine reads its scratchpad source, which unlocks it (R202); poison stops the operation (R358). -/
def State.readSource (s : State) (id : Nat) : State :=
  match s.op? id with
  | some o =>
    match o.source, s.team? o.tid with
    | some (src, len), some t =>
      if s.opReady o && s.srcReady o then
        if t.poisoned src len then
          let u := (t.poison.find? fun u => u * 16 < src + len && src < u * 16 + 16).getD 0
          s.opFault o { code := cPoison, detail := BitVec.ofNat 64 (u * 16 + 2 ^ 63), acc := .engRead }
        else s.updOp id fun y => { y with data := t.read src len, srcRead := true }
      else s
    | _, _ => s
  | none => s

/-- The progress of an STA: bytes written, a link failure, what stopped it. -/
structure StaRun where
  s : State
  pos : Nat
  lost : Option Flt := none
  stop : Option (DWord × EngRes) := none

/-- Write the 16-byte units from `pos` on, ascending (R202). -/
def State.staUnits (o : AOp) (w : Who) (h : Hint) (va : DWord) : Nat → List Byte → StaRun → StaRun
  | 0, _, r => r
  | n + 1, bs, r =>
    let at' := va + BitVec.ofNat 64 r.pos
    match r.s.engWrite o w h at' (bs.take 16) with
    | (s, .ok _) => State.staUnits o w h va n (bs.drop 16) { r with s := s, pos := r.pos + 16 }
    | (s, .lost f) =>
      let f := { f with faddr := at', acc := .engWrite }
      State.staUnits o w h va n (bs.drop 16) { r with s := s, pos := r.pos + 16, lost := r.lost.orElse fun _ => some f }
    | (s, x) => { r with s := s, stop := some (at', x) }

/-- An STA whose source has been read writes its block (R202). -/
def State.runSta (s : State) (id : Nat) : State :=
  match s.op? id with
  | some o =>
    match o.kind, s.opWho o with
    | .sta va _ len h, some w =>
      if s.opReady o && o.srcRead then
        let s := s.updOp id fun y => { y with wait := none }
        let r := State.staUnits o w h va ((len - o.pos) / 16) (o.data.drop o.pos) { s := s, pos := o.pos }
        let lost := o.lost.orElse fun _ => r.lost
        let s := r.s.updOp id fun y => { y with pos := r.pos, lost := lost }
        match r.stop with
        | some (at', x) => s.engStop o at' true x
        | none => (s.opDone id).lostLate o lost
      else s
    | _, _ => s
  | none => s

/-! ## Collectives (R204, R205, R332) -/

/-- Element j of `w` bytes in a block. -/
def blockElem (bs : List Byte) (w j : Nat) : Nat := leNat ((bs.drop (w * j)).take w)

def collFmt : CollType → FloatFmt × Nat
  | .f32 => (fF32, 4)
  | .bf16 => (fBf16, 2)

/-- The sum of R205. -/
def collSum (f : FloatFmt) (xs : List Nat) : Nat :=
  let vs := xs.map f.value
  if vs.any Fp.isNan || clash vs then f.nan.getD 0
  else match vs.find? Fp.isInf with
    | some x => (f.narrow .rne false x).1
    | none => (f.narrow .rne false (finiteSum vs)).1

/-- The greatest term, −0 below +0 (R205). -/
def collMax (f : FloatFmt) (xs : List Nat) : Nat :=
  if xs.any f.isNan then f.nan.getD 0
  else match xs with
    | [] => 0
    | x :: xs => xs.foldl (fun m y => if f.key m < f.key y then y else m) x

/-- The bytes of a collective's result, from the contributions in rank order, `len` long. -/
def collResult (k : CollKind) (srcs : List (Nat × List Byte)) (len : Nat) : List Byte :=
  match k with
  | .bcast root => ((srcs.find? fun p => p.1 == root).map Prod.snd).getD []
  | .add ty =>
    let (f, w) := collFmt ty
    ((List.range (len / w)).map fun j =>
      leBytes w (collSum f ((srcs.filter fun p => w * j < p.2.length).map fun p => blockElem p.2 w j))).flatten
  | .max ty =>
    let (f, w) := collFmt ty
    ((List.range (len / w)).map fun j =>
      leBytes w (collMax f ((srcs.filter fun p => w * j < p.2.length).map fun p => blockElem p.2 w j))).flatten

/-- A member's COLL operation of number k: its rank, operation, kind, destination and length. -/
structure CollMember where
  rank : Nat
  op : AOp
  kind : CollKind
  dst : Nat
  len : Nat

/-- The members of collective k of a span, by rank. One that issued its COLL and finished before the collective runs
contributes and receives (log entry 47). -/
def State.collMembers (s : State) (sid k : Nat) : List CollMember :=
  let ms := s.ops.filterMap fun o => match o.kind with
    | .coll j kind _ dst len =>
      if o.sid == sid && j == k && !o.done then some { rank := s.ownRank o, op := o, kind := kind, dst := dst, len := len }
      else none
    | _ => none
  ms.foldl (fun acc m => kset CollMember.rank m acc) []

/-- The collective runs: every member has issued, or has finished, and the sources have been read (R205). -/
def State.collReady (s : State) (sid k : Nat) : Bool :=
  let ms := s.collMembers sid k
  !ms.isEmpty && ((s.teams.filter fun t => t.sid == sid).all fun t => t.finished || decide (k < t.colls)) &&
    ms.all fun m => m.op.srcRead && s.opReady m.op && s.dstFree m.op

def State.runColl (s : State) (sid k : Nat) : State :=
  if !s.collReady sid k then s
  else
    let ms := s.collMembers sid k
    match ms with
    | [] => s
    | m0 :: _ =>
      let missing := (s.teams.filter fun t => t.sid == sid).any fun t => t.finished && !(ms.any fun m => m.op.tid == t.tid)
      let differ := ms.any fun m => m.kind != m0.kind || m.len != m0.len
      let s := if missing || differ then s.updSpan sid fun x => { x with collabs := true } else s
      let res := collResult m0.kind (ms.map fun m => (m.rank, m.op.data.take m0.len)) m0.len
      ms.foldl (fun s m =>
        let s := s.updTeam m.op.tid fun t => t.write m.dst (res.take m.len)
        (s.linesOut m.op).opDone m.op.id) s

end Sys2Proof.Machine
end

