-- ==== Sys2Proof/Machine/Granary.lean ====
section
/-!
DEFINITION. The granary (R209 to R219): TDEF, TREAD, TKILL and TQRY, binding and parking, completing definitions and tile
reads, and giving storage to definitions that wait for it.
-/
namespace Sys2Proof.Machine

/-! ## Binding (R213) -/

/-- What binding names comes to: the tiles, or the names that are not defined. -/
inductive Binding where
  | bound (s : State) (ts : List Bound)
  | lacks (names : List Nat)

/-- The tile that a read at `pc` binds to: one it was promised while parked, else the one defined now. -/
def State.bindOne (s : State) (g : Group) (pc : DWord) (sid name : Nat) : Option Bound :=
  match g.bound.find? fun p => p.1 == pc && p.2.name == name with
  | some p => some p.2
  | none => (s.span? sid).bind fun x =>
      let t := x.tile name
      if t.st = .defined then some { name := name, gen := t.gen, bytes := t.bytes, bad := t.bad } else none

/-- Bind every name of a read, or none. -/
def State.bindAll (s : State) (x : Issue) (sid : Nat) (names : List Nat) : Binding :=
  let lacks := names.filter fun n => (s.bindOne x.g x.ia sid n).isNone
  if lacks.isEmpty then
    .bound (s.updGroup x.g.gid fun g => { g with bound := g.bound.filter fun p => p.1 != x.ia })
      (names.filterMap fun n => s.bindOne x.g x.ia sid n)
  else .lacks lacks

/-- The generation of a name. -/
def State.tileGen (s : State) (sid name : Nat) : BitVec 4 := ((s.span? sid).map fun y => (y.tile name).gen).getD 0

/-- The span of an issuing group. -/
def State.sidOf (s : State) (x : Issue) : Nat := ((s.team? x.g.tid).map Team.sid).getD 0

/-! ## TDEF (R217, R330) -/

/-- An offset that is a multiple of 16 (R326). -/
def offAlign (o : Word) : Option Flt :=
  if o.toNat % 16 = 0 then none else some { code := cMisaligned, detail := o.setWidth 64 }

/-- TDEF once its operands are judged: the name becomes pending, or the group parks for storage (R210). -/
def State.tdefAct (s : State) (x : Issue) (i : Instr) (name : Word) (k : Nat → BitVec 4 → OpKind) : Acted :=
  let sid := s.sidOf x
  match firstOf [nameFlt x.g name, s.redefFlt sid name] with
  | some f => stopAll s x f
  | none =>
    if !s.tileRoom sid then haltAt s .reserve
    else
      let n := name.toNat
      let (s, o) := s.newOp x i none (k n (s.tileGen sid n))
      { s := (s.tilePend sid n true).addOp o }

def execTdefSp (o : TileSpOps) (s : State) : Result :=
  let src := fun (x : Issue) => x.g.src x.lead o.a
  .next (s.issueAct (.tdefSp o) (fun x _ => offAlign (src x)) (fun x _ => s.spFlt x.g (src x).toNat 8192) fun s x _ =>
    s.tdefAct x (.tdefSp o) (x.g.reg x.lead o.d) fun n g => .tdefSp n g (src x).toNat)

/-- The tile that 64 names of the lanes taking part make: name r of lane l at bytes 128r + 4l. -/
def tileOfRegs (x : Issue) (run : Reg) : List (Nat × Byte) :=
  x.ts.foldl (fun m l =>
    (imap (fun r w => (r, w)) 0 (x.g.regs l run 64)).foldl (fun m (p : Nat × Word) =>
      bwrite m (128 * p.1 + 4 * l) (leBytes 4 p.2.toNat)) m) []

def execTdefReg (o : TdefRegOps) (s : State) : Result :=
  .next (s.issueAct (.tdefReg o) noChk noChk fun s x _ =>
    s.tdefAct x (.tdefReg o) (x.g.reg x.lead o.d) fun n g => .tdefReg n g (tileOfRegs x (Reg.ofNum o.run.val)))

/-- A definition whose data is complete, once R214 allows it (R209). -/
def State.runTdef (s : State) (id : Nat) : State :=
  match s.op? id with
  | some o =>
    if s.opReady o && s.nameFree o then
      match o.kind with
      | .tdefSp n _ _ => if o.srcRead then (s.tileDefine o.sid n (bpack o.data)).opDone id else s
      | .tdefReg n _ bytes => (s.tileDefine o.sid n bytes).opDone id
      | _ => s
    else s
  | none => s

/-! ## TREAD (R218) -/

def execTreadSp (o : TileSpOps) (s : State) : Result :=
  let dst := fun (x : Issue) => x.g.reg x.lead o.d
  .next (s.issueAct (.treadSp o) (fun x _ => offAlign (dst x)) (fun x _ => s.spFlt x.g (dst x).toNat 8192) fun s x _ =>
    let name := x.g.src x.lead o.a
    match nameFlt x.g name with
    | some f => stopAll s x f
    | none =>
      match s.bindAll x (s.sidOf x) [name.toNat] with
      | .lacks ns => haltAt s (.tiles x.ia ns)
      | .bound s ts =>
        match ts with
        | [] => { s := s }
        | b :: _ =>
          let (s, op) := s.newOp x (.treadSp o) none (.treadSp b (dst x).toNat)
          { s := (s.addOp op).linesIn op })

def execTreadReg (o : TreadRegOps) (s : State) : Result :=
  .next (s.issueAct (.treadReg o) noChk noChk fun s x _ =>
    let name := x.g.src x.lead o.a
    match nameFlt x.g name with
    | some f => stopAll s x f
    | none =>
      match s.bindAll x (s.sidOf x) [name.toNat] with
      | .lacks ns => haltAt s (.tiles x.ia ns)
      | .bound s ts =>
        match ts with
        | [] => { s := s }
        | b :: _ =>
          let (s, op) := s.newOp x (.treadReg o) none (.treadReg b s.fresh)
          { s := s.addOp op, owes := true, id := op.id })

/-- A result lands in the registers fixed at issue (R63): `ws` gives each lane its words. -/
def Group.landOwed (g : Group) (id : Nat) (ws : Nat → List Word) : Group :=
  match g.owed.find? fun o => o.id == id with
  | none => g
  | some o =>
    let g := o.lanes.foldl (fun (g : Group) y => g.land y.lane y.ids (ws y.lane)) g
    { g with owed := (g.owed.map fun x => if x.id = id then { x with landed := true } else x).filter fun x => !x.spent }

/-- Words 4l of the 64 rows of a tile. -/
def tileColumn (b : Bound) (l : Nat) : List Word :=
  (List.range 64).map fun r => BitVec.ofNat 32 (leNat (bread b.bytes (128 * r + 4 * l) 4))

/-- POISON of an engine's tile read (R358): DETAIL the tile's unit as an offset in it (log entry 17). -/
def fltTile (u : Nat) : Flt := { code := cPoison, detail := BitVec.ofNat 64 (16 * u + 2 ^ 63), acc := .engRead }

/-- A tile read delivers (R218): into scratchpad with its marks, to registers, which carry none, only clean data (R357; log entry
17). -/
def State.runTread (s : State) (id : Nat) : State :=
  match s.op? id with
  | some o =>
    match o.kind with
    | .treadSp b dst =>
      if s.opReady o && s.dstFree o then
        let put := fun (t : Team) => (t.write dst (bread b.bytes 0 8192)).addPoison (b.bad.map (dst / 16 + ·))
        ((s.updTeam o.tid put).linesOut o).opDone id
      else s
    | .treadReg b w =>
      if s.opReady o then
        match b.bad with
        | u :: _ => s.opFault o (fltTile u)
        | [] => (s.updGroup o.gid fun g => g.landOwed w (tileColumn b)).opDone id
      else s
    | _ => s
  | none => s

/-! ## TKILL and TQRY (R214, R219) -/

/-- The kill of a defined name: its generation advances; bytes stay with the reads bound to them. -/
def State.tileKill (s : State) (sid name : Nat) : State :=
  s.updSpan sid fun x => x.putTile { x.tile name with
    gen := (x.tile name).gen + 1, st := .undef, bytes := [], bad := [], storage := false, place := 3 }

def execTkill (o : R1) (s : State) : Result :=
  .next (s.issueAct (.tkill o) noChk noChk fun s x _ =>
    let name := x.g.src x.lead o.a
    match nameFlt x.g name, s.span? (s.sidOf x) with
    | some f, _ => stopAll s x f
    | none, none => { s := s }
    | none, some y =>
      match (y.tile name.toNat).st with
      | .undef => { s := s }
      | .pending => haltAt s (.pending name.toNat)
      | .defined => { s := s.tileKill y.sid name.toNat })

def tileStNum : TileSt → Nat
  | .undef => 0
  | .pending => 1
  | .defined => 2

/-- Some group of the span is parked on the name, and not bound to a definition of it that has come (R213, R219). -/
def State.tileWaited (s : State) (sid name : Nat) : Bool :=
  s.groups.any fun g => (s.team? g.tid).any (fun t => t.sid == sid) && match g.park with
    | .tiles pc ns => ns.contains name && !(g.bound.any fun p => p.1 == pc && p.2.name == name)
    | .pending n => n == name
    | _ => false

/-- R219. -/
def State.tileWord (s : State) (y : Span) (name : Nat) : Word :=
  let t := y.tile name
  BitVec.ofNat 32 (tileStNum t.st + t.place * 2 ^ 4 + b2n (s.tileWaited y.sid name) (2 ^ 8) +
    b2n (s.boundOld y.sid name t.gen) (2 ^ 9) + t.gen.toNat * 2 ^ 12 + s.tilesUsed y * 2 ^ 16)

def execTqry (o : R2) (s : State) : Result :=
  .next (s.issueAct (.tqry o) noChk noChk fun s x _ =>
    let name := x.g.src x.lead o.a
    match nameFlt x.g name, s.span? (s.sidOf x) with
    | some f, _ => stopAll s x f
    | none, none => { s := s }
    | none, some y =>
      let w := s.tileWord y name.toNat
      { s := s, out := fun _ => outD o.d w })

/-! ## Storage (R210, R211, R214) -/

/-- The oldest definition of a span that waits for storage begins when there is room. -/
def State.beginDef (s : State) (sid : Nat) : State :=
  match s.ops.find? fun o => o.sid == sid && !o.begun with
  | none => s
  | some o =>
    match o.defines with
    | some (n, _) =>
      if s.tileRoom sid then
        (s.updOp o.id fun o => { o with begun := true }).updSpan sid fun x =>
          x.putTile { x.tile n with storage := true, place := 0 }
      else s
    | none => s

end Sys2Proof.Machine
end

