-- ==== Sys2Proof/Machine/Matrix.lean ====
section
/-!
DEFINITION. The matrix engine and the accumulators (R83 to R88, R212, R220 to R229): issuing MMAT, MMAR and the ACC forms
with their checks (R331), the reservation table and its arbiter (R226), the passes, and the operations of the core path.
-/
namespace Sys2Proof.Machine

/-! ## Format words (R87, R88) -/

/-- An element format of the engine. -/
inductive Elt where
  | float (f : FloatFmt)
  | int (f : IntFmt)
  deriving DecidableEq, Repr

/-- Format code: its format, width in bits, and line of R88. -/
def eltOf (code : Nat) : Option (Elt × Nat × Nat) :=
  match code with
  | 0 => some (.float fF8a, 8, 0)
  | 1 => some (.float fF8b, 8, 0)
  | 2 => some (.float fF4, 4, 2)
  | 3 => some (.int ⟨true, 8⟩, 8, 1)
  | 4 => some (.int ⟨false, 8⟩, 8, 1)
  | 5 => some (.int ⟨true, 4⟩, 4, 3)
  | 6 => some (.int ⟨false, 4⟩, 4, 3)
  | 7 => some (.float fH16, 16, 4)
  | 8 => some (.float fBf16, 16, 4)
  | _ => none

def Elt.acc : Elt → Nat
  | .float _ => 0
  | .int _ => 1

/-- A format word that R88 allows. -/
structure FmtWord where
  a : Elt
  b : Elt
  bits : Nat
  akm : Bool
  bkm : Bool
  asw : Nat
  bsw : Nat
  deriving DecidableEq, Repr

/-- A format word (R87). SAT is accepted and does nothing: no value is narrowed under the word, and a sum that overflows f32 becomes
infinite as every f32 sum does (log entry 50). -/
def fmtWord (w : Word) : Option FmtWord :=
  let n := w.toNat
  match eltOf (n % 16), eltOf (n / 16 % 16) with
  | some (a, bits, la), some (b, _, lb) =>
    if la = lb ∧ n / 2 ^ 19 = 0 ∧ n / 2 ^ 8 % 4 = a.acc then some {
      a := a
      b := b
      bits := bits
      akm := n / 2 ^ 16 % 2 == 1
      bkm := n / 2 ^ 17 % 2 == 1
      asw := n / 2 ^ 10 % 8
      bsw := n / 2 ^ 13 % 8 }
    else none
  | _, _ => none

/-- Elements of a chunk (R84). -/
def FmtWord.chunk (f : FmtWord) : Nat := if f.bits = 4 then 64 else 32

/-! ## Elements (R212) -/

/-- Bit offset of element (r, k). -/
def eltBit (bits : Nat) (km : Bool) (r k : Nat) : Nat :=
  if km then 1024 * r + k * bits
  else
    let p := 16 / bits
    1024 * (k / p) + 64 * bits * (k % p) + r * bits

/-- The code at a bit offset of bytes that are fetched at swz() of their offset. -/
def eltAt (get : Nat → Byte) (sw bits bit : Nat) : Nat :=
  let o := swz sw (bit / 8)
  if bits = 16 then (get o).toNat + 256 * (get (o + 1)).toNat
  else if bits = 8 then (get o).toNat
  else (get o).toNat / 2 ^ (bit % 8) % 16

def tileElt (t : Option Bound) (sw bits : Nat) (km : Bool) (r k : Nat) : Nat :=
  match t with
  | some b => eltAt (bget b.bytes) sw bits (eltBit bits km r k)
  | none => 0

/-! ## Chunks (R83, R84) -/

def Elt.fp (e : Elt) (code : Nat) : Fp :=
  match e with
  | .float f => f.value code
  | .int f => .ofInt (f.value (BitVec.ofNat 32 code)) 0

def Elt.num (e : Elt) (code : Nat) : Int :=
  match e with
  | .int f => f.value (BitVec.ofNat 32 code)
  | .float _ => 0

/-- Add one chunk of element pairs to an accumulator. -/
def addChunk (f : FmtWord) (acc : Word) (ps : List (Nat × Nat)) : Word :=
  match f.a with
  | .float _ => BitVec.ofNat 32 (dotF (ps.map fun p => (f.a.fp p.1, f.b.fp p.2)) (fF32.value acc.toNat)).1
  | .int _ => BitVec.ofInt 32 ((ps.map fun p => f.a.num p.1 * f.b.num p.2).foldl (· + ·) (acc.toNat : Int))

/-- Add the chunks of a depth in increasing k; `fuel` bounds their number. -/
def addChunks (f : FmtWord) : Nat → Word → List (Nat × Nat) → Word
  | 0, acc, _ => acc
  | fuel + 1, acc, ps =>
    if ps.isEmpty then acc else addChunks f fuel (addChunk f acc (ps.take f.chunk)) (ps.drop f.chunk)

/-- Change a row of accumulators, one for each of `xs`, as far as the allocation still has them. -/
def Team.accRow {α : Type} (t : Team) (off : Nat) (xs : List α) (f : Word → α → Word) : Team :=
  let n := min xs.length ((t.accSize - off) / 4)
  let old := t.accRead off (4 * n)
  let new := (imap (fun j x => leBytes 4 (f (BitVec.ofNat 32 (leNat ((old.drop (4 * j)).take 4))) x).toNat) 0 (xs.take n)).flatten
  if new = old then t else t.accWrite off new

/-! ## MMAT (R222, R223) -/

/-- Field of a block. -/
def blk (bs : List Byte) (off n : Nat) : Nat := leNat ((bs.drop off).take n)

/-- Names of A and B, in order. -/
def mmatA (bs : List Byte) : List Nat := (List.range 4).map fun i => blk bs (2 * i) 2
def mmatB (bs : List Byte) : List Nat := (List.range 3).map fun i => blk bs (8 + 2 * i) 2
def mmatOff (bs : List Byte) : Nat := blk bs 0x10 4
def mmatFmt (bs : List Byte) : Word := BitVec.ofNat 32 (blk bs 0x14 4)
def mmatMv (bs : List Byte) : Nat := blk bs 0x18 2
def mmatNv (bs : List Byte) : Nat := blk bs 0x1A 1
def mmatKv (bs : List Byte) : Nat := blk bs 0x1B 1

/-- Element width in bits of a format word's A, 8 where its code is reserved. -/
def fmtBits (w : Word) : Nat := ((eltOf (w.toNat % 16)).map fun e => e.2.1).getD 8

/-- MMAT_BLOCK_INVALID (R331). -/
def mmatValid (bs : List Byte) : Bool :=
  decide (1 ≤ mmatMv bs ∧ mmatMv bs ≤ 256 ∧ 1 ≤ mmatNv bs ∧ mmatNv bs ≤ 192 ∧ 1 ≤ mmatKv bs ∧ mmatKv bs ≤ 128) &&
  (fmtBits (mmatFmt bs) != 16 || mmatKv bs % 2 == 0) && mmatOff bs % 256 == 0 && blk bs 0x0E 2 == 0 &&
  decide (blk bs 0x1C 4 < 2)

/-- Names that cover a valid row or column (R213). -/
def mmatNames (bs : List Byte) : List Nat :=
  let used := (mmatA bs).take ((mmatMv bs + 63) / 64) ++ (mmatB bs).take ((mmatNv bs + 63) / 64)
  (used.filter (· != 0xFFFF)).foldl (fun acc n => if acc.contains n then acc else acc ++ [n]) []

def fltBlock (off : Nat) : Flt := { code := cMmatBlock, detail := BitVec.ofNat 64 off }
def fltFmt (w : Nat) : Flt := { code := cFmtUnsupported, detail := BitVec.ofNat 64 w }

/-- ACC_RANGE of `[off, off + n)` (R331, R401). -/
def State.accFlt (s : State) (g : Group) (off n : Nat) : Option Flt :=
  let size := if g.kind.isHandler then 0 else ((s.team? g.tid).map Team.accSize).getD 0
  if off + n ≤ size then none else some { code := cAcc, detail := BitVec.ofNat 64 off }

/-- A block or descriptor of 32 bytes in the scratchpad (R222, R228): its offset is judged, an absent line parks. -/
def blockAlign (a : Src) (x : Issue) (_ : Nat) : Option Flt :=
  let o := x.g.src x.lead a
  if o.toNat % 32 = 0 then none else some { code := cMisaligned, detail := o.setWidth 64 }

def State.blockForm (s : State) (a : Src) (x : Issue) (_ : Nat) : Option Flt := s.spFlt x.g (x.g.src x.lead a).toNat 32

/-- Read a block, then go on. -/
def State.withBlock (s : State) (x : Issue) (a : Src) (k : Team → Nat → List Byte → Acted) : Acted :=
  let off := (x.g.src x.lead a).toNat
  match s.team? x.g.tid with
  | none => { s := s }
  | some t =>
    match t.absent off 32 with
    | some ln => haltAt s (.line ln)
    | none =>
      if t.poisoned off 32 then
        lateAll s x { code := cPoison, detail := BitVec.ofNat 64 (off + 2 ^ 63), acc := .load }
      else k t off (t.read off 32)

/-- Post a request to the cluster's reservation table (R226). -/
def State.post (s : State) (core id : Nat) : State :=
  s.updCluster (clusterOf core) fun c => { c with table := c.table ++ [(id, s.beat)] }

/-- A full table stalls the group (R226). -/
def State.tableFull (s : State) (core : Nat) : Bool := decide (256 ≤ (s.cluster (clusterOf core)).table.length)

/-- Issue an operation of the matrix class. -/
def State.matOp (s : State) (x : Issue) (i : Instr) (k : OpKind) : State × Nat :=
  let (s, o) := s.newOp x i (some .matrix) k
  (s.addOp o, o.id)

def execMmat (o : ALOps) (s : State) : Result :=
  .next (s.issueAct (.mmat o) (blockAlign o.a) (s.blockForm o.a) fun s x _ =>
    if x.full .matrix then haltAt s (.full .matrix)
    else s.withBlock x o.a fun t off bs =>
      let w := mmatFmt bs
      let names := mmatA bs ++ mmatB bs
      let flt := firstOf [
        if mmatValid bs then none else some (fltBlock off),
        if (fmtWord w).isSome then none else some (fltFmt w.toNat),
        (names.find? fun n => n != 0xFFFF && decide (4095 < n)).map fun n =>
          { code := cTileName, detail := BitVec.ofNat 64 n },
        s.accFlt x.g (mmatOff bs) 196608]
      match flt with
      | some f => stopAll s x f
      | none =>
        if s.tableFull x.g.core then haltAt s .table
        else
          match s.bindAll x t.sid (mmatNames bs) with
          | .lacks ns => haltAt s (.tiles x.ia ns)
          | .bound s ts =>
            let (s, id) := s.matOp x (.mmat o) (.mmat bs ts)
            { s := s.post x.g.core id })

/-- The tile that a name of a block stands for. -/
def tileNamed (ts : List Bound) (n : Nat) : Option Bound := if n = 0xFFFF then none else ts.find? fun b => b.name == n

/-- The pass of an MMAT (R223). -/
def mmatPass (bs : List Byte) (ts : List Bound) (t : Team) : Team :=
  match fmtWord (mmatFmt bs) with
  | none => t
  | some f =>
    let kv := mmatKv bs * 8 / f.bits
    let ks := List.range kv
    let zf := blk bs 0x1C 4 % 2 == 1
    let side := fun (names : List Nat) (sw : Nat) (km : Bool) (i : Nat) =>
      let tile := tileNamed ts (names.getD (i / 64) 0xFFFF)
      (tile.isSome, ks.map fun k => tileElt tile sw f.bits km (i % 64) k)
    let cols := (List.range (mmatNv bs)).map (side (mmatB bs) f.bsw f.bkm)
    (List.range (mmatMv bs)).foldl (fun t i =>
      let row := side (mmatA bs) f.asw f.akm i
      t.accRow (mmatOff bs + 768 * i) cols fun w c =>
        let a0 := if zf then 0 else w
        if row.1 && c.1 then addChunks f (kv + 1) a0 (row.2.zip c.2) else a0) t

/-! ## MMAR (R224, R225) -/

def mmarAlign (o : MmarOps) (x : Issue) (_ : Nat) : Option Flt :=
  let off := x.g.reg x.lead o.d
  if off.toNat % 256 = 0 then none else some { code := cMisaligned, detail := off.setWidth 64 }

/-- The tile name and the format word of a lane. -/
def mmarPair (o : MmarOps) (x : Issue) (l : Nat) : Word × Word :=
  let v := x.g.src64 l o.b
  (v.setWidth 32, v.extractLsb' 32 32)

/-- FORMAT_DIVERGENCE, FORMAT_UNSUPPORTED, then ACC_RANGE (R296, R331, R401). -/
def State.mmarForm (s : State) (o : MmarOps) (x : Issue) (_ : Nat) : Option Flt :=
  let w := (mmarPair o x x.lead).2
  let differ := maskOf fun l => x.ts.contains l && (mmarPair o x l).2 != w
  if differ != 0 then some { code := cFmtDivergence, detail := differ ++ w }
  else
    match fmtWord w with
    | none => some (fltFmt w.toNat)
    | some f =>
      if !f.akm || !f.bkm || f.asw != 0 then some (fltFmt w.toNat)
      else s.accFlt x.g (x.g.reg x.lead o.d).toNat 8192

/-- The rows of A as the registers of the lanes taking part give them; other rows are +0 (R225). -/
def rowsOfRegs (x : Issue) (run : Reg) : List Byte :=
  (lanes32.map fun l =>
    if x.ts.contains l then ((x.g.regs l run 16).map fun w => leBytes 4 w.toNat).flatten
    else List.replicate 64 0).flatten

def execMmar (o : MmarOps) (s : State) : Result :=
  .next (s.issueAct (.mmar o) (mmarAlign o) (s.mmarForm o) fun s x _ =>
    if x.full .matrix then haltAt s (.full .matrix)
    else
      let (name, w) := mmarPair o x x.lead
      match nameFlt x.g name with
      | some f => stopAll s x f
      | none =>
        if s.tableFull x.g.core then haltAt s .table
        else
          match s.bindAll x (s.sidOf x) [name.toNat] with
          | .lacks ns => haltAt s (.tiles x.ia ns)
          | .bound s ts =>
            match ts with
            | [] => { s := s }
            | b :: _ =>
              let a := match x.g.latch with
                | some bs => bs
                | none => rowsOfRegs x (Reg.ofNum o.run.val)
              let s := s.updGroup x.g.gid fun g => { g with latch := if o.reuse then some a else none }
              let (s, id) := s.matOp x (.mmar o) (.mmar (x.g.reg x.lead o.d).toNat w o.h1 a x.tmask b)
              { s := s.post x.g.core id })

/-- The pass of an MMAR (R224). -/
def mmarPass (off : Nat) (w : Word) (h1 : Bool) (a : List Byte) (rows : Lanes) (b : Bound) (t : Team) : Team :=
  match fmtWord w with
  | none => t
  | some f =>
    let ks := List.range (512 / f.bits)
    let cols := (List.range 64).map fun n =>
      ks.map fun k => eltAt (bget b.bytes) f.bsw f.bits (1024 * n + b2n h1 512 + k * f.bits)
    (lanesOf rows).foldl (fun t l =>
      let bytes := (a.drop (64 * l)).take 64
      let row := ks.map fun k => eltAt (fun i => bytes.getD i 0) 0 f.bits (k * f.bits)
      t.accRow (off + 256 * l) cols fun w c => addChunks f 513 w (row.zip c)) t

/-! ## Fields of ACCLD's descriptor (R228) -/

def accAoff (d : List Byte) : Nat := blk d 0 4
def accRows (d : List Byte) : Nat := blk d 4 2
def accCols (d : List Byte) : Nat := blk d 6 2
def accAstr (d : List Byte) : Nat := blk d 8 4
def accDoff (d : List Byte) : Nat := blk d 0x0C 4
def accDstr (d : List Byte) : Nat := blk d 0x10 4
def accRs (d : List Byte) : Nat := blk d 0x14 4
def accCs (d : List Byte) : Nat := blk d 0x18 4
def accCtrl (d : List Byte) : Nat := blk d 0x1C 4

/-! ## Poison in tiles (R358) -/

/-- The unit of a tile that an element's bytes lie in. -/
def eltUnit (sw bit : Nat) : Nat := swz sw (bit / 8) / 16

/-- The first poisoned unit that a pass reads of a tile: rows `rows`, depth `ks`. -/
def Bound.badRead (b : Bound) (sw bits : Nat) (km : Bool) (rows ks : List Nat) : Option Nat :=
  b.bad.find? fun u => rows.any fun r => ks.any fun k => eltUnit sw (eltBit bits km r k) == u

/-- The rows of tile number j of a side that `n` valid rows or columns use. -/
def sideRows (n j : Nat) : List Nat := List.range (min 64 (n - 64 * j))

/-- The poisoned unit that an MMAT or MMAR would read (R358). -/
def OpKind.badTile (k : OpKind) : Option Nat :=
  match k with
  | .mmat bs ts =>
    (fmtWord (mmatFmt bs)).bind fun f =>
      let ks := List.range (mmatKv bs * 8 / f.bits)
      let side := fun (names : List Nat) (n sw : Nat) (km : Bool) =>
        (imap (fun j x => (j, x)) 0 names).findSome? fun p =>
          (tileNamed ts p.2).bind fun b => b.badRead sw f.bits km (sideRows n p.1) ks
      (side (mmatA bs) (mmatMv bs) f.asw f.akm).orElse fun _ => side (mmatB bs) (mmatNv bs) f.bsw f.bkm
  | .mmar _ w h1 _ _ b =>
    (fmtWord w).bind fun f =>
      b.bad.find? fun u => (List.range 64).any fun n => (List.range (512 / f.bits)).any fun k =>
        eltUnit f.bsw (1024 * n + b2n h1 512 + k * f.bits) == u
  | _ => none

/-! ## The reservation table (R226) -/

/-- No older matrix operation of the group is outstanding (R221). -/
def State.matTurn (s : State) (o : AOp) : Bool :=
  !(s.ops.any fun x => x.gid == o.gid && x.cls == some .matrix && x.id < o.id && !x.done)

/-- A word lies in the first `4 * cols` bytes of one of `rows` rows. -/
def rowsHave (base stride rows cols u : Nat) : Bool :=
  (List.range rows).any fun i => decide (base + stride * i ≤ u ∧ u < base + stride * i + 4 * cols)

/-- An operation reads an accumulator word (R223, R224, R228). -/
def OpKind.readsAcc (k : OpKind) (u : Nat) : Bool :=
  match k with
  | .mmat bs _ => blk bs 0x1C 4 % 2 == 0 && rowsHave (mmatOff bs) 768 (mmatMv bs) (mmatNv bs) u
  | .mmar off _ _ _ rows _ => (lanesOf rows).any fun l => rowsHave (off + 256 * l) 0 1 64 u
  | .accldSp d | .accldReg d _ _ => rowsHave (accAoff d) (accAstr d) (accRows d) (accCols d) u
  | _ => false

/-- The word with an uncorrectable error that an operation would read (R377). -/
def State.accBadOf (s : State) (o : AOp) : Option Nat :=
  (s.team? o.tid).bind fun t => t.accBad.find? o.kind.readsAcc

/-- The next operation that reads such words meets POISON (R377): its lanes freeze, the error has been met. -/
def State.accPoison (s : State) (o : AOp) (u : Nat) : State :=
  (s.updTeam o.tid fun t => { t with accBad := t.accBad.filter fun v => !o.kind.readsAcc v }).opFault o
    { code := cPoison, detail := BitVec.ofNat 64 (u + 2 ^ 61), acc := .engRead }

/-- Lanes of the operation are frozen already, and it would meet POISON: it waits. -/
def State.accStuck (s : State) (o : AOp) : Bool :=
  ((s.accBadOf o).isSome || o.kind.badTile.isSome) && match s.group? o.gid with
    | some g => (s.opLanes o).any fun l => (g.lane l).hold != .free
    | none => false

/-- Launch priority of an operation's grid (R231). -/
def State.opPrio (s : State) (o : AOp) : Nat := ((s.grid? o.uid).map Grid.prio).getD 0

/-- The oldest request of each group that may run, in posting order. -/
def State.candidates (s : State) (cl : Nat) : List (AOp × Nat) :=
  ((s.cluster cl).table.filterMap fun p => (s.op? p.1).map fun o => (o, p.2)).filter fun p =>
    s.matTurn p.1 && s.opReady p.1 && !s.accStuck p.1

/-- The request granted next: one that has waited more than 4,096 clocks, else the best priority, else the oldest. -/
def State.granted (s : State) (cl : Nat) : Option AOp :=
  let cs := s.candidates cl
  match cs.find? fun p => decide (4096 < clockAt s.beat - clockAt p.2) with
  | some p => some p.1
  | none =>
    (minNat (cs.map fun p => s.opPrio p.1)).bind fun k =>
      (cs.find? fun p => s.opPrio p.1 == k).map Prod.fst

/-- The engine of a cluster serves a request (R223). -/
def State.servePass (s : State) (cl : Nat) (o : AOp) : State :=
   match s.accBadOf o, o.kind.badTile with
   | some u, _ => s.accPoison o u
   | none, some u => s.opFault o (fltTile u)
   | none, none =>
    let s := s.updCluster cl fun c => { c with table := c.table.filter fun p => p.1 != o.id }
    let s := match o.kind with
      | .mmat bs ts => s.updTeam o.tid (mmatPass bs ts)
      | .mmar off w h1 a rows b => s.updTeam o.tid (mmarPass off w h1 a rows b)
      | _ => s
    s.opDone o.id

/-- It serves the request that is granted (R226). -/
def State.grantPass (s : State) (cl : Nat) : State :=
  match s.granted cl with
  | none => s
  | some o => s.servePass cl o

/-- It serves one request, if that is a candidate. -/
def State.passOf (s : State) (cl id : Nat) : State :=
  match (s.candidates cl).find? fun p => p.1.id == id with
  | some p => s.servePass cl p.1
  | none => s

/-! ## ACCZ and ACCST (R227) -/

def execAccz (o : AcczOps) (s : State) : Result :=
  let off := fun (x : Issue) => x.g.src x.lead o.a
  let len := 16 * o.len.toNat
  .next (s.issueAct (.accz o) (fun x _ => offAlign (off x)) (fun x _ => s.accFlt x.g (off x).toNat len) fun s x _ =>
    if x.full .matrix then haltAt s (.full .matrix)
    else { s := (s.matOp x (.accz o) (.accz (off x).toNat len)).1 })

/-- ACCST (R227). Of two misaligned offsets the accumulator's is reported (R326; log entry 50). -/
def execAccst (o : AccstOps) (s : State) : Result :=
  let off := fun (x : Issue) => x.g.src x.lead o.a
  let src := fun (x : Issue) => x.g.src x.lead o.b
  let len := 16 * o.len.toNat
  .next (s.issueAct (.accst o) (fun x _ => firstOf [offAlign (off x), offAlign (src x)])
    (fun x _ => firstOf [s.spFlt x.g (src x).toNat len, s.accFlt x.g (off x).toNat len]) fun s x _ =>
    if x.full .matrix then haltAt s (.full .matrix)
    else { s := (s.matOp x (.accst o) (.accst (off x).toNat (src x).toNat len)).1 })

/-- Write accumulator bytes that the allocation still has. -/
def Team.putAccs (t : Team) (off : Nat) (bs : List Byte) : Team := t.accWrite off (bs.take (t.accSize - off))

/-! ## ACCLD (R86, R228) -/

def accTarget (d : List Byte) : Nat := accCtrl d % 16
def noScale : Nat := 0xFFFFFFFF

/-- What a target code delivers. -/
inductive AccTarget where
  | f32
  | fmt (k : NFmt)
  deriving DecidableEq, Repr

def accFmt (code : Nat) : AccTarget :=
  match code with
  | 0 => .fmt .f8a | 1 => .fmt .f8b | 2 => .fmt .f4 | 3 => .fmt .i8 | 4 => .fmt .n8 | 5 => .fmt .i4 | 6 => .fmt .n4
  | 7 => .fmt .h16 | 8 => .fmt .bf16 | 10 => .fmt .i32 | 11 => .fmt .i16 | 12 => .fmt .n16
  | _ => .f32

/-- Width of a target in bits; 8 for a reserved code. -/
def accBits (code : Nat) : Nat :=
  match code with
  | 2 => 4 | 5 => 4 | 6 => 4
  | 7 => 16 | 8 => 16 | 11 => 16 | 12 => 16
  | 9 => 32 | 10 => 32
  | _ => 8

/-- Bytes of a row of the destination. -/
def accRowBytes (d : List Byte) : Nat := (accCols d * accBits (accTarget d) + 7) / 8

/-- Names that a row fills in registers. -/
def accNames (d : List Byte) : Nat := accCols d * accBits (accTarget d) / 32

/-- The descriptor is within R228; `run` for .reg. -/
def accValid (d : List Byte) (run : Option Nat) : Bool :=
  decide (1 ≤ accRows d ∧ accRows d ≤ 256 ∧ 1 ≤ accCols d ∧ accCols d ≤ 256) && accCtrl d / 2 ^ 6 == 0 &&
  match run with
  | none => true
  | some r =>
    decide (accRows d ≤ 32) && accCols d * accBits (accTarget d) % 32 == 0 && decide (r + accNames d ≤ 112)

/-- MISALIGNED fields of a descriptor (R326): the first one's value. -/
def accMisaligned (d : List Byte) (reg : Bool) : Option Flt :=
  let es := accBits (accTarget d) / 8
  let bad := fun (v m : Nat) => if v % m = 0 then none else some ({ code := cMisaligned, detail := BitVec.ofNat 64 v } : Flt)
  firstOf [bad (accAoff d) 4, bad (accAstr d) 4,
    if reg || es < 2 then none else bad (accDoff d) es,
    if reg || es < 2 then none else bad (accDstr d) es,
    if accRs d = noScale then none else bad (accRs d) 4,
    if accCs d = noScale then none else bad (accCs d) 4]

/-- REG_RANGE of the m names in a lane (R322). -/
def accReg (d : List Byte) (run : Nat) (x : Issue) (l : Nat) : Option Flt :=
  let lo := (x.g.lane l).abs run
  if accNames d = 0 ∨ lo + accNames d ≤ x.g.allot then none
  else some { code := cRegRange, detail := BitVec.ofNat 64 (if x.g.allot ≤ lo then lo else x.g.allot) }

/-- SCRATCH_RANGE and ACC_RANGE of what the descriptor names (R296 step 6). -/
def State.accRanges (s : State) (d : List Byte) (reg : Bool) (x : Issue) : Option Flt :=
  firstOf [
    if reg then none else
      (s.spFlt x.g (accDoff d) (accDstr d * (accRows d - 1) + accRowBytes d)),
    if accRs d = noScale then none else s.spFlt x.g (accRs d) (4 * accRows d),
    if accCs d = noScale then none else s.spFlt x.g (accCs d) (4 * accCols d),
    s.accFlt x.g (accAoff d) (accAstr d * (accRows d - 1) + 4 * accCols d)]

/-- Lookahead words of a run of `n` names, fixed at issue. -/
def Issue.owedRun (x : Issue) (la : BitVec 4) (id run n : Nat) (lanes : List Nat) : Owed where
  id := id
  pc := x.ia
  la15 := la == 15
  landed := false
  lanes := lanes.map fun l => ⟨l, if la = 15 then 0 else la.toNat, x.g.regIds l (Reg.ofNum run) n⟩

def State.accldAct (s : State) (i : Instr) (a : Src) (run : Option Nat) (la : BitVec 4) (x : Issue) : Acted :=
  if x.full .matrix then haltAt s (.full .matrix)
  else s.withBlock x a fun _ off d =>
    let ok := accValid d run
    let named : Uses := match run with
      | some r => if ok then { wr := [(Reg.ofNum r, accNames d)] } else {}
      | none => {}
    -- a lane at or beyond ROWS is not written, so only the lanes below ROWS name registers
    let rows := { x with ts := x.ts.filter fun l => decide (l < accRows d) }
    match rows.waitsFor named with
    | some id => haltAt s (.owed id)
    | none =>
    let shared := firstOf [
      accMisaligned d run.isSome,
      if ok then none else some (fltBlock off),
      if accTarget d ≤ 12 then none else some (fltFmt (accCtrl d)),
      s.accRanges d run.isSome x]
    -- the first failing check of the lowest failing lane (R296, R319)
    let lane := fun (l : Nat) => firstOf [
      match run with
      | some r => if ok && decide (l < accRows d) then accReg d r x l else none
      | none => none,
      if l < accRows d then rows.lookFault named l else none,
      shared]
    match x.ts.findSome? lane with
    | some f => stopAll s x f
    | none =>
      match run with
      | none => { s := (s.matOp x i (.accldSp d)).1 }
      | some r =>
        let (s, id) := s.matOp x i (.accldReg d r s.fresh)
        let owed := if rows.ts.isEmpty then [] else [x.owedRun la id r (accNames d) rows.ts]
        { s := s, extra := owed }

def execAccldSp (o : ALOps) (s : State) : Result :=
  .next (s.issueAct (.accldSp o) (blockAlign o.a) (s.blockForm o.a) fun s x _ => s.accldAct (.accldSp o) o.a none o.la x)
def execAccldReg (o : AccldRegOps) (s : State) : Result :=
  .next (s.issueAct (.accldReg o) (blockAlign o.a) (s.blockForm o.a) fun s x _ =>
    s.accldAct (.accldReg o) o.a (some o.run.val) o.la x)

/-- Narrow an f32 code to a target (R78 to R80). -/
def accNarrow (k : AccTarget) (sat : Bool) (c : Nat) : Word × Flags :=
  match k with
  | .f32 => f32Of (fF32.narrow .rne sat (fF32.value c))
  | .fmt k => toNFmt k .default sat (fF32.value c)

/-- Scale by an f32 code. -/
def accScale (r : Nat × Flags) (sc : Option Nat) : Nat × Flags :=
  match sc with
  | none => r
  | some v =>
    let m := fF32.mul r.1 v
    (m.1, r.2 ||| m.2)

/-- R86: an element and its flags. -/
def accElem (d : List Byte) (v : Word) (rs cs : Option Nat) : Word × Flags :=
  let k := accFmt (accTarget d)
  let sat := accCtrl d / 16 % 2 == 1
  let int := accCtrl d / 32 % 2 == 1
  let direct := int && rs.isNone && cs.isNone && match k with
    | .fmt f => (NFmt.float f).isNone
    | .f32 => false
  if direct then
    match k with
    | .fmt f => intToInt .i32 f v
    | .f32 => (v, 0)
  else
    let r0 : Nat × Flags := if int then fF32.narrow .rne false (.ofInt v.toInt 0) else (v.toNat, 0)
    let r := accScale (accScale r0 rs) cs
    let n := accNarrow k sat r.1
    (n.1, r.2 ||| n.2)

/-- A row: its packed value (R73) and its flags. -/
def accRow (t : Team) (d : List Byte) (i : Nat) : Nat × Flags :=
  let bits := accBits (accTarget d)
  let scale := fun (base j : Nat) => if base = noScale then none else some (leNat (t.read (base + 4 * j) 4))
  (List.range (accCols d)).foldl (fun (r : Nat × Flags) j =>
    let e := accElem d (t.accWord (accAoff d + accAstr d * i + 4 * j)) (scale (accRs d) i) (scale (accCs d) j)
    (r.1 + e.1.toNat % 2 ^ bits * 2 ^ (bits * j), r.2 ||| e.2)) (0, 0)

/-- Store a row; an odd last nibble leaves its neighbour (R331). -/
def accPut (t : Team) (d : List Byte) (i v : Nat) : Team :=
  let at' := accDoff d + accDstr d * i
  let n := accRowBytes d
  let keep := if accCols d * accBits (accTarget d) % 8 = 4 then (t.read (at' + n - 1) 1).map fun b => b.toNat / 16 * 16 else []
  t.write at' (leBytes n (v + keep.headD 0 * 2 ^ (8 * (n - 1))))

/-- The scale vectors of a descriptor. -/
def accScales (d : List Byte) : List (Nat × Nat) :=
  (if accRs d = noScale then [] else [(accRs d, 4 * accRows d)]) ++
  (if accCs d = noScale then [] else [(accCs d, 4 * accCols d)])

/-- Scratchpad bytes may be read by an operation: their lines are not held, and no older operation has yet to write
them (R134, R228). -/
def State.spReady (s : State) (o : AOp) (t : Team) (off n : Nat) : Bool :=
  (linesOf off n).all fun ln => !(lineState t ln).held &&
    !(s.ops.any fun x => x.id < o.id && !x.done && (s.opLines x).any fun p => p.1 == o.tid && p.2.contains ln)

/-- Flags of an ACCLD, with the freezing of its lanes (R82, R315). -/
def State.accFlags (s : State) (o : AOp) (f : Flags) : State :=
  match s.group? o.gid with
  | none => s
  | some g =>
    let tr := trapped g.stat f
    let s := s.updGroup o.gid fun g => { g with stat := raiseFlags g.stat f }
    if tr = 0 then s
    else s.raise o.gid ((s.opLanes o).map fun l => (l, { code := cArith, detail := tr.setWidth 64 })) true false o.pc
      (encode o.instr) false none

/-- An ACCLD whose scales may be read and whose destination is free. The flags of every row count, also of one that no lane
taking part receives (log entry 47). -/
def State.runAccld (s : State) (o : AOp) (d : List Byte) (run : Option Nat) : State :=
  match s.team? o.tid with
  | none => s
  | some t =>
    let free := run.isSome || (List.range (accRows d)).all fun i =>
      !s.locked o.tid (accDoff d + accDstr d * i) (accRowBytes d) o.id
    if !(free && (accScales d).all fun p => s.spReady o t p.1 p.2) then s
    else
      match (accScales d).find? fun p => t.poisoned p.1 p.2 with
      | some p =>
        let u := (t.poison.find? fun u => u * 16 < p.1 + p.2 && p.1 < u * 16 + 16).getD 0
        s.opFault o { code := cPoison, detail := BitVec.ofNat 64 (u * 16 + 2 ^ 63), acc := .engRead }
      | none =>
        let rows := (List.range (accRows d)).map (accRow t d)
        let fl := orFlags (rows.map Prod.snd)
        let s := match run with
          | some _ => s.updGroup o.gid fun g => g.landOwed o.id fun l => wordsOf (rows.getD l (0, 0)).1 (accNames d)
          | none => s.updTeam o.tid fun t => (imap (fun i r => (i, r)) 0 rows).foldl (fun t (p : Nat × (Nat × Flags)) =>
              accPut t d p.1 p.2.1) t
        (s.opDone o.id).accFlags o fl

/-! ## ACCGROW and ACCSHR (R229) -/

def execAccgrow (o : DaOps) (s : State) : Result :=
  .next (s.issueAct (.accgrow o) noChk noChk fun s x oks =>
    if x.g.kind.isHandler then { s := s, out := fun _ => outD o.d 0 }
    else if x.full .matrix then haltAt s (.full .matrix)
    else
      let (s, id) := s.matOp x (.accgrow o) (.accgrow (x.g.src x.lead o.a).toNat s.fresh)
      { s := s, owes := !oks.isEmpty, id := id })

/-- ACC_RANGE of ACCSHR's operand (R331); a handler's does nothing (R401). -/
def accshrForm (o : ALOps) (x : Issue) (_ : Nat) : Option Flt :=
  let q := x.g.src x.lead o.a
  if !x.g.kind.isHandler && q.toNat % 16384 != 0 then some { code := cAcc, detail := q.setWidth 64 } else none

def execAccshr (o : ALOps) (s : State) : Result :=
  .next (s.issueAct (.accshr o) noChk (accshrForm o) fun s x _ =>
    if x.g.kind.isHandler then { s := s }
    else if x.full .matrix then haltAt s (.full .matrix)
    else { s := (s.matOp x (.accshr o) (.accshr (x.g.src x.lead o.a).toNat)).1 })

/-- ACCGROW takes effect (R229). -/
def State.runAccgrow (s : State) (o : AOp) (q : Nat) : State :=
  match s.team? o.tid with
  | none => s
  | some t =>
    let grows := q % 16384 = 0 ∧ q ≤ 4194304 ∧ t.accSize < q ∧ s.accUsed t.core + (q - t.accSize) ≤ 4194304
    let ok := decide (grows ∨ (q % 16384 = 0 ∧ q ≤ t.accSize))
    let s := if grows then s.updTeam o.tid fun t => { t with accSize := q } else s
    (s.updGroup o.gid fun g => g.landOwed o.id fun _ => [if ok then 1 else 0]).opDone o.id

/-- ACCSHR takes effect once every matrix operation issued before it by the team has completed (R229). -/
def State.runAccshr (s : State) (o : AOp) (q : Nat) : State :=
  if s.ops.any fun x => x.tid == o.tid && x.cls == some .matrix && x.id < o.id && !x.done then s
  else
    let shrink := fun (t : Team) =>
      if q < t.accSize then { t with accSize := q, acc := t.acc.filter fun p => p.1 < q } else t
    (s.updTeam o.tid shrink).opDone o.id

/-- A matrix operation of the core path takes effect in its group's issue order (R221). -/
def State.runMatrix (s : State) (id : Nat) : State :=
  match s.op? id with
  | none => s
  | some o =>
    if !(s.opReady o && s.matTurn o) || s.accStuck o then s
    else match s.accBadOf o with
    | some u => s.accPoison o u
    | none =>
      match o.kind with
      | .accz off len => (s.updTeam o.tid fun t => t.putAccs off (List.replicate len 0)).opDone id
      | .accst off _ _ => if o.srcRead then (s.updTeam o.tid fun t => t.putAccs off o.data).opDone id else s
      | .accldSp d => s.runAccld o d none
      | .accldReg d run _ => s.runAccld o d (some run)
      | .accgrow q _ => s.runAccgrow o q
      | .accshr q => s.runAccshr o q
      | _ => s

end Sys2Proof.Machine
end

