-- ==== Sys2Proof/Machine/Barrier.lean ====
section
/-!
DEFINITION. The barrier instructions (R242 to R246, R330). The objects and their unit are in Scratch.lean.
-/
namespace Sys2Proof.Machine

/-- The object that a handle names for an issuing group; a handler has none (R401). -/
def State.placeOfHandle (s : State) (g : Group) (h : Word) : Option BarPlace :=
  if g.kind.isHandler then none else (s.team? g.tid).bind fun t => s.barPlace t (handleSp h) (handleOff h)

/-- SCRATCH_RANGE of a handle (R330). -/
def State.handleRange (s : State) (g : Group) (h : Word) : Option Flt :=
  match s.placeOfHandle g h with
  | some _ => none
  | none => some { code := cScratch, detail := BitVec.ofNat 64 (handleOff h) }

def State.barAt (s : State) (p : BarPlace) : Bar := ((s.team? p.tid).map fun t => t.bar p.off).getD ⟨0, 0, 0, 0, 0, 0⟩

/-- BAR_STALE, but for BARINIT, then BAR_BUSY of an object that has no slot (R296, R330). -/
def State.handleFlt (s : State) (p : BarPlace) (h : Word) (init : Bool) : Option Flt :=
  if !init && (s.barAt p).inc != handleInc h then some { code := cBarStale, detail := h.setWidth 64 }
  else if !s.barRoom p || (init && s.barWaiters p) then some { code := cBarBusy, detail := h.setWidth 64 }
  else none

/-- Checks of a single form, made with the lowest lane's handle. -/
def State.barSingle (s : State) (a : Src) (init : Bool) (x : Issue) (_ : Nat) : Option Flt :=
  let h := x.g.src x.lead a
  match s.placeOfHandle x.g h with
  | none => s.handleRange x.g h
  | some p => s.handleFlt p h init

/-- Act on the object of the lowest lane's handle. -/
def State.barAct (s : State) (x : Issue) (a : Src) (k : State → BarPlace → Word → Acted) : Acted :=
  let h := x.g.src x.lead a
  match s.placeOfHandle x.g h with
  | none => { s := s }
  | some p => k (s.barOpen p) p h

/-- The handle of an object in its present incarnation. -/
def newHandle (h : Word) (inc : Nat) : Word := (h &&& 0x7FFFF) ||| BitVec.ofNat 32 (inc * 2 ^ 24)

def execBarinit (o : BarDabOps) (s : State) : Result :=
  .next (s.issueAct (.barinit o) noChk (s.barSingle o.a true) fun s x _ =>
    s.barAct x o.a fun s p h =>
      let b := (x.g.src x.lead o.b).toNat
      let s := s.barReset p (some (if 128 < b then 128 else b))
      let d := newHandle h (s.barAt p).inc
      { s := s, out := fun _ => outD o.d d })

def execBarexp (o : AbOps) (s : State) : Result :=
  .next (s.issueAct (.barexp o) noChk (s.barSingle o.a false) fun s x _ =>
    s.barAct x o.a fun s p _ => { s := s.barOwe p x.g.gid (x.g.src x.lead o.b).toInt })

def execBarinv (o : ALOps) (s : State) : Result :=
  .next (s.issueAct (.barinv o) noChk (s.barSingle o.a false) fun s x _ =>
    s.barAct x o.a fun s p _ => { s := s.barReset p none })

/-- What the lanes of a per-lane form have found and done so far. -/
structure BarRun where
  s : State
  vals : List (Nat × Nat) := []
  bad : List (Nat × Flt) := []

/-- Each lane in ascending order opens its object, then `act` gives its value. -/
def State.barLanes (s : State) (x : Issue) (a : Src) (oks : List Nat) (act : State → BarPlace → Nat → State × Nat) : BarRun :=
  oks.foldl (fun (r : BarRun) l =>
    let h := x.g.src l a
    match r.s.placeOfHandle x.g h with
    | none => r
    | some p =>
      match r.s.handleFlt p h false with
      | some f => { r with bad := r.bad ++ [(l, f)] }
      | none =>
        let (s, v) := act (r.s.barOpen p) p l
        { r with s := s, vals := r.vals ++ [(l, v)] }) { s := s }

def BarRun.val (r : BarRun) (l : Nat) : Nat := ((kget Prod.fst l r.vals).map Prod.snd).getD 0

def laneRange (s : State) (a : Src) (x : Issue) (l : Nat) : Option Flt := s.handleRange x.g (x.g.src l a)

def execBararr (o : DaOps) (s : State) : Result :=
  .next (s.issueAct (.bararr o) noChk (laneRange s o.a) fun s x oks =>
    let r := s.barLanes x o.a oks fun s p l =>
      (s.barMark p x.g.gid (1#32 <<< l), (s.barAt p).phase)
    { s := r.s, early := r.bad, out := fun l => outD o.d (BitVec.ofNat 32 (r.val l)) })

/-- 1 where the phase is past (R244). -/
def State.pastAt (s : State) (p : BarPlace) (b : Word) : Nat := if phasePast (s.barAt p).phase b then 1 else 0

def execBartry (o : BarDabOps) (s : State) : Result :=
  .next (s.issueAct (.bartry o) noChk (laneRange s o.a) fun s x oks =>
    let r := s.barLanes x o.a oks fun s p l => (s, s.pastAt p (x.g.src l o.b))
    { s := r.s, early := r.bad, out := fun l => outD o.d (BitVec.ofNat 32 (r.val l)) })

def execBarwait (o : BarwaitOps) (s : State) : Result :=
  .next (s.issueAct (.barwait o) noChk (laneRange s o.a) fun s x oks =>
    let r := s.barLanes x o.a oks fun s p l => (s, s.pastAt p (x.g.src l o.b))
    let held := fun (l : Nat) => r.vals.any fun v => v.1 == l && v.2 == 0
    { s := r.s
      early := r.bad
      out := fun _ => { p := [(o.ps.toNat, true)] }
      waits := fun l => if held l then some (.bar (x.g.src l o.a) (x.g.src l o.b) o.ps x.next) else none })

end Sys2Proof.Machine
end

