-- ==== Sys2Proof/Machine/Control.lean ====
section
/-!
DEFINITION. Control: CTL, FENCE, GUARD, BR, CALL and REGW (R47 to R51, R106 to R117, R260).
-/
namespace Sys2Proof.Machine

def execNop (m : SafeMask) (s : State) : Result := .next (s.issueReg (.nop m) fun _ _ => {})

/-- YIELD: with no other eligible lane the lanes continue at once (R24, R327). -/
def execYield (m : SafeMask) (s : State) : Result :=
  .next (s.issueAct (.yield m) noChk noChk fun s x oks =>
    let alone := x.g.eligibleLanes.all oks.contains
    { s := s, waits := fun l => if !alone && oks.contains l then some (.yield false x.next) else none })

/-- EXIT: the lanes taking part become exited; lanes a guard disables advance (R20, R111, R112). -/
def execExit (m : SafeMask) (s : State) : Result :=
  .next (match s.begin (.exit m) with
    | .halt s => s
    | .go x => (s.setGroup (x.advance x.g x.ts (fun _ => none) (fun _ => none))).retire x.g.gid x.tmask)

/-- BRK and TRAP stop the lanes taking part (R111, R316). -/
def codeFlt (code : Nat) (o : CodeOps) (_ : Issue) (_ : Nat) : Option Flt :=
  some { code := code, detail := o.code.setWidth 64 }

def execBrk (o : CodeOps) (s : State) : Result :=
  .next (s.issueLanes (.brk o) noChk (codeFlt cBreakpoint o) (fun _ _ => {}) true)
def execTrap (o : CodeOps) (s : State) : Result :=
  .next (s.issueLanes (.trap o) noChk (codeFlt cTrapCall o) (fun _ _ => {}) true)

/-- A target off its alignment (R326). -/
def jumpChk (target : Issue → Nat → DWord) (x : Issue) (l : Nat) : Option Flt :=
  if target x l &&& 3 != 0 then some { code := cMisaligned, detail := target x l } else none

def execRet (m : SafeMask) (s : State) : Result :=
  let t := fun (x : Issue) (l : Nat) => (x.g.lane l).link
  .next (s.issueLanes (.ret m) (jumpChk t) noChk (fun x l => { jump := some (t x l) }) true)
def execJmpi (o : R1) (s : State) : Result :=
  let t := fun (x : Issue) (l : Nat) => x.g.src64 l o.a
  .next (s.issueLanes (.jmpi o) (jumpChk t) noChk (fun x l => { jump := some (t x l) }) true)
def execCalli (o : R1) (s : State) : Result :=
  let t := fun (x : Issue) (l : Nat) => x.g.src64 l o.a
  .next (s.issueLanes (.calli o) (jumpChk t) noChk (fun x l => { jump := some (t x l), link := some x.next }) true)

/-- GENBUMP (R113). -/
def execGenbump (m : SafeMask) (s : State) : Result :=
  .next (s.issueAct (.genbump m) noChk noChk fun s x _ => { s := s.bumpRdc x.g.part })

/-! ## State registers -/

/-- Some instruction of the group that sets STAT flags when it completes has not completed (R48, R82). -/
def State.flagsOwed (s : State) (gid : Nat) : Bool :=
  s.ops.any fun o => o.gid == gid && !o.done && match o.kind with
    | .accldSp _ => true
    | .accldReg _ _ _ => true
    | _ => false

/-- MFS and MTS of STAT wait (R48). -/
def State.statWait (s : State) (r : SReg) (go : State) : State :=
  if r = .stat && s.flagsOwed s.cur then s.park s.cur .flags else go

def outSreg (o : MfsOps) (s : State) (x : Issue) (l : Nat) : LaneOut :=
  let v := s.sreg x.g l o.sr
  if o.sr.wide then outPair o.d (BitVec.ofNat 64 v) else outD o.d (BitVec.ofNat 32 v)

def execMfs (o : MfsOps) (s : State) : Result :=
  .next (s.statWait o.sr (s.issueReg (.mfs o) (outSreg o s)))

/-- The capability number that a register names. -/
def SReg.cap : SReg → Option Nat
  | .cap0 => some 0
  | .cap1 => some 1
  | .cap2 => some 2
  | .cap3 => some 3
  | _ => none

/-- MTS of a group-uniform register, with the lowest lane's value (R48, R49, R51). -/
def mtsPost (o : MtsOps) (x : Issue) (oks : List Nat) (g : Group) : Group :=
  match oks with
  | [] => g
  | l :: _ =>
    let v := x.g.src l o.a
    if o.sr = .stat then { g with stat := v &&& statMask }
    else match SReg.cap o.sr with
      | some k => { g with caps := upd k (fun _ => v &&& 0xFF00FFFF) g.caps }
      | none => g

def execMts (o : MtsOps) (s : State) : Result :=
  .next (s.statWait o.sr (s.issueWith (.mts o) noChk noChk
    (fun x l => if o.sr = .link then { link := some (x.g.src64 l o.a) } else {}) true (mtsPost o)))

/-! ## FENCE (R260) -/

/-- The release and the acquire actions of a fence at its scope (R138). -/
def State.fence (s : State) (i : Instr) (sc : Scope) (rel acq : Bool) : State :=
  s.issueAct i noChk noChk fun s x _ =>
    let s := if rel then s.release x.g.core sc else s
    { s := if acq then s.acquire x.g.core sc else s }

def execFenceAcq (o : FenceOps) (s : State) : Result := .next (s.fence (.fenceAcq o) o.scope false true)
def execFenceRel (o : FenceOps) (s : State) : Result := .next (s.fence (.fenceRel o) o.scope true false)
def execFenceAcqRel (o : FenceOps) (s : State) : Result := .next (s.fence (.fenceAcqRel o) o.scope true true)
def execFenceFull (o : FenceOps) (s : State) : Result := .next (s.fence (.fenceFull o) o.scope true true)

/-! ## GUARD, BR, CALL (R106, R107, R109) -/

/-- A predicate, inverted where N is set. -/
def Lane.predN (x : Lane) (p : BitVec 6) (n : Bool) : Bool := if n then !x.pred p.toNat else x.pred p.toNat

def execGuard (o : GuardOps) (s : State) : Result :=
  .next (s.issueReg (.guard o) fun x l => { guard := some (o.cnt.toNat + 1, (x.g.lane l).predN o.p o.n) })

/-- The target of a branch: from the first word after the whole instruction (R59). -/
def brTarget (next : DWord) (off : BitVec 18) : DWord := next + (off.signExtend 64 <<< 2)

def execBr (o : BrOps) (s : State) : Result :=
  .next (s.issueReg (.br o) fun x l =>
    if (x.g.lane l).predN o.p o.n then { jump := some (brTarget x.next o.off) } else {})
def execCall (o : BrOps) (s : State) : Result :=
  .next (s.issueReg (.call o) fun x l =>
    if (x.g.lane l).predN o.p o.n then { jump := some (brTarget x.next o.off), link := some x.next } else {})

/-! ## REGW (R115 to R117) -/

def wbaseOk (v : Word) : Bool := v.toNat % 16 == 0 && decide (v.toNat ≤ 912)

def execWbase (o : R1) (s : State) : Result :=
  .next (s.issueLanes (.wbase o)
    (fun x l => if wbaseOk (x.g.src l o.a) then none
      else some { code := cWindow, detail := (x.g.src l o.a).setWidth 64 })
    noChk (fun x l => { wbase := some ((x.g.src l o.a).setWidth 10) }) true)

/-- Names allotted on a core to the threads of teams (R116). -/
def State.coreNames (s : State) (core : Nat) : Nat :=
  (s.groups.filter fun g => g.core == core && !g.away && !g.kind.isHandler).foldl (fun n g => n + 32 * g.allot) 0

/-- Whether GROW succeeds (R116). -/
def State.growOk (s : State) (g : Group) (q : Nat) : Bool :=
  if q < 16 || 1024 < q || q % 16 != 0 then false
  else if q ≤ g.allot then true
  else decide (s.coreNames g.core + 32 * (q - g.allot) ≤ 1048576)

def execGrow (o : R2) (s : State) : Result :=
  .next (s.issueAct (.grow o) noChk noChk fun s x _ =>
    let q := (x.g.src x.lead o.a).toNat
    let ok := s.growOk x.g q
    { s := if ok && decide (x.g.allot < q) then s.updGroup x.g.gid fun g => { g with allot := q } else s
      out := fun _ => outD o.d (if ok then 1 else 0) })

/-- Names from q up hold no value (R42, R117). -/
def Group.dropNames (g : Group) (q : Nat) : Group :=
  let g := g.mapLanes fun _ x => { x with names := x.names.filter fun p => p.1 < q }
  { g with allot := q }

/-- An unlanded result with a destination among the names to be released: it is waited for (R117). -/
def Group.owedFrom (g : Group) (q : Nat) : Option Nat :=
  (g.owed.find? fun o => !o.landed && o.lanes.any fun x => x.ids.any fun id => q ≤ id && id < 1024).map Owed.id

/-- What SHRINK waits for: such a result, or a WAITV with its D among the names (R117). -/
def State.shrinkWaits (s : State) (g : Group) (q : Nat) : Option Park :=
  ((g.owedFrom q).map Park.owed).orElse fun _ =>
    (s.monitors.find? fun m => m.gid == g.gid && m.dst.any fun id => q ≤ id && id < 1024).map fun m => .monitor m.id

/-- SHRINK: a bound at or above the allotment does nothing, whatever it is (R117, R327; log entry 14). -/
def execShrink (o : R1) (s : State) : Result :=
  .next (s.issueAct (.shrink o)
    (fun x _ =>
      let q := x.g.src x.lead o.a
      if q.toNat < x.g.allot && (q.toNat < 16 || q.toNat % 16 != 0) then some { code := cWindow, detail := q.setWidth 64 } else none)
    noChk fun s x _ =>
      let q := (x.g.src x.lead o.a).toNat
      if x.g.allot ≤ q then { s := s }
      else match s.shrinkWaits x.g q with
        | some p => { s := s, halt := some p }
        | none => { s := s.updGroup x.g.gid fun g => g.dropNames q })

end Sys2Proof.Machine
end

