-- ==== Sys2Proof/Machine/Launch.lean ====
section
/-!
DEFINITION. Launching grids (R231 to R235): records, queues, the journal (R381, R382), dependences; contexts as a
partition reads them (R154, R278, R342); the device's own accesses for a grid (R343).
-/
namespace Sys2Proof.Machine

/-! ## Launch records (R231) -/

def recShape (r : List Byte) : Nat := blk r 0x18 4
def recP (r : List Byte) : Nat := recShape r % 64
def recC (r : List Byte) : Nat := recShape r / 2 ^ 8 % 64
def recPbud (r : List Byte) : Nat := recShape r / 2 ^ 16 % 128
def recCbud (r : List Byte) : Nat := recShape r / 2 ^ 23 % 128
def recScratch (r : List Byte) : Nat := blk r 0x1C 4
def recAcc (r : List Byte) : Nat := blk r 0x20 4
def recRes (r : List Byte) : Nat := blk r 0x24 4
def recTiles (r : List Byte) : Nat := recRes r % 2048
def recBars (r : List Byte) : Nat := recRes r / 2 ^ 16 % 128
def recSbars (r : List Byte) : Nat := recRes r / 2 ^ 24 % 128
def recQctl (r : List Byte) : Nat := blk r 0x28 4
def recQueue (r : List Byte) : Nat := recQctl r % 16
def recStaged (r : List Byte) : Bool := recQctl r / 2 ^ 10 % 2 == 1
def recRestart (r : List Byte) : Bool := recQctl r / 2 ^ 9 % 2 == 1
def recDep (r : List Byte) : DWord := BitVec.ofNat 64 (blk r 0x30 8)
def recDepval (r : List Byte) : Nat := blk r 0x38 8
def recCmp (r : List Byte) : DWord := BitVec.ofNat 64 (blk r 0x40 8)
def recEv (r : List Byte) : DWord := BitVec.ofNat 64 (blk r 0x48 8)
def recEntry (r : List Byte) : DWord := BitVec.ofNat 64 (blk r 0 8)

/-- Staging region k: source, destination and length, when it is used (R135). -/
def recRegion (r : List Byte) (k : Nat) : Option (DWord × Nat × Nat) :=
  let g := blk r (0x70 + 4 * k) 4
  let src := BitVec.ofNat 64 (blk r (0x50 + 8 * k) 8)
  let src := if recQctl r / 2 ^ (12 + k) % 2 = 1 then src + BitVec.ofNat 64 (blk r 8 8) else src
  if recStaged r && g % 2 ^ 14 != 0 then some (src, g / 2 ^ 14 * 16, g % 2 ^ 14 * 16) else none

/-- Every field is within R231. -/
def recValid (r : List Byte) : Bool :=
  let p := recP r
  let c := recC r
  blk r 0 8 % 4 == 0 && decide (1 ≤ blk r 0x10 4 ∧ blk r 0x10 4 < 2 ^ 31) && blk r 0x14 2 != 0 && blk r 0x16 2 != 0 &&
  recShape r / 2 ^ 30 == 0 && recShape r / 2 ^ 6 % 4 == 0 && decide (p ≤ 32 ∧ c ≤ 32 ∧ 1 ≤ p + c ∧ p + c ≤ 32) &&
  (p == 0 || decide (1 ≤ recPbud r ∧ recPbud r ≤ 64)) && (c == 0 || decide (1 ≤ recCbud r ∧ recCbud r ≤ 64)) &&
  recScratch r % 128 == 0 && decide (recScratch r ≤ 3145728) && recAcc r % 16384 == 0 && decide (recAcc r ≤ 4194304) &&
  recRes r / 2 ^ 31 == 0 && recRes r / 2 ^ 23 % 2 == 0 && recRes r / 2 ^ 11 % 32 == 0 && decide (recTiles r ≤ 1024) &&
  decide (recBars r ≤ 64 ∧ recSbars r ≤ 64) && recQctl r / 2 ^ 16 == 0 && recQctl r / 2 ^ 11 % 2 == 0 &&
  recQctl r / 2 ^ 7 % 4 == 0 && blk r 0x2C 4 == 0 &&
  ((List.range 4).all fun k => match recRegion r k with
    | some (_, dst, len) => decide (dst + len ≤ recScratch r)
    | none => true) &&
  blk r 0x30 8 % 8 == 0 && blk r 0x40 8 % 32 == 0 && blk r 0x48 8 % 8 == 0

/-- The queue is granted to the context (R279). -/
def Partition.granted (p : Partition) (q ctx : Nat) : Bool :=
  let w := (p.qown.getD q 0).toNat
  w / 2 ^ 16 % 2 == 1 && w % 2 ^ 16 == ctx

/-! ## LAUNCH (R232, R329) -/

def execLaunch (o : DaOps) (s : State) : Result :=
  let ra := fun (x : Issue) => x.g.src64 x.lead o.a
  .next (s.issueAct (.launch o)
    (fun x _ => if (ra x).toNat % 128 = 0 then none
      else some { code := cMisaligned, faddr := ra x, detail := ra x, acc := .load })
    (fun x _ => if canonical (ra x) then none else some { code := cNoncanonical, faddr := ra x, acc := .load })
    fun st x _ =>
      match st.readRecord x s.curPark (ra x) 128 with
      | (s, .late f) => lateAll s x f
      | (s, .park p) => haltAt s p
      | (s, .ok r) =>
        if !(recValid r && (s.part x.g.part).granted (recQueue r) x.g.ctx) then
          stopAll s x { code := cQueue, detail := BitVec.ofNat 64 (recQueue r) }
        else
          let (s, id) := (s.release x.g.core .device).take
          let l : Launch := { gid := x.g.gid, hart := 0, rd := 0, owed := id, ctx := x.g.ctx, part := x.g.part, rcd := r }
          { s := s.updPart x.g.part fun p => { p with launches := p.launches ++ [l] }, owes := true, id := id })

/-! ## The journal (R381, R382) -/

/-- Partition-relative address of byte `off` of stack `stk` of a partition (R141). -/
def State.stackByte (s : State) (part stk off : Nat) : Nat :=
  if (s.part part).layout.getLsbD 0 then (off / 4096 * (2 * s.dieCount) + stk) * 4096 + off % 4096
  else stk / 2 * (s.part part).visible + (off / 4096 * 2 + stk % 2) * 4096 + off % 4096

def Grid.entryBytes (g : Grid) (st : Nat) : List Byte :=
  leBytes 8 g.seq ++ leBytes 4 st ++ leBytes 4 0 ++ leBytes 8 g.oldev.toNat ++ List.replicate 104 0 ++ g.rcd

/-- Write a grid's entry into both copies with a state: 0 free, 1 accepted, 2 issuing, 3 completing. STK numbers the part's stacks
(R7); a partition's own are consecutive from a multiple of their number (log entry 34). -/
def State.journal (s : State) (g : Grid) (st : Nat) : State :=
  let put := fun (s : State) (j : DWord) =>
    s.physWrite g.part (s.stackByte g.part (j.toNat / 2 ^ 60 % (2 * s.dieCount)) (j.toNat % 2 ^ 40 + 0x10000 * g.queue + 256 * (g.seq % 256)))
      (g.entryBytes st)
  put (put s (s.part g.part).jrn0) (s.part g.part).jrn1

/-! ## Acceptance (R232 to R234) -/

/-- Grids of a queue that have not completed, in acceptance order. -/
def State.queueGrids (s : State) (part queue : Nat) : List Grid :=
  s.grids.filter fun g => g.part == part && g.queue == queue

/-- Remove the first launch that names the queue. -/
def Partition.takeLaunch (p : Partition) (queue : Nat) : Option (Launch × Partition) :=
  (p.launches.find? fun l => recQueue l.rcd == queue).map fun l =>
    (l, { p with launches := dropFirst (fun x => recQueue x.rcd == queue) p.launches })

/-- A register of a hart; x0 reads 0. -/
def Hart.reg (h : Hart) (r : BitVec 5) : DWord := if r = 0 then 0 else h.x.getD (r.toNat - 1) 0
def Hart.setReg (h : Hart) (r : BitVec 5) (v : DWord) : Hart :=
  if r = 0 then h else { h with x := upd (r.toNat - 1) (fun _ => v) h.x }

def State.hart (s : State) (n : Nat) : Hart := s.harts.getD n {}
def State.updHart (s : State) (n : Nat) (f : Hart → Hart) : State := { s with harts := upd n f s.harts }

/-- Every agent of a partition acquires at system scope: its L1s let go of bytes invalidated by a home (R138). -/
def State.acquireAll (s : State) (part : Nat) : State :=
  (s.coresOf part).foldl (fun s c => s.acquire c .system) s

/-- The oldest waiting launch of a queue is accepted once the queue has room (R232); one without a dependence is satisfied by
that, which is an acquire at system scope (R235). -/
def State.acceptLaunch (s : State) (part queue : Nat) : State :=
  if 256 ≤ (s.queueGrids part queue).length then s
  else
    match (s.part part).takeLaunch queue with
    | none => s
    | some (l, p) =>
      let (s, uid) := s.take
      let seq := p.seqs.getD queue 0
      let g : Grid := {
        uid := uid
        part := part
        queue := queue
        seq := seq
        ctx := l.ctx
        gridh := Config.gridhBase + BitVec.ofNat 32 uid
        rcd := l.rcd
        depMet := recDep l.rcd == 0 }
      let s := s.updPart part fun _ => { p with seqs := upd queue (· + 1) p.seqs }
      let s := { s with grids := s.grids ++ [g] }.journal g 1
      let s := if g.depMet then s.acquireAll part else s
      if l.gid = 0 then s.updHart l.hart fun h => { (h.setReg l.rd (BitVec.ofNat 64 seq)) with waiting := false, pc := h.pc + 4 }
      else s.updGroup l.gid fun g => g.landOwed l.owed fun _ => wordsOf seq 2

def execLaunchAccept (part queue : Nat) (s : State) : Result := .next (s.acceptLaunch part queue)

/-! ## Contexts (R154, R278, R342) -/

/-- The translation descriptor of a context, judged (R154, R342), beside what `old` says of its memory. An LBASE or LSIZE that is
no multiple of 2 MiB is used as it stands (log entry 34). -/
def State.readDesc (s : State) (part ctx : Nat) (old : Ctx) : State × Option Ctx :=
  let (s, d) := s.physRead part ((s.part part).ctxbase.toNat + 32 * ctx) 32
  let mode := blk d 0 4
  let c : Ctx := { old with
    regime := mode % 4
    heaten := mode / 2 ^ 8 % 2 == 1
    pasid := blk d 4 4
    root := blk d 8 8
    lbase := blk d 0x10 8
    lsize := blk d 0x18 8 }
  let zeros := mode / 2 ^ 9 == 0 && mode / 4 % 2 ^ 6 == 0 && decide (c.pasid < 2 ^ 20)
  let rooted := c.regime == 2 && c.lsize == 0 || (c.root % 4096 == 0 && decide (s.physOf part c.root ≠ .nothing))
  (s, if zeros && (c.regime == 1 || c.regime == 2) && rooted then some c else none)

/-- A context of which nothing is translated. -/
def noCtx (ctx : Nat) : Ctx :=
  { ctx := ctx, regime := 0, heaten := false, pasid := 0, root := 0, lbase := 0, lsize := 0, celsize := 0, fvt := 0 }

/-- The entry of the context memory table and the descriptor of a context, judged (R278, R342). -/
def State.readCtx (s : State) (part ctx : Nat) : State × Option Ctx :=
  let p := s.part part
  if p.ctxn ≤ ctx then (s, none)
  else
    let (s, e) := s.physRead part (p.cmtbase.toNat + 64 * ctx) 64
    let entryOk := blk e 0 8 % 4096 == 0 && blk e 8 8 % 4096 == 0 && blk e 0x10 8 % 4096 == 0 &&
      decide (3 * 2 ^ 20 * (8 * s.dieCount) ≤ blk e 0x18 8) && (e.drop 0x28).all (· == 0)
    let (s, c) := s.readDesc part ctx { noCtx ctx with celsize := blk e 8 8, fvt := blk e 0x20 8 }
    (s, if entryOk then c else none)

def Partition.putCtx (p : Partition) (c : Ctx) : Partition := { p with ctxs := kset Ctx.ctx c p.ctxs }

/-- A context whose tables cannot be trusted ends (R342): nothing of it is translated any more. -/
def State.badCtx (s : State) (part ctx : Nat) : State :=
  (s.updPart part fun p => p.putCtx { noCtx ctx with ended := true }).endContext part ctx cDouble

/-- The context is checked when a span of it is first admitted, or when a grid of it first reads memory before that. -/
def State.admitCtx (s : State) (part ctx : Nat) : State × Bool :=
  match s.ctx? part ctx with
  | some c => (s, !c.ended)
  | none =>
    match s.readCtx part ctx with
    | (s, some c) => (s.updPart part fun p => p.putCtx c, true)
    | (s, none) => (s.badCtx part ctx, false)

/-! ## The device's own accesses (R343) -/

/-- Where an access of the device for a grid comes to. -/
inductive GridAt where
  | ok (r : Reach)
  | ap (d : ApDesc)
  | wait
  | flt (code : Nat)
  deriving DecidableEq, Repr

/-- For whom a grid's own accesses translate: an ordinary group of it. -/
def State.gridWho (s : State) (g : Grid) : Who where
  part := g.part
  ctx := g.ctx
  core := s.firstCore g.part
  deny := g.deny.map fun d => (d.1, some d.2.1, { code := d.2.2.1, detail := d.2.2.2 })
  after := if g.wait.any AccWait.after then some g.waitVp else none

/-- A wait of the grid has been answered. -/
def State.gridFree (s : State) (g : Grid) : Bool :=
  match g.wait with
  | none => true
  | some w => s.waitOver g.part g.ctx w

/-- Translate an address for a grid and judge its place; the grid waits where a page or a translation is not there. -/
def State.gridReach (s : State) (uid : Nat) (n : Need) (va : DWord) (len : Nat) (reads : Bool) : State × GridAt :=
  match s.grid? uid with
  | none => (s, .wait)
  | some g =>
    let w := s.gridWho g
    let put := fun (s : State) (x : Option AccWait) => s.updGrid uid fun y => { y with wait := x, waitVp := transBits va / 4096 }
    let s := (s.admitCtx g.part g.ctx).1
    let regime := ((s.ctx? g.part g.ctx).map Ctx.regime).getD 0
    if s.rewindowing g.part || !s.gridFree g then (s, .wait)
    else if regime = 0 then (put s none, .flt cDouble)
    else if !canonical va then (put s none, .flt cNoncanonical)
    else
      match s.reach w n va with
      | (s, .flt f) => (put s none, .flt f.code)
      | (s, .ats r) => (put s (some (.ats r (w.afterAt va))), .wait)
      | (s, .missing) =>
        match s.absentFlt w va with
        | some f => (put s none, .flt f.code)
        | none =>
          let vp := transBits va / 4096
          (put (s.requestPage g.part g.ctx vp n.w) (some (s.pageOrRoom g.part g.ctx vp n.w)), .wait)
      | (s, .ok e pa) =>
        let s := put s none
        match s.placeOf g.part e pa with
        | .aperture desc =>
          match s.apOpen none g.part desc n.w with
          | (s, .error f) => (s, .flt f.code)
          | (s, .ok d) => (s, .ap d)
        | pl =>
          match reachOf pl pa va len with
          | none => (s, .flt (fltNoPlace e).code)
          | some r =>
            match (s.refuseFlt w .none n (e, r)).orElse fun _ => s.placeFlt g.part w.core r reads none true with
            | some f => (s, .flt f.code)
            | none => (s.noteBound w.core (e, r), .ok r)

/-- Read bytes for a grid at their home. -/
def State.gridRead (s : State) (g : Grid) (va : DWord) (n : Nat) (a : GridAt) : State × Nat :=
  match a with
  | .ok r =>
    let (s, bs) := (s.atHomeNow g.part r false).homeRead r.key n
    (s, leNat bs)
  | .ap d => (s, leNat (s.apRead g.part d (apAddr va) n))
  | _ => (s, 0)

/-- Write bytes for a grid at their home. -/
def State.gridWrite (s : State) (g : Grid) (va : DWord) (bs : List Byte) (a : GridAt) : State :=
  match a with
  | .ok r => (((s.atHomeNow g.part r true).touch r.key r.n).homeWrite r.key bs).clearPoison r.key r.n
  | .ap d => s.apWrite g.part d (apAddr va) bs
  | _ => s

/-! ## Dependences (R235, R380) -/

/-- The head of a queue: its oldest grid whose teams have not all been issued (R234). -/
def State.headOf (s : State) (part queue : Nat) : Option Grid :=
  (s.queueGrids part queue).find? fun g => !g.issued && decide (g.st = .queued)

/-- A grid is reported failed with a code; its queue moves on (R343, R380). -/
def State.failGrid (s : State) (uid code : Nat) : State :=
  s.updGrid uid fun g => { g with st := .failed code, issued := true, depMet := true, depKey := none, wait := none }

/-- The dependence of a head grid is tested, or its armed monitor has seen the value (R235). -/
def State.testDep (s : State) (part queue : Nat) : State :=
  match s.headOf part queue with
  | none => s
  | some g =>
    if g.depMet then s
    else if g.depKey.isSome then
      if g.depHit then (s.updGrid g.uid fun x => { x with depMet := true, depKey := none }).acquireAll part else s
    else
      match s.gridReach g.uid needR (recDep g.rcd) 8 true with
      | (s, .wait) => s
      | (s, .flt c) => s.failGrid g.uid c
      | (s, a) =>
        let (s, v) := s.gridRead g (recDep g.rcd) 8 a
        if recDepval g.rcd ≤ v then (s.updGrid g.uid fun x => { x with depMet := true }).acquireAll part
        else match a with
          | .ok r => s.updGrid g.uid fun x => { x with depKey := some r.key }
          | _ => s

def execDependenceSatisfied (part queue : Nat) (s : State) : Result := .next (s.testDep part queue)

/-! ## rh.launch (R233) -/

/-- The hart whose turn it is. -/
def State.hartNow (s : State) : Option Nat :=
  match s.turn with
  | .hart n => some n
  | _ => none

/-- The refusals of R233 that do not lie in the record's address. -/
def State.rhRefused (s : State) (part ctx : Nat) (r : List Byte) : Bool :=
  decide (s.partCount ≤ part) || decide ((s.part part).ctxn ≤ ctx) || !recValid r || (s.ctx? part ctx).any Ctx.ended

end Sys2Proof.Machine
end

