-- ==== Sys2Proof/Machine/Fetch.lean ====
section
/-!
DEFINITION. Fetching instructions: the words at a PC through the group's translation (R57, R131, R162, R295), what they
decode to, and the two ways in which a group stops there: words that are not an instruction (R318 to R321) and an address
that cannot be fetched (R295).
-/
namespace Sys2Proof.Machine

/-- What fetching comes to. -/
inductive Fetched where
  | words (ws : List Word)
  | flt (f : Flt)
  | wait (p : Park)
  deriving DecidableEq, Repr

/-- Fetch one word. A page that is not present parks the group (R247); the register aperture holds no instructions
(log entry 23). -/
def State.fetchWord (s : State) (g : Group) (va : DWord) : State × Fetched :=
  let w := { g.who with deny := g.park.deny, after := g.park.after }
  let bad := fun (f : Flt) => Fetched.flt { f with faddr := va, acc := .fetch }
  if !canonical va then (s, bad { code := cNoncanonical })
  else
    match s.reach w needX va with
    | (s, .flt f) => (s, bad f)
    | (s, .ats r) => (s, .wait (.xlate (transBits va / 4096) (some (r, w.afterAt va))))
    | (s, .missing) =>
      match s.absentFlt w va with
      | some f => (s, bad f)
      | none => (s.requestPage w.part w.ctx (transBits va / 4096) false, .wait (.xlate (transBits va / 4096) none))
    | (s, .ok e pa) =>
      let pl := s.placeOf w.part e pa
      match pl, reachOf pl pa va 4 with
      | .aperture _, _ => (s, bad fltBarred)
      | _, none => (s, bad (fltNoPlace e))
      | _, some r =>
        let near := s.bytesNear w.core r.key r.n
        match (s.refuseNow w .fetch needX near (e, r)).orElse fun _ =>
            s.placeFlt w.part w.core r true (r.near .weak .core) true with
        | some f => (s, bad f)
        | none =>
          let (s, bs) := s.loadAt w.part w.core r .weak .core .normal
          (if near then s else s.noteBound w.core (e, r), .words [BitVec.ofNat 32 (leNat bs)])

/-- Fetch `n` words from an address on. -/
def State.fetchRest (g : Group) : Nat → State → DWord → List Word → State × Fetched
  | 0, s, _, ws => (s, .words ws)
  | n + 1, s, va, ws =>
    match s.fetchWord g va with
    | (s, .words w) => State.fetchRest g n s (va + 4) (ws ++ w)
    | r => r

/-- Fetch the words of the instruction at an address: as many as its base word implies (R57). -/
def State.fetchAt (s : State) (g : Group) (va : DWord) : State × Fetched :=
  match s.fetchWord g va with
  | (s, .words [w]) => State.fetchRest g (wordCount w.toNat - 1) s (va + 4) [w]
  | r => r

/-- The instruction of fetched words. -/
def issueOfWords (ws : List Word) : Instr := decodeIssue (ws.getD 0 0) (ws.getD 1 0) (ws.getD 2 0) (ws.getD 3 0)

/-- The words that a group issues next: those of a replay, else those at its issue address (R312). -/
def State.fetchNext (s : State) (g : Group) : State × Fetched :=
  match g.issueAddr with
  | none => (s, .words [])
  | some ia =>
    match g.issueReplay with
    | some r => if r.fetch then s.fetchAt g ia else (s, .words r.words)
    | none => s.fetchAt g ia

/-- The instruction at an address as the group would fetch it now, if it can. -/
def State.instrAt (s : State) (g : Group) (pc : DWord) : Option Instr :=
  match (s.fetchAt g pc).2 with
  | .words ws => some (issueOfWords ws)
  | _ => none

/-- The mask word of a safe point (R31). -/
def instrMask (i : Instr) : Option Word := (Instr.enc i).bind Enc.mask

/-! ## Words that are not an instruction (R318 to R321, R328) -/

/-- Words that only a handler group may issue, whatever else they hold (R320). -/
def privWord (n : Nat) : Bool :=
  let sreg := fun (x : Nat) => 0x40 ≤ x && x ≤ 0x46
  bitsAt n 26 6 == 0x3F ||
    (bitsAt n 26 6 == 0 && bitsAt n 0 4 == 9 && sreg (bitsAt n 4 7)) ||
    (bitsAt n 26 6 == 0 && bitsAt n 0 4 == 10 && sreg (bitsAt n 18 7))

/-- TLBI and MIGR, whatever else the words hold: PRIV SUB 5 and 6 (R320). -/
def fullWord (n m : Nat) : Bool := bitsAt n 26 6 == 0x3F && (bitsAt m 26 6 == 5 || bitsAt m 26 6 == 6)

/-- The code of words that are not an instruction; none where they are one. -/
def wordCode (k : GKind) (w0 w1 w2 w3 : Word) : Option Nat :=
  match decodeWords w0 w1 w2 w3 with
  | .ok _ => none
  | .error b =>
    if (!k.isHandler && privWord w0.toNat) || (!k.isFull && fullWord w0.toNat w1.toNat) then some cPrivileged
    else some (match b with
      | .illegal => cIllegal
      | .literalMisuse => cLiteral)

/-- Freeze every lane that stands at the issue address early, whatever its guard (R318), or park the group while the
fault queue is full (R303). -/
def State.stopStanding (s : State) (x : Issue) (f : Flt) (grp : Bool) : State :=
  let fs := x.es.map fun l => (l, f)
  if s.queueBlocks x fs then s.park x.g.gid .queueFull else (s.park x.g.gid .none).raiseEarly x fs grp

def execIllegalEncoding (w0 w1 w2 w3 : Word) (s : State) : Result :=
  .next (match s.group? s.cur with
    | none => s
    | some g =>
      match issueOf g (.illegalEncoding w0 w1 w2 w3), wordCode g.kind w0 w1 w2 w3 with
      | some x, some c => s.stopStanding { x with nw0 := (fmtOf (bitsAt w0.toNat 26 6)).isNone } { code := c }
          (c == cLiteral && collectiveWord w0.toNat)
      | _, _ => s)

/-! ## An address that cannot be fetched (R295) -/

/-- The group stands at `pc`, which it fetches again: lanes freeze where that meets a fault. -/
def execFetchFault (gid : Nat) (pc : DWord) (s : State) : Result :=
  .next (match s.group? gid with
    | none => s
    | some g =>
      if g.issueAddr = some pc then
        match s.fetchAt g pc, issueOf g (.fetchFault gid pc) with
        | (s, .flt f), some x => s.stopStanding { x with words := [] } f false
        | (s, .wait p), _ => s.park gid p
        | (s, _), _ => s
      else s)

end Sys2Proof.Machine
end

