-- ==== Sys2Proof/Machine/Place.lean ====
section
/-!
DEFINITION. The distributor (R234 to R239): what a team needs of a core, the search for a place, admission of teams and
groups with their staging regions (R135).
-/
namespace Sys2Proof.Machine

/-! ## Needs (R237) -/

/-- What one team asks of a core. -/
structure Ask where
  slots : Nat
  names : Nat
  per : Nat                            -- groups of a team, for R238
  alloc : Nat
  acc : Nat
  bars : Nat
  deriving DecidableEq, Repr

/-- The scratchpad allocation of a rank (R237). -/
def Grid.alloc (g : Grid) (rank : Nat) : Nat :=
  if rank = 0 then (recScratch g.rcd + 16 * recSbars g.rcd + 127) / 128 * 128 else recScratch g.rcd

/-- Barrier slots of a rank. -/
def Grid.barNeed (g : Grid) (rank : Nat) : Nat := recBars g.rcd + (if rank = 0 then recSbars g.rcd else 0)

def Grid.ask (g : Grid) (rank : Nat) : Ask where
  slots := g.groupCount
  names := 512 * (g.pgrp * g.pbud + g.cgrp * g.cbud)
  per := g.groupCount
  alloc := g.alloc rank
  acc := recAcc g.rcd
  bars := g.barNeed rank

/-- Teams of a grid in span `x` (R17). -/
def Grid.teamsOf (g : Grid) (x : Nat) : Nat :=
  let left := g.teamCount - x * g.spanSize
  if left < g.spanSize then left else g.spanSize

/-- Teams that hold scratchpad on a core. -/
def State.teamsOn (s : State) (core : Nat) : List Team := s.teams.filter fun t => t.core == core

/-- Group slots in use by teams on a core. -/
def State.slotsUsed (s : State) (core : Nat) : List Nat :=
  (s.groups.filter fun g => g.core == core && !g.away && !g.kind.isHandler).map Group.slot

/-- Some operation booked at a barrier of the team has credits outstanding (R20). -/
def State.booked (s : State) (t : Team) : Bool :=
  s.ops.any fun o => !o.done && o.sid == t.sid && o.books.any fun k => !k.span && k.obj == t.rank

/-- Barrier slots in use on a core (R20). -/
def State.barsUsed (s : State) (core : Nat) : Nat :=
  ((s.teamsOn core).map fun t =>
    (if !t.finished || s.booked t then t.barMax else 0) +
    (if t.rank = 0 then ((s.span? t.sid).map Span.sbarMax).getD 0 else 0)).foldl (· + ·) 0

def step512 : Nat := 524288
def scratchMax : Nat := 3145728

/-- The division that a core takes for a team it has no scratchpad for (R238). -/
def newDivision (per alloc : Nat) : Nat :=
  let n := if per = 0 then 0 else 60 / per
  let want := if n * alloc < scratchMax then n * alloc else scratchMax
  ((if want < alloc then alloc else want) + step512 - 1) / step512

/-- The scratchpad fits the core's division, or a new one (R237, R238). -/
def State.scratchFits (s : State) (core : Nat) (a : Ask) : Bool :=
  let ts := s.teamsOn core
  if ts.isEmpty then decide (a.alloc ≤ scratchMax)
  else decide ((ts.map Team.alloc).foldl (· + ·) 0 + a.alloc ≤ (s.core core).divn * step512)

/-- The check of R237 on a core. -/
def State.coreFits (s : State) (core : Nat) (a : Ask) : Bool :=
  !(s.die (dieOf core)).lost &&
  decide ((s.slotsUsed core).length + a.slots ≤ 60) &&
  decide (s.coreNames core + a.names ≤ 1048576) &&
  s.scratchFits core a &&
  decide (s.accUsed core + a.acc ≤ 4194304) &&
  decide (s.barsUsed core + a.bars ≤ 128)

/-- The tile reserve fits the cluster (R210, R237). -/
def State.tilesFit (s : State) (part cluster tiles : Nat) : Bool :=
  let used := ((s.spans.filter fun x => x.home == .resident && x.cluster == cluster).map Span.reserve).foldl (· + ·) 0
  decide (used + tiles ≤ (s.part part).grancap)

/-- Ascending from `from` on, then from the start. -/
def cyclic (l : List Nat) (from' : Nat) : List Nat := l.filter (from' ≤ ·) ++ l.filter (· < from')

/-- Ranks on ascending cores (R236): the lowest core that each rank fits, above the one before. -/
def State.assign (s : State) : List Nat → List Ask → Option (List Nat)
  | _, [] => some []
  | [], _ :: _ => none
  | c :: cs, a :: as =>
    if s.coreFits c a then (s.assign cs as).map (c :: ·) else s.assign cs (a :: as)

/-- The cores that a span goes to, in rank order (R236); `size` is the grid's span size. -/
def State.findSite (s : State) (part size tiles : Nat) (asks : List Ask) : Option (List Nat) :=
  if size = 1 then
    (cyclic (s.coresOf part) (s.part part).scanCore).findSome? fun c =>
      if s.tilesFit part (clusterOf c) tiles then s.assign [c] asks else none
  else
    (cyclic (s.clustersOf part) (s.part part).scanCluster).findSome? fun cl =>
      if s.tilesFit part cl tiles then s.assign (clusterCores cl) asks else none

/-- The next scan starts after the place last used: a scan for single teams after the last core that such a scan used, one for larger
spans after the last cluster that such a scan used (R236; log entry 50). -/
def State.scanFrom (s : State) (part size : Nat) (cores : List Nat) : State :=
  s.updPart part fun p =>
    if size = 1 then { p with scanCore := cores.headD 0 + 1 } else { p with scanCluster := clusterOf (cores.headD 0) + 1 }

/-! ## Seats (R238, R239) -/

/-- The quarter with the fewest groups (R239). -/
def State.fewest (s : State) (core : Nat) : Nat :=
  let n := fun (q : Nat) => (s.groups.filter fun g => g.core == core && !g.away && g.quarter == q).length
  (List.range 4).foldl (fun q r => if n r < n q then r else q) 0

/-- Seat an ordinary group on a core: the lowest free slot, a quarter, an age. -/
def State.seat (s : State) (core : Nat) (g : Group) : State :=
  let g := { g with
    core := core
    away := false
    slot := (freeSlot (s.slotsUsed core) 0 60).getD 60
    quarter := s.fewest core
    age := (s.core core).nextAge }
  let s := s.updCore core fun c => { c with nextAge := c.nextAge + 1 }
  if (s.group? g.gid).isSome then s.setGroup g else { s with groups := s.groups ++ [g] }

/-- A core without residents divides its array anew where it must (R238). -/
def State.divide (s : State) (core per alloc : Nat) : State :=
  if (s.teamsOn core).isEmpty && decide ((s.core core).divn * step512 < alloc) then
    s.updCore core fun c => { c with divn := newDivision per alloc }
  else s

/-- The scalars of a new group: one copy each, 0, held by all lanes (R19, R27). -/
def newScalars : List ScCopy := (List.range 14).map fun r => ⟨r, BitVec.allOnes 32, 0⟩

/-- A group as it starts (R19). -/
def newGroup (gid tid part ctx k allot : Nat) (producer : Bool) (entry : DWord) (lanes : Nat) : Group where
  gid := gid
  tid := tid
  part := part
  ctx := ctx
  core := 32
  slot := 0
  quarter := 0
  age := 0
  grpix := k
  producer := producer
  budget := allot
  allot := allot
  lanes := List.replicate lanes { pc := entry }
  scal := newScalars

/-- A staging region is scheduled (R133, R135). -/
def State.stageRegion (s : State) (g : Grid) (t : Team) (gid k : Nat) : State :=
  match recRegion g.rcd k with
  | none => s
  | some (src, dst, len) =>
    let (s, id) := s.take
    let o : AOp := {
      id := id
      gid := gid
      tid := t.tid
      sid := t.sid
      uid := g.uid
      core := t.core
      cls := none
      pc := recEntry g.rcd
      instr := .nop none
      lanes := 0
      kind := .stage k src dst len }
    (s.addOp o).linesIn o

/-- Admit a team to a core with its groups and staging regions. -/
def State.admitTeam (s : State) (g : Grid) (sid rank core : Nat) : State :=
  let (s, tid) := s.take
  let t : Team := {
    tid := tid
    sid := sid
    rank := rank
    t := g.nextSpan * g.spanSize + rank
    core := core
    alloc := g.alloc rank
    accSize := recAcc g.rcd
    barMax := recBars g.rcd }
  let s := s.divide core g.groupCount t.alloc
  let s := { s with teams := s.teams ++ [t] }
  let first := s.fresh
  let s := (List.range g.groupCount).foldl (fun (s : State) k =>
    let (s, gid) := s.take
    let prod := decide (k < g.pgrp)
    s.seat core (newGroup gid tid g.part g.ctx k (16 * (if prod then g.pbud else g.cbud)) prod (recEntry g.rcd) 32)) s
  (List.range 4).foldl (fun s k => s.stageRegion g t first k) s

/-- Admit the next span of a grid to cores (R236). -/
def State.admitSpan (s : State) (g : Grid) (cores : List Nat) : State :=
  let (s, sid) := s.take
  let (s, age) := s.take
  let x : Span := {
    sid := sid
    uid := g.uid
    index := g.nextSpan
    count := cores.length
    age := age
    cluster := clusterOf (cores.headD 0)
    reserve := recTiles g.rcd * cores.length
    sbarMax := recSbars g.rcd
    sbarBase := recScratch g.rcd }
  let s := if g.nextSpan = 0 then s.journal g 2 else s
  let s := { s with spans := s.spans ++ [x] }
  let s := (imap (fun r c => (r, c)) 0 cores).foldl (fun (s : State) p => s.admitTeam g sid p.1 p.2) s
  let done := decide (g.teamCount ≤ (g.nextSpan + 1) * g.spanSize)
  (s.scanFrom g.part g.spanSize cores).updGrid g.uid fun y => { y with nextSpan := y.nextSpan + 1, issued := done }

/-! ## Serving the queues (R234, R236, R249) -/

/-- The place for the next span of a grid. -/
def State.nextSite (s : State) (g : Grid) : Option (List Nat) :=
  let n := g.teamsOf g.nextSpan
  s.findSite g.part g.spanSize (recTiles g.rcd * n) ((List.range n).map g.ask)

/-- The heads of a partition whose dependence is satisfied, by queue. -/
def State.heads (s : State) (part : Nat) : List Grid :=
  (List.range 16).filterMap fun q =>
    (s.headOf part q).bind fun g => if g.depMet then some g else none

/-- A grid's queue priority, for a span in the cellar. -/
def State.spanPrio (s : State) (x : Span) : Nat := ((s.grid? x.uid).map Grid.prio).getD 7

def State.spanPart (s : State) (x : Span) : Nat := ((s.grid? x.uid).map Grid.part).getD 0

/-- Ordinary groups of a span. -/
def State.groupsOf (s : State) (sid : Nat) : List Group :=
  s.groups.filter fun g => !g.kind.isHandler && (s.team? g.tid).any fun t => t.sid == sid

/-- A page request that a group waits for has not been answered. -/
def State.unanswered (s : State) (g : Group) : Bool :=
  let out := fun (vp : Nat) (w : Bool) => ((s.part g.part).pageReq? g.ctx vp w).isSome
  (g.accs.any fun a => a.lanes.any fun q => match q.2 with
    | .page vp w => out vp w
    | _ => false) ||
  match g.park with
  | .xlate vp none => out vp false
  | _ => false

/-- A span in the cellar is ready to return (R249, R303). -/
def State.returnReady (s : State) (x : Span) : Bool :=
  let gs := s.groupsOf x.sid
  x.home == .cellar && gs.all (fun g => !s.unanswered g) && match x.away with
  | some .priority => !((s.heads (s.spanPart x)).any fun h => decide (h.prio < s.spanPrio x))
  | some (.faults c) =>
    gs.all (fun g => g.liveLanes.all fun l => match (g.lane l).hold with
      | .frozen _ => false
      | _ => true) && decide ((s.core c).fslots.length < 512)
  | _ => true

/-- A span that is ready to return is placed before this one (R249). -/
def State.behindReturn (s : State) (g : Grid) : Bool :=
  s.spans.any fun x => s.spanPart x == g.part && decide (s.spanPrio x ≤ g.prio) && s.returnReady x

/-- The distributor places work: not while the interface is in ERROR (R376). -/
def Partition.admits (p : Partition) : Bool := p.tdi != .error

/-- The head that the distributor serves next, with its place: the lowest PRIO among those that can be placed, and of equal
ones the next in turn after the one last served (R234, R236). -/
def State.served (s : State) (part : Nat) : Option (Grid × List Nat) :=
  if !(s.part part).admits then none
  else
    let able := (s.heads part).filterMap fun g =>
      if s.behindReturn g then none else (s.nextSite g).map fun c => (g, c)
    (minNat (able.map fun p => p.1.prio)).bind fun pr =>
      let mine := able.filter fun p => p.1.prio == pr
      let from' := (s.part part).scanQueues.getD pr 0
      (mine.filter (fun p => decide (from' ≤ p.1.queue)) ++ mine).head?

def State.placeSpan (s : State) (part queue : Nat) : State :=
  match s.served part with
  | none => s
  | some (g, cores) =>
    if g.queue != queue then s
    else
      match s.admitCtx part g.ctx with
      | (s, false) => if (s.grid? g.uid).any fun x => x.st == .queued then s.failGrid g.uid cDouble else s
      | (s, true) => (s.admitSpan g cores).updPart part fun p => { p with scanQueues := upd g.prio (fun _ => queue + 1) p.scanQueues }

def execDistributorPlaceSpan (part queue : Nat) (s : State) : Result := .next (s.placeSpan part queue)

end Sys2Proof.Machine
end

