-- ==== Sys2Proof/Machine/Swap.lean ====
section
/-!
DEFINITION. Pre-emption and the cellar (R32 to R35, R247 to R250, R303, R345, R362, R363): asking for it, withdrawing it,
saving a span, bringing it back; and the small releases of waiting groups (R24, R36).
-/
namespace Sys2Proof.Machine

/-! ## Safe points (R32) -/

/-- The instruction at a group's issue address. -/
def State.nextInstr (s : State) (g : Group) : Option Instr :=
  match (s.fetchNext g).2, g.issueAddr with
  | .words ws, some _ => some (issueOfWords ws)
  | _, _ => none

/-- A group sits at a safe point, is parked on a page, or has no live lane (R32, R247). -/
def State.groupSafe (s : State) (g : Group) : Bool :=
  g.liveLanes.isEmpty || s.pageParked g || g.eligibleLanes.isEmpty ||
    ((s.nextInstr g).bind instrMask).isSome

/-- Every result owed to the group has been delivered, but for accesses parked on a page or held for frozen lanes, PGREQ results,
and those of engine operations that are frozen (R34, R297, R348, R362). -/
def State.landedAll (s : State) (g : Group) : Bool :=
  let parked := fun (a : PendAcc) => a.lanes.all fun q => q.2.isPage && ((g.lane q.1.lane).isFrozen || s.pageOut g.part g.ctx q.2)
  g.accs.all parked && g.owed.all fun o =>
    o.landed || (g.accs.any fun a => a.owed == o.id) || s.ops.any fun p => p.held.isSome && p.kind.owes == some o.id

/-- The span may be saved now (R32, R34, R350); not where its pre-emption is to be withdrawn (R362). -/
def State.saveReady (s : State) (x : Span) : Bool :=
  let gs := s.groupsOf x.sid
  x.home == .resident && x.pre.isSome && !(x.pre == some .page && !gs.any s.pageParked) && s.cellarFits x && (x.forced || gs.all s.groupSafe) && gs.all s.landedAll &&
    s.ops.all fun o => o.sid != x.sid || o.done || o.held.isSome

/-! ## Dead items (R33) -/

/-- The live-state mask under which a group is saved; none: its whole state is saved. -/
def State.saveMask (s : State) (x : Span) (g : Group) : Option Word :=
  let whole := x.forced || s.pageParked g || g.liveLanes.any (fun l => (g.lane l).hold != .free) || (match x.pre with
    | some (.faults _) => true
    | _ => false)
  if whole || g.liveLanes.isEmpty then none
  else if g.eligibleLanes.isEmpty then
    let ms := g.liveLanes.map fun l => (s.instrAt g (g.lane l).at).bind instrMask
    if ms.all Option.isSome then some (ms.foldl (fun m y => m ||| y.getD 0) 0) else none
  else (s.nextInstr g).bind instrMask

/-- A window name that the mask leaves out. -/
def nameDead (m : Word) (x : Lane) (n : Nat) : Bool :=
  decide (x.wbase.toNat ≤ n) && decide (n < x.wbase.toNat + 112) && !m.getLsbD ((n - x.wbase.toNat) / 4)

/-- A scalar that the mask leaves out. -/
def scalarDead (m : Word) (r : Nat) : Bool := !m.getLsbD (if r < 7 then 28 else 29)

/-- Predicates p0 to p62 after the save, where `keep` says which dead ones hold. -/
def keepPreds (keep : Nat → Bool) (v : DWord) : DWord :=
  (List.range 63).foldl (fun (a : DWord) p => if v.getLsbD p && keep p then a ||| (1#64 <<< p) else a) 0

/-- A group as it returns from a save under a mask: each dead item holds its value or zero (R33, log entry 10). Item
numbers: 1024 * lane + name; 2^15 + 64 * lane + predicate; 2^15 + 2^12 + 64 * scalar + copy. -/
def Group.saved (g : Group) (m : Word) (keep : Nat → Bool) : Group :=
  let g := g.mapLanes fun l x =>
    let names := x.names.map fun p => if nameDead m x p.1 && !keep (1024 * l + p.1) then (p.1, (0 : Word)) else p
    { x with
      names := names
      preds := if m.getLsbD 30 then x.preds else keepPreds (fun p => keep (2 ^ 15 + 64 * l + p)) x.preds }
  let sc := imap (fun i (c : ScCopy) =>
    if scalarDead m c.r && !keep (2 ^ 15 + 2 ^ 12 + 64 * c.r + i) then { c with val := 0 } else c) 0 g.scal
  { g with scal := sc }

/-- A lane whose monitor is discarded issues its WAITV again, and one in BARWAIT its BARWAIT (R34, R189, R245). -/
def Lane.dropMonitor (x : Lane) : Lane :=
  match x.wait with
  | .waitv (_ + 1) _ => { x with wait := .none }
  | .bar _ _ _ _ => { x with wait := .none }
  | _ => x

/-- A group goes to the cellar with its span; its records still go to the fault queue of the core it was on (R303, R348). -/
def Group.stow (g : Group) : Group := { (g.mapLanes fun _ x => x.dropMonitor) with away := true, slot := 0, quarter := 0 }

/-- One group's part of a save. -/
def State.saveGroup (x : Span) (s : State) (g : Group) : State :=
  match s.saveMask x g with
  | none => s.updGroup g.gid Group.stow
  | some m =>
    let base := s.free
    ({ s with free := s.free + 2 ^ 16 }).updGroup g.gid fun g => (g.saved m fun i => Config.freeBool (base + i)).stow

/-! ## Save and return (R34, R35, R249, R262) -/

/-- The cores of a span's teams. -/
def State.spanCores (s : State) (sid : Nat) : List Nat := (s.teams.filter fun t => t.sid == sid).map Team.core

/-- A span leaves its cores. -/
def State.leave (s : State) (x : Span) : State :=
  let s := { s with teams := s.teams.map fun (t : Team) => if t.sid = x.sid then { t with core := 32 } else t }
  s.updSpan x.sid fun (y : Span) => { y with home := .cellar, away := y.pre, pre := none, forced := false }

def State.saveSpan (s : State) (sid : Nat) : State :=
  match s.span? sid with
  | none => s
  | some x =>
    if !s.saveReady x then s
    else
      let gs := s.groupsOf sid
      let s := (s.spanCores sid).foldl State.releaseDevice s
      let s := (gs.filter fun g => !g.liveLanes.isEmpty).foldl (State.saveGroup x) s
      let s := { s with monitors := s.monitors.filter fun m => !(gs.any fun g => g.gid == m.gid) }
      s.leave x

def execSpanSave (sid : Nat) (s : State) : Result := .next (s.saveSpan sid)

/-- What a returning team asks of a core: slots and names for the groups that still have a live lane, all else whole, as at
admission (R237, R363). -/
def State.askAgain (s : State) (g : Grid) (t : Team) : Ask :=
  let gs := s.groups.filter fun y => y.tid == t.tid && !y.kind.isHandler && !y.liveLanes.isEmpty
  { slots := gs.length
    names := 32 * (gs.map Group.allot).foldl (· + ·) 0
    per := g.groupCount
    alloc := t.alloc
    acc := t.accSize
    bars := t.barMax + (if t.rank = 0 then recSbars g.rcd else 0) }

/-- Teams of a span in rank order. -/
def State.ranked (s : State) (sid : Nat) : List Team := (List.range 4).filterMap fun r => s.rankTeam sid r

/-- A team comes back to a core, with the operations it still has. -/
def State.teamBack (s : State) (g : Grid) (t : Team) (core : Nat) : State :=
  let s := (s.divide core g.groupCount t.alloc).updTeam t.tid fun t => { t with core := core }
  let gs := s.groups.filter fun y => y.tid == t.tid && !y.kind.isHandler && !y.liveLanes.isEmpty
  let s := gs.foldl (fun s y => s.seat core y) s
  let s := { s with ops := s.ops.map fun (o : AOp) => if o.tid = t.tid && !o.done then { o with core := core } else o }
  s.acquire core .device

/-- Frozen matrix operations of a span stand in the reservation table of its new cluster. -/
def State.tableBack (s : State) (sid cl : Nat) : State :=
  let ids := (s.ops.filter fun o => o.sid == sid && !o.done).map AOp.id
  let mine := (s.clusters.map fun (c : Cluster) => c.table.filter fun e => ids.contains e.1).flatten
  let s := { s with clusters := s.clusters.map fun (c : Cluster) => { c with table := c.table.filter fun e => !ids.contains e.1 } }
  s.updCluster cl fun c => { c with table := c.table ++ mine }

/-- No other span that is ready to return has a smaller PRIO. -/
def State.returnFirst (s : State) (x : Span) : Bool :=
  s.spans.all fun y => !(s.spanPart y == s.spanPart x && decide (s.spanPrio y < s.spanPrio x) && s.returnReady y)

def State.returnSpan (s : State) (sid : Nat) : State :=
  match s.span? sid with
  | none => s
  | some x =>
    match s.grid? x.uid with
    | none => s
    | some g =>
      let ts := s.ranked sid
      if !(s.returnReady x && s.returnFirst x && (s.part g.part).admits) then s
      else
        match s.findSite g.part g.spanSize x.reserve (ts.map (s.askAgain g)) with
        | none => s
        | some cores =>
          let s := (ts.zip cores).foldl (fun (s : State) p => s.teamBack g p.1 p.2) s
          let cl := clusterOf (cores.headD 0)
          let s := (s.tableBack sid cl).scanFrom g.part g.spanSize cores
          s.updSpan sid fun x => { x with home := .resident, cluster := cl, away := none }

def execSpanReturn (sid : Nat) (s : State) : Result := .next (s.returnSpan sid)

/-! ## Asking for pre-emption -/

def execPageParkTimeout (gid : Nat) (s : State) : Result :=
  .next (match s.group? gid with
    | some g =>
      match s.spanOf g with
      | some x => if s.pageParked g && !g.kind.isHandler then s.askPre x.sid .page else s
      | none => s
    | none => s)

def execForcedSaveTimeout (sid : Nat) (s : State) : Result :=
  .next (s.updSpan sid fun x => if x.pre.isSome then { x with forced := true } else x)

/-- Before its image is begun, with no group parked on a page, a pre-emption asked for by R247 is withdrawn (R362). -/
def execPreemptionWithdraw (sid : Nat) (s : State) : Result :=
  .next (s.updSpan sid fun x =>
    if x.pre = some .page && !((s.groupsOf sid).any s.pageParked) then { x with pre := none, forced := false } else x)

/-- The span whose removal lets the head pass: of the largest PRIO, the youngest (R248). -/
def State.victim (s : State) (g : Grid) : Option Span :=
  let able := s.spans.filter fun x =>
    s.spanPart x == g.part && x.home == .resident && x.pre.isNone && decide (g.prio < s.spanPrio x) && s.cellarFits x &&
      (((s.groupsOf x.sid).foldl (fun (s : State) y => s.updGroup y.gid Group.stow) s).leave x |>.nextSite g).isSome
  able.foldl (fun best x => match best with
    | none => some x
    | some y =>
      if s.spanPrio y < s.spanPrio x || (s.spanPrio x == s.spanPrio y && decide (y.age < x.age)) then some x else some y) none

/-- A head that finds no place asks for one span's pre-emption at a time (R248). -/
def execPriorityPreemption (part queue : Nat) (s : State) : Result :=
  .next (match s.headOf part queue with
    | none => s
    | some g =>
      let asked := s.spans.any fun x => s.spanPart x == part && x.pre == some .priority
      if !g.depMet || asked || (s.nextSite g).isSome then s
      else
        match s.victim g with
        | some x => s.askPre x.sid .priority
        | none => s)

def execContextPreemptionRequest (part ctx : Nat) (s : State) : Result :=
  .next ((s.spans.filter fun x => (s.grid? x.uid).any fun g => g.part == part && g.ctx == ctx).foldl
    (fun s x => s.askPre x.sid .software) s)

/-! ## Groups that are ready, yields and promotion (R24, R25, R36) -/

/-- What a group is parked for has come (R25): it issues the instruction again. -/
def State.parkOver (s : State) (g : Group) : Bool :=
  let sid := ((s.team? g.tid).map Team.sid).getD 0
  match g.park with
  | .none => true
  | .line ln => (s.team? g.tid).all fun t => (t.absent (128 * ln) 128).isNone
  | .lock off len => !s.locked g.tid off len s.fresh
  | .full c => decide (g.qcnt.get c < 63)
  | .page => false
  | .tiles pc ns => ns.all fun n => (s.bindOne g pc sid n).isSome
  | .pending n => (s.span? sid).all fun x => decide ((x.tile n).st ≠ .pending)
  | .reserve => s.tileRoom sid
  | .owed id => g.owed.all fun o => o.landed || o.id != id
  | .monitor id => !(s.monitors.any fun m => m.id == id)
  | .flags => !s.flagsOwed g.gid
  | .table => !s.tableFull g.core
  | .queueFull => s.fqRoom g.core 1
  | .xlate vp none => ((s.part g.part).pageReq? g.ctx vp false).isNone && s.canRequest g.part g.ctx vp false
  | .xlate _ (some r) => !((s.part g.part).atsReqs.any fun q => q.id == r.1)
  | .answer _ _ _ => true

/-- The group has an eligible lane, is on its core, is not parked and waits for no access, and its partition does not wait for a new window table. -/
def State.ready (s : State) (g : Group) : Bool :=
  !g.away && !g.eligibleLanes.isEmpty && s.parkOver g && !g.blocked && !s.rewindowing g.part

/-- A yielding lane goes on once the group has issued without it, or no other lane is eligible (R24). -/
def Group.freeYields (g : Group) : Group :=
  let alone := g.eligibleLanes.isEmpty
  lanes32.foldl (fun (g : Group) l =>
    match (g.lane l).wait with
    | .yield met next =>
      if (met || alone) && (g.lane l).live && (g.lane l).hold == .free then g.pass l next else g
    | _ => g) g

/-- Lanes whose YIELD is over are eligible from this turn of the device on; the group may have issued more meanwhile (log entry
33). -/
def execYieldRelease (gid : Nat) (s : State) : Result := .next (s.updGroup gid Group.freeYields)

/-- A group that has been ready for its time without issuing, one whose parking is over among them, is promoted (R36). -/
def execGroupPromotion (gid : Nat) (s : State) : Result :=
  .next (s.updGroup gid fun g => if !g.kind.isFull && s.ready g then { g with promoted := true } else g)

end Sys2Proof.Machine
end

