-- ==== Sys2Proof/Machine/Finish.lean ====
section
/-!
DEFINITION. Spans that retire (R20, R112, R149) and grids that complete or fail: the completion record, the event
counter, the journal and the latch of faults met there (R240, R241, R309, R343, R382, R383).
-/
namespace Sys2Proof.Machine

/-! ## Spans -/

/-- An operation that its span's retirement waits for: one that writes scratchpad, accumulators or tile names (R20, R112). -/
def AOp.holdsSpan (o : AOp) : Bool :=
  !o.done && match o.kind with
  | .sta _ _ _ _ | .treadReg _ _ | .accldReg _ _ _ | .accgrow _ _ | .accshr _ => false
  | _ => true

/-- What a span that retires leaves: the STAs of its teams, whose sources are read now that every fill has come (R202); what
was still to come to registers or allocations ends (R112). -/
def State.leaveOps (s : State) (sid : Nat) : State :=
  (s.ops.filter fun o => o.sid == sid && !o.done).foldl (fun (s : State) o =>
    match o.kind with
    | .sta _ _ _ _ => s.readSource o.id
    | _ => s.opDone o.id) s

def State.spanOver (s : State) (x : Span) : Bool :=
  x.home == .resident && (s.teams.all fun t => t.sid != x.sid || t.finished) &&
    s.ops.all fun o => o.sid != x.sid || !o.holdsSpan

/-- The holds that a team still has are removed (R149). -/
def State.dropHolds (s : State) (tid : Nat) : State :=
  let bases := (s.granules.filter fun (g : Granule) => g.teams.any fun (h : TeamHold) => h.tid == tid).map Granule.base
  let cut := fun (g : Granule) => { g with
    hold := g.hold - ((kget TeamHold.tid tid g.teams).map TeamHold.holds).getD 0
    teams := kdel TeamHold.tid tid g.teams }
  let s := { s with granules := s.granules.map cut }
  bases.foldl State.holdsGone s

/-- Wherever a count of holds has returned to zero, what it deferred applies, also where a context's end took the holders
(R149, R309). -/
def State.holdsGoneAll (s : State) : State :=
  ((s.granules.filter fun g => decide (g.hold = 0) && !g.teNext.isEmpty).map Granule.base).foldl State.holdsGone s

def State.retireSpan (s : State) (sid : Nat) : State :=
  match s.span? sid with
  | none => s
  | some x =>
    if !s.spanOver x then s
    else
      let tids := (s.teams.filter fun t => t.sid == sid).map Team.tid
      let s := tids.foldl State.dropHolds (s.leaveOps sid)
      let s := { s with
        teams := s.teams.filter fun t => t.sid != sid
        spans := s.spans.filter fun y => y.sid != sid }
      s.updGrid x.uid fun g => { g with
        teams := g.teams + x.count
        mcdisc := g.mcdisc || x.mcdisc
        collabs := g.collabs || x.collabs
        bcdisc := g.bcdisc || x.bcdisc
        engflt := g.engflt || x.engflt }

def execSpanRetire (sid : Nat) (s : State) : Result := .next (s.retireSpan sid)

/-! ## Grids -/

/-- The fault code that failed a grid. -/
def Grid.code (g : Grid) : Nat :=
  match g.st with
  | .failed c => c
  | .queued => 0

def Grid.hasFailed (g : Grid) : Bool :=
  match g.st with
  | .failed _ => true
  | .queued => false

/-- STATUS of the completion record (R241). -/
def Grid.status (g : Grid) : Nat :=
  g.code * 2 ^ 16 + b2n g.collabs 32 + b2n g.mcdisc 16 + b2n g.engflt 8 + b2n g.bcdisc 4 + b2n g.hasFailed 1

/-- The 32 bytes of the completion record (R241). -/
def State.complBytes (s : State) (g : Grid) : List Byte :=
  leBytes 8 g.seq ++ leBytes 4 g.status ++ leBytes 4 g.gridh.toNat ++ leBytes 8 g.teams ++ leBytes 8 (s.clockOf g.part)

/-- The grid's work is done (R240), or it is to be reported failed. -/
def State.gridDone (s : State) (g : Grid) : Bool := g.hasFailed || s.gridIdle g

/-- The grid's turn to complete: its work is done and no earlier grid of its queue is left (R240). -/
def State.complReady (s : State) (g : Grid) : Bool :=
  s.gridDone g && ((s.queueGrids g.part g.queue).head?.any fun h => h.uid == g.uid)

/-- The entry of a function's MSI-X table for a vector (R270). -/
def State.msixOf (s : State) (pf n : Nat) : Msix := (kget Msix.key (64 * pf + n) s.msix).getD { key := 64 * pf + n }

/-- An MSI-X vector of a function is set: its message goes out, or is pending while the entry is masked (R270, R372). -/
def State.signal (s : State) (pf n : Nat) : State :=
  let e := s.msixOf pf n
  if e.masked then { s with msix := kset Msix.key { e with pending := true } s.msix } else s.send .msix pf [n, e.addr, e.data]

/-- An entry is written; a message that is pending goes out once it is unmasked. -/
def State.putMsix (s : State) (pf n addr data : Nat) (masked : Bool) : State :=
  if n < 64 then
    let wait := (s.msixOf pf n).pending
    let s := { s with msix := kset Msix.key ⟨64 * pf + n, addr, data, masked, wait && masked⟩ s.msix }
    if wait && !masked then s.signal pf n else s
  else s

/-- A report to the host: on PF0, for an error of partitions also on their functions, and an MSI-X vector of each (R372). -/
def State.reportOn (s : State) (cls : AerClass) (parts : List Nat) (what : ErrKind) : State :=
  let pfs := 0 :: parts.map (· + 1)
  let s := pfs.foldl (fun (s : State) pf => s.signal pf (s.errVecs.getD pf 0)) s
  { s with
    aer := s.aer ++ pfs.map fun pf => ⟨cls, pf, what⟩
    out := s.out ++ [⟨.interrupt, parts.headD 0, (pfs.map fun pf => [pf, s.errVecs.getD pf 0]).flatten⟩] }

def State.report (s : State) (cls : AerClass) (part : Option Nat) (what : ErrKind) : State := s.reportOn cls part.toList what

/-- A completion write or add met a fault: latched (R343). -/
def State.latchFault (s : State) (g : Grid) (code : Nat) (event : Bool) : State :=
  (s.updPart g.part fun p => { p with
    lfseq := BitVec.ofNat 64 g.seq
    lfcode := BitVec.ofNat 32 (code * 2 ^ 16 + b2n event 16 + g.queue) }).report .nonFatal (some g.part) .latched

/-- The store of every team of the grid, and the device's own writes, are one release at system scope (R240). -/
def State.releaseAll (s : State) (part : Nat) : State := (s.coresOf part).foldl State.releaseDevice s

def State.setGrid (s : State) (g : Grid) : State := s.updGrid g.uid fun _ => g

/-- The answer that a failed page request gave is used up. -/
def State.clearDeny (s : State) (uid : Nat) : State := s.updGrid uid fun g => { g with deny := none }

/-- Before the completion writes: the counter is read and journalled (R382). A fault met there discards the add and is latched
in its turn, after the record's (R343). -/
def State.complBegin (s : State) (g : Grid) : State :=
  let go := fun (s : State) (v : Nat) (out : Option (Option Nat)) =>
    let s := s.updGrid g.uid fun y =>
      { y with compl := .completing, oldev := BitVec.ofNat 64 v, evOut := y.evOut || out.isSome, evFlt := out.bind id }
    match s.grid? g.uid with
    | some y => s.journal y 3
    | none => s
  let s := s.releaseAll g.part
  if recEv g.rcd = 0 then go s 0 (some none)
  else
    match s.gridReach g.uid needRW (recEv g.rcd) 8 true with
    | (s, .wait) => s
    | (s, .flt c) => go (s.clearDeny g.uid) 0 (some (some c))
    | (s, a) =>
      let (s, v) := s.gridRead g (recEv g.rcd) 8 a
      go (s.clearDeny g.uid) v none

/-- The completion record is written, or discarded with a fault latched. -/
def State.complRecord (s : State) (g : Grid) : State :=
  let out := fun (s : State) => s.updGrid g.uid fun y => { y with recOut := true, deny := none }
  if recCmp g.rcd = 0 then out s
  else
    match s.gridReach g.uid needW (recCmp g.rcd) 32 false with
    | (s, .wait) => s
    | (s, .flt c) => (out s).latchFault g c false
    | (s, a) => out (s.gridWrite g (recCmp g.rcd) (s.complBytes g) a)

/-- The grid has been reported: its entry is free. -/
def State.complEnd (s : State) (g : Grid) : State :=
  { s.journal g 0 with grids := (s.journal g 0).grids.filter fun y => y.uid != g.uid }

/-- The event counter's add, a compare-and-swap of OLDEV to OLDEV + 1 (R382). Where the counter no longer reads OLDEV, the add has
been made if a recovery came between (R383); else the counter is read and journalled anew, and the add comes next (log entry 34). -/
def State.complEvent (s : State) (g : Grid) : State :=
  if g.evOut then
    (match g.evFlt with
      | some c => s.latchFault g c true
      | none => s).complEnd g
  else
    match s.gridReach g.uid needRW (recEv g.rcd) 8 true with
    | (s, .wait) => s
    | (s, .flt c) => (s.latchFault g c true).complEnd g
    | (s, a) =>
      let (s, v) := s.gridRead g (recEv g.rcd) 8 a
      if v = g.oldev.toNat then (s.gridWrite g (recEv g.rcd) (leBytes 8 (v + 1)) a).complEnd g
      else if g.compl = .again then s.complEnd g
      else
        let g := { g with oldev := BitVec.ofNat 64 v }
        (s.setGrid g).journal g 3

/-- The steps of R240, one at a time: the RDC generation advances as soon as the work is done. -/
def State.completeGrid (s : State) (uid : Nat) : State :=
  match s.grid? uid with
  | none => s
  | some g =>
    if s.gridDone g && !g.bumped then (s.bumpRdc g.part).updGrid uid fun g => { g with bumped := true }
    else if !s.complReady g then s
    else if g.compl = .no then s.complBegin g
    else if !g.recOut then s.complRecord g
    else s.complEvent g

def execGridComplete (uid : Nat) (s : State) : Result := .next (s.completeGrid uid)

end Sys2Proof.Machine
end

