-- ==== Sys2Proof/Machine/Tlbi.lean ====
section
/-!
DEFINITION. Invalidating translations: TLBI and rh.tlbi (R169 to R171, R333), with the divisions of granules that they
bring (R144, R147, R149, R351, R352), and MIGR (R151, R152, R314, R355).
-/
namespace Sys2Proof.Machine

/-! ## Revoking cached copies (R147, R352) -/

/-- Keys that some cache holds in a range. -/
def State.cachedIn (s : State) (k n : Nat) : List Nat :=
  (s.clusters.map fun c => (c.cc.filter fun b => inRange k n b.key).map CcByte.key).flatten ++
  (s.cores.map fun c => (c.l1.filter fun b => inRange k n b.key).map L1Byte.key).flatten

/-- Every dirty byte of a range is written at its home (R352). -/
def State.writeDown (s : State) (k n : Nat) : State := s.recallAll (s.cachedIn k n)

/-- A cluster and its cores let go of a byte. -/
def State.purge (s : State) (cl k : Nat) : State :=
  (clusterCores cl).foldl (fun s c => s.updCore c (l1Del k)) (s.updCluster cl (ccDel k))

/-- Every copy of a byte goes (R170). -/
def State.purgeAll (s : State) (k : Nat) : State := (List.range 8).foldl (fun s cl => s.purge cl k) s

/-- What clusters hold in the owned state in a range: cluster and byte. -/
def State.ownedIn (s : State) (k n : Nat) : List (Nat × Nat) :=
  ((List.range 8).map fun cl => ((ccRun (s.cluster cl) k n).filter CcByte.own).map fun b => (cl, b.key)).flatten

/-- Host memory of a range: what its translations have granted is taken back (R143). -/
def State.ungrantHost (s : State) (k n : Nat) (dr : Bool) : State :=
  let part := fun (h : HostGrant) (a b : Nat) => if a < b then [{ h with key := a, len := b - a }] else []
  let cut := fun (h : HostGrant) =>
    let e := h.key + h.len
    let lo := max h.key k
    let hi := min e (k + n)
    if meets h.key h.len k n then
      part h h.key lo ++ (part h lo hi).map (fun y => { y with r := y.r && !dr, w := false }) ++ part h hi e
    else [h]
  { s with hostGrants := (s.hostGrants.map cut).flatten }

/-- Writable copies of the application cores and of the host go: of the granules that those own (R147). -/
def State.takeOwned (s : State) (k n : Nat) : State :=
  State.byGranule (fun s k n =>
    let owner := (s.granuleOf k).owner
    if owner = some hostAgent then s.snoopHost k n else if owner = some hartAgent then s.hartsForget k n else s) (n + 1) k n s

/-- What granules that a range covers in part have deferred of tag-enable changes. -/
def State.deferred (s : State) (k n : Nat) : List (Nat × Nat × Bool) :=
  let g := s.granuleOf k
  let e := s.granuleOf (k + n - 1)
  let cut := fun (x : Granule) => decide (x.base < k ∨ k + n < x.base + 2 ^ x.log2)
  (if cut g then g.teNext else []) ++ (if cut e && e.base != g.base then e.teNext else [])

/-- A range loses write or read permission: granules divide at its bounds, dirty bytes are written, writable copies or all
copies go, and the moment is recorded (R144, R147, R149, R351, R352). A division ends the holds, and the tag-enable changes
they deferred apply. Agents that keep read copies stay recorded (R142). -/
def State.revoke (s : State) (k n : Nat) (dr : Bool) : State :=
  let s := s.spoilMigs k n
  let ks := s.cachedIn k n
  let owned := s.ownedIn k n
  let pend := s.deferred k n
  let s := s.writeDown k n
  let s := if isHost k then s else s.cutRange k n true
  let s := pend.foldl (fun s c => s.setTe c.1 c.2.1 c.2.2) s
  let s := if dr then ks.foldl State.purgeAll s else owned.foldl (fun s p => s.purge p.1 p.2) s
  let s := if dr then (s.snoopHost k n).hartsForget k n else s.takeOwned k n
  let s := if dr then
      { s with dies := s.dies.map fun (d : Die) => { d with rdc := d.rdc.filter fun b => !inRange k n b.key } }
    else s
  if isHost k then s.ungrantHost k n dr
  else
    let (s, now) := s.take
    let left := fun (g : Granule) =>
      (s.answers (partOfKey g.base) g.base (2 ^ g.log2)).filter fun a => g.owner == some a || g.sharers.contains a
    s.eachGranule k n (fun (g : Granule) => { g with
      owner := none
      sharers := if dr then [] else left g
      changed := g.changed || g.pw || (dr && g.pr)
      pw := false
      pr := g.pr && !dr
      cuts := g.cuts.filter (fun c => !(decide (k ≤ c.base ∧ c.base + c.len ≤ k + n) && (dr || !c.reads))) ++ [⟨k, n, now, dr⟩] })
      (n / 16 + 1)

/-- A range joins those that stand in order of their first byte. -/
def addRun (k n : Nat) (rs : List (Nat × Nat)) : List (Nat × Nat) :=
  kset Prod.fst (k, max n (((kget Prod.fst k rs).map Prod.snd).getD 0)) rs

/-- Ranges in order, those that touch made one. -/
def joinRuns : List (Nat × Nat) → List (Nat × Nat)
  | [] => []
  | (k, n) :: rs =>
    match joinRuns rs with
    | (j, m) :: rest => if j ≤ k + n then (k, max (k + n) (j + m) - k) :: rest else (k, n) :: (j, m) :: rest
    | [] => [(k, n)]

/-- The ranges that some pieces make together: a granule that they cover whole is not covered in part (R144, R149). -/
def runsOver (ps : List (Nat × Nat)) : List (Nat × Nat) := joinRuns (ps.foldl (fun rs p => addRun p.1 p.2 rs) [])

/-! ## TLBI (R169, R170) -/

/-- The control word (R169). -/
def ctlLog2 (w : Word) : Nat := w.toNat % 64
def ctlDw (w : Word) : Bool := w.getLsbD 9
def ctlDr (w : Word) : Bool := w.getLsbD 10
def ctlTec (w : Word) : Bool := w.getLsbD 11
def ctlDivides (w : Word) : Bool := ctlDw w || ctlDr w || ctlTec w

/-- LOG2 is in its limits (R333). -/
def ctlSize (w : Word) : Bool :=
  decide (12 ≤ ctlLog2 w ∧ ctlLog2 w ≤ 57) && (!ctlDivides w || decide (ctlLog2 w ≤ 21))

/-- R333. -/
def ctlOk (w : Word) : Bool := w.toNat / 2 ^ 12 == 0 && w.toNat / 2 ^ 6 % 8 == 0 && ctlSize w

/-- The part of a leaf's page that lies in the range from `v` on: key and bytes; none for the aperture. -/
def State.leafPiece (s : State) (part v left level e : Nat) : Option (Nat × Nat) :=
  let lg := leafLog2 level e
  let n := 2 ^ lg - v % 2 ^ lg
  if bitsAt e 61 2 = 3 then none
  else (s.keyOf part (leafBase e + v % 2 ^ lg)).map fun k => (k, if n < left then n else left)

/-- The parts of the current leaves of `[v, v + left)` that it covers: key, bytes, and the leaf's TE. `fuel` bounds the pages. -/
def State.piecesOf (s : State) (part ctx : Nat) : Nat → Nat → Nat → List (Nat × Nat × Bool)
  | 0, _, _ => []
  | fuel + 1, v, left =>
    if left = 0 then []
    else
      match (s.leafAny part ctx v).bind fun p => (s.leafPiece part v left p.1 p.2.1).map fun q => (q.1, q.2, bitsAt p.2.1 56 1 == 1) with
      | none => s.piecesOf part ctx fuel (v + 4096) (left - 4096)
      | some p => p :: s.piecesOf part ctx fuel (v + p.2.1) (left - p.2.1)

/-- The same of every current leaf of a context. -/
def State.piecesAll (s : State) (part ctx : Nat) : List (Nat × Nat × Bool) :=
  (s.leaves part ctx).filterMap fun p =>
    (s.leafPiece part p.1 (2 ^ leafLog2 p.2.1 p.2.2) p.2.1 p.2.2).map fun q => (q.1, q.2, bitsAt p.2.2 56 1 == 1)

/-- What a division does to the memory that its range maps (R170). -/
def State.divideAll (s : State) (dw dr tec : Bool) (ps : List (Nat × Nat × Bool)) : State :=
  let runs := fun (qs : List (Nat × Nat × Bool)) => runsOver (qs.map fun q => (q.1, q.2.1))
  let s := if dw || dr then (runs ps).foldl (fun (s : State) r => s.revoke r.1 r.2 dr) s else s
  if tec then
    let s := (runs (ps.filter fun q => q.2.2)).foldl (fun (s : State) r => s.changeTe r.1 r.2 true) s
    (runs (ps.filter fun q => !q.2.2)).foldl (fun (s : State) r => s.changeTe r.1 r.2 false) s
  else s

/-- Remove every translation and walk-cache entry of a context that covers an address of `[v, v + n)` (R170); a page of it that
is under migration stays where it is (R355). -/
def State.dropTranslations (s : State) (part ctx v n : Nat) : State :=
  let spoil := fun (m : Migr) => if m.part = part ∧ m.ctx = ctx ∧ meets m.v m.plan.size v n then { m with lost := true } else m
  let s := { s with migs := s.migs.map spoil }
  let s := (s.coresOf part).foldl (fun (s : State) c => s.updCore c fun c => { c with
    tlb := c.tlb.filter fun e => !(e.part == part && e.ctx == ctx && meets e.vbase (2 ^ e.log2) v n) }) s
  (s.clustersOf part).foldl (fun (s : State) c => s.updCluster c fun c => { c with
    walk := c.walk.filter fun e => !(e.part == part && e.ctx == ctx &&
      meets (e.index * 2 ^ (12 + 9 * e.level)) (2 ^ (12 + 9 * e.level)) v n) }) s

/-- An atomic on its way to a host completer through a translation of the range has not been performed (R168, R170). -/
def State.atomicsOut (s : State) (part ctx v n : Nat) : Bool := !(s.atomicIds part ctx v n).isEmpty

/-- A range invalidation; `w` is its control word. What was on its way to a home is performed or refused there before it
ends (R170, R367). -/
def State.tlbiRange (s : State) (part ctx v : Nat) (w : Word) : State :=
  let n := 2 ^ ctlLog2 w
  let s := if ctlDivides w then s.divideAll (ctlDw w) (ctlDr w) (ctlTec w) (s.piecesOf part ctx 512 v n) else s
  (s.arrive part).dropTranslations part ctx v n

/-- A context invalidation: the descriptor alone is read again, and may end the context (R170, R342). -/
def State.tlbiCtx (s : State) (part ctx : Nat) : State :=
  let s := (s.arrive part).dropTranslations part ctx 0 (2 ^ 57)
  match s.ctx? part ctx with
  | none => s
  | some old =>
    match s.readDesc part ctx old with
    | (s, some c) => s.updPart part fun p => p.putCtx { c with ended := old.ended }
    | (s, none) => s.badCtx part ctx

/-- The group waits and tries again while atomics through the range are on their way. -/
def waitOut : Park := .owed 0

def State.tlbiAct (s : State) (x : Issue) (v n : Nat) (f : State → State) : Acted :=
  if s.atomicsOut x.g.part x.g.ctx v n then haltAt s waitOut else { s := f s }

def tlbiAlign (o : TlbiOps) (x : Issue) (_ : Nat) : Option Flt :=
  let base := x.g.src64 x.lead o.a
  if base.toNat % 2 ^ 57 % 2 ^ ctlLog2 (x.g.src x.lead o.b) != 0 then some { code := cMisaligned, detail := base } else none

def tlbiForm (o : TlbiOps) (x : Issue) (_ : Nat) : Option Flt :=
  let base := x.g.src64 x.lead o.a
  if canonical base then none else some { code := cNoncanonical, faddr := base }

/-- The control word can be judged: the register that holds it, if one does, is in range and holds a value by now. -/
def Issue.ctlKnown (x : Issue) (b : Src) : Bool :=
  let u : Uses := { ld := srcUse b 1 }
  (x.regFault u x.lead).isNone && (x.lookFault u x.lead).isNone

/-- TLBI.range: a control word outside R333 is an illegal encoding, the first of the checks, which stops every lane that stands
there (R318, R319). -/
def execTlbiRange (o : TlbiOps) (s : State) : Result :=
  let go := s.issueAct (.tlbiRange o) (tlbiAlign o) (tlbiForm o) fun s x _ =>
    let v := transBits (x.g.src64 x.lead o.a)
    let w := x.g.src x.lead o.b
    s.tlbiAct x v (2 ^ ctlLog2 w) fun s => s.tlbiRange x.g.part x.g.ctx v w
  .next (match s.begin (.tlbiRange o) with
    | .halt s => s
    | .go x =>
      if !x.ts.isEmpty && x.ctlKnown o.b && !ctlOk (x.g.src x.lead o.b) then s.stopStanding x { code := cIllegal } false
      else go)

def execTlbiCtx (o : TlbiCtxOps) (s : State) : Result :=
  .next (s.issueAct (.tlbiCtx o) noChk noChk fun s x _ =>
    s.tlbiAct x 0 (2 ^ 57) fun s => s.tlbiCtx x.g.part x.g.ctx)

/-! ## The application cores' translation (R158, R281) -/

/-- What a hart's access asks of its leaf. -/
inductive HartNeed where
  | read | write | fetch
  deriving DecidableEq, Repr

/-- A leaf of Sv57 with Svnapot, Svpbmt and the fields of R157 that grants an access at a level: leaves of every level stand; A,
and D for a write, must be set (log entry 24). -/
def hartLeafOk (m : HartMode) (need : HartNeed) (level e : Nat) : Bool :=
  let ppn := bitsAt e 10 44
  let bit := fun (i : Nat) => e.testBit i
  let form := bitsAt e 54 2 == 0 && bitsAt e 61 2 != 3 && (bit 1 || !bit 2) && ppn % 2 ^ (9 * level) == 0 &&
    (!bit 63 || (level == 0 && ppn % 16 == 8))
  let grants := match need with
    | .read => bit 1
    | .write => bit 2 && bit 7
    | .fetch => bit 3
  form && grants && bit 6 && bit 4 == (m == .user)

/-- The physical address that a leaf gives. -/
def hartLeafAt (level e va : Nat) : Nat :=
  let n := if e.testBit 63 then 16 else 12 + 9 * level
  bitsAt e 10 44 * 4096 / 2 ^ n * 2 ^ n + va % 2 ^ n

/-- A non-leaf entry of Sv57 has D, A, U and bits 63:54 zero (R156, R158). -/
def hartNonLeafOk (e : Nat) : Bool := bitsAt e 54 10 == 0 && bitsAt e 6 2 == 0 && bitsAt e 4 1 == 0

def State.hartWalk (m : HartMode) (need : HartNeed) (va : Nat) : Nat → State → Nat → State × Option Nat
  | 0, s, _ => (s, none)
  | l + 1, s, table =>
    let a := table + 8 * (va / 2 ^ (12 + 9 * l) % 512)
    let (s, bs) := s.physRead (a / 2 ^ 48) (a % 2 ^ 48) 8
    let e := leNat bs
    if e % 2 = 0 then (s, none)
    else if bitsAt e 1 3 = 0 then
      if hartNonLeafOk e then s.hartWalk m need va l (bitsAt e 10 44 * 4096) else (s, none)
    else (s, if hartLeafOk m need l e then some (hartLeafAt l e va) else none)

/-- A hart's address: its own in machine mode or with no table, else where Sv57 takes it; a page fault otherwise. -/
def State.hartPhys (s : State) (n : Nat) (need : HartNeed) (a : Nat) : State × Option Nat :=
  let h := s.hart n
  if h.mode = .machine || h.satp.toNat / 2 ^ 60 != 10 then (s, some a)
  else
    match if canonical (BitVec.ofNat 64 a) then State.hartWalk h.mode need a 5 s (h.satp.toNat % 2 ^ 44 * 4096) else (s, none) with
    | (s, some pa) => (s, some pa)
    | (s, none) => (s.updHart n fun h => { h with pageFault := some (BitVec.ofNat 64 a) }, none)

/-! ## rh.launch (R233) -/

/-- The hart reads the record through its own translation; an address that meets a page fault lets it retire nothing. Bits 63:16 of
rs2 are not read (R4). -/
def execRhLaunch (o : RhOps) (s : State) : Result :=
  .next (match s.hartNow with
    | none => s
    | some n =>
      let h := s.hart n
      let a := (h.reg o.rs1).toNat
      let ctx := (h.reg o.rs2).toNat % 2 ^ 16
      let refuse := fun (s : State) => s.updHart n fun h => { (h.setReg o.rd (BitVec.allOnes 64)) with pc := h.pc + 4 }
      if a % 128 ≠ 0 then refuse s
      else
        match s.hartPhys n .read a with
        | (s, none) => s
        | (s, some pa) =>
          let part := pa / 2 ^ 48
          let (s, r) := s.physRead part (pa % 2 ^ 48) 128
          if s.rhRefused part ctx r then refuse s
          else
            let l : Launch := { gid := 0, hart := n, rd := o.rd, owed := 0, ctx := ctx, part := part, rcd := r }
            (s.updPart part fun p => { p with launches := p.launches ++ [l] }).updHart n fun h => { h with waiting := true })

/-! ## rh.tlbi (R171) -/

/-- The partition whose context a hart's rh.tlbi names (log entry 24). -/
def State.hartPart (s : State) (n : Nat) : Nat := if s.partCount = 1 then 0 else Config.hartPart n % s.partCount

/-- What comes of a hart's rh.tlbi: its operands are bad, or it acts, or it waits. -/
def State.rhTlbi (s : State) (o : RhOps) (range : Bool) : State :=
  match s.hartNow with
  | none => s
  | some n =>
    let h := s.hart n
    let part := s.hartPart n
    let base := h.reg o.rs1
    let w := (h.reg o.rs2).setWidth 32
    let ctx := w.toNat / 2 ^ 16
    -- bits 63:32 of rs2 are not read (log entry 24)
    let bad := w.toNat / 2 ^ 12 % 16 != 0 || w.toNat / 2 ^ 6 % 8 != 0 || !ctlSize w || decide ((s.part part).ctxn ≤ ctx) ||
      (range && (!canonical base || base.toNat % 2 ^ 57 % 2 ^ ctlLog2 w != 0))
    let v := if range then transBits base else 0
    let size := if range then 2 ^ ctlLog2 w else 2 ^ 57
    if bad then s.updHart n fun h => { h with illegal := true }
    else if s.atomicsOut part ctx v size then s
    else
      let s := if !range && ctlDivides w then s.divideAll (ctlDw w) (ctlDr w) (ctlTec w) (s.piecesAll part ctx) else s
      (if range then s.tlbiRange part ctx v w else s.tlbiCtx part ctx).updHart n fun h => { h with pc := h.pc + 4 }

def execRhTlbiRange (o : RhOps) (s : State) : Result := .next (s.rhTlbi o true)
def execRhTlbiCtx (o : RhOps) (s : State) : Result := .next (s.rhTlbi o false)

/-! ## MIGR (R151, R314, R355) -/

/-- The key of `n` bytes at a device physical address, where they lie wholly in partition HBM or the far tier. -/
def State.tierKey (s : State) (part pa n : Nat) : Option Nat :=
  match s.physOf part pa, s.physOf part (pa + n - 1) with
  | .mem k, .mem k' => if k' = k + n - 1 then some k else none
  | _, _ => none

/-- The link behind a range fails the migration: it is down, or no completion comes in time (R355, R359). -/
def State.tierDown (s : State) (k : Nat) : Bool := isFar k && (!(s.port (portOfKey k)).up || (s.port (portOfKey k)).silent)

/-- Watched bytes move with their page (R152). -/
def State.moveWatches (s : State) (src dst n : Nat) : State :=
  let mv := fun (k : Nat) => if inRange src n k then k - src + dst else k
  { s with
    monitors := s.monitors.map fun m => { m with key := mv m.key }
    grids := s.grids.map fun g => { g with depKey := g.depKey.map mv } }

/-- Bytes, tags and poison of a page are at its new place, where no RDC copy of what lay there is left (R152, R153, R357). -/
def State.movePage (s : State) (part src dst n : Nat) : State :=
  let ks := s.cachedIn src n
  let s := ks.foldl State.purgeAll (s.writeDown src n)
  let s := { s with dies := s.dies.map fun (d : Die) => { d with rdc := d.rdc.filter fun b => !inRange dst n b.key } }
  let bad := (List.range (n / 16)).filter fun u => s.foundBad (src + 16 * u) 16 || s.homeLost part (src + 16 * u)
  let s := (s.homeWrite dst (bread s.mem src n)).clearPoison dst n
  let s := bad.foldl (fun s u => s.addPoison (dst / 16 + u)) s
  let s := if isHbm src && isHbm dst then
      (List.range (n / 32)).foldl (fun s i => s.setTag (dst + 32 * i) (s.tagOf (src + 32 * i))) s
    else s
  s.moveWatches src dst n

/-- Bytes with no defined contents (R355, log entry 10). -/
def State.freeBytes (s : State) (n : Nat) : State × List Byte :=
  ({ s with free := s.free + n }, (List.range n).map fun i => Config.freeByte (s.free + i))

/-- The leaves of a page name its new place (R314): one, or the sixteen of a 64 KiB region. -/
def State.rewriteLeaves (s : State) (part level e addr dst : Nat) : State :=
  let low := fun (x : Nat) => x % 2 ^ 10 + x / 2 ^ 54 * 2 ^ 54
  let ppn := if bitsAt e 63 1 = 1 then dst / 4096 + 8 else dst / 4096
  if leafLog2 level e = 16 then
    (List.range 16).foldl (fun (s : State) i =>
      let a := addr / 128 * 128 + 8 * i
      let (s, bs) := s.physRead part a 8
      s.physWrite part a (leBytes 8 (low (leNat bs) + ppn * 2 ^ 10))) s
  else s.physWrite part addr (leBytes 8 (low e + ppn * 2 ^ 10))

/-- Some granule of a range is tag-enabled. `fuel` bounds the granules. -/
def State.anyTe (s : State) : Nat → Nat → Nat → Bool
  | 0, _, _ => false
  | fuel + 1, k, n =>
    let g := s.granuleOf k
    let m := g.base + 2 ^ g.log2 - k
    g.te || (decide (m < n) && s.anyTe fuel (k + m) (n - m))

/-- The page that a MIGR names, as its leaf gives it now, and where it is to go; none where the outcome is 2 (R314). -/
def State.migPlan (s : State) (part ctx v dst : Nat) : Option (Nat × MigPlan) :=
  match s.leafNow part ctx v with
  | none => none
  | some (l, e, addr) =>
    let n := 2 ^ leafLog2 l e
    let src := leafBase e
    if bitsAt e 61 2 = 3 || dst % n != 0 || meets src n dst n then none
    else
      match s.tierKey part src n, s.tierKey part dst n with
      | some ks, some kd =>
        if isFar kd && (bitsAt e 56 1 == 1 || s.anyTe (n / 16 + 1) ks n) then none else some (e, ⟨l, addr, n, ks, kd⟩)
      | _, _ => none

def State.dropMig (s : State) (gid : Nat) : State := { s with migs := s.migs.filter fun m => m.gid != gid }

/-- The migration is abandoned: the page stays, the new place holds no defined bytes (R355). -/
def State.migAbandon (s : State) (gid : Nat) (p : MigPlan) : State :=
  let (s, bs) := (s.dropMig gid).freeBytes p.size
  s.homeWrite p.dst bs

/-- The switch: what is written while the last blocks are copied waits at the home, so that it is all one step (R151, R152). -/
def State.migSwitch (s : State) (gid part ctx v dst e : Nat) (p : MigPlan) : State :=
  (((s.dropMig gid).movePage part p.src p.dst p.size).rewriteLeaves part p.level e p.leafAt dst).dropTranslations part ctx
    (v / p.size * p.size) p.size

/-- What comes next of a migration: the outcome d, or none while its copy goes on, which each issue of the MIGR takes one pass
further (R151). What was on its way to a home reaches it first (R152). -/
def State.migrate (s : State) (gid part ctx v dst : Nat) : State × Option Nat :=
  let s := s.arrive part
  let spoilt := fun (m : Migr) => m.gid == gid && m.part == part && m.ctx == ctx && m.lost &&
    m.v == v / m.plan.size * m.plan.size && s.tierKey part dst m.plan.size == some m.plan.dst
  match s.migs.find? spoilt, s.migPlan part ctx v dst with
  | some m, _ => (s.migAbandon gid m.plan, some 1)
  | none, none => (s.dropMig gid, some 2)
  | none, some (e, p) =>
    let down := s.tierDown p.src || s.tierDown p.dst
    let fresh : Migr := { gid := gid, part := part, ctx := ctx, v := v / p.size * p.size, plan := p }
    match s.migs.find? fun m => m.gid == gid && m.plan == p && m.v == fresh.v && m.ctx == ctx with
    | none =>
      if down then (s.migAbandon gid p, some 1) else ({ s.dropMig gid with migs := fresh :: (s.dropMig gid).migs }, none)
    | some m =>
      if down then (s.migAbandon gid p, some 1)
      else if m.marked.isEmpty || (m.recopies == 3 && m.marked.length ≤ 16) then (s.migSwitch gid part ctx v dst e p, some 0)
      else if m.recopies = 3 then (s.migAbandon gid p, some 1)
      else ({ s.dropMig gid with migs := { m with recopies := m.recopies + 1, marked := [] } :: (s.dropMig gid).migs }, none)

def execMigr (o : MigrOps) (s : State) : Result :=
  .next (s.issueAct (.migr o) noChk noChk fun s x _ =>
    let va := x.g.src64 x.lead o.a
    let dst := (x.g.src64 x.lead o.b).toNat
    if !canonical va then { s := s, out := fun _ => outD o.d 2 }
    else if s.atomicsOut x.g.part x.g.ctx (transBits va / 2 ^ 21 * 2 ^ 21) (2 ^ 21) then haltAt s waitOut
    else
      match s.migrate x.g.gid x.g.part x.g.ctx (transBits va) dst with
      | (s, none) => haltAt s waitOut
      | (s, some d) => { s := s, out := fun _ => outD o.d (BitVec.ofNat 32 d) })

end Sys2Proof.Machine
end

