-- ==== Sys2Proof/Machine/Handlers.lean ====
section
/-!
DEFINITION. Lamplighters: how they start (R301, R302, R306), what they may do to a frozen group (R305, R310 to R313), and
the service of faults within them (R307, SLCMD).
-/
namespace Sys2Proof.Machine

/-! ## Starting (R300 to R302, R306) -/

/-- The vector table of a context, as read now (R306). -/
structure Vectors where
  ent : List Nat
  uent : Nat
  dmask : Nat
  hbud : Nat
  qvbase : Nat
  deriving DecidableEq, Repr

def State.readVectors (s : State) (part fvt : Nat) : State × Vectors :=
  let (s, b) := s.physRead part fvt 64
  (s, { ent := [blk b 0 8, blk b 8 8, blk b 0x10 8]
        uent := blk b 0x18 8
        dmask := blk b 0x20 4 % 16
        hbud := blk b 0x24 4 % 128
        qvbase := blk b 0x28 8 })

/-- The DMASK bit of a code (R306). -/
def delegBit (code : Nat) : Option Nat :=
  if code = cFmtDivergence then some 0
  else if code = cBreakpoint then some 1
  else if code = cTrapCall then some 2
  else if code = cArith then some 3
  else none

/-- The code is delegated, and the entry that serves it; 0 where there is none. -/
def Vectors.entry (v : Vectors) (code : Nat) : Bool × Nat :=
  match delegBit code with
  | some b => if v.dmask / 2 ^ b % 2 = 1 then (true, v.uent) else (false, v.ent.getD (code / 256 - 1) 0)
  | none => (false, v.ent.getD (code / 256 - 1) 0)

/-- Handler slots in use on a core. -/
def State.handlerSlots (s : State) (core : Nat) : List Nat :=
  s.groups.filterMap fun g => match g.kind with
    | .handler k _ _ => if g.core == core then some k else none
    | .ordinary => none

/-- The oldest record of a core that no lamplighter has started for: record numbers rise as they are written (R301). -/
def Core.waitingRecord (c : Core) : Option FSlot :=
  match minNat ((c.fslots.filter fun x => !x.started).map fun x => x.rcd.rid) with
  | none => none
  | some r => c.fslots.find? fun x => x.rcd.rid == r

/-- A lamplighter's group (R302). -/
def handlerGroup (g : Group) (sv : Served) (gid core k : Nat) (r : Record) (deleg : Bool) (hbud : Nat) (entry : Nat)
    (cap : Word) (frecp : DWord) : Group :=
  { newGroup gid g.tid g.part g.ctx g.grpix (16 * hbud) false (BitVec.ofNat 64 entry) 32 with
    kind := .handler k r.rid deleg
    core := core
    slot := 60 + k
    caps := [cap, 0, 0, 0]
    served := some sv
    frecp := frecp }

/-- A lamplighter starts in the lowest free handler slot for the oldest waiting record (R301). An HBUD of 0 ends the context as a double
fault, and one of 65 to 127 is taken as it stands (R306 gives no fate; log entry 50). -/
def State.startHandler (s : State) (core : Nat) : State :=
  match freeSlot (s.handlerSlots core) 0 4, (s.core core).waitingRecord with
  | some k, some fs =>
    match s.group? fs.rcd.gid with
    | none => s
    | some g =>
      let fvt := ((s.ctx? g.part g.ctx).map Ctx.fvt).getD 0
      let (s, v) := s.readVectors g.part fvt
      let (deleg, entry) := v.entry fs.rcd.code
      if entry = 0 || v.hbud = 0 then s.endContext g.part g.ctx cDouble
      else
        let (s, w, _) := s.capRead core k
        let inc := (w + 1) % 256
        let s := s.capWrite core k (inc + 256) fs.rcd.gridh
        let r := { fs.rcd with deleg := deleg }
        let s := (s.writeArea core (64 * fs.slot) r.bytes).updCore core fun c =>
          { c with fslots := kset FSlot.slot { slot := fs.slot, rcd := r, started := true } c.fslots }
        let (s, gid) := s.take
        let m := core - s.firstCore g.part
        let h := handlerGroup g (s.standing g) gid core k r deleg v.hbud entry (BitVec.ofNat 32 (inc * 2 ^ 24 + k))
          (BitVec.ofNat 64 (v.qvbase + 0x20000 * m + 64 * fs.slot))
        let h := { h with quarter := s.fewest core, age := (s.core core).nextAge }
        let s := s.updCore core fun c => { c with nextAge := c.nextAge + 1 }
        { s with groups := s.groups ++ [h] }.acquire core .device
  | _, _ => s

def execLamplighterStart (core : Nat) (s : State) : Result := .next (s.startHandler core)

/-- A free slot takes the first record kept inside the core (R303). -/
def execFaultSlotFree (core slot : Nat) (s : State) : Result :=
  .next (match (s.core core).late with
    | [] => s
    | r :: rest =>
      if (s.core core).freeFSlot = some slot then
        (s.putRecord core slot r).updCore core fun c => { c with late := rest }
      else s)

/-! ## Capabilities (R305) -/

/-- The record that a group's selected handle names, if the handle is valid. -/
def State.capRecord (s : State) (g : Group) (sel : Nat) : State × Option Record :=
  let h := (g.caps.getD sel 0).toNat
  let k := h % 65536
  if 4 ≤ k then (s, none)
  else
    let (s, w, _) := s.capRead g.core k
    if w % 256 == h / 2 ^ 24 && w / 256 % 4 == 1 then
      let r := s.groups.findSome? fun x => match x.kind with
        | .handler j rid _ => if x.core == g.core && j == k then some rid else none
        | .ordinary => none
      (s, r.bind s.record?)
    else (s, none)

/-- Run with the record of the handle, or stop every lane with CAP_INVALID (R310). -/
def State.withCap (s : State) (x : Issue) (cap : BitVec 2) (f : State → Record → Acted) : Acted :=
  match s.capRecord x.g cap.toNat with
  | (s, none) => stopAll s x { code := cCap, detail := (x.g.caps.getD cap.toNat 0).setWidth 64 }
  | (s, some r) => f s r

/-! ## FZREC, FZRD, FZWR (R311) -/

def execFzrec (o : FzrecOps) (s : State) : Result :=
  .next (s.issueAct (.fzrec o) noChk noChk fun s x _ =>
    s.withCap x o.cap fun s r =>
      let ws := (List.range 16).map fun j => BitVec.ofNat 32 (blk r.bytes (4 * j) 4)
      { s := s, out := fun _ => { d := imap (fun j w => (regPlus (Reg.ofNum o.run.val) j, w)) 0 ws } })

def Hold.isHeld : Hold → Bool
  | .held _ => true
  | _ => false

/-- The target lane is frozen under the record, in its LANES or held (R310): a lane that two records of one issue hold is held
by each of them (R294, R296). -/
def State.targetOk (s : State) (r : Record) (l : Nat) : Bool :=
  match s.group? r.gid with
  | some g => (g.lane l).live && ((g.lane l).hold == .frozen r.rid || (r.grp && (g.lane l).hold.isHeld))
  | none => false

/-- A half of a 64-bit value. -/
def halfOf (v : DWord) (hi : Bool) : Word := if hi then v.extractLsb' 32 32 else v.setWidth 32

/-- What FZRD reads: the value, and whether the selector is reserved or the name has no value (R311). -/
def State.fzRead (s : State) (g : Group) (l : Nat) (sel : Word) : Word × Bool :=
  let n := sel.toNat
  let i := n % 4096
  let x := g.lane l
  let one := fun (v : Word) => if i = 0 then (v, false) else (0, true)
  if 2 ^ 16 ≤ n then (0, true)
  else
    match n / 4096 with
    | 0 =>
      if i < 1024 && decide (i < g.allot) && (kget Prod.fst i x.names).isSome then (x.name i, false) else (0, true)
    | 1 => if i < 14 then (g.scalar i l, false) else (0, true)
    | 2 => one (halfOf x.preds false)
    | 3 => one (halfOf (x.preds ||| 0x8000000000000000) true)
    | 4 => one (halfOf x.at false)
    | 5 => one (halfOf x.at true)
    | 6 => one (halfOf x.link false)
    | 7 => one (halfOf x.link true)
    | 8 =>
      match SReg.ofNum i with
      | some r => if i < 16 then (BitVec.ofNat 32 (s.sreg g l r), false) else (0, true)
      | none => (0, true)
    | 9 => one (BitVec.ofNat 32 (x.guardCnt % 16 + b2n x.guardEn 16))
    | _ => (0, true)

/-- LPC is written: the lane stands at `pc`, with nothing to replay (R311, R312). -/
def Lane.putPc (x : Lane) (pc : DWord) : Lane := { x with pc := pc, replay := none, more := [] }

/-- What FZWR writes (R311). -/
def Group.fzWrite (g : Group) (l : Nat) (sel v : Word) : Group :=
  let n := sel.toNat
  let i := n % 4096
  let lane := fun (f : Lane → Lane) => if i = 0 then g.updLane l f else g
  if 2 ^ 16 ≤ n then g
  else
    match n / 4096 with
    | 0 => if i < 1024 && decide (i < g.allot) then g.updLane l fun x => x.setName i v else g
    | 1 => if i < 14 then g.pokeScalar i l v else g
    | 2 => lane fun x => { x with preds := putHalf x.preds false v }
    | 3 => lane fun x => { x with preds := putHalf x.preds true v &&& 0x7FFFFFFFFFFFFFFF }
    | 4 => lane fun x => x.putPc (putHalf x.at false (v &&& ~~~3#32))
    | 5 => lane fun x => x.putPc (putHalf x.at true v)
    | 6 => lane fun x => { x with link := putHalf x.link false v }
    | 7 => lane fun x => { x with link := putHalf x.link true v }
    | 8 => if i = 0x0A then { g with stat := v &&& statMask } else g
    | _ => g

/-- A lane operand (R310). -/
def laneArg (w : Word) : Nat := w.toNat % 32

/-- Lanes whose target is not frozen under the record. -/
def State.badTargets (s : State) (x : Issue) (r : Record) (a : Src) (oks : List Nat) : List (Nat × Flt) :=
  oks.filterMap fun l =>
    let t := laneArg (x.g.src l a)
    if s.targetOk r t then none else some (l, { code := cNotFrozen, detail := BitVec.ofNat 64 t })

def execFzrd (o : FzrdOps) (s : State) : Result :=
  .next (s.issueAct (.fzrd o) noChk noChk fun s x oks =>
    s.withCap x o.cap fun s r =>
      match s.group? r.gid with
      | none => { s := s }
      | some t =>
        let v := fun (l : Nat) => s.fzRead t (laneArg (x.g.src l o.a)) (x.g.src l o.b)
        { s := s
          early := s.badTargets x r o.a oks
          out := fun l => { d := [(o.d, (v l).1)], p := [(o.ps.toNat, (v l).2)] } })

def execFzwr (o : FzwrOps) (s : State) : Result :=
  .next (s.issueAct (.fzwr o) noChk noChk fun s x oks =>
    s.withCap x o.cap fun s r =>
      let bad := s.badTargets x r o.a oks
      let good := oks.filter fun l => !(bad.map Prod.fst).contains l
      let put := fun (t : Group) (l : Nat) => t.fzWrite (laneArg (x.g.src l o.a)) (x.g.src l o.b) (x.g.reg l o.d)
      { s := s.updGroup r.gid fun t => good.foldl put t, early := bad })

/-! ## FZRES and FZKILL (R312, R313) -/

/-- Every lane of the mask is frozen and in LANES (R310). -/
def State.maskOk (s : State) (r : Record) (m : Lanes) : Bool :=
  match s.group? r.gid with
  | some g => (lanesOf m).all fun l => (g.frozenBy r.rid).contains l
  | none => m == 0

def State.withMask (s : State) (x : Issue) (cap : BitVec 2) (a : Src) (f : State → Record → Lanes → State) : Acted :=
  s.withCap x cap fun s r =>
    let m := x.g.src x.lead a
    if s.maskOk r m then { s := if m = 0 then s else f s r m }
    else stopAll s x { code := cNotFrozen, detail := m.setWidth 64 }

def execFzres (o : FzresOps) (s : State) : Result :=
  .next (s.issueAct (.fzres o) noChk noChk fun s x _ =>
    s.withMask x o.cap o.a fun s r m => s.resumeRecord r m (.at (x.g.src64 x.lead o.b)))

def execFzresRpl (o : FzMaskOps) (s : State) : Result :=
  .next (s.issueAct (.fzresRpl o) noChk noChk fun s x _ =>
    s.withMask x o.cap o.a fun s r m => s.resumeRecord r m .replay)

def execFzkill (o : FzMaskOps) (s : State) : Result :=
  .next (s.issueAct (.fzkill o) noChk noChk fun s x _ =>
    s.withMask x o.cap o.a fun s r m => s.killLanes r m)

/-! ## The second level (R307) -/

/-- The write of SLCMD (R300). -/
def State.slCommand (s : State) (core cmd : Nat) : State := s.writeArea core 0x11040 (leBytes 4 cmd)

/-- Acting on SLCMD clears the record's CODE. -/
def State.slClear (s : State) (core : Nat) : State :=
  (s.writeArea core 0x11000 [0, 0]).updCore core fun c => { c with second := none }

/-- The second-level record of a core and the lanes frozen under it. -/
def State.slLanes (s : State) (core : Nat) : Option (Record × Lanes) :=
  match (s.core core).second with
  | none => none
  | some r => (s.group? r.gid).map fun g => (r, maskOf fun l => (g.frozenBy r.rid).contains l)

def State.slAct (s : State) (core : Nat) (f : State → Record → Lanes → State) : State :=
  match s.slLanes core with
  | none => s.slClear core
  | some (r, m) => f (s.slClear core) r m

def execSlcmdResume (core : Nat) (pc : DWord) (s : State) : Result :=
  .next (((s.writeArea core 0x11048 (leBytes 8 pc.toNat)).slCommand core 1).slAct core fun s r m => s.resumeRecord r m (.at pc))
def execSlcmdReplay (core : Nat) (s : State) : Result :=
  .next ((s.slCommand core 2).slAct core fun s r m => s.resumeRecord r m .replay)
def execSlcmdRetire (core : Nat) (s : State) : Result :=
  .next ((s.slCommand core 3).slAct core fun s r m =>
    let s := s.retire r.gid m
    (s.settleOps r.gid r.rid).resolve r.gid r.rid)

def execSlcmdEndContext (core : Nat) (s : State) : Result :=
  let s := s.slCommand core 4
  .next (match s.slLanes core with
    | none => s.slClear core
    | some (r, _) =>
      match s.group? r.gid with
      | some g => (s.slClear core).endContext g.part g.ctx cDouble
      | none => s.slClear core)

end Sys2Proof.Machine
end

