-- ==== Sys2Proof/Machine/Pages.lean ====
section
/-!
DEFINITION. Answers that accesses wait for: page requests (R167, R247, R280, R340, R341, R347, R348), ATS completions and
invalidations (R166, R168), completions of host atomics (R275, R369), timeouts (R359, R360); the walk as an event (R163)
and the snuffer (R164).
-/
namespace Sys2Proof.Machine

/-! ## Failing waits -/

/-- The address that a late fault of a lane reports: the lowest byte in the page, for an atomic that straddles two
(R353). -/
def faultVa (va : DWord) (vp : Option Nat) : DWord :=
  match vp with
  | some p => if transBits va / 4096 = p then va else if transBits (va + 4) / 4096 = p then va + 4 else va
  | none => va

/-- The lanes of a group whose access waits as `hit` says freeze late with a fault (R341, R348). A PGREQ is answered 0
instead where `soft` (R186). Of a lane already frozen the access stays held where `stay` (R348). -/
def State.failWaits (s : State) (gid : Nat) (hit : PendAcc → LaneAcc → AccWait → Bool) (vp : Option Nat) (f : Flt)
    (soft : Bool) (stay : Bool := false) : State :=
  match s.group? gid with
  | none => s
  | some g =>
    let hit := fun (a : PendAcc) (q : LaneAcc) (w : AccWait) => hit a q w &&
      !(stay && !isPgreq a.instr && (g.lane q.lane).hold != .free)
    let s := g.accs.foldl (fun (s : State) a =>
      let bad := a.lanes.filter fun q => hit a q.1 q.2
      let left := a.lanes.filter fun q => !hit a q.1 q.2
      if bad.isEmpty then s
      else if isPgreq a.instr && soft then
        s.updGroup gid fun g => (bad.foldl (fun (g : Group) q => g.landAcc a q.1 [0] false) g).putAcc a.owed left []
      else
        let fs := bad.map fun q => (q.1.lane, { f with faddr := faultVa q.1.va vp, acc := instrAcc a.instr })
        let s := s.updGroup gid fun g => g.putAcc a.owed left (fs.map Prod.fst)
        s.raise gid fs true false a.pc (encode a.instr) false none) s
    s.updGroup gid Group.unpark

def State.groupsIn (s : State) (part ctx : Nat) : List Group := s.groups.filter fun g => g.part == part && g.ctx == ctx

/-- Operations of a context. -/
def State.opsIn (s : State) (part ctx : Nat) : List AOp :=
  s.ops.filter fun o => (s.grid? o.uid).any fun g => g.part == part && g.ctx == ctx

def AOp.writes (o : AOp) : Bool :=
  match o.kind with
  | .sta _ _ _ _ => true
  | _ => false

/-- A page request has been answered as failed: everything that waits on the page and access meets the fault. -/
def State.failPage (s : State) (part ctx vp : Nat) (write : Bool) (f : Flt) : State :=
  let hit := fun (_ : PendAcc) (_ : LaneAcc) (w : AccWait) => w == .page vp write
  let s := (s.groupsIn part ctx).foldl (fun s g => s.failWaits g.gid hit (some vp) f true true) s
  let s := (s.opsIn part ctx).foldl (fun (s : State) o =>
    if o.wait == some (.page vp write) && !o.done then s.engStop o o.va o.writes (.flt f) else s) s
  { s with grids := s.grids.map fun (g : Grid) =>
      if g.part == part && g.ctx == ctx && g.wait == some (.page vp write) then
        { g with deny := some (vp, write, f.code, f.detail) }
      else g }

/-- A group parked at an instruction on a page's request issues it again, with the answer (R247). -/
def State.answerParks (s : State) (part ctx vp code : Nat) (detail : DWord) : State :=
  { s with groups := s.groups.map fun (g : Group) =>
      if g.part == part && g.ctx == ctx && g.park == .xlate vp none then { g with park := .answer vp code detail } else g }

/-- The answer to a page request: none is a success. -/
def State.answerPage (s : State) (part : Nat) (q : PageReq) (f : Option Flt) : State :=
  let s := s.updPart part fun p => { p with pageReqs := p.pageReqs.filter fun r => r != q }
  match f with
  | none => if q.write then s else s.answerParks part q.ctx q.vp 0 0
  | some f =>
    let s := s.failPage part q.ctx q.vp q.write f
    if q.write then s else s.answerParks part q.ctx q.vp f.code f.detail

/-- PRQDONE (R280, R341). -/
def State.prqDone (s : State) (part : Nat) (val : Word) : State :=
  match (s.part part).pageReqs.find? fun q => !q.pri && q.entry == val.toNat % 512 with
  | none => s
  | some q => s.answerPage part q (if val.getLsbD 16 then some { code := cNotPresent } else none)

def execPrqdoneWrite (part : Nat) (val : Word) (s : State) : Result := .next (s.prqDone part val)

/-- A PRI Page Request Group response (R167, R340); `page` is the page number that the request named. -/
def execPriResponse (part pasid page : Nat) (write : Bool) (code : PriCode) (s : State) : Result :=
  let named := fun (q : PageReq) => q.pri && q.write == write && wide (q.vp * 4096) / 4096 == page &&
    (s.ctx? part q.ctx).any fun c => c.pasid == pasid
  .next (match (s.part part).pageReqs.find? named with
    | none => s
    | some q =>
      match code with
      | .success => s.answerPage part q none
      | .invalid => s.answerPage part q (some { code := cPageReq, detail := 1 })
      | .failure =>
        (s.updPart part fun p => { p with priFailed := true }).answerPage part q (some { code := cPageReq, detail := 0xF }))

/-! ## Replay (R346, R347) -/

/-- A lane's parked or held access may be performed: its page request has been answered and the lane is not frozen (R348). -/
def State.replayable (s : State) (g : Group) (q : LaneAcc) (w : AccWait) : Bool :=
  (w.isPage || w.isHeld) && !s.pageOut g.part g.ctx w && !(g.lane q.lane).isFrozen

/-- The last page request that the group's accesses wait on has been answered, and it is resident; a PGREQ needs only its
own (R186, R347). -/
def State.replayReady (s : State) (g : Group) : Bool × Bool :=
  let acc := fun (b : Bool) => g.accs.filter fun a => a.blocks == b
  let can := fun (as : List PendAcc) => as.any fun a => a.lanes.any fun q => s.replayable g q.1 q.2
  let wait := (acc true).any fun a => a.lanes.any fun q => !(g.lane q.1.lane).isFrozen && s.pageOut g.part g.ctx q.2
  (!g.away && !wait && can (acc true), can (acc false))

/-- An access to a page performed again after a page request of its own has been answered, or a completion sent for after that
(R340). -/
def afterPage (vp : Option Nat) (w : AccWait) (x : Who) : Who :=
  { x with after := match w with
    | .page vp _ => some vp
    | .ats _ true => vp
    | .held after => after
    | _ => none }

/-- An older access of the group is parked on a page (R346). -/
def State.olderParked (s : State) (g : Group) (a : PendAcc) : Bool :=
  (g.accs.takeWhile fun b => b.owed != a.owed).any fun b => b.blocks && s.accOut g b

/-- Accesses younger than one that is parked on a page are held with it, whether their own pages are present or not (R346);
`vp`: the page of a completion that has come for them. -/
def State.holdBack (s : State) (gid : Nat) (sel : PendAcc → LaneAcc → AccWait → Bool) (vp : Option Nat) : State :=
  let hold := fun (a : PendAcc) (q : LaneAcc × AccWait) =>
    if sel a q.1 q.2 then (q.1, AccWait.held (vp.filter fun _ => q.2.after)) else q
  s.updGroup gid fun g => { g with
    accs := g.accs.map fun a => if s.olderParked g a then { a with lanes := a.lanes.map (hold a) } else a }

def State.pageReplay (s : State) (gid : Nat) : State :=
  match s.group? gid with
  | none => s
  | some g =>
    if s.rewindowing g.part then s else
    let ready := s.replayReady g
    let sel := fun (b : Bool) (a : PendAcc) (q : LaneAcc) (w : AccWait) => a.blocks == b && s.replayable g q w
    let s := if ready.1 then s.redo gid (sel true) (afterPage none) else s
    if ready.2 then s.redo gid (sel false) (afterPage none) else s

def execPageReplay (gid : Nat) (s : State) : Result := .next (s.pageReplay gid)

/-! ## ATS (R166 to R168, R340) -/

/-- It waits for that ATS request. -/
def AccWait.waitsAts (id : Nat) : AccWait → Bool
  | .ats q _ => q == id
  | _ => false

/-- What a completion comes to for those that wait for it. -/
inductive AtsAnswer where
  | again                              -- translate again
  | granted (r w x : Bool)
  | absent                             -- raise a page request
  | bad (f : Flt)
  deriving DecidableEq, Repr

/-- The largest translation that the unit holds within a completion of a size: 4 KiB, 64 KiB or 2 MiB (R165). -/
def atsLog2 (log2 : Nat) : Nat := if 21 ≤ log2 then 21 else if 16 ≤ log2 then 16 else 12

/-- Install the piece that holds the page (R165, R166): of a completion larger than a translation no other piece is kept, and
addresses in those send requests of their own (log entry 48). -/
def State.atsFill (s : State) (part : Nat) (q : AtsReq) (r w x : Bool) (pa log2 : Nat) : State :=
  let lg := atsLog2 log2
  let v := q.vp * 4096
  let big := if log2 < 12 then 12 else log2
  let frame := pa / 2 ^ big * 2 ^ big + v % 2 ^ big / 2 ^ lg * 2 ^ lg
  let (s, now) := s.take
  let e : TlbEntry := {
    part := part
    ctx := q.ctx
    vbase := v / 2 ^ lg * 2 ^ lg
    log2 := lg
    pbase := frame
    r := r
    w := w
    x := x
    u := !q.priv
    ats := true
    filledAt := now }
  let e := match (s.placeOf part e frame).key? with
    | some k => { e with gbase := (s.boundOf k).1, glog2 := (s.boundOf k).2 }
    | none => e
  let s := s.tlbPut q.core e
  match s.placeOf part e frame with
  | .mem k _ =>
    let s := s.updPart part fun p => { p with hdmMaps := e :: p.hdmMaps.filter fun y => y != e }
    s.eachGranule (s.granuleOf k).base (k + 2 ^ lg - (s.granuleOf k).base) (fun (g : Granule) => g.grant r w x) (2 ^ lg / 16 + 1)
  | .win _ _ k _ => s.grantHost k (2 ^ lg) r w x
  | _ => s

/-- The denial under which accesses are performed again. -/
def AtsAnswer.deny (a : AtsAnswer) (vp : Nat) : Option (Nat × Option Bool × Flt) :=
  match a with
  | .again => none
  | .granted _ _ _ => none
  | .absent => some (vp, none, { code := 0 })
  | .bad f => some (vp, none, f)

/-- A permission that the completion does not grant is final (R340). -/
def grantFlt (need : Need) (r w x : Bool) : Option Flt :=
  if (need.r && !r) || (need.w && !w) || (need.x && !x) then
    some { code := cPermission, detail := permDetail need r w x false }
  else none

/-- A completion that grants nothing, for what raises a page request next, unless it fails: after a Success response, or while
the function's Response Failure status is set (R340). -/
def State.atsAbsent (s : State) (part : Nat) (after : Bool) : Option Flt :=
  if (s.part part).priFailed then some fltPriFailed else if after then some { code := cPageReq } else none

/-- What an access waits for when a completion is discarded: nothing; one sent for after a Success response stays so (R340). -/
def againFor (q : AtsReq) (write : Bool) (w : Option AccWait) : Option AccWait :=
  if w.any AccWait.after then some (.page q.vp write) else none

/-- An engine operation that waits for the completion. -/
def State.atsOp (s : State) (part : Nat) (q : AtsReq) (a : AtsAnswer) (o : AOp) : State :=
  let need := if o.writes then needW else needR
  match a with
  | .again => s.updOp o.id fun o => { o with wait := againFor q o.writes o.wait }
  | .granted r w x =>
    match grantFlt need r w x with
    | some f => s.engStop o o.va o.writes (.flt f)
    | none => s.updOp o.id fun o => { o with wait := none }
  | .absent =>
    match s.atsAbsent part (o.wait == some (.ats q.id true)) with
    | some f => s.engStop o o.va o.writes (.flt f)
    | none =>
      let wait := s.pageOrRoom part q.ctx q.vp o.writes
      (s.requestPage part q.ctx q.vp o.writes).updOp o.id fun o => { o with wait := some wait }
  | .bad f =>
    if (f.code = cLinkDown || f.code = cTimeout) && !(o.kind matches .stage _ _ _ _) then s.updOp o.id fun o => { o with wait := none } else s.engStop o o.va o.writes (.flt f)

/-- A group parked at an instruction on the completion. -/
def State.atsPark (s : State) (part : Nat) (q : AtsReq) (a : AtsAnswer) (g : Group) : State :=
  let need := if q.exec then needX else needR
  let put := fun (s : State) (p : Park) => s.park g.gid p
  match a with
  | .again => put s (if g.park == .xlate q.vp (some (q.id, true)) then .answer q.vp 0 0 else .none)
  | .granted r w x =>
    match grantFlt need r w x with
    | some f => put s (.answer q.vp f.code f.detail)
    | none => put s .none
  | .absent =>
    match s.atsAbsent part (g.park == .xlate q.vp (some (q.id, true))) with
    | some f => put s (.answer q.vp f.code f.detail)
    | none => put (s.requestPage part q.ctx q.vp false) (.xlate q.vp none)
  | .bad f => put s (.answer q.vp f.code f.detail)

/-- A grid whose access waits for the completion (R343). -/
def State.atsGrid (s : State) (part : Nat) (q : AtsReq) (a : AtsAnswer) (g : Grid) : State :=
  let put := fun (s : State) (w : Option AccWait) (d : Option (Nat × Bool × Nat × DWord)) =>
    s.updGrid g.uid fun g => { g with wait := w, deny := d }
  match a with
  | .again => put s (againFor q q.write g.wait) none
  | .granted r w _ =>
    match grantFlt { r := !q.write, w := q.write } r w true with
    | some f => put s none (some (q.vp, q.write, f.code, f.detail))
    | none => put s none none
  | .absent =>
    match s.atsAbsent part (g.wait == some (.ats q.id true)) with
    | some f => put s none (some (q.vp, q.write, f.code, f.detail))
    | none => put (s.requestPage part q.ctx q.vp q.write) (some (s.pageOrRoom part q.ctx q.vp q.write)) none
  | .bad f => put s none (some (q.vp, q.write, f.code, f.detail))

/-- Everything that waits for an ATS request goes on with its answer. -/
def State.atsAnswer (s : State) (part : Nat) (q : AtsReq) (a : AtsAnswer) : State :=
  let s := s.updPart part fun p => { p with atsReqs := p.atsReqs.filter fun r => r.id != q.id }
  let final := match a with
    | .granted _ _ _ => some q.vp
    | _ => none
  let sel := fun (_ : PendAcc) (_ : LaneAcc) (w : AccWait) => w.waitsAts q.id
  let who := fun (w : AccWait) (y : Who) => afterPage (some q.vp) w { y with deny := a.deny q.vp, final := final }
  let holds := match a with
    | .again | .granted _ _ _ => true
    | .absent | .bad _ => false
  let s := (s.groupsIn part q.ctx).foldl (fun (s : State) g =>
    (if holds then s.holdBack g.gid sel (some q.vp) else s).redo g.gid sel who) s
  let s := (s.opsIn part q.ctx).foldl (fun (s : State) o =>
    if o.wait.any (AccWait.waitsAts q.id) && !o.done then s.atsOp part q a o else s) s
  let s := (s.groupsIn part q.ctx).foldl (fun (s : State) g =>
    if g.park == .xlate q.vp (some (q.id, false)) || g.park == .xlate q.vp (some (q.id, true)) then s.atsPark part q a g else s) s
  (s.grids.filter fun g => g.wait.any (AccWait.waitsAts q.id)).foldl (fun s g => s.atsGrid part q a g) s

/-- A received Unsupported Request is an error that is reported (R372). -/
def State.unsupported (s : State) (part : Nat) : State := s.report .nonFatal (some part) .unsupported

def execAtsTranslationCompletion (part req : Nat) (res : AtsResult) (s : State) : Result :=
  .next (match (s.part part).atsReqs.find? fun r => r.id == req with
    | none => s
    | some q =>
      if q.stale then s.atsAnswer part q .again
      else
        match res with
        | .failed st =>
          (if st = 1 then s.unsupported part else s).atsAnswer part q (.bad { code := cAts, detail := BitVec.ofNat 64 st })
        | .granted r w x pa log2 =>
          if r || w then (s.atsFill part q r w x pa log2).atsAnswer part q (.granted r w x)
          else s.atsAnswer part q .absent)

/-- Host-shared contexts of a PASID. -/
def Partition.ctxsOf (p : Partition) (pasid : Nat) : List Nat :=
  (p.ctxs.filter fun c => c.pasid == pasid && c.regime == 2).map Ctx.ctx

/-- Device HBM that an ATS translation given out maps within the range (R168). -/
def State.atsPiece (s : State) (part v n : Nat) (e : TlbEntry) : Option (Nat × Nat) :=
  match s.placeOf part e e.pbase with
  | .mem k _ =>
    let lo := if e.vbase < v then v - e.vbase else 0
    let hi := if v + n < e.vbase + 2 ^ e.log2 then v + n - e.vbase else 2 ^ e.log2
    some (k + lo, hi - lo)
  | _ => none

/-- Its home divides and revokes as for a TLBI with DW (R168). -/
def State.revokeAts (s : State) (part v n : Nat) (es : List TlbEntry) : State :=
  (runsOver (es.filterMap (s.atsPiece part v n))).foldl (fun (s : State) r => s.revoke r.1 r.2 false) s

/-- One context's part of an ATS Invalidation Request. -/
def State.atsInvalidate (part v n : Nat) (s : State) (ctx : Nat) : State :=
  let hit := fun (e : TlbEntry) => e.ctx == ctx && meets e.vbase (2 ^ e.log2) v n
  let s := s.revokeAts part v n ((s.part part).hdmMaps.filter hit)
  let s := s.updPart part fun p => { p with hdmMaps := p.hdmMaps.filter fun e => !hit e }
  let s := (s.coresOf part).foldl (fun (s : State) c => s.updCore c fun c => { c with
    tlb := c.tlb.filter fun e => !(e.ats && e.part == part && e.ctx == ctx && meets e.vbase (2 ^ e.log2) v n) }) s
  let mark := fun (r : AtsReq) => if r.ctx = ctx && meets (r.vp * 4096) 4096 v n then { r with stale := true } else r
  s.updPart part fun p => { p with atsReqs := p.atsReqs.map mark }

/-- Invalidations whose accesses have completed are answered (R168). -/
def State.flushInvals (s : State) (part : Nat) : State :=
  let p := s.part part
  let done := fun (i : Inval) => i.ids.all fun id => !(p.hostAtomics.any fun a => a.id == id)
  let ready := p.invals.filter done
  if ready.isEmpty then s
  else
    { (s.updPart part fun p => { p with invals := p.invals.filter fun i => !done i }) with
      out := s.out ++ ready.map fun i => ⟨.atsInvalidated, part, [i.pasid, i.va, i.log2]⟩ }

/-- A request to a partition's function: an interface in ERROR answers it with Unsupported Request (R376). -/
def State.unlessError (s : State) (part : Nat) (f : State → State) : State :=
  if (s.part part).tdi = .error then s.send .unsupported part [] else f s

def execAtsInvalidationRequest (part pasid va log2 : Nat) (s : State) : Result :=
  .next (s.unlessError part fun s =>
  let v := va % 2 ^ 57
  let n := 2 ^ log2
  let ctxs := (s.part part).ctxsOf pasid
  let ids := (ctxs.map fun c => s.atomicIds part c v n).flatten
  let s := ctxs.foldl (State.atsInvalidate part v n) (s.arrive part)
  (s.updPart part fun p => { p with invals := p.invals ++ [⟨pasid, va, log2, ids⟩] }).flushInvals part)

/-! ## Host atomics (R275, R369) -/

def State.dropAtomic (s : State) (part id : Nat) : State :=
  s.updPart part fun p => { p with hostAtomics := p.hostAtomics.filter fun a => a.id != id }

def State.putAtomic (s : State) (part : Nat) (a : HostAtomic) : State :=
  s.updPart part fun p => { p with hostAtomics := p.hostAtomics.map fun x => if x.id = a.id then a else x }

/-- The lane's access that an atomic performs. -/
def Group.accOf (g : Group) (id : Nat) : Option (PendAcc × LaneAcc) :=
  g.accs.findSome? fun a => (a.lanes.find? fun q => q.2 == .host id).map fun q => (a, q.1)

/-- The next lanes of the instruction to the window go on (R275), unless a new window table is to come first (R274). -/
def State.nextBehind (s : State) (part : Nat) (a : HostAtomic) : State :=
  if s.rewindowing part then s
  else
    let sel := fun (_ : PendAcc) (_ : LaneAcc) (w : AccWait) => w == .behind a.window
    (s.holdBack a.gid sel none).redo a.gid sel fun _ w => w

/-- A value of `n` bytes as a 64-bit register holds it. -/
def extend (sx : Bool) (n v : Nat) : DWord :=
  if sx && decide (n < 8) && v.testBit (8 * n - 1) then BitVec.ofNat 64 (v + (2 ^ 64 - 2 ^ (8 * n))) else BitVec.ofNat 64 v

/-- The acquire action of an atomic, with its scope (R183). -/
def instrAcquire : Instr → Option Scope
  | .atom o => if AtClass.acq o.cls then some o.scope else none
  | .atomc o => if AtClass.acq o.cls then some o.scope else none
  | _ => none

/-- An atomic has been performed at the host's completer, which returned `old`. -/
def State.atomicDone (s : State) (part : Nat) (a : HostAtomic) (old : Nat) : State :=
  let s := s.dropAtomic part a.id
  match a.hart, s.group? a.gid with
  | some (n, rd), _ => s.updHart n fun h => { (h.setReg rd (extend true (a.w / 8) old)) with waiting := false }
  | none, none => s
  | none, some g =>
    match g.accOf a.id with
    | none => s.nextBehind part a
    | some (acc, q) =>
      let left := acc.lanes.filter fun x => x.2 != .host a.id
      let s := s.updGroup a.gid fun g =>
        ((g.landAcc acc q (wordsOf old (a.w / 32)) false).putAcc acc.owed left []).unpark
      let s := match instrAcquire acc.instr with
        | some sc => s.acquire g.core sc
        | none => s
      s.nextBehind part a

/-- The lane's part of the procedure ends in a fault; `all`: the lanes of the instruction to that window that have not
been performed meet it too (R275). An application core's AMO ends in an access fault. -/
def State.atomicFails (s : State) (part : Nat) (a : HostAtomic) (f : Flt) (all : Bool) : State :=
  let owed := ((s.group? a.gid).bind fun g => (g.accOf a.id).map fun p => p.1.owed).getD 0
  let hit := fun (x : PendAcc) (_ : LaneAcc) (w : AccWait) =>
    x.owed == owed && (w == .host a.id || (all && w == .behind a.window))
  let s := s.dropAtomic part a.id
  match a.hart with
  | some (n, _) => s.updHart n fun h => { h with waiting := false, accessFault := some (BitVec.ofNat 64 a.va) }
  | none => (s.failWaits a.gid hit none f false).nextBehind part a

/-- The CAS of the loop for a value read (R275). -/
def State.sendCas (s : State) (part : Nat) (a : HostAtomic) (old : Nat) : State :=
  (s.putAtomic part { a with phase := .cas old }).sendLoop part a .cas [old, atNew a.op a.w old a.b]

def State.atomicStep (s : State) (part : Nat) (a : HostAtomic) (c : HostCpl) : State :=
  match c, a.phase with
  | .success v, .first => s.atomicDone part a v
  | .success v, .read => s.sendCas part a v
  | .success v, .cas old => if v = old then s.atomicDone part a v else s.sendCas part a v
  | .unsupported, .first =>
    if a.first != 3 && !a.win.nofb then (s.putAtomic part { a with phase := .read }).sendLoop part a .hostRead []
    else s.atomicFails part a (fltHostAtomic a.window a.first false) true
  | .other _, .first => s.atomicFails part a (fltHostAtomic a.window a.first false) true
  | .unsupported, .read | .other _, .read => s.atomicFails part a (fltHostAtomic a.window a.first true) true
  | .unsupported, .cas _ | .other _, .cas _ => s.atomicFails part a (fltHostAtomic a.window 3 true) true

def execHostAtomicopCompletion (part req : Nat) (c : HostCpl) (s : State) : Result :=
  .next (match (s.part part).hostAtomics.find? fun a => a.id == req with
    | none => s
    | some a => (if c = .unsupported then s.unsupported part else s).atomicStep part a c)

/-! ## Timeouts (R340, R359, R360) -/

/-- Whether an atomic was performed is not known: DETAIL bit 8 (R360). -/
def lostAtomic (code port : Nat) : Flt := { code := code, detail := BitVec.ofNat 64 (port + 256) }

def State.partList (s : State) : List Nat := List.range s.partCount

/-- A request meets the completion timeout of its port: an ATS request, a host atomic, or from now on every request of the port
that needs a completion, until completions come again (log entry 44). -/
def State.timesOut (s : State) (port : Nat) (r : TimedOut) : State :=
  match r with
  | .ats part req =>
    ((s.part part).atsReqs.filter fun (q : AtsReq) => q.id == req).foldl
      (fun s q => s.atsAnswer part q (.bad { code := cTimeout })) s
  | .hostAtomic part req =>
    ((s.part part).hostAtomics.filter fun (a : HostAtomic) => a.id == req).foldl
      (fun s a => s.atomicFails part a (lostAtomic cTimeout port) false) s
  | .requests on => { s with ports := upd port (fun (p : Port) => { p with silent := on }) s.ports }

/-- The requester reports it (R372): requests that are not named are every partition's; that completions come again is no error. -/
def execCompletionTimeout (port : Nat) (r : TimedOut) (s : State) : Result :=
  .next (match r with
    | .requests false => s.timesOut port r
    | .requests true => (s.timesOut port r).reportOn .nonFatal s.partList .completionTimeout
    | .ats part _ | .hostAtomic part _ => (s.timesOut port r).report .nonFatal (some part) .completionTimeout)

/-! ## Walks and heat (R163, R164) -/

/-- What an access kind needs of its leaf (R162). -/
def accNeed : AccKind → Need
  | .fetch => needX
  | .store => needW
  | .engWrite => needW
  | .atomic => needRW
  | .none => {}
  | .walk => { r := true, quiet := true }
  | .pageReq => { r := true, quiet := true }
  | _ => needR

/-- A walk for lanes of a group ends: the translation is installed, or the lanes freeze at the walk's fault, late but for a fetch
(R163, R165, R335); a PRES or PRF makes no record, and a PGREQ's names the walk (R366). -/
def execWalkComplete (w : WalkReq) (s : State) : Result :=
  .next (match s.group? w.gid with
    | none => s
    | some g =>
      match s.ctx? g.part g.ctx with
      | none => s
      | some c =>
        let v := transBits w.va
        if !c.local? v || !canonical w.va then s
        else
          match s.walk g.who c (accNeed w.acc) v with
          | (s, .flt f) =>
            let pc := ((lanesOf w.lanes).head?.map fun l => (g.lane l).at).getD 0
            let ws := match s.instrAt g pc with
              | some i => encode i
              | none => []
            let acc := if w.acc = .pageReq then .walk else w.acc
            if w.quiet then s
            else s.raise w.gid ((lanesOf w.lanes).map fun l => (l, { f with faddr := w.va, acc := acc })) (w.acc != .fetch) false pc
              (if w.acc = .fetch then [] else ws) false none
          | (s, _) => s)

/-- A leaf one snuffer interval later: RH and WH one less, where they are not 0 (R164). -/
def snuffed (e : Nat) : Nat :=
  let e := if bitsAt e 59 2 = 0 then e else e - 2 ^ 59
  if bitsAt e 57 2 = 0 then e else e - 2 ^ 57

/-- The places of the leaves in a table at a level and in those below it, whichever core they are for (R164). -/
def State.snuffTable (part : Nat) : Nat → State → Nat → State × List Nat
  | 0, s, table => (List.range 512).foldl (fun (r : State × List Nat) i =>
      let (s, bs) := r.1.physRead part (table + 8 * i) 8
      let e := leNat bs
      (s, if e % 2 = 1 && bitsAt e 1 3 != 0 then r.2 ++ [table + 8 * i] else r.2)) (s, [])
  | l + 1, s, table => (List.range 512).foldl (fun (r : State × List Nat) i =>
      let (s, bs) := r.1.physRead part (table + 8 * i) 8
      let e := leNat bs
      if e % 2 = 0 then (s, r.2)
      else if bitsAt e 1 3 = 0 then
        if s.nonLeafOk part (l + 1) e then
          let (s, ls) := State.snuffTable part l s (bitsAt e 10 44 * 4096)
          (s, r.2 ++ ls)
        else (s, r.2)
      else (s, r.2 ++ [table + 8 * i])) (s, [])

/-- One leaf's interval. -/
def State.snuffLeaf (part : Nat) (s : State) (at' : Nat) : State :=
  let (s, bs) := s.physRead part at' 8
  let e := leNat bs
  if snuffed e != e then s.physWrite part at' (leBytes 8 (snuffed e)) else s

/-- A snuffer interval: every leaf that the tables hold, once, by however many ways they reach it (R164). -/
def State.snuff (s : State) (part : Nat) : State :=
  if (s.part part).snuff = 0 then s
  else
    let (s, leaves) := (List.range (s.part part).ctxn).foldl (fun (r : State × List Nat) ctx =>
      match r.1.readCtx part ctx with
      | (s, some c) =>
        if c.heaten && (c.regime == 1 || c.lsize != 0) then
          let (s, ls) := State.snuffTable part 4 s c.root
          (s, r.2 ++ ls)
        else (s, r.2)
      | (s, none) => (s, r.2)) (s, [])
    leaves.eraseDups.foldl (State.snuffLeaf part) s

def execSnufferInterval (part : Nat) (s : State) : Result := .next (s.snuff part)

end Sys2Proof.Machine
end

