-- ==== Sys2Proof/Machine/Granules.lean ====
section
/-!
DEFINITION. What homes do of their own: the end of a sweep interval (R143 to R145, R368), write ownership of a store that
was translated earlier (R351, R400), dropped directory entries and crier rounds (R150, R356), write-backs to the far tier
(R360); the placement of tiles (R211).
-/
namespace Sys2Proof.Machine

/-! ## Sweeps -/

/-- The heat class of a count (R143). -/
def heatOf (n : Nat) : Nat := if n = 0 then 0 else if n < 16 then 1 else if n < 256 then 2 else 3

/-- The memory of a key belongs to a partition's homes; host memory to those of a partition with a window on it. -/
def State.keyIn (s : State) (part k : Nat) : Bool :=
  if isHost k then
    (s.part part).windows.any fun w => w.valid && w.port == portOfKey k && inRange w.hbase w.size (k % 2 ^ 64)
  else partOfKey k == part

/-- The buddy of a granule: the other half of its parent (R145). -/
def State.buddy (s : State) (g : Granule) : Option Granule :=
  let n := 2 ^ g.log2
  let b := if g.base / n % 2 = 0 then g.base + n else g.base - n
  s.granules.find? fun x => x.base == b && x.log2 == g.log2

/-- What must be identical for four intervals (R145). -/
def sameState (a b : Granule) : Bool :=
  a.owner == b.owner && (a.sharers.all b.sharers.contains) && (b.sharers.all a.sharers.contains) && a.pr == b.pr &&
    a.pw == b.pw && a.px == b.px && a.te == b.te && a.heat == b.heat

/-- The translations of the parent's addresses grant the same permissions (R145): those installed, by walk or by ATS, and the
leaves of the partition's contexts. -/
def State.sameGrants (s : State) (part base n : Nat) : Bool :=
  let installed := ((s.coresOf part).map fun c => (s.core c).tlb.filter fun e =>
    e.part == part && (s.placeOf part e e.pbase).key?.any fun k => meets k (2 ^ e.log2) base n).flatten
  let leaves := ((s.part part).ctxs.map fun c => (s.leaves part c.ctx).filter fun p =>
    bitsAt p.2.2 61 2 != 3 && (s.keyOf part (leafBase p.2.2)).any fun k => meets k (2 ^ leafLog2 p.2.1 p.2.2) base n).flatten
  allSame ((installed.map fun e => (e.r, e.w, e.x)) ++
    leaves.map fun p => (bitsAt p.2.2 1 1 == 1, bitsAt p.2.2 2 1 == 1, bitsAt p.2.2 3 1 == 1))

/-- The interval's count becomes the heat class; a granule used in one half only is noted for halving (R143, R144). -/
def Granule.swept (g : Granule) : Granule := { g with heat := heatOf g.count, count := 0, lowUse := false, highUse := false }

/-- Halve a granule that was used in one half only (R144). -/
def State.partialUse (s : State) (g : Granule) : State :=
  if isHost g.base || g.log2 ≤ 4 || g.hold != 0 || g.lowUse == g.highUse then s
  else
    match s.granules.find? fun x => x.base == g.base && x.log2 == g.log2 with
    | some x => s.splitGranule x
    | none => s

/-- The translations of a granule's parent grant different permissions now: the interval in which a leaf change ends that does not
count either (R368). -/
def State.unlike (s : State) (part : Nat) (g : Granule) : Bool :=
  (s.buddy g).any fun b => sameState g b && !s.sameGrants part (min g.base b.base) (2 ^ (g.log2 + 1))

/-- One more interval in which a granule was as its buddy, or none. An interval in which the protection summary of either
changed does not count, nor one that began while the translations differed (R368). -/
def State.quieter (s : State) (g : Granule) : Granule :=
  match s.buddy g with
  | some b => { g with quiet := if sameState g b && !g.changed && !b.changed then g.quiet + 1 else 0 }
  | none => { g with quiet := 0 }

/-- Merge two buddies (R145). -/
def State.merge (s : State) (part : Nat) (g : Granule) : State :=
  match s.granules.find? fun x => x.base == g.base && x.log2 == g.log2 with
  | none => s
  | some g =>
    match s.buddy g with
    | none => s
    | some b =>
      let n := 2 ^ (g.log2 + 1)
      let ok := decide (g.base < b.base) && decide (4 ≤ g.quiet) && decide (4 ≤ b.quiet) && sameState g b &&
        decide (g.log2 < 21) && !isHost g.base && g.hold == 0 && b.hold == 0 && s.sameGrants part g.base n
      if !ok then s
      else
        let m : Granule := { g with
          log2 := g.log2 + 1
          quiet := 0
          count := 0
          writes := []
          wrote := g.wrote ++ b.wrote
          entry := g.entry && b.entry
          cuts := g.cuts ++ b.cuts.filter fun c => !g.cuts.contains c
          teams := b.teams.foldl (fun ts (t : TeamHold) => kset TeamHold.tid t ts) g.teams }
        { s with granules := kset Granule.base m (kdel Granule.base b.base s.granules) }

def State.sweepEnd (s : State) (part : Nat) : State :=
  let old := s.granules.filter fun (g : Granule) => s.keyIn part g.base
  let s := { s with granules := s.granules.map fun (g : Granule) => if s.keyIn part g.base then g.swept else g }
  let s := old.foldl State.partialUse s
  let s := { s with granules := s.granules.map fun (g : Granule) => if s.keyIn part g.base then s.quieter g else g }
  let s := { s with granules := s.granules.map fun (g : Granule) => if s.keyIn part g.base then { g with changed := s.unlike part g } else g }
  (s.granules.filter fun (g : Granule) => s.keyIn part g.base).foldl (fun (s : State) (g : Granule) => s.merge part g) s

def execSweepIntervalEnd (part : Nat) (s : State) : Result := .next (s.sweepEnd part)

/-! ## Write ownership (R351, R400) -/

/-- The first piece of `[k, k + n)` that refuses a write translated at a moment. -/
def State.refusing (s : State) (k n filledAt : Nat) : Option Granule :=
  let a := s.granuleOf k
  let b := s.granuleOf (k + n - 1)
  if a.refuses k n filledAt true then some a else if b.refuses k n filledAt true then some b else none

/-- A request for write ownership of bytes reaches the home: the store binds, or is refused (R351). -/
def execWriteOwnershipRequest (r : OwnReq) (s : State) : Result :=
  .next (match s.group? r.gid with
    | none => s
    | some g =>
      match s.physOf g.part r.pa with
      | .mem k =>
        match if isHost k then none else s.refusing k r.bytes r.filledAt with
        | some piece =>
          let d := s.leafGrants g.part g.ctx needW r.va
          let ws := match s.instrAt g r.pc with
            | some i => encode i
            | none => []
          let f : Flt := {
            code := cPermission
            faddr := r.va
            detail := d
            acc := .store
            granule := some (s.boundOf piece.base) }
          s.raise r.gid ((lanesOf r.lanes).map fun l => (l, f)) true false r.pc ws false none
        | none =>
          s.ownBytes g.part g.core { key := k, pa := r.pa, va := r.va, n := r.bytes, cached := true }
      | _ => s)

/-! ## Directory drops and crier rounds (R150, R356) -/

def State.hbmKey? (s : State) (part pa : Nat) : Option Nat :=
  match s.physOf part pa with
  | .mem k => some k
  | _ => none

/-- A home may drop the entry of a granule that one agent owns and nothing holds. -/
def execDirectoryEntryDrop (part pa : Nat) (s : State) : Result :=
  .next (match s.hbmKey? part pa with
    | none => s
    | some k =>
      let g := s.granuleOf k
      if g.owner.isSome && g.sharers.isEmpty && g.hold == 0 && g.teNext.isEmpty then s.setGranule { g with entry := false }
      else s)

/-- The entry is rebuilt from the answers (R150), as it is before a request that misses it proceeds. -/
def execCrierRound (part pa : Nat) (s : State) : Result :=
  .next (match s.hbmKey? part pa with
    | none => s
    | some k =>
      s.setGranule (s.cried (s.granuleOf k)))

/-! ## Write-backs and placement -/

/-- The same bytes of the expander as the homes of the other partitions hold them, or lie behind those that are dirty there: they
are not kept coherent (R271). -/
def State.shareFar (s : State) (k : Nat) : State :=
  (List.range 4).foldl (fun (s : State) p =>
    let k' := farKey p (portOfKey k) (k % 2 ^ 52)
    if p = partOfKey k then s
    else if s.l2dirty.contains (k' / 128) then { s with behind := kset Prod.fst (k' / 128, bread s.mem k 128) s.behind }
    else { s with mem := bwrite s.mem k' (bread s.mem k 128) }) s

/-- The hardware moves a tile that has storage (R211, R219). -/
def execTilePlacementChange (sid name place : Nat) (s : State) : Result :=
  .next (s.updSpan sid fun x =>
    if (x.tile name).storage && decide (place < 3) then x.putTile { x.tile name with place := place } else x)

end Sys2Proof.Machine
end

