-- ==== Sys2Proof/Machine/Recover.lean ====
section
/-!
DEFINITION. Taking work and memory away: draining and ending grids (R374), stopping a partition and settling its grids
(R376, R378, R383), recovery resets (R385) and wipes (R287).
-/
namespace Sys2Proof.Machine

/-! ## Draining (R34, R374) -/

/-- Let an operation do what it can. -/
def State.pushOp (s : State) (id : Nat) : State :=
  match s.op? id with
  | none => s
  | some o =>
    let s := (s.beginDef o.sid).readSource id
    match o.kind with
    | .cpy _ _ _ => s.runCopy id
    | .gath _ _ _ => s.runGath id
    | .sta _ _ _ _ => s.runSta id
    | .coll k _ _ _ _ => s.runColl o.sid k
    | .stage _ _ _ _ => s.runStage id
    | .tdefSp _ _ _ | .tdefReg _ _ _ => s.runTdef id
    | .treadSp _ _ | .treadReg _ _ => s.runTread id
    | .mmat _ _ | .mmar _ _ _ _ _ _ => s.passOf (clusterOf o.core) id
    | _ => s.runMatrix id

def State.opIds (s : State) (uid : Nat) : List Nat := (s.ops.filter fun o => o.uid == uid && !o.done).map AOp.id

/-- Rounds over a grid's operations. -/
def State.pushAll (uid : Nat) : Nat → State → State
  | 0, s => s
  | n + 1, s => State.pushAll uid n ((s.opIds uid).foldl State.pushOp s)

/-- Records of a grid's groups. -/
def State.ridsOf (s : State) (uid : Nat) : List Nat :=
  (s.records.filter fun r => match s.group? r.gid with
    | some g => (s.spanOf g).any fun x => x.uid == uid
    | none => false).map Record.rid

/-- A grid that runs is ended (R374): its operations complete, those held up are abandoned, its frozen lanes are retired,
then it is reported failed. -/
def State.endGrid (s : State) (uid code : Nat) : State :=
  let s := State.pushAll uid ((s.opIds uid).length + 1) s
  let s := (s.opIds uid).foldl State.abandonOp s
  let s := (s.ridsOf uid).foldl State.handlerGone s
  (s.removeGrids [uid]).failGrid uid code

/-- A grid is running: some team has been issued, not all of its work is done (R373). -/
def State.gridRuns (s : State) (g : Grid) : Bool :=
  decide (g.st = .queued) && decide (0 < g.nextSpan) && g.compl == .no && !s.gridIdle g

/-! ## Stopping and settling (R376, R378, R383) -/

def State.uidsOf (s : State) (part : Nat) : List Nat := (s.grids.filter fun g => g.part == part).map Grid.uid

/-- A partition's cores stop: nothing of its spans is kept, launches that its groups were waiting with are gone. -/
def State.stopPart (s : State) (part : Nat) : State :=
  (s.removeGrids (s.uidsOf part)).updPart part fun p => { p with launches := p.launches.filter fun l => l.gid == 0 }

/-- One journal entry is settled (R383). `code`: what a grid that cannot run again fails with; `stop`: no grid runs again
(R376). -/
def Grid.settle (code : Nat) (stop : Bool) (g : Grid) : Grid :=
  let g := { g with wait := none, deny := none, bumped := false }
  if g.compl ≠ .no then { g with compl := .again, recOut := false }
  else if g.hasFailed then g
  else if stop || (decide (0 < g.nextSpan) && !recRestart g.rcd) then
    { g with st := .failed code, issued := true, depMet := true, depKey := none }
  else
    { g with
      depMet := recDep g.rcd == 0
      depKey := none
      depHit := false
      nextSpan := 0
      issued := false
      teams := 0
      mcdisc := false
      collabs := false
      bcdisc := false
      engflt := false }

def State.settleGrids (s : State) (part code : Nat) (stop : Bool) : State :=
  { s with grids := s.grids.map fun (g : Grid) => if g.part == part then g.settle code stop else g }

/-! ## Memory and dies -/

/-- Bytes, tags and poison of a range of a partition's HBM become zero. -/
def State.zeroHbm (s : State) (k n : Nat) : State :=
  { s with
    mem := s.mem.filter fun (c : Host.Cell) => !inRange k n c.1
    tags := s.tags.filter fun c => !inRange k n (32 * c.1)
    poison := s.poison.filter fun u => !inRange k n (16 * u) }

def State.diesOf (s : State) (part : Nat) : List Nat := (List.range s.dieCount).map (· + part * s.dieCount)

/-- Every SRAM of some dies is wiped; what is out of service stays so (R287, R385). -/
def State.clearDies (s : State) (ds : List Nat) : State :=
  { s with
    cores := imap (fun i (c : Core) => if ds.contains (dieOf i) then {} else c) 0 s.cores
    clusters := imap (fun i (c : Cluster) => if ds.contains (i / 2) then {} else c) 0 s.clusters
    dies := imap (fun i (d : Die) =>
      if ds.contains i then ({ lost := d.lost, stackLost := d.stackLost } : Die) else d) 0 s.dies }

/-- The directories of a partition's homes restart with every granule uncached; nothing is held dirty at them. -/
def State.clearHomes (s : State) (part : Nat) : State :=
  { s with
    granules := s.granules.filter fun (g : Granule) => !s.keyIn part g.base
    l2dirty := s.l2dirty.filter fun l => !s.keyIn part (128 * l)
    behind := s.behind.filter fun p => !s.keyIn part (128 * p.1) }.updPart part fun p => { p with
      hlines := []
      hostHeld := [] }

/-- Harts whose launch is discarded, or whose AMO gets no answer any more, issue it again. -/
def State.freeHarts (s : State) (part : Nat) : State :=
  let p := s.part part
  (((p.launches.filter fun l => l.gid == 0).map Launch.hart) ++ p.hostAtomics.filterMap fun a => a.hart.map Prod.fst).foldl
    (fun (s : State) n => s.updHart n fun h => { h with waiting := false }) s

/-- What a partition's homes hold modified of far-tier and host memory and have not written back is dropped. -/
def State.dropHomes (s : State) (part : Nat) : State :=
  let s := (s.l2dirty.filter fun l => s.keyIn part (128 * l)).foldl State.loseFar s
  (s.part part).hlines.foldl State.loseLine s

/-- A wipe of a partition's dies and HBM (R287): no work survives; its queues start again. -/
def State.wipePart (s : State) (part : Nat) : State :=
  let s := (((((s.freeHarts part).dropHomes part).removeGrids (s.uidsOf part)).clearHomes part).clearDies (s.diesOf part)).zeroHbm (hbmKey part 0) (2 ^ 56)
  { s with grids := s.grids.filter fun g => g.part != part }.updPart part fun p => { p with
    ctxs := []
    pageReqs := []
    atsReqs := []
    hostAtomics := []
    invals := []
    launches := []
    seqs := List.replicate 16 0
    prqTail := 0
    scanCore := 0
    scanCluster := 0
    scanQueues := List.replicate 8 0
    beat0 := s.beat }

/-! ## Recovery (R378, R383, R385) -/

/-- The homes of a byte still take a write: a stack in service, or a link that is up. -/
def State.homeTakes (s : State) (part k : Nat) : Bool :=
  !s.homeLost part k && (isHbm k || (s.port (portOfKey k)).up)

/-- Bytes that are dirty in a cluster's caches, L1s included. -/
def State.dirtyOf (s : State) (cl : Nat) : List Nat :=
  ((s.cluster cl).cc.filter CcByte.dirty).map CcByte.key ++
    ((clusterCores cl).map fun c => ((s.core c).l1.filter L1Byte.dirty).map L1Byte.key).flatten

/-- A dirty byte of a die that is reset goes to its home where that survives (R385). -/
def State.saveByte (part cl : Nat) (s : State) (k : Nat) : State :=
  if s.homeTakes part k then (s.moveCluster cl [k]).moveHome cl [k] else s

/-- The `n` units from a unit on are poisoned. -/
def State.poisonUnits (s : State) (u n : Nat) : State := (List.range n).foldl (fun s i => s.addPoison (u + i)) s

/-- A partition's home can write a line to the memory behind a link: its die is in service, and the request meets nothing on the
port (R359, R375, R378). -/
def State.canWriteBack (s : State) (part k : Nat) : Bool :=
  !s.homeLost part k && (s.port (portOfKey k)).up && !(s.port (portOfKey k)).silent && (s.streamFlt part (portOfKey k)).isNone

/-- A home writes a far-tier line that it holds dirty to the expander; where it cannot, the bytes are discarded and their units
poisoned (R360). -/
def State.writeBackLine (s : State) (line : Nat) : State :=
  if s.canWriteBack (partOfKey (128 * line)) (128 * line) then
    { s with l2dirty := s.l2dirty.filter (· != line), behind := kdel Prod.fst line s.behind }.shareFar (128 * line)
  else (s.loseFar line).poisonUnits (8 * line) 8

def execHomeWriteBack (part pa : Nat) (s : State) : Result :=
  .next (match s.hbmKey? part pa with
    | none => s
    | some k => if isFar k && s.l2dirty.contains (k / 128) then s.writeBackLine (k / 128) else s)

/-- Lines that a partition's homes hold modified for far-tier and host memory are written, or lost and their units poisoned (R357, R360,
R373, R378). -/
def State.homesOut (s : State) (part : Nat) : State :=
  let s := (s.l2dirty.filter fun l => s.keyIn part (128 * l)).foldl State.writeBackLine s
  ((s.part part).hlines.filter fun h => h.dirty && !s.canWriteBack part (64 * h.line)).foldl
    (fun (s : State) h => (s.loseLine h).poisonUnits (4 * h.line) 4) s

/-- A die is lost with what its clusters own: the units are poisoned (R378). -/
def State.poisonOwned (s : State) (cl : Nat) : State :=
  (((s.cluster cl).cc.filter CcByte.own).map CcByte.key).foldl (fun s k => s.addPoison (k / 16)) s

/-- The cellar areas of the partition's contexts, as its context memory table gives them (R278). -/
def State.wipeCellars (s : State) (part : Nat) : State :=
  (List.range (s.part part).ctxn).foldl (fun (s : State) ctx =>
    let (s, e) := s.physRead part ((s.part part).cmtbase.toNat + 64 * ctx) 16
    let top := s.hbmSize part
    let n := min (blk e 8 8) (top - blk e 0 8)
    if n = 0 then s else s.zeroHbm (hbmKey part (blk e 0 8)) n) s

/-- The recovery reset of a partition's dies (R385). -/
def State.resetDies (s : State) (part : Nat) : State :=
  let ds := s.diesOf part
  let live := (s.clustersOf part).filter fun cl => !(s.die (cl / 2)).lost
  let dead := (s.clustersOf part).filter fun cl => (s.die (cl / 2)).lost
  let s := live.foldl (fun (s : State) cl => (s.dirtyOf cl).foldl (State.saveByte part cl) s) s
  let s := (dead.foldl State.poisonOwned s).homesOut part
  let s := ((s.clearHomes part).wipeCellars part).clearDies ds
  let p := s.part part
  s.zeroHbm (hbmKey part p.spillbase.toNat) p.spillsize.toNat

/-- A recovery of a partition (R378): its cores stop, its dies are reset, its grids are settled. -/
def State.recover (code : Nat) (s : State) (part : Nat) : State :=
  ((s.stopPart part).resetDies part).settleGrids part code false

end Sys2Proof.Machine
end

