-- ==== Sys2Proof/Machine/Sha.lean ====
section
/-!
DEFINITION. SHA-256, which R284 and R285 name for measurements; its definition is FIPS 180-4's (PRESUMED, log entry 9).
-/
namespace Sys2Proof.Machine

/-- The round constants. -/
def shaK : List Word := [
  0x428A2F98, 0x71374491, 0xB5C0FBCF, 0xE9B5DBA5, 0x3956C25B, 0x59F111F1, 0x923F82A4, 0xAB1C5ED5,
  0xD807AA98, 0x12835B01, 0x243185BE, 0x550C7DC3, 0x72BE5D74, 0x80DEB1FE, 0x9BDC06A7, 0xC19BF174,
  0xE49B69C1, 0xEFBE4786, 0x0FC19DC6, 0x240CA1CC, 0x2DE92C6F, 0x4A7484AA, 0x5CB0A9DC, 0x76F988DA,
  0x983E5152, 0xA831C66D, 0xB00327C8, 0xBF597FC7, 0xC6E00BF3, 0xD5A79147, 0x06CA6351, 0x14292967,
  0x27B70A85, 0x2E1B2138, 0x4D2C6DFC, 0x53380D13, 0x650A7354, 0x766A0ABB, 0x81C2C92E, 0x92722C85,
  0xA2BFE8A1, 0xA81A664B, 0xC24B8B70, 0xC76C51A3, 0xD192E819, 0xD6990624, 0xF40E3585, 0x106AA070,
  0x19A4C116, 0x1E376C08, 0x2748774C, 0x34B0BCB5, 0x391C0CB3, 0x4ED8AA4A, 0x5B9CCA4F, 0x682E6FF3,
  0x748F82EE, 0x78A5636F, 0x84C87814, 0x8CC70208, 0x90BEFFFA, 0xA4506CEB, 0xBEF9A3F7, 0xC67178F2]

/-- The initial hash value. -/
def shaInit : List Word := [0x6A09E667, 0xBB67AE85, 0x3C6EF372, 0xA54FF53A, 0x510E527F, 0x9B05688C, 0x1F83D9AB, 0x5BE0CD19]

/-- The message, its end bit, zeros, and its length in bits, as whole blocks of 64 bytes. -/
def shaPad (bs : List Byte) : List Byte :=
  let n := bs.length
  let z := (119 - n % 64) % 64
  let len := (List.range 8).map fun i => BitVec.ofNat 8 (8 * n / 2 ^ (56 - 8 * i))
  bs ++ [0x80] ++ List.replicate z 0 ++ len

/-- The i-th big-endian word. -/
def shaWord (bs : List Byte) (i : Nat) : Word :=
  ((bs.drop (4 * i)).take 4).foldl (fun (w : Word) (b : Byte) => w <<< 8 ||| b.setWidth 32) 0

def shaExp (w : Word) (a b c : Nat) : Word := w.rotateRight a ^^^ w.rotateRight b ^^^ w >>> c
def shaSum (w : Word) (a b c : Nat) : Word := w.rotateRight a ^^^ w.rotateRight b ^^^ w.rotateRight c

/-- The message schedule, latest word first. -/
def shaSchedule : Nat → List Word → List Word
  | 0, ws => ws
  | n + 1, ws =>
    let w := fun (k : Nat) => ws.getD (k - 1) 0
    shaSchedule n ((shaExp (w 2) 17 19 10 + w 7 + shaExp (w 15) 7 18 3 + w 16) :: ws)

/-- One round, for a constant and a word of the schedule. -/
def shaRound (v : List Word) (kw : Word × Word) : List Word :=
  match v with
  | [a, b, c, d, e, f, g, h] =>
    let t1 := h + shaSum e 6 11 25 + (e &&& f ^^^ ~~~e &&& g) + kw.1 + kw.2
    let t2 := shaSum a 2 13 22 + (a &&& b ^^^ a &&& c ^^^ b &&& c)
    [t1 + t2, a, b, c, d + t1, e, f, g]
  | _ => v

def shaBlock (h : List Word) (block : List Byte) : List Word :=
  let ws := (shaSchedule 48 ((List.range 16).map (shaWord block)).reverse).reverse
  List.zipWith (· + ·) h ((shaK.zip ws).foldl shaRound h)

/-- SHA-256 of some bytes: 32 bytes. -/
def sha256 (bs : List Byte) : List Byte :=
  let m := shaPad bs
  let h := (List.range (m.length / 64)).foldl (fun h i => shaBlock h ((m.drop (64 * i)).take 64)) shaInit
  (h.map fun (w : Word) => (List.range 4).map fun i => BitVec.ofNat 8 (w.toNat / 2 ^ (24 - 8 * i))).flatten

end Sys2Proof.Machine
end

