-- ==== Sys2Proof/Machine/Host.lean ====
section
/-!
DEFINITION. What the host and the application cores do to the part from outside: coherence with the host (R276), host
accesses and AtomicOps to device memory (R270, R276), the host window table (R272 to R274), the partition control page
(R277), partition count (R282), TDISP (R283, R376), boot, measurement and images (R284 to R286, R384), power and
management (R288 to R290).
-/
namespace Sys2Proof.Machine

/-- The partition function exists: firmware runs, and the partition is one of the present count (R270, R286). -/
def State.present (s : State) (part : Nat) : Bool := !s.imageBad && decide (part < s.partCount)

/-- It can be reached from the host. -/
def State.fnUp (s : State) (part : Nat) : Bool := s.present part && (s.port 0).up

/-! ## Snoops of host lines (R276) -/

/-- A byte of a snooped line, recalled from every cluster cache but not from L1s: an invalidating snoop takes it from the
cluster caches and marks the L1 copies (R137). -/
def State.snoopByte (inval : Bool) (s : State) (k : Nat) : State :=
  if !inval then s
  else
    (List.range 8).foldl (fun (s : State) cl =>
      let s := match ccGet (s.cluster cl) k with
        | some x => s.updCluster cl (ccPut { x with val := none, dirty := false, own := false })
        | none => s
      (clusterCores cl).foldl (fun (s : State) c =>
        match l1Get (s.core c) k with
        | some x => if x.dirty then s else s.updCore c (l1Put { x with stale := true })
        | none => s) s) s

/-- The host's own bytes of a line that it holds (R276, R281): what watches the line sees them. -/
def State.hostBytes (s : State) (k : Nat) (bs : List Byte) : State :=
  let s := s.memPuts k bs
  (s.clearPoison k bs.length).fire k bs.length

/-- A host snoop of a line that the partition holds is answered after the recall (R276, R370); then the host's bytes, if
any, are in its line. `line`: link address div 64. -/
def State.snoop (s : State) (part line : Nat) (inval : Bool) (data : List Byte) : State :=
  let k := hostKey 0 (64 * line)
  match (s.part part).hlines.find? fun h => h.line == k / 64 with
  | none => (s.send .snoopAnswer part [line, 0, 0]).hostBytes k (data.take 64)
  | some _ =>
    let s := (List.range 8).foldl (fun (s : State) cl => s.moveHome cl ((List.range 64).map (k + ·))) s
    let s := (List.range 64).foldl (fun (s : State) i => s.snoopByte inval (k + i)) s
    let dirty := (s.part part).hlines.any fun h => h.line == k / 64 && h.dirty
    let s := s.send .snoopAnswer part ([line, 1, b2n dirty 1, b2n (s.foundBad k 64) 1] ++
      if dirty then (bread s.mem k 64).map BitVec.toNat else [])
    let s := if inval then s else s.disownLine part (k / 64)
    let s := s.updPart part fun p => { p with
      hlines := if inval then p.hlines.filter fun h => h.line != k / 64
        else p.hlines.map fun h => if h.line = k / 64 then { h with dirty := false, was := [] } else h }
    if inval then s.hostBytes k (data.take 64) else s

def execHostSnoop (part line : Nat) (inval : Bool) (data : List Byte) (s : State) : Result :=
  .next (if (s.port 0).up then s.snoop part line inval data else s)

/-! ## A lock break (R283, R376) -/

def Tdi.locks (t : Tdi) : Bool := t == .locked || t == .run

/-- The grids of an interface in ERROR stop, and each is reported failed (R376). -/
def State.tdiFail (s : State) (part : Nat) : State :=
  if (s.part part).tdi.locks then
    (((s.stopPart part).settleGrids part 0x020E true).updPart part fun p => { p with tdi := .error }).report .nonFatal
      (some part) .tdi
  else s

/-- A write of the function's configuration space or BARs, which a locked interface does not take and an interface in ERROR
answers with Unsupported Request. -/
def State.configWrite (s : State) (part : Nat) (f : State → State) : State :=
  if !s.fnUp part then s
  else s.unlessError part fun s => if (s.part part).tdi.locks then s.tdiFail part else f s

/-- PRI is enabled again, and its failure status cleared (R340). -/
def execPriEnable (part : Nat) (s : State) : Result :=
  .next (s.configWrite part fun s => s.updPart part fun p => { p with priFailed := false })

/-! ## Host accesses to device memory (R270, R276, R283) -/

/-- The stream is the one bound to a partition's interface. -/
def State.bound (s : State) (part stream : Nat) : Bool := s.streams.any fun (x : Stream) => x.id == stream && x.part == some part

/-- The stream is the selective IDE stream bound to the partition's interface. -/
def State.boundTo (s : State) (part : Nat) (stream : Option Nat) : Bool := stream.any (s.bound part)

/-- The HDM offset of an accepted request: inside the decoder's range, and admitted by TDISP. `stream`: the stream on which it
came with the T bit. -/
def State.hdmAt (s : State) (part addr n : Nat) (stream : Option Nat) : Option Nat :=
  let p := s.part part
  match p.hdmBase with
  | none => none
  | some b =>
    if s.fnUp part && decide (b ≤ addr) && decide (addr + n ≤ b + s.hbmSize part) && p.tdi != .error &&
        (p.tdi != .run || s.boundTo part stream) then some (addr - b)
    else none

/-- The 64-byte lines that a range touches. -/
def hostLines (k n : Nat) : List Nat := (List.range ((k + n - 1) / 64 - k / 64 + 1)).map (· + k / 64)

/-- The directory records the host with the lines (R276). -/
def State.hostTakes (s : State) (part k n : Nat) : State :=
  s.updPart part fun p => { p with hostHeld := (hostLines k n).foldl (fun hs l => if hs.contains l then hs else hs ++ [l]) p.hostHeld }

/-- Some byte of a range has its home out of service. -/
def State.lostIn (s : State) (part k n : Nat) : Bool := (List.range n).any fun i => s.homeLost part (k + i)

/-- Read or written bytes of a host access that TDISP and the decoder admit. -/
def State.hdmRead (s : State) (part addr n : Nat) (stream : Option Nat) : State :=
  match s.hdmAt part addr n stream with
  | none => s.send .hdmUnsupported part [addr]
  | some off =>
    let k := hbmKey part off
    if n = 0 then s.send .hdmData part [addr]
    else if s.lostIn part k n then s.send .hdmPoison part [addr]
    else
      let (s, bs) := (s.shareRequest hostAgent k n).homeRead k n
      let s := s.hostTakes part k n
      s.send (if s.foundBad k n then .hdmPoison else .hdmData) part (addr :: bs.map BitVec.toNat)

def State.hdmWrite (s : State) (part addr : Nat) (stream : Option Nat) (bs : List Byte) : State :=
  let n := bs.length
  match s.hdmAt part addr n stream with
  | none => s.send .hdmUnsupported part [addr]
  | some off =>
    let k := hbmKey part off
    if n = 0 then s.send .hdmData part [addr]
    else if s.lostIn part k n then s.send .hdmPoison part [addr]
    else (((((s.hartsForget k n).ownRequest hostAgent k n).homeWrite k bs).clearPoison k n).hostTakes part k n).send .hdmData part [addr]

/-- The MSI-X vector, of the function's 64, that its error reports set from now on (R270, R372). -/
def State.setVector (s : State) (pf n : Nat) : State := if n < 64 then { s with errVecs := upd pf (fun _ => n) s.errVecs } else s

/-- The completion timeout of a port: its default and the values of ranges A to D (R359; their codes are log entry 49's). -/
def timeoutCodes : List Nat := [0, 1, 2, 5, 6, 9, 10, 13, 14]

def State.setTimeout (s : State) (port code : Nat) : State :=
  if timeoutCodes.contains code then { s with ports := upd port (fun (p : Port) => { p with timeout := code }) s.ports } else s

/-- The interface that a stream is bound to is locked, and the binding with it (R283). -/
def State.streamLocked (s : State) (x : Stream) : Bool := x.part.any fun q => decide ((s.part q).tdi ≠ .unlocked)

/-- A stream is configured: a link stream of a port, or a selective stream of a partition's function (R270). -/
def State.setStream (s : State) (part id port : Nat) (link : Bool) : State :=
  let old := (s.streams.find? fun x => x.id == id).getD ⟨id, false, none, false, 0, none⟩
  if 4 ≤ port || s.streamLocked old then s
  else
    let x := { old with
      link := link
      port := port
      part := if link then none else old.part
      user := if link then none else some part }
    { s with streams := kset Stream.id x s.streams }

def State.hdmRequest (s : State) (part addr : Nat) (stream : Option Nat) (op : HdmOp) : State :=
  match op with
  | .read n => s.hdmRead part addr n stream
  | .write bs => s.hdmWrite part addr stream bs
  | .program b => s.configWrite part fun s => s.updPart part fun p => { p with hdmBase := some b }
  | .vector true n => s.setVector 0 n
  | .vector false n => s.configWrite part fun s => s.setVector (part + 1) n
  | .msix true n a d m => s.putMsix 0 n a d m
  | .msix false n a d m => s.configWrite part fun s => s.putMsix (part + 1) n a d m
  | .stream id port link => s.configWrite part fun s => s.setStream part id port link
  | .timeout port code => s.setTimeout port code

def execHostHdmRequest (part addr : Nat) (stream : Option Nat) (op : HdmOp) (s : State) : Result :=
  .next (if (s.port 0).up then s.hdmRequest part addr stream op else s)

/-- Widths that the completer supports (R270). -/
def hostAtWidth (op : HostAtOp) (bytes : Nat) : Bool :=
  bytes == 4 || bytes == 8 || (decide (op = .cas) && bytes == 16)

def hostAtNew (op : HostAtOp) (bytes old operand compare : Nat) : Nat :=
  match op with
  | .fetchAdd => (old + operand) % 2 ^ (8 * bytes)
  | .swap => operand % 2 ^ (8 * bytes)
  | .cas => if old = compare % 2 ^ (8 * bytes) then operand % 2 ^ (8 * bytes) else old

/-- A host AtomicOp to device memory, performed at the home (R270). -/
def State.hostAtomic (s : State) (part addr : Nat) (stream : Option Nat) (op : HostAtOp) (bytes operand compare : Nat) : State :=
  let no := s.send .atomicUnsupported part [addr]
  if !hostAtWidth op bytes || addr % bytes != 0 then no
  else
    match s.hdmAt part addr bytes stream with
    | none => no
    | some off =>
      let k := hbmKey part off
      if s.lostIn part k bytes || s.foundBad k bytes then s.send .hdmPoison part [addr]
      else
        let (s, bs) := ((s.hartsForget k bytes).ownRequest hostAgent k bytes).homeRead k bytes
        let s := s.homeWrite k (leBytes bytes (hostAtNew op bytes (leNat bs) operand compare))
        s.send .atomicData part [addr, leNat bs]

def execHostAtomicopRequest (part addr : Nat) (stream : Option Nat) (op : HostAtOp) (bytes operand compare : Nat)
    (s : State) : Result :=
  .next (if (s.port 0).up then s.hostAtomic part addr stream op bytes operand compare else s)

/-! ## Host windows (R272 to R274) -/

/-- An entry of the table, with V clear where it breaks R272. -/
def windowOf (e : List Byte) : Window :=
  let attr := blk e 0x18 4
  let w : Window := {
    dbase := blk e 0 8
    size := blk e 8 8
    hbase := blk e 0x10 8
    nofb := bitsAt attr 12 1 == 1
    port := bitsAt attr 10 2
    route := bitsAt attr 3 2
    mode := bitsAt attr 1 2
    tc := bitsAt attr 7 3
    valid := attr % 2 == 1 }
  let space := decide (2 ^ 47 ≤ w.dbase ∧ w.dbase + w.size ≤ 2 ^ 48)
  let fields := bitsAt attr 13 19 == 0 && bitsAt attr 5 2 == 0 && blk e 0x1C 4 == 0 && w.route != 3 && w.mode != 3
  let aligned := w.dbase % 2 ^ 21 == 0 && w.hbase % 2 ^ 21 == 0 && w.size % 2 ^ 21 == 0 && w.size != 0
  let coherent := (w.mode == 0) == (w.route == 0) && (w.mode != 0 || w.port == 0)
  { w with valid := w.valid && space && fields && aligned && coherent }

/-- An entry that overlaps an earlier one in window space breaks R272 too. -/
def noOverlap : List Window → List Window → List Window
  | _, [] => []
  | seen, w :: ws =>
    let bad := seen.any fun x => x.valid && meets x.dbase x.size w.dbase w.size
    let w := if bad then { w with valid := false } else w
    w :: noOverlap (seen ++ [w]) ws

/-- The table of a partition, read whole. -/
def State.readWindows (s : State) (part n : Nat) : State × List Window :=
  let (s, ws) := (List.range n).foldl (fun (r : State × List Window) i =>
    let (s, e) := r.1.physRead part ((s.part part).hwtbase.toNat + 32 * i) 32
    (s, r.2 ++ [windowOf e])) (s, [])
  (s, noOverlap [] ws)

/-- Every cache of a partition lets go of a range of host memory, written back first (R274). -/
def State.dropHost (s : State) (part k n : Nat) : State :=
  let ks := (s.cachedIn k n)
  let s := s.recallAll ks
  let s := ks.foldl (fun (s : State) k => (s.clustersOf part).foldl (fun s cl => s.purge cl k) s) s
  s.updPart part fun p => { p with hlines := p.hlines.filter fun h => !inRange (k / 64) (n / 64) h.line }

/-- Monitors and dependences of the partition on a range are discarded (R274): lanes issue the WAITV again, the
dependence is tested again. -/
def State.dropWatches (s : State) (part k n : Nat) : State :=
  let mine := fun (m : Monitor) => m.fired.isNone && inRange k n m.key && (s.group? m.gid).any fun g => g.part == part
  let gone := s.monitors.filter mine
  let s := gone.foldl (fun (s : State) m => s.updGroup m.gid fun g => g.updLane m.lane Lane.dropMonitor) s
  { s with
    monitors := s.monitors.filter fun m => !mine m
    grids := s.grids.map fun (g : Grid) =>
      if g.part == part && g.depKey.any (inRange k n) then { g with depKey := none, depHit := false } else g }

/-- The entries of a partition's windows that a new table does not hold alike. -/
def goneWindows (old new : List Window) : List Window := old.filter fun w => w.valid && !new.contains w

/-- An AtomicOp sent through one of these windows has not completed. -/
def State.sentThrough (s : State) (part : Nat) (ws : List Window) : Bool :=
  (s.part part).hostAtomics.any fun a => ws.contains a.win

/-- A window table takes the place of a partition's (R274, steps 2 and 3). -/
def State.newWindows (s : State) (part n : Nat) (ws : List Window) : State :=
  let s := ((goneWindows (s.part part).windows ws).filter fun w => w.mode == 0).foldl (fun (s : State) w =>
    let k := hostKey w.port w.hbase
    (s.dropHost part k w.size).dropWatches part k w.size) s
  s.updPart part fun p => { p with hwtn := n, windows := ws }

/-- A write to HWTN takes place once every access sent through an entry that changes has completed (R274, step 1); what waited for it
goes on then: inputs, and lanes behind an atomic. -/
def State.settleWindows (s : State) (part : Nat) : State :=
  let p := s.part part
  match p.newHwtn with
  | none => s
  | some (n, ws) =>
    if s.sentThrough part (goneWindows p.windows ws) then s
    else
      let s := (s.newWindows part n ws).updPart part fun p => { p with newHwtn := none, held := [] }
      let s := (s.groups.filter fun g => g.part == part).foldl (fun (s : State) g =>
        s.redo g.gid (fun _ _ w => match w with
          | .behind _ => true
          | _ => false) fun _ w => w) s
      { s with inputs := p.held ++ s.inputs }

/-- A write to HWTN: the table is read whole, and replaces the old one when it may (R274). -/
def State.rereadWindows (s : State) (part : Nat) (n : Word) : State :=
  if 256 < n.toNat then s
  else
    let (s, ws) := s.readWindows part n.toNat
    (s.updPart part fun p => { p with newHwtn := some (n.toNat, ws) }).settleWindows part

/-- An input waits while a partition's write to HWTN does (R274). -/
def State.afterWindows (s : State) (part : Nat) (i : Instr) (f : State → State) : State :=
  if s.rewindowing part then s.updPart part fun p => { p with held := p.held ++ [i] } else f s

/-- What the application cores and the host do to a partition that is not there has no effect (R270, R286). -/
def State.onPart (s : State) (part : Nat) (f : State → State) : Result := .next (if s.present part then f s else s)

def execHwtnWrite (part : Nat) (n : Word) (s : State) : Result := 
  s.onPart part fun s => s.afterWindows part (.hwtnWrite part n) fun s => s.rereadWindows part n

/-! ## The control page (R277) -/

/-- A team of the partition is resident. -/
def State.hasTeams (s : State) (part : Nat) : Bool := s.spans.any fun x => x.home == .resident && s.spanPart x == part

/-- Offsets of the S fields (R277, R381). -/
def ctlLocked (off : Nat) : Bool :=
  [0x24, 0x28, 0x30, 0x38, 0x60, 0x68].contains off || (decide (0xC0 ≤ off ∧ off < 0xF0) && off % 8 == 0)

def ftTotal (xs : List Nat) : Nat := xs.foldl (· + ·) 0

/-- The registers without behaviour of their own; none where the value is not one that R277 gives the register. Fields marked zero
take nothing (R4). -/
def Partition.ctlPut (p : Partition) (off : Nat) (v : DWord) : Option Partition :=
  let n := v.toNat
  let w := v.setWidth 32
  let put := fun (ok : Bool) (p : Partition) => if ok then some p else none
  if off = 0x00 then put (n % 4096 == 0) { p with ctxbase := v }
  else if off = 0x08 then put (decide (w.toNat ≤ 65536)) { p with ctxn := w.toNat }
  else if off = 0x10 then some { p with cmtbase := v }
  else if off = 0x18 then some { p with hwtbase := v }
  else if off = 0x24 then put (decide (bitsAt w.toNat 8 4 ≤ 8)) { p with layout := w &&& 0xF01 }
  else if off = 0x28 then put (n % 2 ^ 21 == 0) { p with spillbase := v }
  else if off = 0x30 then some { p with spillsize := v }
  else if off = 0x38 then put (decide (w.toNat ≤ 16384)) { p with grancap := w.toNat }
  else if off = 0x3C then put (decide (w.toNat % 16 ≤ 10)) { p with sweep := w.toNat % 16 }
  else if off = 0x40 then put (decide (w.toNat % 16 ≤ 13)) { p with snuff := w.toNat % 16 }
  else if off = 0x48 then some { p with fqbase := v }
  else if off = 0x50 then put (n % 64 == 0) { p with prqbase := v }
  else if off = 0x60 then put (n % 2 ^ 20 == 0) { p with jrn0 := v &&& 0xF00000FFFFFFFFFF }
  else if off = 0x68 then put (n % 2 ^ 20 == 0) { p with jrn1 := v &&& 0xF00000FFFFFFFFFF }
  else if 0x80 ≤ off ∧ off < 0xC0 ∧ off % 4 = 0 then
    some { p with qown := upd ((off - 0x80) / 4) (fun _ => w &&& 0x1FFFF) p.qown }
  else if 0xC0 ≤ off ∧ off < 0xF0 ∧ off % 16 = 0 then
    put (n % 2 ^ 21 == 0) { p with ftoff := upd ((off - 0xC0) / 16) (fun _ => n) p.ftoff }
  else if 0xC0 ≤ off ∧ off < 0xF0 ∧ off % 16 = 8 then
    let fs := upd ((off - 0xC8) / 16) (fun _ => n) p.ftsize
    put (n % 2 ^ 21 == 0 && decide (ftTotal fs ≤ 2 ^ 42)) { p with ftsize := fs }
  else some p

def State.ctlWrite (s : State) (part off : Nat) (v : DWord) : State :=
  if ctlLocked off && (s.part part).tdi.locks then s.tdiFail part
  else if ctlLocked off && s.hasTeams part then s
  else
    match (s.part part).ctlPut off v with
    | some p => s.updPart part fun _ => p
    | none => s

/-- A write to the page, whichever register it is to. -/
def State.pageWrite (s : State) (part off : Nat) (v : DWord) : State :=
  if off = 0x20 then s.rereadWindows part (v.setWidth 32)
  else if off = 0x58 then s.prqDone part (v.setWidth 32)
  else s.ctlWrite part off v

def execControlPageWrite (part off : Nat) (val : DWord) (s : State) : Result :=
  s.onPart part fun s => s.afterWindows part (.controlPageWrite part off val) fun s => s.pageWrite part off val

/-- The registers of the page, by offset: width in bytes and value (R277, R343, R381). PRQDONE is write only, and reads zero as
an unlisted offset does. -/
def Partition.ctlRegs (p : Partition) : List (Nat × Nat × Nat) :=
  [(0x00, 8, p.ctxbase.toNat), (0x08, 4, p.ctxn), (0x10, 8, p.cmtbase.toNat), (0x18, 8, p.hwtbase.toNat), (0x20, 4, p.hwtn),
    (0x24, 4, p.layout.toNat), (0x28, 8, p.spillbase.toNat), (0x30, 8, p.spillsize.toNat), (0x38, 4, p.grancap),
    (0x3C, 4, p.sweep), (0x40, 4, p.snuff), (0x48, 8, p.fqbase.toNat), (0x50, 8, p.prqbase.toNat), (0x60, 8, p.jrn0.toNat),
    (0x68, 8, p.jrn1.toNat), (0x70, 8, p.lfseq.toNat), (0x78, 4, p.lfcode.toNat)] ++
    (imap (fun q w => (0x80 + 4 * q, 4, BitVec.toNat w)) 0 p.qown) ++
    (imap (fun i n => (0xC0 + 16 * i, 8, n)) 0 p.ftoff) ++ (imap (fun i n => (0xC8 + 16 * i, 8, n)) 0 p.ftsize)

/-- A byte of the page. -/
def Partition.ctlByte (p : Partition) (off : Nat) : Nat :=
  match p.ctlRegs.find? fun r => inRange r.1 r.2.1 off with
  | some (a, _, v) => v / 2 ^ (8 * (off - a)) % 256
  | none => 0

/-- What a read of the page returns. -/
def Partition.ctlGet (p : Partition) (off n : Nat) : Nat :=
  ((List.range n).map fun i => p.ctlByte (off + i) * 2 ^ (8 * i)).foldl (· + ·) 0

/-- A store to the page acts on the register at its offset, where it has that register's width (log entry 24). -/
def State.pageStore (s : State) (part off n v : Nat) : State :=
  let known := (s.part part).ctlRegs.any (fun r => r.1 == off && r.2.1 == n) || (off == 0x58 && n == 4)
  if known then s.pageWrite part off (BitVec.ofNat 64 v) else s

/-! ## Partition count and TDISP (R282, R283, R376) -/

/-- A new partition count: every compute die is wiped, every grid discarded (R282). -/
def State.setPartitions (s : State) (n : Nat) : State :=
  let parts := List.range s.partCount
  let idle := parts.all fun p => !s.hasTeams p && (s.part p).tdi == .unlocked
  if (n = 1 ∨ n = 2 ∨ n = 4) ∧ idle then { parts.foldl State.wipePart s with partCount := n } else s

def execPartitionCountWrite (n : Nat) (s : State) : Result := .next (if s.imageBad then s else s.setPartitions n)

def tdiNum : Tdi → Nat
  | .unlocked => 0
  | .locked => 1
  | .run => 2
  | .error => 3

/-- TDISP answers with the interface's state. -/
def State.tdiAnswer (s : State) (part : Nat) : State := s.send .tdiAnswer part [tdiNum (s.part part).tdi]

def State.setTdi (s : State) (part : Nat) (t : Tdi) : State := s.updPart part fun p => { p with tdi := t }

/-- A partition's interface may be bound to the stream: a selective stream of port 0 that no other function uses and no locked
interface is bound to (log entry 28). -/
def State.mayBind (s : State) (part stream : Nat) : Bool :=
  !(s.streams.any fun x => x.id == stream && (x.link || x.port != 0 || x.user.any (· != part) || (x.part != some part && s.streamLocked x)))

/-- A stream bound to a partition's interface. -/
def State.bindStream (s : State) (part stream : Nat) : State :=
  let old := (s.streams.find? fun x => x.id == stream).getD ⟨stream, false, none, false, 0, some part⟩
  { s with streams := kset Stream.id { old with part := some part, user := some part } s.streams }

def State.freeStreams (s : State) (part : Nat) : State :=
  { s with streams := s.streams.map fun (x : Stream) => if x.part == some part then { x with part := none } else x }

/-- The lock binds the interface to its stream, and the binding is locked with it. -/
def execTdiConfigLock (o : TdiLock) (s : State) : Result :=
  s.onPart o.part fun s =>
    (if (s.part o.part).tdi = .unlocked && s.mayBind o.part o.stream then ((s.freeStreams o.part).bindStream o.part o.stream).setTdi o.part .locked
    else s).tdiAnswer o.part

/-- A locked interface is started over its bound stream (log entry 28). -/
def execTdiRun (part stream : Nat) (s : State) : Result :=
  s.onPart part fun s =>
    (if (s.part part).tdi = .locked && s.bound part stream then s.setTdi part .run else s).tdiAnswer part

/-- Every move back to CONFIG_UNLOCKED wipes the partition first (R283, R376). -/
def execTdiUnlock (part : Nat) (s : State) : Result :=
  s.onPart part fun s => (if (s.part part).tdi = .unlocked then s
    else ((s.wipePart part).freeStreams part).setTdi part .unlocked).tdiAnswer part

def execTdiError (part : Nat) (s : State) : Result := s.onPart part fun s => s.tdiFail part

/-! ## Boot, measurement, images (R284 to R287, R384) -/

/-- Memory that no wipe reaches: expanders and the host's (R287). -/
def outside (k : Nat) : Bool := decide (2 ^ 60 ≤ k)

/-- The image has passed: it is measured, the identity key derived, the firmware started, which brings up what the ROM did not
(R284). -/
def State.startImage (s : State) (image : List Byte) : State :=
  { s with
    image := image
    running := image
    identity := Config.deviceKey (sha256 image)
    imageBad := false
    pieces := []
    ports := s.ports.map fun (p : Port) => { p with up := true } }

/-- The check of R284 that an image fails first (R384): 1 its security version, 2 its signature; 0 where it passes. -/
def imageFails (image : List Byte) : Nat :=
  if !Config.versionOk image then 1 else if !Config.signed image then 2 else 0

def imageOk (image : List Byte) : Bool := imageFails image == 0

/-- The image has failed: it is not started, and port 0 alone is up (R286). -/
def State.refuseImage (s : State) (image : List Byte) : State :=
  { s with
    imageBad := true
    lastFail := imageFails image
    pieces := []
    ports := imap (fun i (p : Port) => { p with up := i == 0 }) 0 s.ports }

/-- Reset of the module: everything is wiped; a staged image becomes the image; the image is checked, and started or the
image-recovery object offered (R284, R286, R287, R290). -/
def State.moduleReset (s : State) : State :=
  let image := s.staged.getD s.image
  let s := (List.range 4).foldl State.dropHomes s
  let r := { State.reset with
    mem := s.mem.filter fun (c : Host.Cell) => outside c.1
    poison := s.poison.filter fun u => outside (16 * u)
    ports := s.ports.map fun (p : Port) => { p with timeout := 0 }
    parts := List.replicate 4 { beat0 := s.beat }
    image := image
    aer := s.aer
    out := s.out
    inputs := s.inputs
    fresh := s.fresh
    beat := s.beat
    free := s.free }
  if imageOk image then r.startImage image else r.refuseImage image

def execModuleReset (s : State) : Result := .next s.moduleReset

/-- A measurement block (R285): none where there is no such index. PF0 gives partition 0's configuration; block 2 is of the image
that runs, of no byte where none does (log entry 9). -/
def State.measurement (s : State) (pf index : Nat) : List Nat :=
  let p := s.part (pf - 1)
  if index = 1 then [Config.romDigest]
  else if index = 2 then (sha256 s.running).map BitVec.toNat
  else if index = 3 then [Config.imageVersion s.running]
  else if index = 4 then
    [Config.configDigest [s.partCount, p.layout.toNat, p.spillbase.toNat, p.spillsize.toNat, tdiNum p.tdi]]
  else []

def spdmNum : SpdmVer → Nat
  | .v12 => 0x12
  | .v13 => 0x13

/-- How an SPDM request comes. -/
def SpdmReq.path : SpdmReq → SpdmPath
  | .measurement _ _ p => p
  | .signature _ p => p

/-- The security processor answers on PF0 and on every partition function, also one in ERROR (R285, R376); over SMBus also while
port 0 is down (R290). -/
def State.spdm (s : State) (pf : Nat) (r : SpdmReq) : State :=
  if (!(s.port 0).up && SpdmReq.path r != .mctpSmbus) || decide (s.partCount < pf) || (s.imageBad && pf != 0) then s
  else
    match r with
    | .measurement v i _ => s.send .spdm pf (spdmNum v :: i :: s.measurement pf i)
    | .signature v _ => { s.send .spdm pf [spdmNum v, Config.signature s.free] with free := s.free + 1 }

def execSpdmRequest (pf : Nat) (r : SpdmReq) (s : State) : Result := .next (s.spdm pf r)

/-- WRITE of the image-recovery object, which is offered only while the image is bad (R286, R384). -/
def execImageWrite (off : Nat) (piece : List Byte) (s : State) : Result :=
  .next (if !s.imageBad then s
    else if off % 4096 != 0 || piece.length != 4096 then s.send .imageAnswer 0 [1]
    else { s.send .imageAnswer 0 [0] with pieces := kset Prod.fst (off, piece) s.pieces })

/-- The first `len` bytes that the pieces make; a byte not received is 0. -/
def pieceByte (ps : List (Nat × List Byte)) (i : Nat) : Byte :=
  (((kget Prod.fst (i / 4096 * 4096) ps).map Prod.snd).getD []).getD (i % 4096) 0

/-- COMMIT: the replacement is checked by R284; it is written and started, or the pieces are discarded. -/
def execImageCommit (len : Nat) (s : State) : Result :=
  .next (if !s.imageBad then s
    else
      let image := (List.range len).map (pieceByte s.pieces)
      if imageOk image then (s.send .imageAnswer 0 [0]).startImage image
      else { s.send .imageAnswer 0 [2] with pieces := [], lastFail := imageFails image })

/-- STATUS: bytes received, and the last failure of R284, by its number (log entry 9). -/
def execImageStatus (s : State) : Result :=
  .next (if !s.imageBad then s else s.send .imageAnswer 0 [4096 * s.pieces.length, s.lastFail])

/-! ## Power and management (R288 to R290) -/

/-- The management controller is there once the firmware has brought it up (R284). -/
def State.managed (s : State) (f : State → State) : Result := .next (if s.imageBad then s else f s)

def execPowerLimitWrite (watts : Nat) (s : State) : Result :=
  s.managed fun s => (if 1200 ≤ watts ∧ watts ≤ 2600 ∧ watts % 25 = 0 then { s with powerLimit := watts } else s)

/-- PLDM for Firmware Update stages an image, checked at the next reset (R290). -/
def execPldmFirmwareUpdate (image : List Byte) (s : State) : Result := s.managed fun s => { s with staged := some image }

/-- Power and temperature are free values; link states and error counts are the state's (R290, log entry 10). -/
def execPldmMonitoring (s : State) : Result :=
  s.managed fun s => { s.send .pldm 0 ([(Config.freeByte s.free).toNat, (Config.freeByte (s.free + 1)).toNat] ++
      (s.ports.map fun p => b2n p.up 1) ++ [s.aer.length]) with free := s.free + 2 }

/-- Pseudo-channel `ch` of the 512 (R8). -/
def State.setChannel (s : State) (ch : Nat) (x : ChState) : State :=
  if ch < 512 then { s with channels := kset Prod.fst (ch, x) s.channels } else s

def execChannelPowerDown (ch : Nat) (s : State) : Result := .next (s.setChannel ch .powerDown)
def execChannelSelfRefresh (ch : Nat) (s : State) : Result := .next (s.setChannel ch .selfRefresh)

end Sys2Proof.Machine
end

