-- ==== Sys2Proof/Machine/Hart.lean ====
section
/-!
DEFINITION. The application cores' own accesses (R281): loads, stores, AMOs, LR/SC, fences and wrs.nto, performed at the
home of their bytes; physical addresses as R271 gives them, partition k at k * 2^48, through Sv57 (R158).
-/
namespace Sys2Proof.Machine

/-- A hub register: the partition whose control page holds it, and its offset there (R271, R277; log entry 24). -/
def State.hubReach (s : State) (a : Nat) : Option (Nat × Nat) :=
  if a < 2 ^ 50 then none
  else ((List.range s.partCount).find? fun k => Config.ctlPage k == a / 4096).map fun k => (k, a % 4096)

/-- Where a hart's access lies: its partition and its bytes; none where nothing is. -/
def State.hartReach (s : State) (a n : Nat) : Option (Nat × Reach) :=
  let part := a / 2 ^ 48
  let pa := a % 2 ^ 48
  if s.partCount ≤ part then none
  else
    match s.physOf part pa with
    | .nothing => none
    | .mem k => some (part, { key := k, pa := pa, va := 0, n := n, cached := true })
    | .window i =>
      ((s.part part).windows[i]?).map fun w => (part, { key := w.key pa, pa := pa, va := 0, n := n, cached := true, win := some (i, w) })

/-- Lines of a hart's private L2 of 2 MiB (R12). -/
def hartRoom : Nat := 32768

/-- A hart's cache holds the lines of an access (R12, R142, R356); a full one lets its oldest go. -/
def State.hartTakes (s : State) (n : Nat) (r : Reach) : State :=
  s.updHart n fun h => { h with
    held := ((hostLines r.key r.n).foldl (fun ls l => l :: ls.filter (· != l)) h.held).take hartRoom }

/-- A hart's access asks its home for bytes to read. -/
def State.hartRead (s : State) (n part : Nat) (r : Reach) : State × Nat :=
  let (s, bs) := ((s.atHomeNow part r false).shareRequest hartAgent r.key r.n).homeRead r.key r.n
  (s.hartTakes n r, leNat bs)

/-- Its home has given the cores write ownership, and takes its bytes; the other harts' copies go. -/
def State.hartPut (s : State) (n : Nat) (r : Reach) (v : Nat) : State :=
  (((s.hartsForget r.key r.n).homeWrite r.key (leBytes r.n v)).clearPoison r.key r.n).hartTakes n r

/-- One request for write ownership (R143). -/
def State.hartOwn (s : State) (part : Nat) (r : Reach) : State := (s.atHomeNow part r true).ownRequest hartAgent r.key r.n

/-- The hart waits for a launch that has not been accepted (R233), or for an AMO at a host's completer (R275). -/
def State.hartOut (s : State) (n : Nat) : Bool :=
  s.parts.any fun p => (p.launches.any fun l => l.gid == 0 && l.hart == n) || p.hostAtomics.any fun a => a.hart.any fun h => h.1 == n

def State.putReg (s : State) (hart : Nat) (rd : BitVec 5) (v : DWord) : State := s.updHart hart fun h => h.setReg rd v

def State.hartFault (s : State) (n a : Nat) : State := s.updHart n fun h => { h with accessFault := some (BitVec.ofNat 64 a) }

/-- What a hart's access to memory comes to where its link fails it: an access fault (log entry 24). -/
def State.hartOver (s : State) (n a part : Nat) (r : Reach) (f : State → State) : State :=
  if (s.linkFlt part 0 none r.key r.n).isSome then s.hartFault n a else f s

/-- A load at a physical address: memory, or a hub register. -/
def State.hartLoad (s : State) (n : Nat) (rd : BitVec 5) (bytes : Nat) (sx : Bool) (a : Nat) : State :=
  match s.hartReach a bytes with
  | some (part, r) => s.hartOver n a part r fun s =>
    let (s, v) := s.hartRead n part r
    s.putReg n rd (extend sx bytes v)
  | none =>
    match s.hubReach a with
    | some (part, off) => s.putReg n rd (extend sx bytes ((s.part part).ctlGet off bytes))
    | none => s

def State.hartStore (s : State) (n bytes v a : Nat) : State :=
  match s.hartReach a bytes with
  | some (part, r) => s.hartOver n a part r fun s => (s.hartOwn part r).hartPut n r v
  | none =>
    match s.hubReach a with
    | some (part, off) => s.pageStore part off bytes v
    | none => s

/-- The window, not coherent, in which the bytes of an access lie. -/
def Reach.remote (r : Reach) : Option (Nat × Window) := r.win.filter fun w => w.2.mode != 0

/-- An AMO to a window that is not coherent goes the window's route: it is sent to the host's completer, for which the hart waits, or
it ends in an access fault (R275; log entry 24). -/
def State.hartSend (s : State) (n : Nat) (rd : BitVec 5) (op : AtOp) (bytes v a part : Nat) (r : Reach) (i : Nat) (w : Window) :
    State :=
  if w.route = 1 then
    let (s, id) := s.take
    let k := haFirst op false (8 * bytes)
    let h : HostAtomic := {
      id := id
      gid := 0
      pc := 0
      lane := 0
      va := a
      window := i
      win := w
      link := r.key % 2 ^ 64
      op := op
      w := 8 * bytes
      b := v
      first := k
      phase := if k = 0 then .read else .first
      hart := some (n, rd) }
    (s.postAtomic part h 0).updHart n fun h => { h with waiting := true }
  else s.hartFault n a

/-- An AMO, performed at the home of its bytes (R281). -/
def State.hartAmo (s : State) (n : Nat) (rd : BitVec 5) (op : AtOp) (bytes v a : Nat) : State :=
  match s.hartReach a bytes with
  | none => s
  | some (part, r) => s.hartOver n a part r fun s =>
    match r.remote with
    | some (i, w) => s.hartSend n rd op bytes v a part r i w
    | none =>
      let (s, bs) := (s.hartOwn part r).homeRead r.key r.n
      (s.hartPut n r (atNew op (8 * bytes) (leNat bs) v)).putReg n rd (extend true bytes (leNat bs))

/-- LR and SC act at homes; a window that is not coherent has none here. -/
def State.hartLr (s : State) (n : Nat) (rd : BitVec 5) (bytes a : Nat) : State :=
  match s.hartReach a bytes with
  | none => s
  | some (part, r) => s.hartOver n a part r fun s =>
    if r.remote.isSome then s.hartFault n a
    else
      let (s, v) := s.hartRead n part r
      (s.updHart n fun h => { h with resv := some (r.key, bytes) }).putReg n rd (extend true bytes v)

def State.hartSc (s : State) (n : Nat) (rd : BitVec 5) (bytes v a : Nat) : State :=
  match s.hartReach a bytes with
  | none => s
  | some (part, r) => s.hartOver n a part r fun s =>
    if r.remote.isSome then s.hartFault n a
    else
      let ok := (s.hart n).resv == some (r.key, bytes)
      let s := if ok then (s.hartOwn part r).hartPut n r v else s
      (s.updHart n fun h => { h with resv := none }).putReg n rd (if ok then 0 else 1)

/-- An access at an address of the hart, once translated; one that meets a page fault does nothing more. -/
def State.hartAt (s : State) (n : Nat) (need : HartNeed) (a : Nat) (f : State → Nat → State) : State :=
  match s.hartPhys n need a with
  | (s, some pa) => f s pa
  | (s, none) => s

/-- R281: what each access does. -/
def State.hartDoes (s : State) (n : Nat) (op : HartOp) : State :=
  match op with
  | .load rd a bytes sx _ => s.hartAt n .read a fun s pa => s.hartLoad n rd bytes sx pa
  | .store a bytes val _ => s.hartAt n .write a fun s pa => s.hartStore n bytes (val.toNat % 2 ^ (8 * bytes)) pa
  | .amo rd a op w64 val =>
    let bytes := if w64 then 8 else 4
    s.hartAt n .write a fun s pa => s.hartAmo n rd op bytes (val.toNat % 2 ^ (8 * bytes)) pa
  | .lr rd a bytes _ => s.hartAt n .read a fun s pa => s.hartLr n rd bytes pa
  | .sc rd a bytes val _ => s.hartAt n .write a fun s pa => s.hartSc n rd bytes (val.toNat % 2 ^ (8 * bytes)) pa
  | .fence => s
  | .wrsNto => s.updHart n fun h => { h with waiting := h.resv.isSome }
  | .satp v => s.updHart n fun h => { h with satp := v }
  | .mode m => s.updHart n fun h => { h with mode := m }

/-- A partition whose write to HWTN waits; the harts' accesses wait with it (R274). -/
def State.rewindows (s : State) : Option Nat := (List.range 4).find? s.rewindowing

def execApplicationCoreAccess (hart : Nat) (op : HartOp) (s : State) : Result :=
  .next (if s.imageBad || (s.hart hart).waiting then s
    else s.afterWindows (s.rewindows.getD 0) (.applicationCoreAccess hart op) fun s => s.hartDoes hart op)

/-- The reservation of a hart waiting in wrs.nto has been lost to a store (R281). -/
def execWrsNtoWake (hart : Nat) (s : State) : Result :=
  .next (if (s.hart hart).resv.isNone && !s.hartOut hart then s.updHart hart fun h => { h with waiting := false }
    else s)

end Sys2Proof.Machine
end

