-- ==== Sys2Proof/Machine/Errors.lean ====
section
/-!
DEFINITION. Errors of links and of the package: links that go down or train (R271, R359 to R361, R373, R374, R380), IDE
(R375, R376), poison (R357), on-die errors (R377), losses of dies, stacks and links (R378, R381, R385), reports (R372).
-/
namespace Sys2Proof.Machine

/-! ## Links -/

/-- Bytes behind a port that no home of a partition holds (R359 to R361). -/
def State.overLink (s : State) (port part k : Nat) : Bool := !isHbm k && portOfKey k == port && !s.atHome part k

/-- A monitor whose bytes can no longer be read releases its lane frozen (R361). -/
def State.dropMonitorLost (port : Nat) (s : State) (m : Monitor) : State :=
  let s := { s with monitors := s.monitors.filter fun x => x.id != m.id }
  match s.group? m.gid with
  | none => s
  | some g =>
    let pc := (g.lane m.lane).pc
    let ws := match s.instrAt g pc with
      | some i => encode i
      | none => []
    let f : Flt := { code := cLinkDown, faddr := m.va, detail := BitVec.ofNat 64 port, acc := .wait }
    (s.updGroup m.gid fun g => g.updLane m.lane Lane.dropMonitor).raise m.gid [(m.lane, f)] true false pc ws false none

/-- Monitors and dependences over a link that is down (R361, R380). -/
def State.linkWatches (s : State) (port : Nat) : State :=
  let lost := fun (m : Monitor) => m.fired.isNone && (s.group? m.gid).any fun g => s.overLink port g.part m.key
  let s := (s.monitors.filter lost).foldl (State.dropMonitorLost port) s
  (s.grids.filter fun g => g.depKey.any (s.overLink port g.part)).foldl (fun (s : State) g => s.failGrid g.uid cLinkDown) s

/-- Requests outstanding on a port meet a failure (R359, R360): ATS requests on port 0, atomics of its windows. -/
def State.failRequests (s : State) (part port : Nat) (ats atomic : Flt) : State :=
  let s := if port = 0 then
      (s.part part).atsReqs.foldl (fun (s : State) q => s.atsAnswer part q (.bad ats)) s
    else s
  ((s.part part).hostAtomics.filter fun a => a.win.port == port).foldl (fun (s : State) a => s.atomicFails part a atomic false) s

/-- Every ATS translation is discarded (R373). -/
def State.dropAts (s : State) : State :=
  { s with cores := s.cores.map fun (c : Core) => { c with tlb := c.tlb.filter fun e => !e.ats } }

/-- The copies of a range in the caches of a partition's dies are poisoned. -/
def State.markCopies (s : State) (part k n : Nat) : State :=
  let s := (s.coresOf part).foldl (fun (s : State) c => s.updCore c fun c => { c with
    l1 := c.l1.map fun (x : L1Byte) => if inRange k n x.key then { x with bad := true } else x }) s
  let s := (s.clustersOf part).foldl (fun (s : State) cl => s.updCluster cl fun c => { c with
    cc := c.cc.map fun (x : CcByte) => if inRange k n x.key && x.val.isSome then { x with bad := true } else x }) s
  (s.diesOf part).foldl (fun (s : State) d => s.updDie d fun x => { x with
    rdc := x.rdc.map fun (b : RdcByte) => if inRange k n b.key then { b with bad := true } else b }) s

/-- A host line held modified is lost: its units are poisoned at its home and in every cache of the device (R373). -/
def State.loseHostLine (part : Nat) (s : State) (h : HLine) : State :=
  (((s.disownLine part h.line).loseLine h).poisonUnits (4 * h.line) 4).markCopies part (64 * h.line) 64

/-- Host lines held modified are lost (R373). -/
def State.loseHostLines (s : State) (part : Nat) : State :=
  (((s.part part).hlines.filter HLine.dirty).foldl (State.loseHostLine part) s).updPart part fun p =>
    { p with hlines := p.hlines.filter fun h => !h.dirty }

/-- Grids of host-shared contexts that still run fail (R373, R374). -/
def State.failShared (s : State) (part : Nat) : State :=
  (s.grids.filter fun g => g.part == part && s.gridRuns g && (s.ctx? part g.ctx).any fun c => c.regime == 2).foldl
    (fun (s : State) g => s.endGrid g.uid cLinkDown) s

/-- What the loss of port 0 brings besides (R373). -/
def State.hostDown (s : State) : State :=
  let s := s.dropAts
  s.partList.foldl (fun (s : State) p =>
    (((s.loseHostLines p).updPart p fun x => { x with viral := true }).failShared p)) s

def State.linkDown (s : State) (port : Nat) : State :=
  if !(s.port port).up then s
  else
    let s := { s with ports := upd port (fun (p : Port) => { p with up := false }) s.ports }
    let f : Flt := { code := cLinkDown, detail := BitVec.ofNat 64 port }
    let s := s.partList.foldl (fun (s : State) p => s.failRequests p port f (lostAtomic cLinkDown port)) s
    let s := if port = 0 then s.hostDown else s
    (s.linkWatches port).report .nonFatal none .linkDown

def execLinkDown (port : Nat) (s : State) : Result := .next (s.linkDown port)

/-- Training is complete: an expander's capacity has been read (R271, R373). In image recovery port 0 alone comes up (R286). -/
def execLinkTrained (port cap : Nat) (s : State) : Result :=
  .next (if s.imageBad && port != 0 then s
    else { s with ports := upd port (fun (p : Port) => { p with up := true, capacity := if port = 0 then 0 else cap }) s.ports })

def execLinkReplay (port : Nat) (s : State) : Result :=
  .next (if port < 4 then s.report .correctable none .linkReplay else s)

/-! ## IDE (R375, R376) -/

/-- The ports and partitions whose requests use a stream. -/
def State.streamUse (s : State) (stream : Nat) : List (Nat × Nat) :=
  ((s.partList.map fun p => (List.range 4).map fun q => (p, q)).flatten).filter fun u =>
    (s.streamFor u.1 u.2).any fun x => x.id == stream

/-- A stream goes Insecure: what waits on it freezes; a bound interface goes to ERROR (R375, R376). -/
def State.ideFails (s : State) (stream : Nat) : State :=
  let old := (s.streams.find? fun x => x.id == stream).getD ⟨stream, false, none, false, 0, none⟩
  let s := { s with streams := kset Stream.id { old with insecure := true } s.streams }
  let f : Flt := { code := cIde, detail := BitVec.ofNat 64 stream }
  let s := (s.streamUse stream).foldl (fun (s : State) u => s.failRequests u.1 u.2 f (lostAtomic cIde stream)) s
  let s := old.part.toList.foldl State.tdiFail s
  s.report .nonFatal (old.part.orElse fun _ => old.user) .ide

def execIdeIntegrityFailure (stream : Nat) (s : State) : Result := .next (s.ideFails stream)

def execIdeStreamEstablish (stream : Nat) (s : State) : Result :=
  .next { s with streams := s.streams.map fun (x : Stream) => if x.id = stream then { x with insecure := false } else x }

/-! ## Poison (R357, R380) -/

/-- A dependence that watches poisoned bytes fails its grid (R380). -/
def State.poisonWatches (s : State) : State :=
  (s.grids.filter fun g => g.depKey.any fun k => s.poisoned k 8).foldl (fun (s : State) g => s.failGrid g.uid cPoison) s

/-- Mark the units of bytes `[k, k + n)`. -/
def State.markPoison (s : State) (k n : Nat) : State :=
  ((List.range ((k + n - 1) / 16 - k / 16 + 1)).foldl (fun (s : State) i => s.addPoison (k / 16 + i)) s).poisonWatches

/-- Poisoned data from a link fills a unit (R357). -/
def execPoisonedDataReceived (part pa : Nat) (s : State) : Result :=
  .next (match s.keyOf part pa with
    | some k => (s.markPoison k 1).report .nonFatal (some part) .poison
    | none => s)

/-- An uncorrectable error of HBM poisons the four units of its 64-byte codeword (R357). -/
def execHbmUncorrectableError (part pa : Nat) (s : State) : Result :=
  .next (match s.keyOf part pa with
    | some k => if isHbm k then (s.markPoison (k / 64 * 64) 64).report .nonFatal (some part) .hbm else s
    | none => s)

/-! ## Losses (R378, R381, R383, R385) -/

/-- The hub die's number among the five (R7). -/
def hubDie : Nat := 4

/-- The partition uses what is lost: its dies and stacks, and the links that join its dies to each other and to the hub die. -/
def State.usesLoss (s : State) (l : Loss) (part : Nat) : Bool :=
  let ds := s.diesOf part
  match l with
  | .die d => ds.contains d
  | .stack k => ds.contains (k / 2)
  | .link a b => (ds.contains a || a == hubDie) && (ds.contains b || b == hubDie) && (ds.contains a || ds.contains b)

/-- The code of grids that cannot run again (R383). -/
def lossCode : Loss → Nat
  | .link _ _ => cLinkDown
  | _ => cPoison

/-- What is out of service from now on. -/
def State.markLost (s : State) (l : Loss) : State :=
  match l with
  | .die d => s.updDie d fun x => { x with lost := true }
  | .stack k => s.updDie (k / 2) fun x => { x with stackLost := upd (k % 2) (fun _ => true) x.stackLost }
  | .link _ _ => s

/-- A loss: every partition that uses it recovers; a locked interface of a partition that lost a die goes to ERROR
(R376, R378). -/
def State.lose (s : State) (l : Loss) : State :=
  let s := s.markLost l
  (s.partList.filter (s.usesLoss l)).foldl (fun (s : State) p =>
    let s := match l with
      | .die _ => s.tdiFail p
      | _ => s
    (s.recover (lossCode l) p).report .fatalPartition (some p) .dieLoss) s

def execDieLoss (l : Loss) (s : State) : Result := .next (s.lose l)

/-- A die-to-die link that has not retrained within 1 ms counts as a loss (R378). -/
def execUcieRetrainTimeout (d1 d2 : Nat) (s : State) : Result := .next ((s.report .fatalPartition none .ucie).lose (.link d1 d2))

/-- Every port drops and the module stops (R381). -/
def execHubDieLoss (s : State) : Result :=
  .next { s.report .fatalModule none .hubLoss with
    stopped := true
    ports := s.ports.map fun (p : Port) => { p with up := false } }

/-! ## Watches that can no longer be served, and the L2's room (R8, R361, R380) -/

/-- Monitors and dependences on bytes behind a link that is down, or on poisoned bytes. -/
def State.settleWatches (s : State) : State :=
  (((List.range 4).filter fun q => !(s.port q).up).foldl State.linkWatches s).poisonWatches

/-- Lines of 128 bytes in a die's L2 of 48 MiB (R8). -/
def l2Room : Nat := 393216

/-- A home lets a line go: one of the far tier is written back, a host line is written back and invalidated. -/
def State.l2Evict (part : Nat) (s : State) (line : Nat) : State :=
  if isFar (128 * line) then s.writeBackLine line else s.dropHost part (128 * line) 128

/-- No die's L2 holds more lines of the far tier and of host memory than it has room for. -/
def State.trimL2 (s : State) : State :=
  if s.l2dirty.length + (s.parts.map fun p => p.hlines.length).foldl (· + ·) 0 ≤ l2Room then s
  else
    s.partList.foldl (fun (s : State) p => (s.diesOf p).foldl (fun (s : State) d =>
      let far := s.l2dirty.filter fun l => partOfKey (128 * l) == p && s.homeDie p (128 * l) == d
      let host := ((s.part p).hlines.map fun h => h.line / 2).eraseDups.filter fun l => s.homeDie p (128 * l) == d
      State.evict (State.l2Evict p) (far.length + host.length - l2Room) (far ++ host) s) s) s

/-! ## On-die errors (R357, R377) -/

/-- A group freezes whole with POISON (R377). -/
def State.freezeGroup (s : State) (gid d : Nat) : State :=
  match s.group? gid with
  | none => s
  | some g =>
    let pc := g.issueAddr.getD ((g.liveLanes.head?.map fun l => (g.lane l).at).getD 0)
    let ws := match s.instrAt g pc with
      | some i => encode i
      | none => []
    let f : Flt := { code := cPoison, detail := BitVec.ofNat 64 (2 ^ 62 + d) }
    s.raise gid (g.liveLanes.map fun l => (l, f)) true true pc ws false none

def dropNth {α : Type} : Nat → List α → List α
  | _, [] => []
  | 0, _ :: xs => xs
  | n + 1, x :: xs => x :: dropNth n xs

/-- The partition of a team. -/
def State.teamPart (s : State) (tid : Nat) : Option Nat := (s.team? tid).map fun t => s.partOfCore t.core

/-- The storage of a tile's current bytes holds a unit with an uncorrectable error; reads that are bound to those bytes meet it
too (R357). -/
def State.tileError (s : State) (sid name u : Nat) : State :=
  match s.span? sid with
  | none => s
  | some x =>
    let t := x.tile name
    if t.st ≠ .defined || 512 ≤ u then s
    else
      let s := s.updSpan sid fun x => x.putTile { t with bad := u :: t.bad.filter (· != u) }
      let mark := fun (b : Bound) => if b.name = name ∧ b.gen = t.gen then { b with bad := u :: b.bad.filter (· != u) } else b
      let mine := fun (g : Group) => (s.team? g.tid).any fun t => t.sid == sid
      { s with
        ops := s.ops.map fun (o : AOp) => if o.sid = sid then { o with kind := o.kind.mapBounds mark } else o
        groups := s.groups.map fun (g : Group) =>
          if mine g then { g with bound := g.bound.map fun p => (p.1, mark p.2) } else g }

def State.sramError (s : State) (site : SramSite) : State :=
  match site with
  | .name gid _ n => (s.freezeGroup gid (n % 1024)).report .nonFatal ((s.group? gid).map Group.part) .sram
  | .groupState gid => (s.freezeGroup gid 0x3FF).report .nonFatal ((s.group? gid).map Group.part) .sram
  | .accumulator tid off =>
    (s.updTeam tid fun t => { t with accBad := (t.accBad.filter (· != off / 4 * 4)) ++ [off / 4 * 4] }).report .nonFatal
      (s.teamPart tid) .sram
  | .scratchpad tid off =>
    (s.updTeam tid fun t => t.addPoison [off / 16]).report .nonFatal
      (s.teamPart tid) .sram
  | .l1 core key =>
    let mark := fun (x : L1Byte) => if x.key / 16 = key / 16 then { x with bad := true } else x
    (s.updCore core fun c => { c with l1 := c.l1.map mark }).report .nonFatal (some (s.partOfCore core)) .sram
  | .clusterCache cl key =>
    let mark := fun (x : CcByte) => if x.key / 16 = key / 16 && x.val.isSome then { x with bad := true } else x
    (s.updCluster cl fun c => { c with cc := c.cc.map mark }).report .nonFatal (some (s.partOfCore (4 * cl))) .sram
  | .rdc d key =>
    let mark := fun (x : RdcByte) => if x.key / 16 = key / 16 then { x with bad := true } else x
    (s.updDie d fun x => { x with rdc := x.rdc.map mark }).report .nonFatal (some (d / s.dieCount)) .sram
  | .home part key => (s.markPoison key 1).report .nonFatal (some part) .sram
  | .tile sid name off =>
    (s.tileError sid name (off / 16)).report .nonFatal ((s.span? sid).map s.spanPart) .sram
  | .translation core i =>
    (s.updCore core fun c => { c with tlb := dropNth i c.tlb }).report .correctable (some (s.partOfCore core)) .correctedEcc
  | .walkCache cl i =>
    (s.updCluster cl fun c => { c with walk := dropNth i c.walk }).report .correctable (some (s.partOfCore (4 * cl))) .correctedEcc
  | .directory d | .granary d => s.lose (.die d)

def execSramUncorrectableError (site : SramSite) (s : State) : Result := .next (s.sramError site)

def execCorrectedEccError (die : Nat) (s : State) : Result :=
  .next (s.report .correctable (some (die / s.dieCount)) .correctedEcc)

end Sys2Proof.Machine
end

