-- ==== Sys2Proof/Machine/Predicate.lean ====
section
/-!
DEFINITION. Integer comparisons, predicate logic and votes (R101, R103 to R105).
-/
namespace Sys2Proof.Machine

/-- R101 on integers. -/
def icond (c : ICond) (a b : Int) : Bool :=
  match c with
  | .eq => a == b
  | .ne => a != b
  | .lt => decide (a < b)
  | .le => decide (a ≤ b)
  | .gt => decide (b < a)
  | .ge => decide (b ≤ a)

/-- The comparison of two operands of a type (R101). -/
def icmpHolds (g : Group) (l : Nat) (o : IcmpOps) : Bool :=
  match o.ty with
  | .i32 => icond o.cond (g.src l o.a).toInt (g.src l o.b).toInt
  | .n32 => icond o.cond (g.src l o.a).toNat (g.src l o.b).toNat
  | .i64 => icond o.cond (g.src64 l o.a).toInt (g.src64 l o.b).toInt
  | .n64 => icond o.cond (g.src64 l o.a).toNat (g.src64 l o.b).toNat

def outP (p : BitVec 6) (b : Bool) : LaneOut := { p := [(p.toNat, b)] }

def execIcmp (o : IcmpOps) (s : State) : Result :=
  .next (s.issueReg (.icmp o) fun x l => outP o.pd (icmpHolds x.g l o))

/-- PLOG (R104). -/
def outPlog (f : Bool → Bool → Bool) (o : PlogOps) (x : Issue) (l : Nat) : LaneOut :=
  outP o.pd (f ((x.g.lane l).predCode o.a) ((x.g.lane l).predCode o.b))

def execPlogAnd (o : PlogOps) (s : State) : Result := .next (s.issueReg (.plogAnd o) (outPlog (fun a b => a && b) o))
def execPlogOr (o : PlogOps) (s : State) : Result := .next (s.issueReg (.plogOr o) (outPlog (fun a b => a || b) o))
def execPlogXor (o : PlogOps) (s : State) : Result := .next (s.issueReg (.plogXor o) (outPlog (fun a b => a != b) o))
def execPlogNand (o : PlogOps) (s : State) : Result := .next (s.issueReg (.plogNand o) (outPlog (fun a b => !(a && b)) o))
def execPlogNor (o : PlogOps) (s : State) : Result := .next (s.issueReg (.plogNor o) (outPlog (fun a b => !(a || b)) o))
def execPlogXnor (o : PlogOps) (s : State) : Result := .next (s.issueReg (.plogXnor o) (outPlog (fun a b => a == b) o))

/-- The lanes of T in which a predicate code is set (R105). -/
def Issue.ballot (x : Issue) (c : BitVec 7) : Lanes := maskOf fun l => x.ts.contains l && (x.g.lane l).predCode c

def execVoteAny (o : VotePOps) (s : State) : Result :=
  .next (s.issueReg (.voteAny o) fun x _ => outP o.pd (x.ts.any fun l => (x.g.lane l).predCode o.x))
def execVoteAll (o : VotePOps) (s : State) : Result :=
  .next (s.issueReg (.voteAll o) fun x _ => outP o.pd (x.ts.all fun l => (x.g.lane l).predCode o.x))
def execVoteBallot (o : VoteROps) (s : State) : Result :=
  .next (s.issueReg (.voteBallot o) fun x _ => outD o.d (x.ballot o.x))
def execVotePcount (o : VoteROps) (s : State) : Result :=
  .next (s.issueReg (.votePcount o) fun x _ => outD o.d (popc (x.ballot o.x)))
def execVoteV2p (o : VoteVOps) (s : State) : Result :=
  .next (s.issueReg (.voteV2p o) fun x l => outP o.pd (x.g.src l o.b != 0))

end Sys2Proof.Machine
end

