-- ==== Sys2Proof/Machine/Float.lean ====
section
/-!
DEFINITION. Floating-point arithmetic, comparison, conversion, packing and dot products in registers (R102, R118 to
R127).
-/
namespace Sys2Proof.Machine

/-- A destination with the flags its lane raises. -/
def outF (d : Reg) (r : Word × Flags) : LaneOut := { d := [(d, r.1)], flags := r.2 }

/-- An f32 form of two operands (R119). -/
def outFp (f : Nat → Nat → Nat × Flags) (o : R3) (x : Issue) (l : Nat) : LaneOut :=
  outF o.d (f32Of (f (x.g.src l o.a).toNat (x.g.src l o.b).toNat))

/-- A minimum or maximum: no flag. -/
def outMm (f : Nat → Nat → Nat) (o : R3) (x : Issue) (l : Nat) : LaneOut :=
  outD o.d (BitVec.ofNat 32 (f (x.g.src l o.a).toNat (x.g.src l o.b).toNat))

def execFadd (o : R3) (s : State) : Result := .next (s.issueReg (.fadd o) (outFp fF32.add o))
def execFsub (o : R3) (s : State) : Result := .next (s.issueReg (.fsub o) (outFp fF32.sub o))
def execFmul (o : R3) (s : State) : Result := .next (s.issueReg (.fmul o) (outFp fF32.mul o))
def execFfma (o : R3) (s : State) : Result :=
  .next (s.issueReg (.ffma o) fun x l =>
    outF o.d (f32Of (fF32.fma (x.g.reg l o.d).toNat (x.g.src l o.a).toNat (x.g.src l o.b).toNat)))
def execFmin (o : R3) (s : State) : Result := .next (s.issueReg (.fmin o) (outMm fF32.fmin o))
def execFmax (o : R3) (s : State) : Result := .next (s.issueReg (.fmax o) (outMm fF32.fmax o))
def execFminn (o : R3) (s : State) : Result := .next (s.issueReg (.fminn o) (outMm fF32.fminn o))
def execFmaxn (o : R3) (s : State) : Result := .next (s.issueReg (.fmaxn o) (outMm fF32.fmaxn o))
def execFabs (o : R2) (s : State) : Result := .next (s.issueReg (.fabs o) (out2 (fun a => a &&& 0x7FFFFFFF) o))
def execFneg (o : R2) (s : State) : Result := .next (s.issueReg (.fneg o) (out2 (fun a => a ^^^ 0x80000000) o))
def execFrnd (o : FrndOps) (s : State) : Result :=
  .next (s.issueReg (.frnd o) fun x l => outF o.d (f32Of (frnd o.mode (x.g.src l o.a).toNat)))

def execFcmp (o : FcmpOps) (s : State) : Result :=
  .next (s.issueReg (.fcmp o) fun x l =>
    let f := match o.ty with
      | .f32 => fF32
      | .h16 => fH16
      | .bf16 => fBf16
    outP o.pd (f.cmp o.cond ((x.g.src l o.a).toNat % 2 ^ (f.ebits + f.mbits + 1))
      ((x.g.src l o.b).toNat % 2 ^ (f.ebits + f.mbits + 1))))

/-! ## HPAIR (R121) -/

def hpFmt (o : HpairOps) : FloatFmt := if o.bf then fBf16 else fH16

/-- Both elements by one rule. -/
def outHp (f : FloatFmt → Nat → Nat → Nat → Nat × Flags) (o : HpairOps) (x : Issue) (l : Nat) : LaneOut :=
  let d := x.g.reg l o.d
  let a := x.g.src l o.a
  let b := x.g.src l o.b
  let e0 := f (hpFmt o) (elem d 16 0) (elem a 16 0) (elem b 16 0)
  let e1 := f (hpFmt o) (elem d 16 1) (elem a 16 1) (elem b 16 1)
  outF o.d (BitVec.ofNat 32 (e0.1 + e1.1 * 2 ^ 16), e0.2 ||| e1.2)

def execAdd2 (o : HpairOps) (s : State) : Result := .next (s.issueReg (.add2 o) (outHp (fun f _ a b => f.add a b) o))
def execMul2 (o : HpairOps) (s : State) : Result := .next (s.issueReg (.mul2 o) (outHp (fun f _ a b => f.mul a b) o))
def execFma2 (o : HpairOps) (s : State) : Result := .next (s.issueReg (.fma2 o) (outHp FloatFmt.fma o))
def execMin2 (o : HpairOps) (s : State) : Result :=
  .next (s.issueReg (.min2 o) (outHp (fun f _ a b => (f.fmin a b, 0)) o))
def execMax2 (o : HpairOps) (s : State) : Result :=
  .next (s.issueReg (.max2 o) (outHp (fun f _ a b => (f.fmax a b, 0)) o))

/-! ## SFU (R122 to R124) -/

/-- A scalar destination is judged by the operands (R324, format L). -/
def State.issueSfu (s : State) (i : Instr) (f : Nat → Nat × Flags) (o : SfuOps) : State :=
  s.issueLanes i noChk noChk (fun x l => outF o.d (f32Of (f (x.g.src l o.a).toNat))) false

def execFrcp (o : SfuOps) (s : State) : Result := .next (s.issueSfu (.frcp o) frcp o)
def execFrsq (o : SfuOps) (s : State) : Result := .next (s.issueSfu (.frsq o) frsq o)
def execFsqrt (o : SfuOps) (s : State) : Result := .next (s.issueSfu (.fsqrt o) fsqrt o)
def execFexp2 (o : SfuOps) (s : State) : Result := .next (s.issueSfu (.fexp2 o) fexp2 o)
def execFlog2 (o : SfuOps) (s : State) : Result := .next (s.issueSfu (.flog2 o) flog2 o)
def execFsin (o : SfuOps) (s : State) : Result := .next (s.issueSfu (.fsin o) fsin o)
def execFcos (o : SfuOps) (s : State) : Result := .next (s.issueSfu (.fcos o) fcos o)
def execFtanh (o : SfuOps) (s : State) : Result := .next (s.issueSfu (.ftanh o) ftanh o)

/-! ## CVT, PACK, DOT (R125 to R127) -/

def execCvt (o : CvtOps) (s : State) : Result :=
  .next (s.issueReg (.cvt o) fun x l =>
    outF o.d (if o.code.isPair then
        let v := x.g.src64 l o.a
        cvt o.code o.rnd o.sat (v.setWidth 32) (v.extractLsb' 32 32)
      else cvt o.code o.rnd o.sat (x.g.src l o.a) 0))

def packBits (e : PackElem) : Nat :=
  match e with
  | .e8 => 8
  | .e4 => 4
  | .e16 => 16

/-- The bit position of the element that b selects (R126). -/
def packPos (e : PackElem) (b : Word) : Nat := b.toNat % (32 / packBits e) * packBits e

def packElem (e : PackElem) (d a b : Word) : Word :=
  let m := lowMask (packBits e)
  (d &&& ~~~(m <<< packPos e b)) ||| ((a &&& m) <<< packPos e b)

def unpackElem (e : PackElem) (a b : Word) : Word := (a >>> packPos e b) &&& lowMask (packBits e)

def execPack (o : PackOps) (s : State) : Result :=
  .next (s.issueReg (.pack o) fun x l => outD o.d (packElem o.e (x.g.reg l o.d) (x.g.src l o.a) (x.g.src l o.b)))
def execUnpack (o : PackOps) (s : State) : Result :=
  .next (s.issueReg (.unpack o) fun x l => outD o.d (unpackElem o.e (x.g.src l o.a) (x.g.src l o.b)))

def outDotF (f : FloatFmt) (w n : Nat) (o : R3) (x : Issue) (l : Nat) : LaneOut :=
  outF o.d (dotFloat f w n (x.g.reg l o.d) (x.g.src l o.a) (x.g.src l o.b))

def execDot4F8a (o : R3) (s : State) : Result := .next (s.issueReg (.dot4F8a o) (outDotF fF8a 8 4 o))
def execDot4F8b (o : R3) (s : State) : Result := .next (s.issueReg (.dot4F8b o) (outDotF fF8b 8 4 o))
def execDot4I8 (o : R3) (s : State) : Result := .next (s.issueReg (.dot4I8 o) (out3d (dotInt ⟨true, 8⟩ 4) o))
def execDot4N8 (o : R3) (s : State) : Result := .next (s.issueReg (.dot4N8 o) (out3d (dotInt ⟨false, 8⟩ 4) o))
def execDot8F4 (o : R3) (s : State) : Result := .next (s.issueReg (.dot8F4 o) (outDotF fF4 4 8 o))
def execDot8I4 (o : R3) (s : State) : Result := .next (s.issueReg (.dot8I4 o) (out3d (dotInt ⟨true, 4⟩ 8) o))
def execDot8N4 (o : R3) (s : State) : Result := .next (s.issueReg (.dot8N4 o) (out3d (dotInt ⟨false, 4⟩ 8) o))

end Sys2Proof.Machine
end

