-- ==== Sys2Proof/Machine/Exchange.lean ====
section
/-!
DEFINITION. Exchange and reduction across the lanes of a group (R128, R129). The lanes taking part are fixed at issue.
-/
namespace Sys2Proof.Machine

/-! ## SHFL (R128) -/

/-- The value of source lane s for lane l: its own where s is not in T. A lane of T that itself freezes early still supplies its
value, a name outside the allotment 0 (log entry 47). -/
def shflFrom (o : R3) (x : Issue) (l : Nat) (src : Int) : LaneOut :=
  let k := if 0 ≤ src && x.ts.contains src.toNat then src.toNat else l
  outD o.d (x.g.src k o.a)

def execShflIdx (o : R3) (s : State) : Result :=
  .next (s.issueReg (.shflIdx o) fun x l => shflFrom o x l ((x.g.src l o.b).toNat % 32 : Nat))
def execShflUp (o : R3) (s : State) : Result :=
  .next (s.issueReg (.shflUp o) fun x l => shflFrom o x l ((l : Int) - (x.g.src l o.b).toNat))
def execShflDown (o : R3) (s : State) : Result :=
  .next (s.issueReg (.shflDown o) fun x l => shflFrom o x l (l + (x.g.src l o.b).toNat : Nat))
def execShflXor (o : R3) (s : State) : Result :=
  .next (s.issueReg (.shflXor o) fun x l => shflFrom o x l (l ^^^ ((x.g.src l o.b).toNat % 32) : Nat))
def execShflBcast (o : R3) (s : State) : Result :=
  .next (s.issueReg (.shflBcast o) fun x _ =>
    let k := (x.g.src x.lead o.b).toNat % 32
    outD o.d (x.g.src (if x.ts.contains k then k else x.lead) o.a))

/-! ## GRED (R129) -/

def foldWords (f : Word → Word → Word) (z : Word) (ws : List Word) : Word := ws.foldl f z

/-- combine over the terms, the identity for none. -/
def combine (op : GredOp) (ws : List Word) : Word :=
  match op with
  | .addI32 => foldWords (· + ·) 0 ws
  | .addF32 => BitVec.ofNat 32 (gredSum (ws.map fun w => fF32.value w.toNat))
  | .minI32 => foldWords imin 0x7FFFFFFF ws
  | .maxI32 => foldWords imax 0x80000000 ws
  | .minN32 => foldWords nmin 0xFFFFFFFF ws
  | .maxN32 => foldWords nmax 0 ws
  | .minF32 => foldWords (fun a b => BitVec.ofNat 32 (fF32.fmin a.toNat b.toNat)) 0x7F800000 ws
  | .maxF32 => foldWords (fun a b => BitVec.ofNat 32 (fF32.fmax a.toNat b.toNat)) 0xFF800000 ws
  | .and => foldWords (· &&& ·) 0xFFFFFFFF ws
  | .or => foldWords (· ||| ·) 0 ws
  | .xor => foldWords (· ^^^ ·) 0 ws

/-- `sel l k`: lane k of T is among lane l's terms; so is one that itself freezes early (log entry 47). -/
def outGred (sel : Nat → Nat → Bool) (o : GredOps) (x : Issue) (l : Nat) : LaneOut :=
  outD o.d (combine o.op ((x.ts.filter (sel l)).map fun k => x.g.src k o.a))

def execGredReduce (o : GredOps) (s : State) : Result :=
  .next (s.issueLanes (.gredReduce o) noChk noChk (outGred (fun _ _ => true) o) false)
def execGredIncl (o : GredOps) (s : State) : Result :=
  .next (s.issueLanes (.gredIncl o) noChk noChk (outGred (fun l k => decide (k ≤ l)) o) false)
def execGredExcl (o : GredOps) (s : State) : Result :=
  .next (s.issueLanes (.gredExcl o) noChk noChk (outGred (fun l k => decide (k < l)) o) false)

end Sys2Proof.Machine
end

