-- ==== Sys2Proof/Machine/Happen.lean ====
section
/-!
DEFINITION. What engines and monitors bring about: results that land (R63), lines that become present (R134), operations
that complete and are counted out (R190, R198, R201, R202, R205, R221, R226), tiles (R209, R214), WAITV's delivery (R189).
An event whose condition does not hold changes nothing.
-/
namespace Sys2Proof.Machine

/-- A result still owed to a group is delivered by its operation (R63). -/
def State.deliverResult (s : State) (gid id : Nat) : State :=
  match s.ops.find? fun o => o.gid == gid && o.kind.owes == some id with
  | some o => s.pushOp o.id
  | none => s

def execLongLatencyResult (gid id : Nat) (s : State) : Result := .next (s.deliverResult gid id)

def execStagingRegionWritten (op : Nat) (s : State) : Result := .next (s.runStage op)

/-- Groups parked on a line that is present issue again (R134). -/
def State.wakeLine (s : State) (tid line : Nat) : State :=
  let here := (s.team? tid).any fun t => (t.absent (128 * line) 128).isNone
  if !here then s
  else { s with groups := s.groups.map fun (g : Group) =>
    if g.tid == tid && g.park == .line line then { g with park := .none } else g }

/-- The oldest tile read into the line delivers, and the line becomes present (R133, R134, R218). -/
def State.linePresent (s : State) (tid line : Nat) : State :=
  let reads := fun (o : AOp) => match o.kind with
    | .treadSp _ _ => !o.done && (s.opLines o).any fun p => p.1 == tid && p.2.contains line
    | _ => false
  let s := match s.ops.find? reads with
    | some o => s.runTread o.id
    | none => s
  s.wakeLine tid line

def execPresenceLinePresent (tid line : Nat) (s : State) : Result := .next (s.linePresent tid line)

def execCopyOperationComplete (op : Nat) (s : State) : Result := .next (s.runCopy op)
def execGathComplete (op : Nat) (s : State) : Result := .next (s.runGath op)
def execStaComplete (op : Nat) (s : State) : Result := .next (s.runSta op)
def execCollRun (sid k : Nat) (s : State) : Result := .next (s.runColl sid k)
def execSourceReadComplete (op : Nat) (s : State) : Result := .next (s.readSource op)
def execEnginePassGrant (cluster : Nat) (s : State) : Result := .next (s.grantPass cluster)
def execMatrixOperationComplete (op : Nat) (s : State) : Result := .next (s.runMatrix op)

/-- A pending tile becomes defined by whichever operation defines it (R209). -/
def execTileDefinitionComplete (op : Nat) (s : State) : Result :=
  .next (match s.op? op with
    | some o =>
      match o.kind with
      | .cpy _ _ _ => s.runCopy op
      | .gath _ _ _ => s.runGath op
      | _ => s.runTdef op
    | none => s)

/-- Storage that has been released goes to the oldest definition that waits for it (R210, R214). -/
def execTileStorageRelease (sid _name : Nat) (s : State) : Result := .next (s.beginDef sid)

/-- A monitor that has fired delivers its value (R189). -/
def State.deliverMonitor (s : State) (id : Nat) : State :=
  match s.monitors.find? fun m => m.id == id with
  | none => s
  | some m =>
    match m.fired, s.group? m.gid with
    | some v, some g =>
      let n := if m.w64 then 8 else 4
      let s := { s with monitors := s.monitors.filter fun x => x.id != id }
      match (g.lane m.lane).hold, (g.lane m.lane).wait with
      | .free, .waitv w _ =>
        if w = id then
          ((s.updGroup m.gid fun g =>
            (g.land m.lane m.dst (wordsOf v.toNat (n / 4))).leaveWaitv m.lane m.id m.la m.dst).passStale g.core m.key n).acquire
              g.core m.scope
        else s
      | _, _ => s
    | _, _ => s

def execWaitvMonitorDeliver (mon : Nat) (s : State) : Result := .next (s.deliverMonitor mon)

end Sys2Proof.Machine
end

