-- ==== Sys2Proof/Machine/Dispatch.lean ====
section
/-! DEFINITION. One arm per constructor of Instr: a direct call of its meaning. -/
namespace Sys2Proof.Machine

def exec (i : Instr) (s : State) : Host.Outcome State Fault Refusal :=
  match i with
  | .nop m => Sys2Proof.Machine.execNop m s
  | .yield m => Sys2Proof.Machine.execYield m s
  | .exit m => Sys2Proof.Machine.execExit m s
  | .brk o => Sys2Proof.Machine.execBrk o s
  | .trap o => Sys2Proof.Machine.execTrap o s
  | .ret m => Sys2Proof.Machine.execRet m s
  | .jmpi o => Sys2Proof.Machine.execJmpi o s
  | .calli o => Sys2Proof.Machine.execCalli o s
  | .genbump m => Sys2Proof.Machine.execGenbump m s
  | .mfs o => Sys2Proof.Machine.execMfs o s
  | .mts o => Sys2Proof.Machine.execMts o s
  | .fenceAcq o => Sys2Proof.Machine.execFenceAcq o s
  | .fenceRel o => Sys2Proof.Machine.execFenceRel o s
  | .fenceAcqRel o => Sys2Proof.Machine.execFenceAcqRel o s
  | .fenceFull o => Sys2Proof.Machine.execFenceFull o s
  | .guard o => Sys2Proof.Machine.execGuard o s
  | .br o => Sys2Proof.Machine.execBr o s
  | .call o => Sys2Proof.Machine.execCall o s
  | .wbase o => Sys2Proof.Machine.execWbase o s
  | .grow o => Sys2Proof.Machine.execGrow o s
  | .shrink o => Sys2Proof.Machine.execShrink o s
  | .iadd o => Sys2Proof.Machine.execIadd o s
  | .isub o => Sys2Proof.Machine.execIsub o s
  | .imul o => Sys2Proof.Machine.execImul o s
  | .imulhs o => Sys2Proof.Machine.execImulhs o s
  | .imulhn o => Sys2Proof.Machine.execImulhn o s
  | .imad o => Sys2Proof.Machine.execImad o s
  | .imin o => Sys2Proof.Machine.execImin o s
  | .imax o => Sys2Proof.Machine.execImax o s
  | .nmin o => Sys2Proof.Machine.execNmin o s
  | .nmax o => Sys2Proof.Machine.execNmax o s
  | .iabsd o => Sys2Proof.Machine.execIabsd o s
  | .iaddc o => Sys2Proof.Machine.execIaddc o s
  | .isubb o => Sys2Proof.Machine.execIsubb o s
  | .and o => Sys2Proof.Machine.execAnd o s
  | .or o => Sys2Proof.Machine.execOr o s
  | .xor o => Sys2Proof.Machine.execXor o s
  | .andn o => Sys2Proof.Machine.execAndn o s
  | .orn o => Sys2Proof.Machine.execOrn o s
  | .shl o => Sys2Proof.Machine.execShl o s
  | .shr o => Sys2Proof.Machine.execShr o s
  | .sar o => Sys2Proof.Machine.execSar o s
  | .rotl o => Sys2Proof.Machine.execRotl o s
  | .popc o => Sys2Proof.Machine.execPopc o s
  | .clz o => Sys2Proof.Machine.execClz o s
  | .brev o => Sys2Proof.Machine.execBrev o s
  | .prmt o => Sys2Proof.Machine.execPrmt o s
  | .bfx o => Sys2Proof.Machine.execBfx o s
  | .bfi o => Sys2Proof.Machine.execBfi o s
  | .add64 o => Sys2Proof.Machine.execAdd64 o s
  | .sub64 o => Sys2Proof.Machine.execSub64 o s
  | .mad64 o => Sys2Proof.Machine.execMad64 o s
  | .shl64 o => Sys2Proof.Machine.execShl64 o s
  | .shr64 o => Sys2Proof.Machine.execShr64 o s
  | .sar64 o => Sys2Proof.Machine.execSar64 o s
  | .mov64 o => Sys2Proof.Machine.execMov64 o s
  | .mov o => Sys2Proof.Machine.execMov o s
  | .movs o => Sys2Proof.Machine.execMovs o s
  | .p2v o => Sys2Proof.Machine.execP2v o s
  | .lit o => Sys2Proof.Machine.execLit o s
  | .iaddi o => Sys2Proof.Machine.execIaddi o s
  | .andi o => Sys2Proof.Machine.execAndi o s
  | .ori o => Sys2Proof.Machine.execOri o s
  | .xori o => Sys2Proof.Machine.execXori o s
  | .shli o => Sys2Proof.Machine.execShli o s
  | .shri o => Sys2Proof.Machine.execShri o s
  | .sari o => Sys2Proof.Machine.execSari o s
  | .rotli o => Sys2Proof.Machine.execRotli o s
  | .icmp o => Sys2Proof.Machine.execIcmp o s
  | .fcmp o => Sys2Proof.Machine.execFcmp o s
  | .plogAnd o => Sys2Proof.Machine.execPlogAnd o s
  | .plogOr o => Sys2Proof.Machine.execPlogOr o s
  | .plogXor o => Sys2Proof.Machine.execPlogXor o s
  | .plogNand o => Sys2Proof.Machine.execPlogNand o s
  | .plogNor o => Sys2Proof.Machine.execPlogNor o s
  | .plogXnor o => Sys2Proof.Machine.execPlogXnor o s
  | .voteAny o => Sys2Proof.Machine.execVoteAny o s
  | .voteAll o => Sys2Proof.Machine.execVoteAll o s
  | .voteBallot o => Sys2Proof.Machine.execVoteBallot o s
  | .votePcount o => Sys2Proof.Machine.execVotePcount o s
  | .voteV2p o => Sys2Proof.Machine.execVoteV2p o s
  | .fadd o => Sys2Proof.Machine.execFadd o s
  | .fsub o => Sys2Proof.Machine.execFsub o s
  | .fmul o => Sys2Proof.Machine.execFmul o s
  | .ffma o => Sys2Proof.Machine.execFfma o s
  | .fmin o => Sys2Proof.Machine.execFmin o s
  | .fmax o => Sys2Proof.Machine.execFmax o s
  | .fminn o => Sys2Proof.Machine.execFminn o s
  | .fmaxn o => Sys2Proof.Machine.execFmaxn o s
  | .fabs o => Sys2Proof.Machine.execFabs o s
  | .fneg o => Sys2Proof.Machine.execFneg o s
  | .frnd o => Sys2Proof.Machine.execFrnd o s
  | .add2 o => Sys2Proof.Machine.execAdd2 o s
  | .mul2 o => Sys2Proof.Machine.execMul2 o s
  | .fma2 o => Sys2Proof.Machine.execFma2 o s
  | .min2 o => Sys2Proof.Machine.execMin2 o s
  | .max2 o => Sys2Proof.Machine.execMax2 o s
  | .frcp o => Sys2Proof.Machine.execFrcp o s
  | .frsq o => Sys2Proof.Machine.execFrsq o s
  | .fsqrt o => Sys2Proof.Machine.execFsqrt o s
  | .fexp2 o => Sys2Proof.Machine.execFexp2 o s
  | .flog2 o => Sys2Proof.Machine.execFlog2 o s
  | .fsin o => Sys2Proof.Machine.execFsin o s
  | .fcos o => Sys2Proof.Machine.execFcos o s
  | .ftanh o => Sys2Proof.Machine.execFtanh o s
  | .cvt o => Sys2Proof.Machine.execCvt o s
  | .pack o => Sys2Proof.Machine.execPack o s
  | .unpack o => Sys2Proof.Machine.execUnpack o s
  | .dot4F8a o => Sys2Proof.Machine.execDot4F8a o s
  | .dot4F8b o => Sys2Proof.Machine.execDot4F8b o s
  | .dot4I8 o => Sys2Proof.Machine.execDot4I8 o s
  | .dot4N8 o => Sys2Proof.Machine.execDot4N8 o s
  | .dot8F4 o => Sys2Proof.Machine.execDot8F4 o s
  | .dot8I4 o => Sys2Proof.Machine.execDot8I4 o s
  | .dot8N4 o => Sys2Proof.Machine.execDot8N4 o s
  | .shflIdx o => Sys2Proof.Machine.execShflIdx o s
  | .shflUp o => Sys2Proof.Machine.execShflUp o s
  | .shflDown o => Sys2Proof.Machine.execShflDown o s
  | .shflXor o => Sys2Proof.Machine.execShflXor o s
  | .shflBcast o => Sys2Proof.Machine.execShflBcast o s
  | .gredReduce o => Sys2Proof.Machine.execGredReduce o s
  | .gredIncl o => Sys2Proof.Machine.execGredIncl o s
  | .gredExcl o => Sys2Proof.Machine.execGredExcl o s
  | .ld o => Sys2Proof.Machine.execLd o s
  | .ldNr o => Sys2Proof.Machine.execLdNr o s
  | .st o => Sys2Proof.Machine.execSt o s
  | .lds o => Sys2Proof.Machine.execLds o s
  | .sts o => Sys2Proof.Machine.execSts o s
  | .atom o => Sys2Proof.Machine.execAtom o s
  | .atomc o => Sys2Proof.Machine.execAtomc o s
  | .red o => Sys2Proof.Machine.execRed o s
  | .prf o => Sys2Proof.Machine.execPrf o s
  | .flush o => Sys2Proof.Machine.execFlush o s
  | .inv o => Sys2Proof.Machine.execInv o s
  | .pgreq o => Sys2Proof.Machine.execPgreq o s
  | .pres o => Sys2Proof.Machine.execPres o s
  | .tagst o => Sys2Proof.Machine.execTagst o s
  | .tagld o => Sys2Proof.Machine.execTagld o s
  | .gqry o => Sys2Proof.Machine.execGqry o s
  | .ghold o => Sys2Proof.Machine.execGhold o s
  | .grel o => Sys2Proof.Machine.execGrel o s
  | .waitv o => Sys2Proof.Machine.execWaitv o s
  | .cpySp o => Sys2Proof.Machine.execCpySp o s
  | .cpyTile o => Sys2Proof.Machine.execCpyTile o s
  | .cpyMc o => Sys2Proof.Machine.execCpyMc o s
  | .gathSp o => Sys2Proof.Machine.execGathSp o s
  | .gathTile o => Sys2Proof.Machine.execGathTile o s
  | .sta o => Sys2Proof.Machine.execSta o s
  | .collAdd o => Sys2Proof.Machine.execCollAdd o s
  | .collMax o => Sys2Proof.Machine.execCollMax o s
  | .collBcast o => Sys2Proof.Machine.execCollBcast o s
  | .waitq o => Sys2Proof.Machine.execWaitq o s
  | .pset o => Sys2Proof.Machine.execPset o s
  | .pclr o => Sys2Proof.Machine.execPclr o s
  | .barinit o => Sys2Proof.Machine.execBarinit o s
  | .bararr o => Sys2Proof.Machine.execBararr o s
  | .barexp o => Sys2Proof.Machine.execBarexp o s
  | .barwait o => Sys2Proof.Machine.execBarwait o s
  | .bartry o => Sys2Proof.Machine.execBartry o s
  | .barinv o => Sys2Proof.Machine.execBarinv o s
  | .launch o => Sys2Proof.Machine.execLaunch o s
  | .tdefSp o => Sys2Proof.Machine.execTdefSp o s
  | .tdefReg o => Sys2Proof.Machine.execTdefReg o s
  | .treadSp o => Sys2Proof.Machine.execTreadSp o s
  | .treadReg o => Sys2Proof.Machine.execTreadReg o s
  | .tkill o => Sys2Proof.Machine.execTkill o s
  | .tqry o => Sys2Proof.Machine.execTqry o s
  | .mmat o => Sys2Proof.Machine.execMmat o s
  | .mmar o => Sys2Proof.Machine.execMmar o s
  | .accz o => Sys2Proof.Machine.execAccz o s
  | .accldSp o => Sys2Proof.Machine.execAccldSp o s
  | .accldReg o => Sys2Proof.Machine.execAccldReg o s
  | .accst o => Sys2Proof.Machine.execAccst o s
  | .accgrow o => Sys2Proof.Machine.execAccgrow o s
  | .accshr o => Sys2Proof.Machine.execAccshr o s
  | .fzrec o => Sys2Proof.Machine.execFzrec o s
  | .fzrd o => Sys2Proof.Machine.execFzrd o s
  | .fzwr o => Sys2Proof.Machine.execFzwr o s
  | .fzres o => Sys2Proof.Machine.execFzres o s
  | .fzresRpl o => Sys2Proof.Machine.execFzresRpl o s
  | .fzkill o => Sys2Proof.Machine.execFzkill o s
  | .tlbiRange o => Sys2Proof.Machine.execTlbiRange o s
  | .tlbiCtx o => Sys2Proof.Machine.execTlbiCtx o s
  | .migr o => Sys2Proof.Machine.execMigr o s
  | .rhLaunch o => Sys2Proof.Machine.execRhLaunch o s
  | .rhTlbiRange o => Sys2Proof.Machine.execRhTlbiRange o s
  | .rhTlbiCtx o => Sys2Proof.Machine.execRhTlbiCtx o s
  | .longLatencyResult gid id => Sys2Proof.Machine.execLongLatencyResult gid id s
  | .launchAccept part queue => Sys2Proof.Machine.execLaunchAccept part queue s
  | .dependenceSatisfied part queue => Sys2Proof.Machine.execDependenceSatisfied part queue s
  | .distributorPlaceSpan part queue => Sys2Proof.Machine.execDistributorPlaceSpan part queue s
  | .stagingRegionWritten op => Sys2Proof.Machine.execStagingRegionWritten op s
  | .presenceLinePresent tid line => Sys2Proof.Machine.execPresenceLinePresent tid line s
  | .copyOperationComplete op => Sys2Proof.Machine.execCopyOperationComplete op s
  | .gathComplete op => Sys2Proof.Machine.execGathComplete op s
  | .staComplete op => Sys2Proof.Machine.execStaComplete op s
  | .collRun sid k => Sys2Proof.Machine.execCollRun sid k s
  | .enginePassGrant cluster => Sys2Proof.Machine.execEnginePassGrant cluster s
  | .matrixOperationComplete op => Sys2Proof.Machine.execMatrixOperationComplete op s
  | .tileDefinitionComplete op => Sys2Proof.Machine.execTileDefinitionComplete op s
  | .tileStorageRelease sid name => Sys2Proof.Machine.execTileStorageRelease sid name s
  | .spanRetire sid => Sys2Proof.Machine.execSpanRetire sid s
  | .gridComplete uid => Sys2Proof.Machine.execGridComplete uid s
  | .waitvMonitorDeliver mon => Sys2Proof.Machine.execWaitvMonitorDeliver mon s
  | .yieldRelease gid => Sys2Proof.Machine.execYieldRelease gid s
  | .groupPromotion gid => Sys2Proof.Machine.execGroupPromotion gid s
  | .pageParkTimeout gid => Sys2Proof.Machine.execPageParkTimeout gid s
  | .forcedSaveTimeout sid => Sys2Proof.Machine.execForcedSaveTimeout sid s
  | .priorityPreemption part queue => Sys2Proof.Machine.execPriorityPreemption part queue s
  | .spanSave sid => Sys2Proof.Machine.execSpanSave sid s
  | .preemptionWithdraw sid => Sys2Proof.Machine.execPreemptionWithdraw sid s
  | .spanReturn sid => Sys2Proof.Machine.execSpanReturn sid s
  | .pageReplay gid => Sys2Proof.Machine.execPageReplay gid s
  | .prqdoneWrite part val => Sys2Proof.Machine.execPrqdoneWrite part val s
  | .priResponse part pasid page write code => Sys2Proof.Machine.execPriResponse part pasid page write code s
  | .atsTranslationCompletion part req res => Sys2Proof.Machine.execAtsTranslationCompletion part req res s
  | .atsInvalidationRequest part pasid va log2 => Sys2Proof.Machine.execAtsInvalidationRequest part pasid va log2 s
  | .walkComplete w => Sys2Proof.Machine.execWalkComplete w s
  | .snufferInterval part => Sys2Proof.Machine.execSnufferInterval part s
  | .sweepIntervalEnd part => Sys2Proof.Machine.execSweepIntervalEnd part s
  | .writeOwnershipRequest r => Sys2Proof.Machine.execWriteOwnershipRequest r s
  | .crierRound part pa => Sys2Proof.Machine.execCrierRound part pa s
  | .hostAtomicopCompletion part req c => Sys2Proof.Machine.execHostAtomicopCompletion part req c s
  | .lamplighterStart core => Sys2Proof.Machine.execLamplighterStart core s
  | .faultSlotFree core slot => Sys2Proof.Machine.execFaultSlotFree core slot s
  | .completionTimeout port r => Sys2Proof.Machine.execCompletionTimeout port r s
  | .wrsNtoWake hart => Sys2Proof.Machine.execWrsNtoWake hart s
  | .illegalEncoding w0 w1 w2 w3 => Sys2Proof.Machine.execIllegalEncoding w0 w1 w2 w3 s
  | .fetchFault gid pc => Sys2Proof.Machine.execFetchFault gid pc s
  | .applicationCoreAccess hart op => Sys2Proof.Machine.execApplicationCoreAccess hart op s
  | .contextPreemptionRequest part ctx => Sys2Proof.Machine.execContextPreemptionRequest part ctx s
  | .directoryEntryDrop part pa => Sys2Proof.Machine.execDirectoryEntryDrop part pa s
  | .tilePlacementChange sid name place => Sys2Proof.Machine.execTilePlacementChange sid name place s
  | .sourceReadComplete op => Sys2Proof.Machine.execSourceReadComplete op s
  | .homeWriteBack part pa => Sys2Proof.Machine.execHomeWriteBack part pa s
  | .hostSnoop part line inval data => Sys2Proof.Machine.execHostSnoop part line inval data s
  | .hostHdmRequest part addr stream op => Sys2Proof.Machine.execHostHdmRequest part addr stream op s
  | .hostAtomicopRequest part addr stream op bytes operand compare => Sys2Proof.Machine.execHostAtomicopRequest part addr stream op bytes operand compare s
  | .hwtnWrite part n => Sys2Proof.Machine.execHwtnWrite part n s
  | .controlPageWrite part off val => Sys2Proof.Machine.execControlPageWrite part off val s
  | .slcmdResume core pc => Sys2Proof.Machine.execSlcmdResume core pc s
  | .slcmdReplay core => Sys2Proof.Machine.execSlcmdReplay core s
  | .slcmdRetire core => Sys2Proof.Machine.execSlcmdRetire core s
  | .slcmdEndContext core => Sys2Proof.Machine.execSlcmdEndContext core s
  | .partitionCountWrite n => Sys2Proof.Machine.execPartitionCountWrite n s
  | .tdiConfigLock o => Sys2Proof.Machine.execTdiConfigLock o s
  | .tdiRun part stream => Sys2Proof.Machine.execTdiRun part stream s
  | .tdiUnlock part => Sys2Proof.Machine.execTdiUnlock part s
  | .tdiError part => Sys2Proof.Machine.execTdiError part s
  | .moduleReset => Sys2Proof.Machine.execModuleReset s
  | .spdmRequest pf r => Sys2Proof.Machine.execSpdmRequest pf r s
  | .imageWrite off piece => Sys2Proof.Machine.execImageWrite off piece s
  | .imageCommit len => Sys2Proof.Machine.execImageCommit len s
  | .imageStatus => Sys2Proof.Machine.execImageStatus s
  | .powerLimitWrite watts => Sys2Proof.Machine.execPowerLimitWrite watts s
  | .pldmFirmwareUpdate image => Sys2Proof.Machine.execPldmFirmwareUpdate image s
  | .pldmMonitoring => Sys2Proof.Machine.execPldmMonitoring s
  | .channelPowerDown ch => Sys2Proof.Machine.execChannelPowerDown ch s
  | .channelSelfRefresh ch => Sys2Proof.Machine.execChannelSelfRefresh ch s
  | .linkDown port => Sys2Proof.Machine.execLinkDown port s
  | .linkTrained port cap => Sys2Proof.Machine.execLinkTrained port cap s
  | .ideIntegrityFailure stream => Sys2Proof.Machine.execIdeIntegrityFailure stream s
  | .poisonedDataReceived part pa => Sys2Proof.Machine.execPoisonedDataReceived part pa s
  | .hbmUncorrectableError part pa => Sys2Proof.Machine.execHbmUncorrectableError part pa s
  | .sramUncorrectableError site => Sys2Proof.Machine.execSramUncorrectableError site s
  | .ucieRetrainTimeout d1 d2 => Sys2Proof.Machine.execUcieRetrainTimeout d1 d2 s
  | .dieLoss l => Sys2Proof.Machine.execDieLoss l s
  | .hubDieLoss => Sys2Proof.Machine.execHubDieLoss s
  | .priEnable part => Sys2Proof.Machine.execPriEnable part s
  | .ideStreamEstablish stream => Sys2Proof.Machine.execIdeStreamEstablish stream s
  | .linkReplay port => Sys2Proof.Machine.execLinkReplay port s
  | .correctedEccError die => Sys2Proof.Machine.execCorrectedEccError die s

end Sys2Proof.Machine
end

