-- ==== Sys2Proof/Machine/Schedule.lean ====
section
/-!
DEFINITION. Which agent moves and what it does: the group that issues next (R22, R25, R36, R301), the part's own events,
a hart's custom instruction (R171, R233); what every step does beside; placing a program.
-/
namespace Sys2Proof.Machine

/-! ## The group that issues -/

def oldest : List Group → Option Group
  | [] => none
  | g :: gs =>
    match oldest gs with
    | some h => if h.age < g.age then some h else some g
    | none => some g

/-- The group that a quarter issues from: handlers first, then promoted groups, the oldest first (R36, R301); a delegated
lamplighter is as an ordinary group here (R306). -/
def State.pickQuarter (s : State) (core q : Nat) : Option Group :=
  let gs := s.groups.filter fun g => g.core == core && g.quarter == q && s.ready g
  ((oldest (gs.filter fun g => g.kind.isFull)).orElse fun _ => oldest (gs.filter Group.promoted)).orElse fun _ => oldest gs

def State.pickCore (s : State) (core : Nat) : Option Group :=
  (cyclic (List.range 4) (s.core core).rr).findSome? (s.pickQuarter core)

/-- The next group to issue: cores in turn, quarters in turn. -/
def State.pick (s : State) : Option Group := (cyclic (List.range 32) (s.beat / 2 % 32)).findSome? s.pickCore

/-! ## The part's own events -/

/-- The event that an operation brings about next. -/
def opEvents (o : AOp) : List Instr :=
  (if o.source.isSome then [.sourceReadComplete o.id] else []) ++
  (if o.begun then [] else [.tileStorageRelease o.sid ((o.defines.map Prod.fst).getD 0)]) ++
  match o.kind with
  | .cpy _ _ (.tile _ _) => [.tileDefinitionComplete o.id]
  | .cpy _ _ _ => [.copyOperationComplete o.id]
  | .gath _ _ (.tile _ _) => [.tileDefinitionComplete o.id]
  | .gath _ _ _ => [.gathComplete o.id]
  | .sta _ _ _ _ => [.staComplete o.id]
  | .coll k _ _ _ _ => [.collRun o.sid k]
  | .stage _ _ _ _ => [.stagingRegionWritten o.id]
  | .tdefSp _ _ _ | .tdefReg _ _ _ => [.tileDefinitionComplete o.id]
  | .treadSp _ dst => [.presenceLinePresent o.tid (dst / 128)]
  | .treadReg _ w => [.longLatencyResult o.gid w]
  | .mmat _ _ | .mmar _ _ _ _ _ _ => [.enginePassGrant (clusterOf o.core)]
  | _ => [.matrixOperationComplete o.id]

/-- The events of a group. -/
def State.groupEvents (s : State) (g : Group) : List Instr :=
  (if g.lanes.any fun x => match x.wait with
      | .yield _ _ => true
      | _ => false then [.yieldRelease g.gid] else []) ++
  (if g.accs.isEmpty then [] else [.pageReplay g.gid]) ++
  (if s.pageParked g && !g.away then [.pageParkTimeout g.gid] else []) ++
  (if s.ready g && !g.kind.isFull && !g.promoted then [.groupPromotion g.gid] else [])

def spanEvents (x : Span) : List Instr :=
  match x.home with
  | .cellar => [.spanReturn x.sid]
  | .resident =>
    .spanRetire x.sid ::
      (if x.pre.isSome then [.preemptionWithdraw x.sid, .spanSave x.sid, .forcedSaveTimeout x.sid] else [])

/-- The events of a queue. -/
def State.queueEvents (s : State) (part q : Nat) : List Instr :=
  (if (s.part part).launches.any fun l => recQueue l.rcd == q then [.launchAccept part q] else []) ++
  match s.headOf part q with
  | none => []
  | some g => if g.depMet then [.distributorPlaceSpan part q, .priorityPreemption part q] else [.dependenceSatisfied part q]

def State.coreEvents (s : State) (core : Nat) : List Instr :=
  let c := s.core core
  (if c.fslots.any fun x => !x.started then [.lamplighterStart core] else []) ++
  match c.late, c.freeFSlot with
  | _ :: _, some k => [.faultSlotFree core k]
  | _, _ => []

def State.partEvents (s : State) (part : Nat) : List Instr :=
  ((List.range 16).map (s.queueEvents part)).flatten ++ [.snufferInterval part, .sweepIntervalEnd part]

/-- The physical address by which a partition reaches a byte of an expander (R271). -/
def State.farAddress (s : State) (port off part : Nat) : Option Nat :=
  let p := s.part part
  let o := p.ftoff.getD (port - 1) 0
  if o ≤ off ∧ off < o + p.ftsize.getD (port - 1) 0 then
    some (farBase + (p.ftsize.take (port - 1)).foldl (· + ·) 0 + (off - o))
  else none

/-- The write-back of a far-tier line (R360). -/
def State.writeBackOf (s : State) (line : Nat) : Option Instr :=
  let k := 128 * line
  (s.farAddress (portOfKey k) (k % 2 ^ 52) (partOfKey k)).map fun pa => .homeWriteBack (partOfKey k) pa

/-- Every event that the part may bring about now. One whose condition does not hold changes nothing. -/
def State.events (s : State) : List Instr :=
  ((s.ops.filter fun o => !o.done).map opEvents).flatten ++
  ((s.monitors.filter fun m => m.fired.isSome).map fun m => .waitvMonitorDeliver m.id) ++
  (s.groups.map s.groupEvents).flatten ++
  (s.spans.map spanEvents).flatten ++
  (s.grids.filter fun g => s.complReady g || (s.gridDone g && !g.bumped)).map (fun g => .gridComplete g.uid) ++
  ((List.range 32).map s.coreEvents).flatten ++
  ((List.range s.partCount).map s.partEvents).flatten ++
  s.l2dirty.filterMap s.writeBackOf ++
  ((List.range 16).filter fun n => (s.hart n).waiting && (s.hart n).resv.isNone).map (fun n => .wrsNtoWake n)

/-! ## One move -/

/-- What every step does beside: time passes, the next agent's turn comes, accesses reach their homes unless they are still
on their way, invalidations and writes to HWTN whose accesses have completed take place, full caches let lines go, watches that can no
longer be served are settled, and the spans whose groups are parked on pages are judged (R48, R147, R168, R274, R8, R361, R380, R345). -/
def State.tick (s : State) (t : Turn) : State :=
  let s := { s with beat := s.beat + 1, turn := t }
  let s := if s.travels then s else (List.range 4).foldl State.arrive s
  let s := (List.range 4).foldl State.settleWindows ((List.range 4).foldl State.flushInvals s)
  ((((s.trimAll).trimL2).settleWatches).holdsGoneAll).testAll

def ticked (t : Turn) (r : Result) : Result :=
  match r with
  | .next s => .next (s.tick t)
  | .fault f => .fault f
  | .refused r => .refused r

/-- A quarter that has issued comes last the next time. -/
def State.rotate (s : State) (g : Group) : State := s.updCore g.core fun c => { c with rr := (g.quarter + 1) % 4 }

/-- A group issues: its next instruction is fetched, decoded and executed (R23, R57, R295). -/
def State.issueMove (s : State) : Result :=
  match s.pick with
  | none => .next s
  | some g =>
    let s := s.rotate g
    match s.fetchNext g with
    | (t, .words ws) => exec (issueOfWords ws) { t with cur := g.gid }
    | (_, .flt _) => exec (.fetchFault g.gid (g.issueAddr.getD 0)) { s with cur := g.gid }
    | (t, .wait p) => .next (t.park g.gid p)

/-- One of the part's own events, in rotation. -/
def State.deviceMove (s : State) : Result :=
  let es := s.events
  match es[s.beat / 2 % es.length]? with
  | some i => exec i s
  | none => .next s

/-- A hart executes the word at its PC: only the custom instructions have a meaning here. -/
def State.hartMove (s : State) (n : Nat) : Result :=
  let h := s.hart n
  if h.waiting || s.imageBad || s.rewindows.isSome then .next s
  else
    match s.hartPhys n .fetch h.pc.toNat with
    | (s, none) => .next s
    | (s, some pa) =>
      let (s, bs) := s.physRead (pa / 2 ^ 48) (pa % 2 ^ 48) 4
      match decodeRh (BitVec.ofNat 32 (leNat bs)) with
      | some i => exec i s
      | none =>
        if isRhTlbi (leNat bs) then .next (s.updHart n fun h => { h with illegal := true })   -- a bad funct7 or rd (R171)
        else .refused .hartInstruction

def State.move (s : State) : Result :=
  match s.inputs with
  | i :: rest => ticked s.turn (exec i { s with inputs := rest })
  | [] =>
    match s.turn with
    | .issue => ticked .device s.issueMove
    | .device => ticked .issue s.deviceMove
    | .hart n => ticked .issue (s.hartMove n)

/-- A module that has stopped goes on only with a module reset (R381). -/
def State.stepMove (s : State) : Result :=
  if s.stopped then
    match s.inputs with
    | .moduleReset :: rest => ticked .issue (execModuleReset { s with inputs := rest })
    | _ => .fault .moduleStopped
  else s.move

/-! ## Placing a program (log entry 11) -/

/-- Where a placed program lies: virtual and physical address in partition 0. -/
def textAt : Nat := 0x200000

/-- The launch record of the placed program: one team of one consumer group, ENTRY at the text. -/
def textRecord : List Byte :=
  leBytes 8 textAt ++ List.replicate 8 0 ++ leBytes 4 1 ++ leBytes 2 1 ++ leBytes 2 1 ++ leBytes 4 (2 ^ 8 + 2 ^ 23) ++
    List.replicate 100 0

/-- A group ready to issue at the text, with the team, span, grid, context and translation that it needs. -/
def State.load (s : State) : State :=
  let n := s.fresh
  let g := newGroup n n 0 0 0 16 false (BitVec.ofNat 64 textAt) 32
  let c : Ctx := {
    ctx := 0, regime := 1, heaten := false, pasid := 0, root := 0, lbase := 0, lsize := 0, celsize := 0, fvt := 0 }
  let e : TlbEntry := {
    part := 0, ctx := 0, vbase := textAt, log2 := 21, pbase := textAt, r := true, w := true, x := true, u := true }
  let t : Team := { tid := n, sid := n, rank := 0, t := 0, core := 0, alloc := 0, accSize := 0, barMax := 0 }
  let x : Span := {
    sid := n, uid := n, index := 0, count := 1, age := n, cluster := 0, reserve := 0, sbarMax := 0, sbarBase := 0 }
  let d : Grid := {
    uid := n, part := 0, queue := 0, seq := 0, ctx := 0, gridh := BitVec.ofNat 32 n, rcd := textRecord, depMet := true,
    nextSpan := 1, issued := true }
  { (s.updPart 0 fun p => p.putCtx c).tlbPut 0 e with
    groups := s.groups ++ [{ g with core := 0 }]
    teams := s.teams ++ [t]
    spans := s.spans ++ [x]
    grids := s.grids ++ [d]
    fresh := n + 1
    inputs := []
    turn := .issue }

/-- Words of an instruction as they lie in memory. -/
def wordBytes (w : Nat) : List Byte := leBytes 16 (w % 2 ^ 128)

/-- The bytes at the address at which the next group issues. -/
def State.putText (s : State) (g : Group) (bs : List Byte) : State :=
  match g.issueAddr with
  | none => s
  | some ia =>
    match s.reach g.who needX ia with
    | (_, .ok e pa) =>
      match (s.placeOf g.part e pa).key? with
      | some k => (s.homeWrite k bs).forget g.core k 16
      | none => s
    | _ => s

/-- An instruction of the application cores alone. -/
def rhOnly (w : Nat) : Bool :=
  (match decodeWords (BitVec.ofNat 32 w) 0 0 0 with
    | .ok _ => false
    | .error _ => true) && (decodeRh (BitVec.ofNat 32 w)).isSome

def State.placeWord (s : State) (nbits w : Nat) : State :=
  let v := w % 2 ^ nbits
  if rhOnly v then
    let h := s.hart 0
    { s.physWrite (h.pc.toNat / 2 ^ 48) (h.pc.toNat % 2 ^ 48) (leBytes 4 v) with inputs := [], turn := .hart 0 }
  else
    match s.pick with
    | some g => { s.putText g (wordBytes v) with inputs := [], turn := .issue }
    | none =>
      let s := s.load
      match s.pick with
      | some g => s.putText g (wordBytes v)
      | none => s

end Sys2Proof.Machine
end

