-- ==== Sys2Proof/Machine/Step.lean ====
section
/-! DEFINITION. One step of the part, and the placing of an instruction for it. -/
namespace Sys2Proof.Machine

/-- One step: the agent whose turn it is moves once. -/
def step (s : State) : Host.Outcome State Fault Refusal := s.stepMove

/-- `s` with an instruction where the next step fetches it. -/
def State.withFetchWord (s : State) (nbits w : Nat) : State := s.placeWord nbits w

end Sys2Proof.Machine
end

