-- ==== Sys2Proof/Safety.lean ====
section
/-!
DEFINITION. What claims about runs are stated with: the checks that an issue passes, what a completed issue leaves of its
group, safe steps, and the state's own well-formedness.
-/
namespace Sys2Proof.Machine

/-! ## An issue without a fault -/

/-- No lane taking part meets REG_RANGE or LOOKAHEAD_VIOLATION (R322, R323). -/
def Issue.clear (x : Issue) (i : Instr) : Prop :=
  ∀ l ∈ x.ts, x.regFault (instrUses x.g.latch.isSome i) l = none ∧ x.lookFault (instrUses x.g.latch.isSome i) l = none

/-- The lanes taking part write equal values to a scalar destination, or the destination is no scalar (R324). -/
def Issue.agree (x : Issue) (out : Nat → LaneOut) : Prop := ∀ l ∈ x.ts, ∀ k ∈ x.ts, (out l).scalars = (out k).scalars

/-- No lane taking part raises a flag whose trap enable is 1 (R315). -/
def Issue.untrapped (x : Issue) (out : Nat → LaneOut) : Prop := ∀ l ∈ x.ts, trapped x.g.stat (out l).flags = 0

/-- No register but `zero` is written twice. -/
def onceEach (rs : List Reg) : Prop := rs.Pairwise fun a b => a = b → a = .zero

/-- A lane's results name each register and predicate at most once. -/
def LaneOut.distinct (o : LaneOut) : Prop := onceEach (o.d.map Prod.fst) ∧ (o.p.map Prod.fst).Nodup

/-! ## What a completed issue leaves of its group -/

/-- The group `g` after an issue in which every lane taking part completed with the results `out`, and nothing else of the
group changed. -/
structure Issue.Done (x : Issue) (g : Group) (out : Nat → LaneOut) : Prop where
  /-- A vector register written holds the result (R6, R41). -/
  vec : ∀ l ∈ x.ts, ∀ n w, (Reg.v n, w) ∈ (out l).d → (g.lane l).name ((x.g.lane l).abs n.val) = w
  /-- Every other name of every lane is unchanged. -/
  vecOther : ∀ l n, (l ∈ x.ts → ∀ k w, (Reg.v k, w) ∈ (out l).d → (x.g.lane l).abs k.val ≠ n) →
    (g.lane l).name n = (x.g.lane l).name n
  /-- A scalar written holds the result in every lane taking part (R27). -/
  sca : ∀ l ∈ x.ts, ∀ n w, (Reg.s n, w) ∈ (out l).d → g.scalar n.val l = w
  /-- Every other scalar, and every scalar of the other lanes, is unchanged. -/
  scaOther : ∀ l n, (l ∈ x.ts → ∀ k w, (Reg.s k, w) ∈ (out l).d → k.val ≠ n) → g.scalar n l = x.g.scalar n l
  /-- A predicate written holds the result; p63 discards it (R45). -/
  pred : ∀ l ∈ x.ts, ∀ p b, (p, b) ∈ (out l).p → p < 63 → (g.lane l).pred p = b
  predOther : ∀ l p, (l ∈ x.ts → ∀ b, (p, b) ∉ (out l).p) → (g.lane l).pred p = (x.g.lane l).pred p
  /-- Lanes at the issue advance: back to where a replay broke off, to the jump, or to the next instruction (R23, R312). -/
  pc : ∀ l ∈ x.es, (g.lane l).pc = match (x.g.lane l).replay.bind Replay.cont with
    | some c => c
    | none => (if l ∈ x.ts then (out l).jump else none).getD x.next
  pcOther : ∀ l, l ∉ x.es → (g.lane l).pc = (x.g.lane l).pc
  link : ∀ l, (g.lane l).link = (if l ∈ x.ts then (out l).link else none).getD (x.g.lane l).link
  wbase : ∀ l, (g.lane l).wbase = (if l ∈ x.ts then (out l).wbase else none).getD (x.g.lane l).wbase
  /-- A guard set applies from the next instruction on; a guard in force runs down (R109). -/
  guardSet : ∀ l ∈ x.ts, ∀ n e, (out l).guard = some (n, e) → (g.lane l).guardCnt = n ∧ (g.lane l).guardEn = e
  guardRun : ∀ l ∈ x.es, (l ∈ x.ts → (out l).guard = none) → (x.g.lane l).replay.bind Replay.cont = none →
    (g.lane l).guardCnt = (x.g.lane l).guardCnt - 1 ∧ (g.lane l).guardEn = (x.g.lane l).guardEn
  guardOther : ∀ l, l ∉ x.es → (g.lane l).guardCnt = (x.g.lane l).guardCnt ∧ (g.lane l).guardEn = (x.g.lane l).guardEn
  /-- No lane exits, freezes or is released. -/
  exited : ∀ l, (g.lane l).exited = (x.g.lane l).exited
  hold : ∀ l, (g.lane l).hold = (x.g.lane l).hold
  /-- The flags raised stay raised; no other bit of STAT changes (R49). -/
  stat : g.stat = raiseFlags x.g.stat (orFlags (x.ts.map fun l => (out l).flags))
  /-- Every other register of the group is unchanged. -/
  rest : g = { x.g with lanes := g.lanes, scal := g.scal, stat := g.stat, owed := g.owed }

/-- The issue `x` of `i` by the moving group begins (R22, R28, R63), and its registers pass their checks (R322, R323). -/
structure Issue.Begins (x : Issue) (s : State) (i : Instr) : Prop where
  begins : s.begin i = .go x
  clear : x.clear i

/-- Executing `i` completes it in every lane taking part with the results `out`; nothing outside the group changes but the
model's counter of names. -/
def Issue.Completes (x : Issue) (s : State) (i : Instr) (out : Nat → LaneOut) : Prop :=
  ∃ g, exec i s = .next { s.setGroup g with fresh := s.fresh + 1 } ∧ x.Done g out

/-- `t` is `u` but for the group of `x`, in which the issue has completed with the results `out` in every lane taking part,
and the model's counter of names. -/
def Issue.Ends (x : Issue) (u t : State) (out : Nat → LaneOut) : Prop :=
  ∃ g0 g, u.group? x.g.gid = some g0 ∧ t.group? x.g.gid = some g ∧ { x with g := g0 }.Done g out ∧
    (∀ k, k ≠ x.g.gid → t.group? k = u.group? k) ∧ t = { u with groups := t.groups, fresh := t.fresh }

/-- An instruction whose effect on the part is `u` and on its lanes `out`. -/
def Issue.CompletesIn (x : Issue) (s : State) (i : Instr) (u : State) (out : Nat → LaneOut) : Prop :=
  ∃ t, exec i s = .next t ∧ x.Ends u t out

/-! ## Faults taken -/

/-- The lanes of `m` are frozen in `t` under a record of the fault `f`, which its core's queue holds: their PCs, registers,
predicates, LINKs and guards are as `g` has them (R293, R295, R299). `grp`: the instruction is group-collective, so that
every other live lane is held (R294). -/
def Took (t : State) (g : Group) (f : Flt) (m : Lanes) (late grp : Bool) (pc : DWord) (ws : List Word) : Prop :=
  ∃ r g', (∃ k, ({ slot := k, rcd := r } : FSlot) ∈ (t.core g.core).fslots) ∧
    r.gid = g.gid ∧ r.code = f.code ∧ r.lanes = m ∧ r.late = late ∧ r.pc = pc ∧ r.words = ws ∧
    r.faddr = f.faddr ∧ r.detail = f.detail ∧ r.acc = accNum f.acc ∧ r.level = f.level ∧ r.deleg = false ∧
    t.group? g.gid = some g' ∧
    (∀ l, hasLane m l = true → g'.lane l = { g.lane l with hold := .frozen r.rid }) ∧
    (∀ l, hasLane m l = false → (g'.lane l).hold =
      if grp && (g.lane l).live && (g.lane l).hold == .free then .held r.rid else (g.lane l).hold)

/-- A fault of the group's lanes can be recorded at once (R303). -/
structure Records (s : State) (g : Group) : Prop where
  kind : g.kind = .ordinary
  core : g.core < s.cores.length
  room : s.fqRoom g.core 1 = true

/-! ## Runs -/

/-- A step is safe when the part goes on. -/
def SafeStep (s : State) : Prop := ∃ t, step s = .next t

/-- `t` is reached from `s` by steps that go on. -/
inductive Reaches : State → State → Prop where
  | refl (s : State) : Reaches s s
  | next {s t u : State} (h : Reaches s t) (h' : step t = .next u) : Reaches s u

/-- The memory is in its canonical form (Memory.wf). -/
def State.memOk (s : State) : Prop := s.mem.wf = true

end Sys2Proof.Machine
end

