-- ==== Sys2Proof/Safety/Registers.lean ====
section
/-!
DEFINITION. What each instruction that acts on registers alone leaves in a lane that takes part, written from the rules'
own words (R91 to R105, R119 to R129) and apart from the meanings: exact arithmetic first, bits one by one. Each table
answers for the instructions of its rules.
-/
namespace Sys2Proof.Machine.Want

/-! ## Words from bits and numbers -/

/-- The word whose bit j is `f j`. -/
def bits (f : Nat → Bool) : (n : Nat) → BitVec n
  | 0 => 0#0
  | n + 1 => BitVec.cons (f n) (bits f n)

/-- The word of a whole number, modulo 2^32. -/
def num (v : Int) : Word := BitVec.ofInt 32 v
def num64 (v : Int) : DWord := BitVec.ofInt 64 v

/-- One register, or an aligned pair with its low word in the even member (R46). -/
def one (d : Reg) (w : Word) : LaneOut := { d := [(d, w)] }
def two (d : Reg) (v : DWord) : LaneOut := { d := [(d, v.extractLsb' 0 32), (regPlus d 1, v.extractLsb' 32 32)] }
def flag (p : BitVec 6) (b : Bool) : LaneOut := { p := [(p.toNat, b)] }
def float (d : Reg) (r : Nat × Flags) : LaneOut := { d := [(d, BitVec.ofNat 32 r.1)], flags := r.2 }

/-! ## Names that an instruction reads or writes (R322) -/

/-- A source operand as a run of `n` registers; a literal is none. -/
def source (a : Src) (n : Nat) : List (Reg × Nat) :=
  match a with
  | .reg r => [(r, n)]
  | .lit _ => []

/-- The absolute names of a lane that runs of registers cover, each through the lane's own window base. -/
def names (x : Issue) (l : Nat) (rs : List (Reg × Nat)) : List Nat :=
  (rs.map fun p => (List.range p.2).filterMap fun j => match regPlus p.1 j with
    | .v n => some ((x.g.lane l).wbase.toNat + n.val)
    | _ => none).flatten

/-- The lowest of them that is not below the allotment. -/
def beyond (x : Issue) (l : Nat) (rs : List (Reg × Nat)) : Option Nat :=
  ((names x l rs).filter fun n => decide (x.g.allot ≤ n ∧ n < 1024)).min?

/-! ## Integer arithmetic (R92, R93) -/

/-- p62 as a number. -/
def carry (x : Issue) (l : Nat) : Nat := if (x.g.lane l).pred 62 then 1 else 0

def integer (x : Issue) (l : Nat) : Instr → LaneOut
  | .iadd o => one o.d (num ((x.g.src l o.a).toInt + (x.g.src l o.b).toInt))
  | .isub o => one o.d (num ((x.g.src l o.a).toInt - (x.g.src l o.b).toInt))
  | .imul o => one o.d (num ((x.g.src l o.a).toInt * (x.g.src l o.b).toInt))
  | .imulhs o => one o.d (((x.g.src l o.a).signExtend 64 * (x.g.src l o.b).signExtend 64).extractLsb' 32 32)
  | .imulhn o => one o.d (((x.g.src l o.a).zeroExtend 64 * (x.g.src l o.b).zeroExtend 64).extractLsb' 32 32)
  | .imad o => one o.d (num ((x.g.reg l o.d).toInt + (x.g.src l o.a).toInt * (x.g.src l o.b).toInt))
  | .imin o => one o.d (num (min (x.g.src l o.a).toInt (x.g.src l o.b).toInt))
  | .imax o => one o.d (num (max (x.g.src l o.a).toInt (x.g.src l o.b).toInt))
  | .nmin o => one o.d (BitVec.ofNat 32 (min (x.g.src l o.a).toNat (x.g.src l o.b).toNat))
  | .nmax o => one o.d (BitVec.ofNat 32 (max (x.g.src l o.a).toNat (x.g.src l o.b).toNat))
  | .iabsd o => one o.d (if (x.g.src l o.a).slt (x.g.src l o.b) then x.g.src l o.b - x.g.src l o.a
      else x.g.src l o.a - x.g.src l o.b)
  | .iaddc o => {
      d := [(o.d, x.g.src l o.a + x.g.src l o.b + BitVec.ofNat 32 (carry x l))]
      p := [(62, decide (2 ^ 32 ≤ (x.g.src l o.a).toNat + (x.g.src l o.b).toNat + carry x l))] }
  | .isubb o => {
      d := [(o.d, x.g.src l o.a - x.g.src l o.b - BitVec.ofNat 32 (carry x l))]
      p := [(62, decide ((x.g.src l o.a).toNat < (x.g.src l o.b).toNat + carry x l))] }
  | _ => {}

/-! ## Bit operations and fields (R94 to R96) -/

/-- Bit j of a shift by k: zeros in, or copies of the top bit. -/
def left {w : Nat} (a : BitVec w) (k j : Nat) : Bool := decide (k ≤ j) && a.getLsbD (j - k)
def right {w : Nat} (a : BitVec w) (k j : Nat) : Bool := a.getLsbD (j + k)
def rightS {w : Nat} (a : BitVec w) (k j : Nat) : Bool := if j + k < w then a.getLsbD (j + k) else a.msb

/-- The number of one bits. -/
def ones (a : Word) : Nat := ((List.range 32).filter a.getLsbD).length

/-- Bit i of the byte that PRMT's transform t makes of x. -/
def prmtBit (t : Nat) (x : Byte) (i : Nat) : Bool :=
  if t = 1 then false
  else if t = 2 then x.getLsbD 7
  else if t = 3 then x.getLsbD ((i + 4) % 8)
  else if t = 4 then x.getLsbD (7 - i)
  else if t = 5 then true
  else x.getLsbD i

/-- Bit j of PRMT: source bytes 0 to 3 are a's, 4 to 7 the old d's; byte j / 8 of b is the control byte. -/
def prmt (d a b : Word) (j : Nat) : Bool :=
  let c := b.toNat / 2 ^ (8 * (j / 8)) % 256
  prmtBit (c / 8 % 8) ((d ++ a).extractLsb' (8 * (c % 8)) 8) (j % 8)

/-- Bit j of BFX: the field of min(l, 32) bits at p, zero above or its top bit where b's bit 16 is set. -/
def bfx (a b : Word) (j : Nat) : Bool :=
  let p := b.toNat % 256
  let m := min (b.toNat / 256 % 256) 32
  if j < m then a.getLsbD (p + j) else decide (0 < m) && b.getLsbD 16 && a.getLsbD (p + m - 1)

/-- Bit j of BFI: a's bits at p to p + l - 1, the old d elsewhere. -/
def bfi (d a b : Word) (j : Nat) : Bool :=
  let p := b.toNat % 256
  if p ≤ j && decide (j < p + b.toNat / 256 % 256) then a.getLsbD (j - p) else d.getLsbD j

def bitwise (x : Issue) (l : Nat) : Instr → LaneOut
  | .and o => one o.d (bits (fun j => (x.g.src l o.a).getLsbD j && (x.g.src l o.b).getLsbD j) 32)
  | .or o => one o.d (bits (fun j => (x.g.src l o.a).getLsbD j || (x.g.src l o.b).getLsbD j) 32)
  | .xor o => one o.d (bits (fun j => (x.g.src l o.a).getLsbD j != (x.g.src l o.b).getLsbD j) 32)
  | .andn o => one o.d (bits (fun j => (x.g.src l o.a).getLsbD j && !(x.g.src l o.b).getLsbD j) 32)
  | .orn o => one o.d (bits (fun j => (x.g.src l o.a).getLsbD j || !(x.g.src l o.b).getLsbD j) 32)
  | .shl o => one o.d (bits (left (x.g.src l o.a) (x.g.src l o.b).toNat) 32)
  | .shr o => one o.d (bits (right (x.g.src l o.a) (x.g.src l o.b).toNat) 32)
  | .sar o => one o.d (bits (rightS (x.g.src l o.a) (x.g.src l o.b).toNat) 32)
  | .rotl o => one o.d (bits (fun j => (x.g.src l o.a).getLsbD ((j + 32 - (x.g.src l o.b).toNat % 32) % 32)) 32)
  | .popc o => one o.d (BitVec.ofNat 32 (ones (x.g.src l o.a)))
  | .clz o => one o.d (if x.g.src l o.a = 0 then 32 else BitVec.ofNat 32 (31 - (x.g.src l o.a).toNat.log2))
  | .brev o => one o.d (bits (fun j => (x.g.src l o.a).getLsbD (31 - j)) 32)
  | .prmt o => one o.d (bits (prmt (x.g.reg l o.d) (x.g.src l o.a) (x.g.src l o.b)) 32)
  | .bfx o => one o.d (bits (bfx (x.g.src l o.a) (x.g.src l o.b)) 32)
  | .bfi o => one o.d (bits (bfi (x.g.reg l o.d) (x.g.src l o.a) (x.g.src l o.b)) 32)
  | _ => {}

/-! ## 64-bit operations (R97) -/

def wide (x : Issue) (l : Nat) : Instr → LaneOut
  | .add64 o => two o.d (num64 ((x.g.src64 l o.a).toInt + (x.g.src64 l o.b).toInt))
  | .sub64 o => two o.d (num64 ((x.g.src64 l o.a).toInt - (x.g.src64 l o.b).toInt))
  | .mad64 o => two o.d (num64 ((x.g.pair l o.d).toInt + (x.g.src64 l o.a).toInt * (x.g.src64 l o.b).toInt))
  | .shl64 o => two o.d (bits (left (x.g.src64 l o.a) (x.g.src l o.b).toNat) 64)
  | .shr64 o => two o.d (bits (right (x.g.src64 l o.a) (x.g.src l o.b).toNat) 64)
  | .sar64 o => two o.d (bits (rightS (x.g.src64 l o.a) (x.g.src l o.b).toNat) 64)
  | .mov64 o => two o.d (x.g.src64 l o.a)
  | _ => {}

/-! ## Moves and immediate forms (R98 to R100) -/

def move (x : Issue) (l : Nat) : Instr → LaneOut
  | .mov o => one o.d (x.g.src l o.a)
  | .movs o => one o.d (x.g.src (x.ts.headD 0) o.a)
  | .p2v o => one o.d (if (x.g.lane l).predCode o.x then 1 else 0)
  | .lit o => two o.d (num64 (x.ia.toNat + (x.g.src l o.a).toInt))
  | _ => {}

def immediate (x : Issue) (l : Nat) : Instr → LaneOut
  | .iaddi o => one o.d (num ((x.g.src l o.a).toInt + o.imm.toInt))
  | .andi o => one o.d (bits (fun j => (x.g.src l o.a).getLsbD j && (num o.imm.toInt).getLsbD j) 32)
  | .ori o => one o.d (bits (fun j => (x.g.src l o.a).getLsbD j || (num o.imm.toInt).getLsbD j) 32)
  | .xori o => one o.d (bits (fun j => (x.g.src l o.a).getLsbD j != (num o.imm.toInt).getLsbD j) 32)
  | .shli o => one o.d (bits (left (x.g.src l o.a) o.c.toNat) 32)
  | .shri o => one o.d (bits (right (x.g.src l o.a) o.c.toNat) 32)
  | .sari o => one o.d (bits (rightS (x.g.src l o.a) o.c.toNat) 32)
  | .rotli o => one o.d (bits (fun j => (x.g.src l o.a).getLsbD ((j + 32 - o.c.toNat) % 32)) 32)
  | _ => {}

/-! ## Predicates (R101 to R105) -/

/-- The relation that a condition names (R101). -/
def rel (c : ICond) (a b : Int) : Bool :=
  match c with
  | .eq => decide (a = b)
  | .ne => decide (a ≠ b)
  | .lt => decide (a < b)
  | .le => decide (a ≤ b)
  | .gt => decide (a > b)
  | .ge => decide (a ≥ b)

/-- A comparison's operand as the number it stands for (R101). -/
def operand (g : Group) (l : Nat) (t : IType) (a : Src) : Int :=
  match t with
  | .i32 => (g.src l a).toInt
  | .n32 => (g.src l a).toNat
  | .i64 => (g.src64 l a).toInt
  | .n64 => (g.src64 l a).toNat

def predicate (x : Issue) (l : Nat) : Instr → LaneOut
  | .icmp o => flag o.pd (rel o.cond (operand x.g l o.ty o.a) (operand x.g l o.ty o.b))
  | .plogAnd o => flag o.pd ((x.g.lane l).predCode o.a && (x.g.lane l).predCode o.b)
  | .plogOr o => flag o.pd ((x.g.lane l).predCode o.a || (x.g.lane l).predCode o.b)
  | .plogXor o => flag o.pd ((x.g.lane l).predCode o.a ^^ (x.g.lane l).predCode o.b)
  | .plogNand o => flag o.pd (!((x.g.lane l).predCode o.a && (x.g.lane l).predCode o.b))
  | .plogNor o => flag o.pd (!((x.g.lane l).predCode o.a || (x.g.lane l).predCode o.b))
  | .plogXnor o => flag o.pd (!((x.g.lane l).predCode o.a ^^ (x.g.lane l).predCode o.b))
  | .voteAny o => flag o.pd (decide (∃ k ∈ x.ts, (x.g.lane k).predCode o.x = true))
  | .voteAll o => flag o.pd (decide (∀ k ∈ x.ts, (x.g.lane k).predCode o.x = true))
  | .voteBallot o => one o.d (bits (fun k => decide (k ∈ x.ts) && (x.g.lane k).predCode o.x) 32)
  | .votePcount o => one o.d (BitVec.ofNat 32 ((List.range 32).filter fun k =>
      decide (k ∈ x.ts) && (x.g.lane k).predCode o.x).length)
  | .voteV2p o => flag o.pd (decide (x.g.src l o.b ≠ 0))
  | _ => {}

/-! ## Floating point (R102, R119 to R121) -/

/-- The elements of a packed pair, the low one first (R73). -/
def lo (a : Word) : Nat := a.toNat % 65536
def hi (a : Word) : Nat := a.toNat / 65536

/-- Two element results in one word, with the flags of both (R121). -/
def both (d : Reg) (e0 e1 : Nat × Flags) : LaneOut :=
  { d := [(d, BitVec.ofNat 32 (e0.1 + 65536 * e1.1))], flags := e0.2 ||| e1.2 }

def floating (x : Issue) (l : Nat) : Instr → LaneOut
  | .fadd o => float o.d (fF32.add (x.g.src l o.a).toNat (x.g.src l o.b).toNat)
  | .fsub o => float o.d (fF32.sub (x.g.src l o.a).toNat (x.g.src l o.b).toNat)
  | .fmul o => float o.d (fF32.mul (x.g.src l o.a).toNat (x.g.src l o.b).toNat)
  | .ffma o => float o.d (fF32.fma (x.g.reg l o.d).toNat (x.g.src l o.a).toNat (x.g.src l o.b).toNat)
  | .fmin o => one o.d (BitVec.ofNat 32 (fF32.fmin (x.g.src l o.a).toNat (x.g.src l o.b).toNat))
  | .fmax o => one o.d (BitVec.ofNat 32 (fF32.fmax (x.g.src l o.a).toNat (x.g.src l o.b).toNat))
  | .fminn o => one o.d (BitVec.ofNat 32 (fF32.fminn (x.g.src l o.a).toNat (x.g.src l o.b).toNat))
  | .fmaxn o => one o.d (BitVec.ofNat 32 (fF32.fmaxn (x.g.src l o.a).toNat (x.g.src l o.b).toNat))
  | .fabs o => one o.d (bits (fun j => decide (j ≠ 31) && (x.g.src l o.a).getLsbD j) 32)
  | .fneg o => one o.d (bits (fun j => (x.g.src l o.a).getLsbD j != decide (j = 31)) 32)
  | .frnd o => float o.d (Machine.frnd o.mode (x.g.src l o.a).toNat)
  | .fcmp o => match o.ty with
    | .f32 => flag o.pd (fF32.cmp o.cond (x.g.src l o.a).toNat (x.g.src l o.b).toNat)
    | .h16 => flag o.pd (fH16.cmp o.cond (lo (x.g.src l o.a)) (lo (x.g.src l o.b)))
    | .bf16 => flag o.pd (fBf16.cmp o.cond (lo (x.g.src l o.a)) (lo (x.g.src l o.b)))
  | .add2 o => let f := if o.bf then fBf16 else fH16
    both o.d (f.add (lo (x.g.src l o.a)) (lo (x.g.src l o.b))) (f.add (hi (x.g.src l o.a)) (hi (x.g.src l o.b)))
  | .mul2 o => let f := if o.bf then fBf16 else fH16
    both o.d (f.mul (lo (x.g.src l o.a)) (lo (x.g.src l o.b))) (f.mul (hi (x.g.src l o.a)) (hi (x.g.src l o.b)))
  | .fma2 o => let f := if o.bf then fBf16 else fH16
    both o.d (f.fma (lo (x.g.reg l o.d)) (lo (x.g.src l o.a)) (lo (x.g.src l o.b)))
      (f.fma (hi (x.g.reg l o.d)) (hi (x.g.src l o.a)) (hi (x.g.src l o.b)))
  | .min2 o => let f := if o.bf then fBf16 else fH16
    both o.d (f.fmin (lo (x.g.src l o.a)) (lo (x.g.src l o.b)), 0) (f.fmin (hi (x.g.src l o.a)) (hi (x.g.src l o.b)), 0)
  | .max2 o => let f := if o.bf then fBf16 else fH16
    both o.d (f.fmax (lo (x.g.src l o.a)) (lo (x.g.src l o.b)), 0) (f.fmax (hi (x.g.src l o.a)) (hi (x.g.src l o.b)), 0)
  | _ => {}

/-! ## Functions, conversions, packing, dot products (R122 to R127) -/

def special (x : Issue) (l : Nat) : Instr → LaneOut
  | .frcp o => float o.d (Machine.frcp (x.g.src l o.a).toNat)
  | .frsq o => float o.d (Machine.frsq (x.g.src l o.a).toNat)
  | .fsqrt o => float o.d (Machine.fsqrt (x.g.src l o.a).toNat)
  | .fexp2 o => float o.d (Machine.fexp2 (x.g.src l o.a).toNat)
  | .flog2 o => float o.d (Machine.flog2 (x.g.src l o.a).toNat)
  | .fsin o => float o.d (Machine.fsin (x.g.src l o.a).toNat)
  | .fcos o => float o.d (Machine.fcos (x.g.src l o.a).toNat)
  | .ftanh o => float o.d (Machine.ftanh (x.g.src l o.a).toNat)
  | _ => {}

/-- Element j, w bits wide, read as a signed or a natural number (R73). -/
def elemInt (signed : Bool) (w j : Nat) (a : Word) : Int :=
  let e := a.extractLsb' (w * j) w
  if signed then e.toInt else e.toNat

/-- The low 32 bits of the accumulator plus the exact products (R83, R127). -/
def dotInt (signed : Bool) (w : Nat) (d a b : Word) : Word :=
  num (d.toInt + ((List.range (32 / w)).map fun j => elemInt signed w j a * elemInt signed w j b).sum)

def conversion (x : Issue) (l : Nat) : Instr → LaneOut
  | .cvt o =>
    let r := match o.code with
      | .pairToH16 | .pairToBf16 =>
        cvt o.code o.rnd o.sat ((x.g.src64 l o.a).extractLsb' 0 32) ((x.g.src64 l o.a).extractLsb' 32 32)
      | _ => cvt o.code o.rnd o.sat (x.g.src l o.a) 0
    { d := [(o.d, r.1)], flags := r.2 }
  | .pack o => one o.d (let w := packBits o.e
      let k := (x.g.src l o.b).toNat % (32 / w)
      bits (fun j => if j / w = k then (x.g.src l o.a).getLsbD (j % w) else (x.g.reg l o.d).getLsbD j) 32)
  | .unpack o => one o.d (let w := packBits o.e
      let k := (x.g.src l o.b).toNat % (32 / w)
      bits (fun j => decide (j < w) && (x.g.src l o.a).getLsbD (k * w + j)) 32)
  | .dot4F8a o => let r := dotFloat fF8a 8 4 (x.g.reg l o.d) (x.g.src l o.a) (x.g.src l o.b)
    { d := [(o.d, r.1)], flags := r.2 }
  | .dot4F8b o => let r := dotFloat fF8b 8 4 (x.g.reg l o.d) (x.g.src l o.a) (x.g.src l o.b)
    { d := [(o.d, r.1)], flags := r.2 }
  | .dot8F4 o => let r := dotFloat fF4 4 8 (x.g.reg l o.d) (x.g.src l o.a) (x.g.src l o.b)
    { d := [(o.d, r.1)], flags := r.2 }
  | .dot4I8 o => one o.d (dotInt true 8 (x.g.reg l o.d) (x.g.src l o.a) (x.g.src l o.b))
  | .dot4N8 o => one o.d (dotInt false 8 (x.g.reg l o.d) (x.g.src l o.a) (x.g.src l o.b))
  | .dot8I4 o => one o.d (dotInt true 4 (x.g.reg l o.d) (x.g.src l o.a) (x.g.src l o.b))
  | .dot8N4 o => one o.d (dotInt false 4 (x.g.reg l o.d) (x.g.src l o.a) (x.g.src l o.b))
  | _ => {}

/-! ## Exchange and reduction (R128, R129) -/

/-- The value of lane k where k takes part, the lane's own elsewhere (R128). -/
def sent (x : Issue) (l k : Nat) (a : Src) : Word := x.g.src (if k ∈ x.ts then k else l) a

def exchange (x : Issue) (l : Nat) : Instr → LaneOut
  | .shflIdx o => one o.d (sent x l ((x.g.src l o.b).toNat % 32) o.a)
  | .shflUp o => one o.d (if (x.g.src l o.b).toNat ≤ l then sent x l (l - (x.g.src l o.b).toNat) o.a else x.g.src l o.a)
  | .shflDown o => one o.d (sent x l (l + (x.g.src l o.b).toNat) o.a)
  | .shflXor o => one o.d (sent x l (l ^^^ ((x.g.src l o.b).toNat % 32)) o.a)
  | .shflBcast o => one o.d (sent x (x.ts.headD 0) ((x.g.src (x.ts.headD 0) o.b).toNat % 32) o.a)
  | _ => {}

/-- One operation over the terms; for none, its identity (R129). -/
def combined (op : GredOp) (ws : List Word) : Word :=
  match op with
  | .addI32 => num (ws.map BitVec.toInt).sum
  | .addF32 => BitVec.ofNat 32 (gredSum (ws.map fun w => fF32.value w.toNat))
  | .minI32 => num (ws.foldl (fun m w => min m w.toInt) (2 ^ 31 - 1))
  | .maxI32 => num (ws.foldl (fun m w => max m w.toInt) (-2 ^ 31))
  | .minN32 => BitVec.ofNat 32 (ws.foldl (fun m w => min m w.toNat) (2 ^ 32 - 1))
  | .maxN32 => BitVec.ofNat 32 (ws.foldl (fun m w => max m w.toNat) 0)
  | .minF32 => BitVec.ofNat 32 (ws.foldl (fun m w => fF32.fmin m w.toNat) 0x7F800000)
  | .maxF32 => BitVec.ofNat 32 (ws.foldl (fun m w => fF32.fmax m w.toNat) 0xFF800000)
  | .and => bits (fun j => ws.all fun w => w.getLsbD j) 32
  | .or => bits (fun j => ws.any fun w => w.getLsbD j) 32
  | .xor => bits (fun j => (ws.filter fun w => w.getLsbD j).length % 2 == 1) 32

/-- The lanes whose operands a lane of a reduction or scan combines, ascending (R129). -/
def terms (x : Issue) (l : Nat) : Instr → Option (GredOps × List Nat)
  | .gredReduce o => some (o, x.ts)
  | .gredIncl o => some (o, x.ts.filter fun k => decide (k ≤ l))
  | .gredExcl o => some (o, x.ts.filter fun k => decide (k < l))
  | _ => none

def reduction (x : Issue) (l : Nat) (i : Instr) : LaneOut :=
  match terms x l i with
  | some (o, ks) => one o.d (combined o.op (ks.map fun k => x.g.src k o.a))
  | none => {}

end Sys2Proof.Machine.Want
end

