-- ==== Sys2Proof/Safety/Control.lean ====
section
/-!
DEFINITION. What control instructions leave in a lane that takes part (R98, R106, R107, R109, R111, R115), and the values
of the state registers that a group alone determines (R18, R47 to R51), written from the rules.
-/
namespace Sys2Proof.Machine.Want

/-- A branch's target: OFF18 counts words from the first word after the whole instruction (R59, R106). -/
def branch (x : Issue) (off : BitVec 18) : DWord := BitVec.ofInt 64 (x.next.toNat + 4 * off.toInt)

/-- A predicate as GUARD, BR and CALL read it. -/
def tested (x : Issue) (l : Nat) (p : BitVec 6) (n : Bool) : Bool := (x.g.lane l).pred p.toNat != n

def control (x : Issue) (l : Nat) : Instr → LaneOut
  | .nop _ => {}
  | .guard o => { guard := some (o.cnt.toNat + 1, tested x l o.p o.n) }
  | .br o => if tested x l o.p o.n then { jump := some (branch x o.off) } else {}
  | .call o => if tested x l o.p o.n then { jump := some (branch x o.off), link := some x.next } else {}
  | .ret _ => { jump := some (x.g.lane l).link }
  | .jmpi o => { jump := some (x.g.src64 l o.a) }
  | .calli o => { jump := some (x.g.src64 l o.a), link := some x.next }
  | .wbase o => { wbase := some (BitVec.ofNat 10 (x.g.src l o.a).toNat) }
  | _ => {}

/-- The value of a state register that the group and lane alone determine. -/
def stateReg (x : Issue) (l : Nat) : SReg → Option Nat
  | .laneix => some l
  | .grpix => some x.g.grpix
  | .nlane => some ((List.range 32).filter fun k => !(x.g.lane k).exited).length
  | .stat => some x.g.stat.toNat
  | .allot => some (x.g.budget * 65536 + x.g.allot)
  | .wbasev => some (x.g.lane l).wbase.toNat
  | .link => some (x.g.lane l).link.toNat
  | .qcnt => some (x.g.qcnt.copy + 256 * x.g.qcnt.matrix + 65536 * x.g.qcnt.gather + 16777216 * x.g.qcnt.coll)
  | .lpc => some x.ia.toNat
  | .cap0 => some (x.g.caps.getD 0 0).toNat
  | .cap1 => some (x.g.caps.getD 1 0).toNat
  | .cap2 => some (x.g.caps.getD 2 0).toNat
  | .cap3 => some (x.g.caps.getD 3 0).toNat
  | .frecp => some x.g.frecp.toNat
  | .hmode => some (if x.g.kind = .ordinary then 0 else 1)
  | .ctxid => some x.g.ctx
  | _ => none

/-- The registers of 64 bits (R47). -/
def wideReg : SReg → Bool
  | .clock | .link | .lpc | .frecp => true
  | _ => false

/-- The group after MTS of a group-uniform register with the lowest lane's value (R48, R49, R51). -/
def mts (x : Issue) (o : MtsOps) : Group :=
  match x.ts with
  | [] => x.g
  | l :: _ =>
    let v := x.g.src l o.a
    match o.sr with
    | .stat => { x.g with stat := bits (fun j => (decide (j < 5) || decide (7 ≤ j ∧ j < 13)) && v.getLsbD j) 32 }
    | .cap0 => { x.g with caps := x.g.caps.set 0 (v &&& 0xFF00FFFF) }
    | .cap1 => { x.g with caps := x.g.caps.set 1 (v &&& 0xFF00FFFF) }
    | .cap2 => { x.g with caps := x.g.caps.set 2 (v &&& 0xFF00FFFF) }
    | .cap3 => { x.g with caps := x.g.caps.set 3 (v &&& 0xFF00FFFF) }
    | _ => x.g

/-- The faults of a jump off its alignment and of a window base that is no multiple of 16 up to 912 (R115, R326). -/
def misplaced (x : Issue) (l : Nat) : Instr → Option Flt
  | .ret _ => off (x.g.lane l).link
  | .jmpi o => off (x.g.src64 l o.a)
  | .calli o => off (x.g.src64 l o.a)
  | .wbase o =>
    let v := (x.g.src l o.a).toNat
    if v % 16 = 0 ∧ v ≤ 912 then none else some { code := 0x010D, detail := BitVec.ofNat 64 v }
  | _ => none
where
  off (pc : DWord) : Option Flt := if pc.toNat % 4 = 0 then none else some { code := 0x010C, detail := pc }

/-- Names allotted on a core to the threads of teams (R116). -/
def coreNames (s : State) (core : Nat) : Nat :=
  ((s.groups.filter fun g => decide (g.core = core ∧ g.away = false ∧ g.kind = .ordinary)).map fun g => 32 * g.allot).sum

/-- Whether GROW grants q names (R116). -/
def grants (s : State) (g : Group) (q : Nat) : Bool :=
  decide (16 ≤ q ∧ q ≤ 1024 ∧ q % 16 = 0) &&
    (decide (q ≤ g.allot) || decide (coreNames s g.core + 32 * (q - g.allot) ≤ 1048576))

end Sys2Proof.Machine.Want
end

