-- ==== Sys2Proof/Safety/Memory.lean ====
section
/-!
DEFINITION. Memory as claims speak of it: the newest value of a byte wherever a cache holds it, the caches' own soundness,
an access that an installed translation takes to HBM, the bytes that a load of each order finds (R137, R138, R176, R177),
and what an atomic makes of them (R181).
-/
namespace Sys2Proof.Machine

/-! ## Coherent caches -/

/-- A core's L1 holds the byte dirty. -/
def State.l1Dirty (s : State) (c k : Nat) : Bool := (l1Get (s.core c) k).any L1Byte.dirty

/-- The cluster's cache, or an L1 below it, holds the byte dirty. -/
def State.dirtyBelow (s : State) (cl k : Nat) : Bool := s.dirtyIn cl k || (clusterCores cl).any fun c => s.l1Dirty c k

/-- The caches are sound: their lists are in one form, one L1 at most holds a byte dirty, and while a cluster holds a byte
dirty or owns it no other cluster's cache holds it in any way (R137, R142, R400). -/
structure State.Coherent (s : State) : Prop where
  cores : s.cores.length = 32
  clusters : s.clusters.length = 8
  l1 : ∀ c ∈ s.cores, (c.l1.map L1Byte.key).Pairwise (· < ·)
  cc : ∀ c ∈ s.clusters, (c.cc.map CcByte.key).Pairwise (· < ·)
  fresh : ∀ c k b, l1Get (s.core c) k = some b → b.dirty = true → b.stale = false
  one : ∀ c d k, s.l1Dirty c k = true → s.l1Dirty d k = true → c = d
  apart : ∀ a b k, a ≠ b → (s.dirtyBelow a k = true ∨ s.holdsOwn a k = true) →
    s.dirtyBelow b k = false ∧ s.holdsOwn b k = false ∧ (ccGet (s.cluster b) k).bind CcByte.val = none

/-- The newest value of a byte: an L1's that holds it dirty, else a cluster cache's that does, else its home's (R137). -/
def State.value (s : State) (k : Nat) : Byte :=
  match (List.range 32).findSome? fun c => if s.l1Dirty c k then l1Get (s.core c) k else none with
  | some b => b.val
  | none => match (List.range 8).findSome? fun cl => if s.dirtyIn cl k then ccGet (s.cluster cl) k else none with
    | some x => x.val.getD 0
    | none => s.mem.get k

/-- The byte at a cluster's point of coherence: an L1's of the cluster that holds it dirty, the cache's, or the newest. -/
def State.clusterValue (s : State) (cl k : Nat) : Byte :=
  match (clusterCores cl).findSome? fun c => if s.l1Dirty c k then l1Get (s.core c) k else none with
  | some b => b.val
  | none => ((ccGet (s.cluster cl) k).bind CcByte.val).getD (s.value k)

/-- The byte as a core's weak load finds it when it must leave its L1 for some byte: an L1 copy that a home has invalidated
does not serve it. -/
def State.coreValue (s : State) (core k : Nat) : Byte :=
  match l1Get (s.core core) k with
  | some b => if b.stale then s.clusterValue (clusterOf core) k else b.val
  | none => s.clusterValue (clusterOf core) k

/-- Every team's scratchpad, accumulators and lines, every span's tiles, the tags, the granules and their holds are in canonical
form. -/
structure State.ListsOk (s : State) : Prop where
  scratch : ∀ t ∈ s.teams, risingFrom 0 t.scratch = true
  acc : ∀ t ∈ s.teams, risingFrom 0 t.acc = true
  lines : ∀ t ∈ s.teams, (t.lines.map LineState.line).Pairwise (· < ·)
  tiles : ∀ x ∈ s.spans, (x.tiles.map Tile.name).Pairwise (· < ·)
  tags : (s.tags.map Prod.fst).Pairwise (· < ·)
  granules : (s.granules.map Granule.base).Pairwise (· < ·)
  holds : ∀ g ∈ s.granules, (g.teams.map TeamHold.tid).Pairwise (· < ·)

namespace Want

def keys (k n : Nat) : List Nat := (List.range n).map (k + ·)

/-- The bytes that a load finds (R138, R140, R177). -/
def loaded (s : State) (core k n : Nat) (ord : Ord) (sc : Scope) (h : Hint) : List Byte :=
  let wide := sc = .device ∨ sc = .system
  let copy := fun a => l1Get (s.core core) a
  let nearest := if (keys k n).all fun a => (copy a).any fun b => !b.past && (copy k).any fun c => b.born == c.born
    then (keys k n).map fun a => ((copy a).map L1Byte.val).getD 0
    else (keys k n).map (s.coreValue core)
  if ord = .bypass ∨ (ord ≠ .weak ∧ wide) then (keys k n).map s.value
  else if ord ≠ .weak ∧ sc = .cluster then (keys k n).map (s.clusterValue (clusterOf core))
  else if ord = .weak ∧ h = .gridRO ∧ s.bytesNear core k n = false ∧ s.mayRdc core k = true then
    (s.rdcBytes core k n).getD nearest
  else nearest

/-- What a load's register receives (R176). -/
def filled (w : Width) (bs : List Byte) : List Word :=
  let b := fun i => bs.getD i 0
  match w with
  | .w8 => [(b 0).setWidth 32]
  | .w8s => [(b 0).signExtend 32]
  | .w16 => [(b 1 ++ b 0).setWidth 32]
  | .w16s => [(b 1 ++ b 0).signExtend 32]
  | .w32 => [b 3 ++ b 2 ++ b 1 ++ b 0]
  | .w64 => [b 3 ++ b 2 ++ b 1 ++ b 0, b 7 ++ b 6 ++ b 5 ++ b 4]
  | .w128 => [b 3 ++ b 2 ++ b 1 ++ b 0, b 7 ++ b 6 ++ b 5 ++ b 4, b 11 ++ b 10 ++ b 9 ++ b 8, b 15 ++ b 14 ++ b 13 ++ b 12]

/-- Byte j of store data: little-endian over the words (R3, R176). -/
def stored (ws : List Word) (j : Nat) : Byte := (ws.getD (j / 4) 0).extractLsb' (8 * (j % 4)) 8

/-- The new value of an atomic of w bits (R181). -/
def atomic (op : AtOp) (w : Nat) (old b : BitVec w) : BitVec w :=
  match op with
  | .add => old + b
  | .smin => if b.slt old then b else old
  | .smax => if old.slt b then b else old
  | .umin => if b < old then b else old
  | .umax => if old < b then b else old
  | .and => old &&& b
  | .or => old ||| b
  | .xor => old ^^^ b
  | .xchg => b
  | .incw => if b ≤ old then 0 else old + 1
  | .decw => if old = 0 ∨ b < old then b else old - 1
  | .fadd => BitVec.ofNat w (fF32.add old.toNat b.toNat).1
  | .hadd2 => BitVec.ofNat w ((fH16.add (old.toNat % 65536) (b.toNat % 65536)).1 +
      65536 * (fH16.add (old.toNat / 65536) (b.toNat / 65536)).1)

/-- Whether WAITV's condition holds (R189). -/
def waited (c : WCond) {w : Nat} (v b : BitVec w) : Bool :=
  match c with
  | .eq => v == b
  | .ne => v != b
  | .lts => v.slt b
  | .ges => b.sle v
  | .ltn => v.ult b
  | .gen => b.ule v

end Want

/-! ## Accesses -/

/-- What a memory instruction needs of its page (R162, R163, R184 to R188). -/
def Want.need : Instr → Need
  | .st _ | .tagst _ => { w := true }
  | .atom _ | .atomc _ | .red _ => { r := true, w := true }
  | .flush _ | .inv _ => { quiet := true }
  | .pres o | .pgreq o => { r := o.acc == .read, w := o.acc == .write, quiet := true }
  | _ => { r := true }

/-- Accesses that check tags and consume or replace data (R153, R357). -/
def Want.checked : Instr → Bool
  | .ld _ | .ldNr _ | .st _ | .atom _ | .atomc _ | .red _ | .waitv _ => true
  | _ => false

/-- The access is canonical and aligned as asked (R131, R326). -/
def Acc.lies (x : Acc) (n align : Nat) : Prop :=
  canonical x.a.va = true ∧ canonical (x.a.va + BitVec.ofNat 64 (n - 1)) = true ∧ x.a.va.toNat % align = 0

/-- An installed translation that permits the access takes it to HBM that is there, from key `k` on, and nothing on the way
turns it away (R162, R165, R351, R378). -/
structure Acc.Hits (x : Acc) (s : State) (need : Need) (k : Nat) (e : TlbEntry) : Prop where
  first : x.via = []
  ctx : (s.ctx? x.part x.who.ctx).isSome = true
  entry : ((s.core x.core).tlb.find? fun e => e.covers x.who (transBits x.a.va)) = some e
  permits : permits x.who need e.r e.w e.x e.u = true
  dirty : need.w = true → e.d = true
  place : s.placeOf x.part e (e.pbase + (transBits x.a.va - e.vbase)) = .mem k 0
  hbm : k + 16 < 2 ^ 60
  home : s.homeLost x.part k = false
  prompt : s.travels = false
  current : (s.granuleOf k).refuses k 16 e.filledAt need.w = false

/-- Tags match where they are checked, and no copy of a byte that may serve the access is poisoned (R153, R357). -/
def Acc.Clean (x : Acc) (s : State) (k n : Nat) : Prop :=
  ((s.granuleOf k).te = true → s.tagsMatch k n (ptrTag x.a.va) = true) ∧
    ∀ near rdc, s.servedBad x.core k n near rdc = false

/-- The access of a lane of an issue. -/
def Issue.acc (x : Issue) (i : Instr) (f : MemForm) (l : Nat) : Acc where
  who := x.g.who
  gid := x.g.gid
  tid := x.g.tid
  pc := x.ia
  kind := instrAcc i
  a := x.g.laneAcc i f l

/-- The accesses of some lanes, performed in ascending order from `s`, all complete, with these results (R179). -/
inductive Issue.Performs (x : Issue) (i : Instr) (f : MemForm) : List Nat → State → State → (Nat → LaneOut) → Prop where
  | none (s : State) (out : Nat → LaneOut) : x.Performs i f [] s s out
  | next {l : Nat} {ls : List Nat} {s t u : State} {out : Nat → LaneOut} {ws : List Word} {ps : Bool}
      (h : s.perform i (x.acc i f l) = (t, .done ws ps)) (hl : out l = outMem i ws ps)
      (hs : x.Performs i f ls t u out) : x.Performs i f (l :: ls) s u out

/-- As CompletesIn, but for spans whose pre-emption the scheduler asks for (R247). -/
def Issue.CompletesAsking (x : Issue) (s : State) (i : Instr) (u : State) (out : Nat → LaneOut) : Prop :=
  ∃ t, exec i s = .next t ∧ x.Ends { u with spans := t.spans } t out ∧
    t.spans.map (fun y => { y with pre := none, forced := false }) =
      u.spans.map fun y => { y with pre := none, forced := false }

end Sys2Proof.Machine
end

