-- ==== Sys2Proof/Safety/Engine.lean ====
section
/-!
DEFINITION. What issuing an operation of an engine, the granary, the matrix engine or the barrier unit leaves behind
(R190 to R230, R242 to R246): the operation posted, its counters, the lines and tiles it takes.
-/
namespace Sys2Proof.Machine

/-- The operation that an issue posts. -/
structure Issue.Posted (x : Issue) (o : AOp) (i : Instr) (c : Option QClass) (k : OpKind) : Prop where
  gid : o.gid = x.g.gid
  tid : o.tid = x.g.tid
  core : o.core = x.g.core
  cls : o.cls = c
  pc : o.pc = x.ia
  instr : o.instr = i
  lanes : o.lanes = maskOf x.ts.contains
  kind : o.kind = k
  done : o.done = false
  free : o.held = none
  unread : o.srcRead = false

/-- The group with one more operation of the class outstanding (R190). -/
def Issue.counts (x : Issue) (c : QClass) : Group :=
  match c with
  | .copy => { x.g with qcnt := { x.g.qcnt with copy := x.g.qcnt.copy + 1 } }
  | .matrix => { x.g with qcnt := { x.g.qcnt with matrix := x.g.qcnt.matrix + 1 } }
  | .gather => { x.g with qcnt := { x.g.qcnt with gather := x.g.qcnt.gather + 1 } }
  | .coll => { x.g with qcnt := { x.g.qcnt with coll := x.g.qcnt.coll + 1 } }

namespace Want

/-- Operations of a class that the group has outstanding. -/
def outstanding (g : Group) (c : QClass) : Nat :=
  match c with
  | .copy => g.qcnt.copy
  | .matrix => g.qcnt.matrix
  | .gather => g.qcnt.gather
  | .coll => g.qcnt.coll

/-- The lines have counted one more operation, each other line is as it was (R133). -/
def lines (t t' : Team) (lns : List Nat) : Prop :=
  ∀ ln, lineState t' ln = { lineState t ln with count := (lineState t ln).count + if ln ∈ lns then 1 else 0 }

/-! ## Operations with operands alone -/

/-- What a core-path operation asks of its operands, and what it posts. -/
structure Post where
  cls : QClass
  kind : OpKind
  ok : Prop

/-- The bytes `[off, off + n)` of the allocation, from a multiple of 16 on. -/
abbrev within (off n size : Nat) : Prop := off % 16 = 0 ∧ off + n ≤ size

/-- STA, COLL, ACCZ, ACCST and ACCSHR (R202, R204, R227, R229); `n`: teams of the span. -/
def post (x : Issue) (t : Team) (n : Nat) : Instr → Option Post
  | .sta o =>
    let va := x.g.src64 x.lead o.a
    let src := (x.g.src x.lead o.b).toNat
    some { cls := .copy, kind := .sta va src (16 * o.len.toNat) o.hint,
           ok := va.toNat % 16 = 0 ∧ canonical va = true ∧ within src (16 * o.len.toNat) t.alloc }
  | .collAdd o => coll o.d o.a (16 * o.len.toNat) (.add o.ty) True
  | .collMax o => coll o.d o.a (16 * o.len.toNat) (.max o.ty) True
  | .collBcast o => coll o.d o.a (16 * o.len.toNat) (.bcast o.root.toNat) (o.root.toNat < n)
  | .accz o =>
    let off := (x.g.src x.lead o.a).toNat
    some { cls := .matrix, kind := .accz off (16 * o.len.toNat), ok := within off (16 * o.len.toNat) t.accSize }
  | .accst o =>
    let off := (x.g.src x.lead o.a).toNat
    let src := (x.g.src x.lead o.b).toNat
    some { cls := .matrix, kind := .accst off src (16 * o.len.toNat),
           ok := within off (16 * o.len.toNat) t.accSize ∧ within src (16 * o.len.toNat) t.alloc }
  | .accshr o =>
    let q := (x.g.src x.lead o.a).toNat
    some { cls := .matrix, kind := .accshr q, ok := q % 16384 = 0 }
  | _ => none
where
  coll (d : Reg) (a : Src) (len : Nat) (k : CollKind) (more : Prop) : Option Post :=
    let src := (x.g.src x.lead a).toNat
    let dst := (x.g.reg x.lead d).toNat
    some { cls := .coll, kind := .coll t.colls k src dst len
           ok := within dst len t.alloc ∧ within src len t.alloc ∧ more }

/-! ## Operations with a record -/

/-- What a copy does with the layout record that it reads (R197 to R201). -/
structure Copy where
  form : CpyForm
  bar : BarRef
  d : Reg
  a : Src
  cls : QClass
  kind : List Byte → CpyDst → OpKind
  valid : List Byte → Bool
  hi : List Byte → Nat
  lines : List Byte → List Nat

def copy (x : Issue) (i : Instr) : Option Copy :=
  match i with
  | .cpySp o => some (box o.d o.a o.b .sp o.bar)
  | .cpyTile o => some (box o.d o.a o.b .tile o.bar)
  | .cpyMc o => some (box o.d o.a o.b (.mc o.ranks) o.bar)
  | .gathSp o => some (rows o .sp)
  | .gathTile o => some (rows o .tile)
  | _ => none
where
  box (d : Reg) (a : Src) (b : Reg) (f : CpyForm) (bar : BarRef) : Copy :=
    let dst := (x.g.reg x.lead d).toNat
    { form := f, bar := bar, d := d, a := a, cls := .copy
      kind := fun r place => .cpy r (x.g.regs x.lead b 5) place
      valid := fun r => Lay.valid r (x.g.reg x.lead b) && (!f.isTile || Lay.size r == 8192)
      hi := fun r => dst + Lay.size r
      lines := fun r => linesOf dst (Lay.size r) }
  rows (o : GathOps) (f : CpyForm) : Copy :=
    let dst := (x.g.reg x.lead o.d).toNat
    { form := f, bar := o.bar, d := o.d, a := o.a, cls := .gather
      kind := fun r place => .gath r (x.ts.map fun l => (l, x.g.reg l o.b)) place
      valid := fun r => Lay.gathValid r f.isTile
      hi := fun r => gathEnd r dst x.ts
      lines := fun r => Lay.gathLines r dst x.ts }

/-! ## Tiles -/

/-- Byte j of the tile that registers make: word r of lane l at 128 r + 4 l (R216). -/
def tileByte (x : Issue) (run j : Nat) : Byte :=
  let l := j % 128 / 4
  if l ∈ x.ts ∧ j < 8192 then (x.g.reg l (Reg.ofNum (run + j / 128))).extractLsb' (8 * (j % 4)) 8 else 0

/-- Byte j of the rows that registers make: 64 bytes for each lane (R225). -/
def rowByte (x : Issue) (run j : Nat) : Byte :=
  let l := j / 64
  if l ∈ x.ts then (x.g.reg l (Reg.ofNum (run + j % 64 / 4))).extractLsb' (8 * (j % 4)) 8 else 0

/-- PHASE is past b (R244). -/
abbrev past (phase : Nat) (b : Word) : Prop :=
  let d := ((phase : Int) - (b.toNat : Int)) % 2 ^ 24
  1 ≤ d ∧ d ≤ 2 ^ 23 - 1

end Want

end Sys2Proof.Machine
end

