-- ==== Sys2Proof/Safety/Events.lean ====
section
/-!
DEFINITION. What claims about events are stated with: names that are given once, what an operation delivers and where
(R133, R190 to R201), units read and written in order (R196, R202), results that land in a group (R63), credits at a barrier
(R199, R242), dot products of the matrix engine (R83, R84), access by application cores (R281).
-/
namespace Sys2Proof.Machine

/-- The event `i` takes the part from `s` to a next state of which `P` holds. -/
def Brings (i : Instr) (s : State) (P : State → Prop) : Prop := ∃ t, exec i s = .next t ∧ P t

/-- Live objects have names of their own, all given out already. -/
structure State.NamesOk (s : State) : Prop where
  first : 0 < s.fresh
  gids : (s.groups.map Group.gid).Nodup ∧ ∀ g ∈ s.groups, 0 < g.gid ∧ g.gid < s.fresh
  tids : (s.teams.map Team.tid).Nodup ∧ ∀ t ∈ s.teams, t.tid < s.fresh ∧ t.sid < s.fresh
  sids : (s.spans.map Span.sid).Nodup ∧ ∀ x ∈ s.spans, x.sid < s.fresh
  uids : (s.grids.map Grid.uid).Nodup ∧ ∀ g ∈ s.grids, g.uid < s.fresh
  ops : (s.ops.map AOp.id).Nodup ∧ ∀ o ∈ s.ops, o.id < s.fresh

/-- The operation is one of the part's, and nothing holds it up. -/
structure State.Runs (s : State) (o : AOp) : Prop where
  here : s.op? o.id = some o
  names : s.NamesOk
  lists : s.ListsOk
  ready : s.opReady o = true

/-- Every operation of this name is complete, or counted out. -/
def State.over (t : State) (id : Nat) : Prop := ∀ p ∈ t.ops, p.id = id → p.done = true

/-- An engine reads elements in order, `n` bytes each; one without an address is zeros (R194, R196). -/
inductive State.EngReads (o : AOp) (w : Who) (n : Nat) : List Elem → State → State → List Byte → Prop where
  | none (s : State) : State.EngReads o w n [] s s []
  | fill {e : Elem} {es : List Elem} {s t : State} {bs : List Byte} (he : e.va = Option.none)
      (h : State.EngReads o w n es s t bs) : State.EngReads o w n (e :: es) s t (List.replicate n 0 ++ bs)
  | read {e : Elem} {es : List Elem} {va : DWord} {s t u : State} {b bs : List Byte} (he : e.va = some va)
      (hr : s.engRead o w va n = (t, .ok b)) (hb : b.length = n) (h : State.EngReads o w n es t u bs) :
      State.EngReads o w n (e :: es) s u (b ++ bs)

/-- An engine writes 16-byte units in order, from byte `pos` of its block on (R202). -/
inductive State.EngWrites (o : AOp) (w : Who) (h : Hint) (va : DWord) : Nat → List Byte → State → State → Prop where
  | none (pos : Nat) (s : State) : State.EngWrites o w h va pos [] s s
  | next {pos : Nat} {bs : List Byte} {s t u : State} (hl : 16 ≤ bs.length)
      (hw : s.engWrite o w h (va + BitVec.ofNat 64 pos) (bs.take 16) = (t, .ok []))
      (hs : State.EngWrites o w h va (pos + 16) (bs.drop 16) t u) : State.EngWrites o w h va pos bs s u

/-- The owed result `id` of a group has landed: in each of its lanes, word k of `ws` in the k-th register fixed at issue, a
vector name within the allotment (R41, R63). -/
def Group.Lands (g g' : Group) (id : Nat) (ws : Nat → Nat → Word) (n : Nat) : Prop :=
  (∀ r ∈ g'.owed, r.id = id → r.landed = true) ∧
  ∀ r, (g.owed.find? fun r => r.id == id) = some r → (r.lanes.map OwedLane.lane).Nodup →
    ∀ y ∈ r.lanes, y.ids.Nodup → y.lane < g.lanes.length → ∀ k < n, ∀ m, y.ids[k]? = some m → m < 1024 → m < g.allot →
      (g'.lane y.lane).name m = ws y.lane k

namespace Want

/-! ## Copies -/

/-- What a copy, a gather or a staging region delivers: its units, where byte j of what it reads lies at the destination, and
the scratchpad lines it has counted. -/
structure Delivery where
  unit : Nat
  elems : List Elem
  pos : Nat → Nat
  ok : Prop
  dst : CpyDst
  lines : Nat → List Nat

def delivery (o : AOp) : Option Delivery :=
  match o.kind with
  | .cpy lay c dst => some {
      unit := Lay.esz lay
      elems := Lay.elems lay c
      pos := swz (Lay.swzCode lay)
      ok := Lay.valid lay (c.headD 0) = true
      dst := dst
      lines := fun off => linesOf off (Lay.size lay) }
  | .gath lay rows dst =>
    let rr := Lay.box0 lay * Lay.esz lay
    some {
      unit := Lay.esz lay
      elems := (rows.map fun p => Lay.gathRow lay p.1 p.2).flatten
      pos := fun j => swz (Lay.swzCode lay) ((rows.getD (j / rr) (0, 0)).1 * rr + j % rr)
      ok := Lay.gathValid lay false = true ∧ (rows.map Prod.fst).Nodup ∧ ∀ off m, dst ≠ .mc off m
      dst := dst
      lines := fun off => Lay.gathLines lay off (rows.map Prod.fst) }
  | .stage _ va dst len => some {
      unit := 16
      elems := (List.range (len / 16)).map fun k => { o := 16 * k, va := some (va + BitVec.ofNat 64 (16 * k)) }
      pos := fun j => j
      ok := len % 16 = 0 ∧ o.books = []
      dst := .sp dst
      lines := fun off => linesOf off len }
  | _ => none

/-- A team that the delivery writes, at an offset (R197); a multicast leaves out those that have finished (R198). -/
def Delivery.receives (d : Delivery) (v : State) (o : AOp) (off : Nat) (y : Team) : Prop :=
  v.rankTeam o.sid y.rank = some y ∧
    match d.dst with
    | .sp a => a = off ∧ v.team? o.tid = some y
    | .mc a m => a = off ∧ y.rank < 4 ∧ m.getLsbD y.rank = true ∧ y.finished = false
    | .tile _ _ => False

/-- No barrier object that the operation is booked at holds the byte. -/
def unbooked (v : State) (o : AOp) (tid a : Nat) : Prop :=
  ∀ k ∈ o.books, ∀ p, v.bookPlace o.sid k = some p → p.tid = tid → a < p.off ∨ p.off + 16 ≤ a

/-- The test for phase completion (R242). -/
def phased (s : State) (p : BarPlace) (b : Bar) : Bar :=
  if b.arr = s.barExpected p b ∧ b.owed b.phase = 0 then { b with phase := (b.phase + 1) % 2 ^ 24, arr := 0 } else b

/-- An object after a delivery of `n` bytes in a phase still open (R199, R242). -/
def credited (s : State) (p : BarPlace) (b : Bar) (phase n : Nat) : Bar :=
  let less := fun (v : Int) => (BitVec.ofInt 32 (v - n)).toInt
  phased s p (if phase % 2 = 0 then { b with owe0 := less b.owe0 } else { b with owe1 := less b.owe1 })

/-! ## The matrix engine -/

/-- An accumulator after a depth of element pairs: integers exactly, modulo 2^32; floats chunk by chunk (R83, R84). -/
def mac (f : FmtWord) (a : Word) (ps : List (Nat × Nat)) : Word :=
  match f.a with
  | .int _ => BitVec.ofInt 32 ((a.toNat : Int) + (ps.map fun p => f.a.num p.1 * f.b.num p.2).sum)
  | .float _ =>
    let n := if f.bits = 4 then 64 else 32
    (List.range ((ps.length + n - 1) / n)).foldl (fun a k => addChunk f a ((ps.drop (n * k)).take n)) a

/-- Element pairs of accumulator (i, j) of an MMAT, where both tiles are named (R212, R222, R223). -/
def mmatPairs (bs : List Byte) (ts : List Bound) (f : FmtWord) (i j : Nat) : Option (List (Nat × Nat)) :=
  let name := fun (at' : Nat) => blk bs at' 2
  let tile := fun (n : Nat) => if n = 0xFFFF then none else ts.find? fun b => b.name == n
  match tile (name (2 * (i / 64))), tile (name (8 + 2 * (j / 64))) with
  | some a, some b => some ((List.range (mmatKv bs * 8 / f.bits)).map fun k =>
      (eltAt (bget a.bytes) f.asw f.bits (eltBit f.bits f.akm (i % 64) k),
        eltAt (bget b.bytes) f.bsw f.bits (eltBit f.bits f.bkm (j % 64) k)))
  | _, _ => none

/-- Element pairs of accumulator (l, n) of an MMAR: row l of A, column n of the half of a tile (R224, R225). -/
def mmarPairs (a : List Byte) (b : Bound) (f : FmtWord) (h1 : Bool) (l n : Nat) : List (Nat × Nat) :=
  (List.range (512 / f.bits)).map fun k =>
    (eltAt (fun i => a.getD (64 * l + i) 0) 0 f.bits (k * f.bits),
      eltAt (bget b.bytes) f.bsw f.bits (1024 * n + (if h1 then 512 else 0) + k * f.bits))

/-! ## Frozen lanes as a lamplighter reaches them (R310, R311) -/

/-- The item of a frozen lane that a selector names, and its value; none where the selector is reserved or the name holds
none. -/
def selected (s : State) (g : Group) (l : Nat) (sel : Word) : Option Word :=
  let i := sel.toNat % 4096
  let y := g.lane l
  let only := fun (w : Word) => if i = 0 then some w else none
  match sel.toNat / 4096 with
  | 0 => if i < 1024 ∧ i < g.allot then (y.names.find? fun p => p.1 == i).map Prod.snd else none
  | 1 => if i < 14 then some (g.scalar i l) else none
  | 2 => only (y.preds.setWidth 32)
  | 3 => only (y.preds.extractLsb' 32 32 ||| 0x80000000)
  | 4 => only (y.at.setWidth 32)
  | 5 => only (y.at.extractLsb' 32 32)
  | 6 => only (y.link.setWidth 32)
  | 7 => only (y.link.extractLsb' 32 32)
  | 8 => if i < 16 then (SReg.ofNum i).map fun r => BitVec.ofNat 32 (s.sreg g l r) else none
  | 9 => only (BitVec.ofNat 32 (y.guardCnt % 16 + if y.guardEn then 16 else 0))
  | _ => none

/-- What the item reads as after FZWR of `w`; none where FZWR writes nothing. -/
def rewritten (g : Group) (sel w : Word) : Option Word :=
  let i := sel.toNat % 4096
  let only := fun (w : Word) => if i = 0 then some w else none
  match sel.toNat / 4096 with
  | 0 => if i < 1024 ∧ i < g.allot then some w else none
  | 1 => if i < 14 then some w else none
  | 2 => only w
  | 3 => only (w ||| 0x80000000)
  | 4 => only (w &&& ~~~3)
  | 5 => only w
  | 6 => only w
  | 7 => only w
  | 8 => if i = 10 then some (w &&& 0x1F9F) else none
  | _ => none

/-- The lanes of `m` are live and frozen under a record. -/
def frozenUnder (g : Group) (rid : Nat) (m : Lanes) : Prop :=
  ∀ l, hasLane m l = true → l < 32 ∧ (g.lane l).exited = false ∧ (g.lane l).hold = .frozen rid

/-- A lane resumed at an address (R312). -/
def resumedAt (y : Lane) (pc : DWord) : Lane :=
  { y with hold := .free, wait := .none, replay := none, more := [], pc := pc &&& ~~~3, guardCnt := 0, guardEn := false }

/-- A lane resumed with a replay of the record's instruction, after which it continues at the PC it has, or, where it froze at
that instruction, after the instruction (R312). A replay that a late fault found pending comes next. That of a group-collective
instruction takes part with the lanes of the mask alone. -/
def replaying (y : Lane) (r : Record) (m : Lanes) : Lane :=
  let goes := y.pc ≠ r.pc ∨ (r.late = true ∧ y.replay ≠ none)
  { y with
    hold := .free
    wait := .none
    replay := some { pc := r.pc, words := r.words, cont := if goes then some y.pc else none, fetch := decide (r.words = [])
                     set := match r.words with
                       | [] => none
                       | w :: _ => if collectiveWord w.toNat then some (r.rid, m) else none }
    more := if r.late then y.replay.toList ++ y.more else y.more }

/-- Nothing of the part is on its way to a home. -/
def atRest (s : State) : Prop := ∀ g ∈ s.groups, ∀ a ∈ g.accs, ∀ q ∈ a.lanes, q.2.via = []

/-- No core of a partition has a translation, and no cluster a walk-cache entry, of a context for an address of
`[v, v + n)` (R170). -/
def untranslated (t : State) (part ctx v n : Nat) : Prop :=
  (∀ c ∈ t.coresOf part, ∀ e ∈ (t.core c).tlb, e.part = part → e.ctx = ctx → e.vbase + 2 ^ e.log2 ≤ v ∨ v + n ≤ e.vbase) ∧
  ∀ c ∈ t.clustersOf part, ∀ e ∈ (t.cluster c).walk, e.part = part → e.ctx = ctx →
    (e.index + 1) * 2 ^ (12 + 9 * e.level) ≤ v ∨ v + n ≤ e.index * 2 ^ (12 + 9 * e.level)

/-! ## Harts, grids, outside -/

/-- A value of `n` bytes in a 64-bit register of a hart, with its sign or zero-extended (R281). -/
def extended (sx : Bool) (bs : List Byte) : DWord :=
  if sx then BitVec.ofInt 64 (BitVec.ofNat (8 * bs.length) (leNat bs)).toInt else BitVec.ofNat 64 (leNat bs)

/-- The HBM bytes that a hart's physical address names (R271). -/
def hartKey (s : State) (a n k : Nat) : Prop :=
  a / 2 ^ 48 < s.partCount ∧ a % 2 ^ 48 + n ≤ s.hbmSize (a / 2 ^ 48) ∧ k = a / 2 ^ 48 * 2 ^ 56 + a % 2 ^ 48 ∧ 0 < n

/-- Bytes of memory as a number. -/
def memNat (s : State) (k n : Nat) : Nat := leNat ((keys k n).map s.mem.get)

/-- STATUS of a completion record (R241). -/
def complStatus (g : Grid) : Nat :=
  (match g.st with
    | .failed c => 65536 * c + 1
    | .queued => 0) +
  (if g.bcdisc then 4 else 0) + (if g.engflt then 8 else 0) + (if g.mcdisc then 16 else 0) + if g.collabs then 32 else 0

/-- Where a journal copy of the grid lies (R381). -/
def journalAt (s : State) (g : Grid) (j : DWord) : Option Nat :=
  s.keyOf g.part (s.stackByte g.part (j.toNat / 2 ^ 60 % (2 * s.dieCount)) (j.toNat % 2 ^ 40 + 0x10000 * g.queue + 256 * (g.seq % 256)))

/-- The grid's journal entry stands in `t` with a state, in the second copy, and in the first where it lies apart (R381, R382). -/
def journalled (s t : State) (g : Grid) (st : Nat) : Prop :=
  let entry (k : Nat) := memNat t k 8 = g.seq % 2 ^ 64 ∧ memNat t (k + 8) 4 = st
  ∀ k1, journalAt s g (s.part g.part).jrn1 = some k1 → entry k1 ∧
    ∀ k0, journalAt s g (s.part g.part).jrn0 = some k0 → (k0 + 256 ≤ k1 ∨ k1 + 256 ≤ k0) → entry k0

/-- A context has ended by a double fault (R308, R309): its accepted grids are reported failed, its spans are gone, its
queues closed, its launches discarded. -/
structure contextEnds (s t : State) (part ctx : Nat) : Prop where
  grids : ∀ g, s.grid? g.uid = some g → g.part = part → g.ctx = ctx → g.st = .queued → s.gridIdle g = false →
    ∃ y, t.grid? g.uid = some y ∧ y.st = .failed 0x0403 ∧ y.issued = true
  spans : ∀ x ∈ t.spans, ∀ g, s.grid? x.uid = some g → ¬ (g.part = part ∧ g.ctx = ctx)
  queues : ∀ q, ((s.part part).qown.getD q 0).toNat % 65536 = ctx → ((t.part part).qown.getD q 0).getLsbD 16 = false
  launches : ∀ l ∈ (t.part part).launches, l.ctx ≠ ctx
  ended : ∀ c ∈ (t.part part).ctxs, c.ctx = ctx → c.ended = true

/-- CODE of a core's second-level record, as the core reads it (R307). -/
def secondCode (s : State) (core : Nat) : Nat := leNat (s.physRead (s.partOfCore core) (s.fqArea core + 0x11000) 2).2

/-- The message has been sent since `s`. -/
def sends (s t : State) (m : Msg) : Prop := ∃ ms, t.out = s.out ++ ms ∧ m ∈ ms

/-- The report has been made since `s`. -/
def reported (s t : State) (r : Report) : Prop := ∃ rs, t.aer = s.aer ++ rs ∧ r ∈ rs

end Want

end Sys2Proof.Machine
end

