-- ==== Sys2Proof/WellFormed.lean ====
section
/-!
DEFINITION. Which terms of `Instr` stand for words that the spec calls an instruction (R46, R61, R62, R66 to R68, R174,
R327): the field values are legal and there is at most one literal, where a literal may stand.
-/
namespace Sys2Proof

/-- An Izide instruction form with legal fields. -/
def Instr.wellFormed (i : Instr) : Bool := i.enc.isSome && i.fieldsLegal && i.literalOk

end Sys2Proof
end

