-- ==== Sys2Proof/Certificates/Slice0/Obligations.lean ====
section
/-!
DEFINITION. The statements about the model, one Prop each: what the rules say the machine and its instructions do. Tables
of what the rules say a lane is left with stand in Sys2Proof/Safety.
-/

open Sys2Proof Sys2Proof.Machine

/-! ## Instructions on registers -/

/-- R92 to R97: IALU and its carry chain, BITS bit by bit, ALU64 on aligned pairs: each of these instructions completes, and
leaves its lanes' registers and predicates as the rule says, and all else as it was. -/
def Obligations.IntegerResults : Prop :=
  ∀ (s : State) (x : Issue),
    (∀ o : R3, ∀ i ∈ [Instr.iadd o, .isub o, .imul o, .imulhs o, .imulhn o, .imad o, .imin o, .imax o, .nmin o, .nmax o,
        .iabsd o, .iaddc o, .isubb o],
      x.Begins s i → x.agree (Want.integer x · i) → x.Completes s i (Want.integer x · i)) ∧
    (∀ o : R3, ∀ i ∈ [Instr.and o, .or o, .xor o, .andn o, .orn o, .shl o, .shr o, .sar o, .rotl o, .prmt o, .bfx o, .bfi o],
      x.Begins s i → x.agree (Want.bitwise x · i) → x.Completes s i (Want.bitwise x · i)) ∧
    (∀ o : R2, ∀ i ∈ [Instr.popc o, .clz o, .brev o],
      x.Begins s i → x.agree (Want.bitwise x · i) → x.Completes s i (Want.bitwise x · i)) ∧
    (∀ o : R3, ∀ i ∈ [Instr.add64 o, .sub64 o, .mad64 o, .shl64 o, .shr64 o, .sar64 o],
      x.Begins s i → x.agree (Want.wide x · i) → x.Completes s i (Want.wide x · i)) ∧
    ∀ o : R2, x.Begins s (.mov64 o) → x.agree (Want.wide x · (.mov64 o)) → x.Completes s (.mov64 o) (Want.wide x · (.mov64 o))

/-- R98 to R100: MOV, MOVS, P2V, LIT and the immediate forms complete with the values of their rules. -/
def Obligations.MoveResults : Prop :=
  ∀ (s : State) (x : Issue),
    (∀ o : R2, ∀ i ∈ [Instr.mov o, .movs o, .lit o],
      x.Begins s i → x.agree (Want.move x · i) → x.Completes s i (Want.move x · i)) ∧
    (∀ o : P2vOps, x.Begins s (.p2v o) → x.agree (Want.move x · (.p2v o)) → x.Completes s (.p2v o) (Want.move x · (.p2v o))) ∧
    (∀ o : RI, ∀ i ∈ [Instr.iaddi o, .andi o, .ori o, .xori o],
      x.Begins s i → x.agree (Want.immediate x · i) → x.Completes s i (Want.immediate x · i)) ∧
    ∀ o : RSh, ∀ i ∈ [Instr.shli o, .shri o, .sari o, .rotli o],
      x.Begins s i → x.agree (Want.immediate x · i) → x.Completes s i (Want.immediate x · i)

/-- R101, R104, R105: ICMP, the predicate logic PLOG and the votes over the lanes taking part complete with the values of their
rules. -/
def Obligations.PredicateResults : Prop :=
  ∀ (s : State) (x : Issue),
    let holds (i : Instr) := x.Begins s i → x.agree (Want.predicate x · i) → x.Completes s i (Want.predicate x · i)
    (∀ o : IcmpOps, holds (.icmp o)) ∧
    (∀ o : PlogOps, holds (.plogAnd o) ∧ holds (.plogOr o) ∧ holds (.plogXor o) ∧ holds (.plogNand o) ∧ holds (.plogNor o) ∧
      holds (.plogXnor o)) ∧
    (∀ o : VotePOps, holds (.voteAny o) ∧ holds (.voteAll o)) ∧ (∀ o : VoteROps, holds (.voteBallot o) ∧ holds (.votePcount o)) ∧
    ∀ o : VoteVOps, holds (.voteV2p o)

/-- R102, R119 to R121, R125 to R127: floating-point arithmetic and comparison, packed pairs, conversions, packing and dot
products complete with the results of their rules and the flags raised, where no flag raised has its trap enabled. -/
def Obligations.FloatResults : Prop :=
  ∀ (s : State) (x : Issue),
    let floats (i : Instr) := x.Begins s i → x.agree (Want.floating x · i) → x.untrapped (Want.floating x · i) →
      x.Completes s i (Want.floating x · i)
    let converts (i : Instr) := x.Begins s i → x.agree (Want.conversion x · i) → x.untrapped (Want.conversion x · i) →
      x.Completes s i (Want.conversion x · i)
    (∀ o : R3, ∀ i ∈ [Instr.fadd o, .fsub o, .fmul o, .ffma o, .fmin o, .fmax o, .fminn o, .fmaxn o], floats i) ∧
    (∀ o : R2, floats (.fabs o) ∧ floats (.fneg o)) ∧ (∀ o : FrndOps, floats (.frnd o)) ∧ (∀ o : FcmpOps, floats (.fcmp o)) ∧
    (∀ o : HpairOps, ∀ i ∈ [Instr.add2 o, .mul2 o, .fma2 o, .min2 o, .max2 o], floats i) ∧
    (∀ o : CvtOps, converts (.cvt o)) ∧ (∀ o : PackOps, converts (.pack o) ∧ converts (.unpack o)) ∧
    ∀ o : R3, ∀ i ∈ [Instr.dot4F8a o, .dot4F8b o, .dot8F4 o, .dot4I8 o, .dot4N8 o, .dot8I4 o, .dot8N4 o], converts i

/-- R122: the special-function unit, FRCP, FRSQ, FSQRT, FEXP2, FLOG2, FSIN, FCOS and FTANH, in format L (a scalar destination
needs equal operands, R324) (the model's choices here: log entry 8). -/
def Obligations.SfuResults : Prop :=
  ∀ (s : State) (x : Issue) (o : SfuOps),
    ∀ i ∈ [Instr.frcp o, .frsq o, .fsqrt o, .fexp2 o, .flog2 o, .fsin o, .fcos o, .ftanh o],
      x.Begins s i → x.operandsDiffer i = false → x.untrapped (Want.special x · i) → x.Completes s i (Want.special x · i)

/-- R128: SHFL, from lanes taking part alone (the model's choice here: log entry 47). -/
def Obligations.ShuffleResults : Prop :=
  ∀ (s : State) (x : Issue) (o : R3), ∀ i ∈ [Instr.shflIdx o, .shflUp o, .shflDown o, .shflXor o, .shflBcast o],
    x.Begins s i → x.agree (Want.exchange x · i) → x.Completes s i (Want.exchange x · i)

/-- R129: GRED reduces and scans over the lanes taking part (the model's choice here: log entry 47). -/
def Obligations.ReductionResults : Prop :=
  ∀ (s : State) (x : Issue) (o : GredOps), ∀ i ∈ [Instr.gredReduce o, .gredIncl o, .gredExcl o],
    x.Begins s i → x.operandsDiffer i = false → x.Completes s i (Want.reduction x · i)

/-! ## Control -/

/-- R98, R106, R107, R109, R111, R115: NOP, RET, GUARD, BR, CALL, JMPI, CALLI and WBASE complete where every jump goes to a
multiple of 4 and every window base is a multiple of 16 up to 912. -/
def Obligations.ControlResults : Prop :=
  ∀ (s : State) (x : Issue),
    let holds (i : Instr) := x.Begins s i → (∀ l ∈ x.ts, Want.misplaced x l i = none) → x.Completes s i (Want.control x · i)
    (∀ m : SafeMask, holds (.nop m) ∧ holds (.ret m)) ∧ (∀ o : GuardOps, holds (.guard o)) ∧
    (∀ o : BrOps, holds (.br o) ∧ holds (.call o)) ∧ ∀ o : R1, holds (.jmpi o) ∧ holds (.calli o) ∧ holds (.wbase o)

/-- R16, R18, R47 to R49, R51: MFS reads the register into D or an aligned pair, MTS writes LINK per lane, and STAT or a capability
register with the lowest lane's value; STAT only when no result that may set a flag is owed. A group's team coordinates, span
place, role and grid handle are those of its team, span and grid, a lamplighter's those it was started with; CLOCK counts the
arithmetic clocks since the partition's reset (the model's choices here: log entry 6). -/
def Obligations.StateRegisters : Prop :=
  (∀ (s : State) (o : MfsOps) (x : Issue) (out : Nat → LaneOut), x.Begins s (.mfs o) →
    (o.sr = .stat → s.flagsOwed s.cur = false) →
    (∀ l ∈ x.ts, (if Want.wideReg o.sr then Want.two o.d (BitVec.ofNat 64 (s.sreg x.g l o.sr))
      else Want.one o.d (BitVec.ofNat 32 (s.sreg x.g l o.sr))) = out l) →
    (∀ l ∈ x.ts, ∀ v, Want.stateReg x l o.sr = some v → s.sreg x.g l o.sr = v) ∧
      (x.agree out → x.Completes s (.mfs o) out)) ∧
  (∀ (s : State) (g : Group) (tm : Team) (y : Span) (gr : Grid) (l : Nat), g.served = none → s.team? g.tid = some tm →
    s.span? tm.sid = some y → s.grid? y.uid = some gr →
    let field (off n : Nat) := leNat ((gr.rcd.drop off).take n)
    let gx := field 0x10 4
    let gy := field 0x14 2
    (0 < gx → 0 < gy → s.sreg g l .teamx < gx ∧ s.sreg g l .teamy < gy ∧
      s.sreg g l .teamx + gx * s.sreg g l .teamy + gx * gy * s.sreg g l .teamz = tm.t) ∧
    s.sreg g l .spanrk = 256 * y.count + tm.rank ∧ s.sreg g l .gridh = gr.gridh.toNat ∧
    (g.kind = .ordinary → s.sreg g l .roleix = if g.producer then g.grpix else 256 + (g.grpix - field 0x18 4 % 64))) ∧
  (∀ (s : State) (g : Group) (v : Served) (l : Nat), g.served = some v → s.sreg g l .teamx = v.x ∧ s.sreg g l .teamy = v.y ∧
    s.sreg g l .teamz = v.z ∧ s.sreg g l .spanrk = v.spanrk ∧ s.sreg g l .gridh = v.gridh.toNat ∧
    (g.kind ≠ .ordinary → s.sreg g l .roleix = 0)) ∧
  (∀ (s : State) (g : Group) (l : Nat), (s.part g.part).beat0 ≤ s.beat → s.sreg g l .clock =
    ((List.range (s.beat - (s.part g.part).beat0)).map fun n => Config.elapsed ((s.part g.part).beat0 + n)).sum) ∧
  ∀ (s : State) (o : MtsOps) (x : Issue), x.Begins s (.mts o) → (o.sr = .stat → s.flagsOwed s.cur = false) →
    ∃ g, exec (.mts o) s = .next { s.setGroup g with fresh := s.fresh + 1 } ∧
      { x with g := Want.mts x o }.Done g fun l => if o.sr = SReg.link then { link := some (x.g.src64 l o.a) } else {}

/-- R20, R24, R111, R112: YIELD parks the lanes taking part, at the instruction, and with no other eligible lane they go on at
once; EXIT makes them exited, and a group with no live lane left is gone. -/
def Obligations.LanesYieldAndExit : Prop :=
  (∀ (s : State) (m : SafeMask) (x : Issue), x.Begins s (.yield m) → x.ts ≠ [] →
     if ∀ l ∈ x.g.eligibleLanes, l ∈ x.ts then x.CompletesIn s (.yield m) (s.setGroup x.g) fun _ => {}
     else ∃ t g, exec (.yield m) s = .next t ∧ t.group? x.g.gid = some g ∧
       t = { s.setGroup g with fresh := t.fresh } ∧
       (∀ l ∈ x.ts, g.lane l = { x.g.lane l with wait := .yield false x.next }) ∧
       ∀ l ∈ x.es, l ∉ x.ts → (x.g.lane l).replay.bind Replay.cont = none → (g.lane l).pc = x.next) ∧
  ∀ (s : State) (m : SafeMask) (x : Issue), x.Begins s (.exit m) →
    ∃ t, exec (.exit m) s = .next t ∧
      if ∀ l ∈ x.g.liveLanes, l ∈ x.ts then t.group? x.g.gid = none
      else ∃ g, t.group? x.g.gid = some g ∧ (∀ l ∈ x.ts, (g.lane l).exited = true) ∧
        ∀ l, l ∉ x.ts → (g.lane l).exited = (x.g.lane l).exited ∧ (g.lane l).names = (x.g.lane l).names

/-- R113, R138, R260: GENBUMP advances the RDC generation of every die of the partition. Every FENCE completes: a release at cluster
scope leaves no dirty byte in the core's L1, at device scope none in its cluster cache either; an acquire at device scope leaves no
L1 byte whose copy a home has invalidated; no byte's newest value changes, a byte that no cache held dirty stays as it is at its
home, and registers, teams, spans and granules keep their state (the model's choices here: log entries 18 and 38). -/
def Obligations.FencesAct : Prop :=
  (∀ (s : State) (m : SafeMask) (x : Issue), x.Begins s (.genbump m) → x.ts ≠ [] →
     ∃ t ds, exec (.genbump m) s = .next t ∧ x.Ends { s.setGroup x.g with dies := ds } t (fun _ => {}) ∧
       ds.length = s.dies.length ∧ ∀ d < s.dies.length, ds.getD d {} =
         if x.g.part * s.dieCount ≤ d ∧ d < x.g.part * s.dieCount + s.dieCount then { s.die d with gen := (s.die d).gen + 1 }
         else s.die d) ∧
  ∀ (s : State) (o : FenceOps) (x : Issue) (rel acq : Bool) (i : Instr),
    (i = .fenceRel o ∧ rel = true ∧ acq = false ∨ i = .fenceAcq o ∧ rel = false ∧ acq = true ∨
      i = .fenceAcqRel o ∧ rel = true ∧ acq = true ∨ i = .fenceFull o ∧ rel = true ∧ acq = true) →
    s.Coherent → s.memOk → x.Begins s i → x.ts ≠ [] →
    ∃ t u, exec i s = .next t ∧ x.Ends u t (fun _ => {}) ∧
      u = { s.setGroup x.g with
        cores := u.cores, clusters := u.clusters, mem := u.mem, l2dirty := u.l2dirty, behind := u.behind, parts := u.parts
        monitors := u.monitors, grids := u.grids, harts := u.harts, migs := u.migs, poison := u.poison } ∧
      (∀ p, u.part p = { s.part p with hlines := (u.part p).hlines }) ∧ (∀ k, u.value k = s.value k) ∧
      (acq = true → (o.scope = .device ∨ o.scope = .system) → ∀ b ∈ (u.core x.g.core).l1, b.stale = false) ∧
      (rel = true → (o.scope = .device ∨ o.scope = .system) → ∀ k, u.dirtyIn (clusterOf x.g.core) k = false) ∧
      (rel = true → o.scope ≠ .core → ∀ k, u.l1Dirty x.g.core k = false) ∧
      (o.scope = .core → u = s.setGroup x.g) ∧
      ∀ k, s.dirtyAny k = false → u.mem.get k = s.mem.get k

/-- R42, R116, R117: GROW grants or refuses the lowest lane's request, and writes 1 or 0 in every lane taking part; SHRINK to
a multiple of 16 below the allotment releases the names from q up, which read 0 from then on, once no result with a
destination among them is unlanded, that of a WAITV among them, for which it parks; it does nothing at or above the allotment
(the model's choices here: log entry 14). -/
def Obligations.AllotmentChanges : Prop :=
  (∀ (s : State) (o : R2) (x : Issue), x.Begins s (.grow o) → x.ts ≠ [] →
    let q := (x.g.src (x.ts.headD 0) o.a).toNat
    let ok := Want.grants (s.setGroup x.g) x.g q
    x.CompletesIn s (.grow o)
      (if ok && decide (x.g.allot < q) then s.setGroup { x.g with allot := q } else s.setGroup x.g)
      fun _ => { d := [(o.d, if ok then 1 else 0)] }) ∧
  ∀ (s : State) (o : R1) (x : Issue), x.Begins s (.shrink o) → x.ts ≠ [] →
    let q := (x.g.src (x.ts.headD 0) o.a).toNat
    let released (n : Nat) := q ≤ n ∧ n < 1024
    (x.g.allot ≤ q → x.CompletesIn s (.shrink o) (s.setGroup x.g) fun _ => {}) ∧
    (16 ≤ q → q % 16 = 0 → q < x.g.allot →
      (∀ r ∈ x.g.owed, r.landed = false → ∀ y ∈ r.lanes, ∀ n ∈ y.ids, ¬ released n) →
      ((∀ m ∈ s.monitors, m.gid = x.g.gid → ∀ n ∈ m.dst, ¬ released n) →
        ∃ g, g.allot = q ∧ g = { x.g with allot := q, lanes := g.lanes } ∧
          (∀ l n, (g.lane l).name n = if n < q then (x.g.lane l).name n else 0) ∧
          (∀ l, g.lane l = { x.g.lane l with names := (g.lane l).names }) ∧
          x.CompletesIn s (.shrink o) (s.setGroup g) fun _ => {}) ∧
      ((∃ m ∈ s.monitors, m.gid = x.g.gid ∧ ∃ n ∈ m.dst, released n) →
        ∃ (t : State) (g : Group) (id : Nat), exec (.shrink o) s = .next t ∧ t.group? x.g.gid = some { g with park := .monitor id } ∧
          g.allot = x.g.allot ∧ ∀ l, g.lane l = x.g.lane l))

/-! ## Faults taken by lanes -/

/-- R111, R115, R293, R295, R316, R326: BRK and TRAP freeze the lanes taking part, early, at the instruction; a jump off its
alignment and a bad window base freeze the lanes that meet them, and the other lanes taking part complete. -/
def Obligations.TrapsFreeze : Prop :=
  (∀ (s : State) (o : CodeOps) (x : Issue) (i : Instr) (c : Nat),
    (i = .brk o ∧ c = 0x010A ∨ i = .trap o ∧ c = 0x010B) → x.Begins s i → x.ts ≠ [] → Records s x.g →
    ∃ t, exec i s = .next t ∧
      Took t x.g { code := c, detail := o.code.setWidth 64 } (maskOf x.ts.contains) false false x.ia (encode i)) ∧
  ∀ (s : State) (i : Instr) (x : Issue) (f : Flt), x.Begins s i → Records s x.g →
    let bad := x.ts.filter fun l => (Want.misplaced x l i).isSome
    bad.head?.bind (Want.misplaced x · i) = some f →
    ∃ t, exec i s = .next t ∧ Took t x.g f (maskOf bad.contains) false false x.ia (encode i) ∧
      ∀ l ∈ x.ts, l ∉ bad → (x.g.lane l).replay.bind Replay.cont = none →
        let out := Want.control x l i
        ∃ g, t.group? x.g.gid = some g ∧ (g.lane l).pc = out.jump.getD x.next ∧
          (g.lane l).link = out.link.getD (x.g.lane l).link ∧ (g.lane l).wbase = out.wbase.getD (x.g.lane l).wbase

/-- R318 to R321, R325: words that are no instruction, a form barred to the group, and a control instruction under a guard
freeze every lane that stands at them, early, with the code of their misuse
(the model's choices here: log entry 12). -/
def Obligations.MisuseFreezes : Prop :=
  ∀ (s : State) (i : Instr) (g : Group) (x : Issue), s.group? s.cur = some g → issueOf g i = some x → Records s g →
    (∀ w0 w1 w2 w3 c, i = .illegalEncoding w0 w1 w2 w3 → wordCode g.kind w0 w1 w2 w3 = some c →
      ∃ t, exec i s = .next t ∧ (c = 0x0101 ∨ c = 0x0102 ∨ c = 0x0104) ∧
        Took t g { code := c } (maskOf x.es.contains) false false x.ia x.words) ∧
    (instrBarred g.kind i = true →
      ∃ t, exec i s = .next t ∧ Took t g { code := 0x0102 } (maskOf x.es.contains) false false x.ia (encode i)) ∧
    (instrBarred g.kind i = false → instrControl i = true → (∃ l ∈ x.es, (g.lane l).guardCnt ≠ 0) →
      ∃ t, exec i s = .next t ∧ Took t g { code := 0x0109 } (maskOf x.es.contains) false false x.ia (encode i))

/-- R295, R296, R315, R322: an address that cannot be fetched freezes the lanes that stand there, with no words in the record; a
flag raised while its trap is enabled, by arithmetic on one or two elements, a conversion, a dot product or a special function, which are the
classes of R82 that raise one at issue, freezes its lane late, with the result written; a register name beyond the allotment, read or written, freezes the lanes
that meet it early, and the record gives the lowest such name of the lowest of them, while the others complete; that of a single
operation freezes every lane taking part (the model's choices here: log entry 13). -/
def Obligations.LaneFaultsFreeze : Prop :=
  (∀ (s u : State) (gid : Nat) (pc : DWord) (g : Group) (x : Issue) (f : Flt), s.group? gid = some g →
     g.issueAddr = some pc → issueOf g (.fetchFault gid pc) = some x → s.fetchAt g pc = (u, .flt f) → Records s g →
     ∃ t, exec (.fetchFault gid pc) s = .next t ∧ Took t g f (maskOf x.es.contains) false false pc []) ∧
  (∀ (s : State) (x : Issue), Records s x.g →
     let traps (i : Instr) (out : Nat → LaneOut) := x.Begins s i → ∀ k,
       (x.ts.filter fun l => trapped x.g.stat (out l).flags != 0).head? = some k →
       ∃ t g, exec i s = .next t ∧ x.Done g out ∧
         Took t g { code := 0x010E, detail := (trapped x.g.stat (out k).flags).setWidth 64 }
           (maskOf fun l => x.ts.contains l && trapped x.g.stat (out l).flags != 0) true false x.ia (encode i)
     let floats (i : Instr) := x.agree (Want.floating x · i) → traps i (Want.floating x · i)
     let converts (i : Instr) := x.agree (Want.conversion x · i) → traps i (Want.conversion x · i)
     (∀ o : R3, ∀ i ∈ [Instr.fadd o, .fsub o, .fmul o, .ffma o], floats i) ∧
     (∀ o, floats (.frnd o)) ∧ (∀ o, ∀ i ∈ [Instr.add2 o, .mul2 o, .fma2 o], floats i) ∧
     (∀ o, converts (.cvt o)) ∧ (∀ o : R3, ∀ i ∈ [Instr.dot4F8a o, .dot4F8b o, .dot8F4 o], converts i) ∧
     ∀ o, ∀ i ∈ [Instr.frcp o, .frsq o, .fsqrt o, .fexp2 o, .flog2 o, .fsin o, .fcos o, .ftanh o],
       x.operandsDiffer i = false → traps i (Want.special x · i)) ∧
  (∀ (s : State) (x : Issue), Records s x.g →
     let beyond (i : Instr) (rs : List (Reg × Nat)) (out : Nat → LaneOut) :=
       s.begin i = .go x → x.agree out → x.untrapped out →
       (∀ l ∈ x.ts, x.lookFault (instrUses x.g.latch.isSome i) l = none) →
       let bad := x.ts.filter fun l => (Want.beyond x l rs).isSome
       ∀ n, bad.head?.bind (Want.beyond x · rs) = some n →
       ∃ t g, exec i s = .next t ∧ t.group? x.g.gid = some g ∧
         Took t x.g { code := 0x0103, detail := BitVec.ofNat 64 n } (maskOf bad.contains) false false x.ia (encode i) ∧
         ∀ l ∈ x.ts, l ∉ bad → ((x.g.lane l).replay.bind Replay.cont = none → (g.lane l).pc = x.next) ∧
           ∀ k w, (Reg.v k, w) ∈ (out l).d → (g.lane l).name ((x.g.lane l).abs k.val) = w
     let three (o : R3) (n : Nat) := (o.d, n) :: (Want.source o.a n ++ Want.source o.b n)
     let two (o : R2) (n : Nat) := (o.d, n) :: Want.source o.a n
     (∀ o : R3, ∀ i ∈ [Instr.iadd o, .isub o, .imul o, .imulhs o, .imulhn o, .imad o, .imin o, .imax o, .nmin o, .nmax o,
         .iabsd o, .iaddc o, .isubb o], beyond i (three o 1) (Want.integer x · i)) ∧
     (∀ o : R3, ∀ i ∈ [Instr.and o, .or o, .xor o, .andn o, .orn o, .shl o, .shr o, .sar o, .rotl o, .prmt o, .bfx o, .bfi o],
       beyond i (three o 1) (Want.bitwise x · i)) ∧
     (∀ o : R2, ∀ i ∈ [Instr.popc o, .clz o, .brev o], beyond i (two o 1) (Want.bitwise x · i)) ∧
     (∀ o : R3, ∀ i ∈ [Instr.add64 o, .sub64 o, .mad64 o], beyond i (three o 2) (Want.wide x · i)) ∧
     (∀ o : R2, beyond (.mov64 o) (two o 2) (Want.wide x · (.mov64 o)) ∧ beyond (.mov o) (two o 1) (Want.move x · (.mov o))) ∧
     (∀ o : R3, ∀ i ∈ [Instr.fadd o, .fsub o, .fmul o, .ffma o, .fmin o, .fmax o, .fminn o, .fmaxn o],
       beyond i (three o 1) (Want.floating x · i)) ∧
     ∀ o : R3, ∀ i ∈ [Instr.dot4F8a o, .dot4F8b o, .dot8F4 o, .dot4I8 o, .dot4N8 o, .dot8I4 o, .dot8N4 o],
       beyond i (three o 1) (Want.conversion x · i)) ∧
  (∀ (s : State) (i : Instr) (x : Issue) (o : R3), s.begin i = .go x →
    (i = .iadd o ∨ i = .imad o ∨ i = .fadd o ∨ i = .prmt o ∨ i = .add64 o) → x.ts ≠ [] → Records s x.g →
    (∀ l ∈ x.ts, ∃ n, o.d = .v n ∧ x.g.allot ≤ (x.g.lane l).wbase.toNat + n.val ∧ (x.g.lane l).wbase.toNat + n.val < 1024) →
    ∃ t f, exec i s = .next t ∧ f.code = 0x0103 ∧ x.g.allot ≤ f.detail.toNat ∧ f.detail.toNat < 1024 ∧
      Took t x.g f (maskOf x.ts.contains) false false x.ia (encode i)) ∧
  ∀ (s : State) (x : Issue) (o : TreadRegOps) (n : Nat), s.begin (.treadReg o) = .go x → x.ts ≠ [] → Records s x.g →
    Want.beyond x x.lead ((Reg.ofNum o.run.val, 64) :: Want.source o.a 1) = some n →
    ∃ t, exec (.treadReg o) s = .next t ∧ t.ops = s.ops ∧ Took t x.g { code := 0x0103, detail := BitVec.ofNat 64 n }
      (maskOf x.ts.contains) false false x.ia (encode (.treadReg o))

/-! ## Memory -/

/-- R162, R173 to R188: LD, LD.nr, ST, ATOM, ATOMC, RED, PRF, FLUSH, INV, PGREQ, PRES, TAGST, TAGLD, GQRY, GHOLD, GREL and
WAITV complete where their lanes' accesses, which nothing earlier holds back (R8, R179), all do, performed in ascending order;
and each of them but WAITV does with one lane, aligned and canonical, and an installed translation that permits the access to
HBM (the model's choices here: log entries 18, 20 and 27). -/
def Obligations.MemoryCompletes : Prop :=
  (∀ (s u : State) (i : Instr) (f : MemForm) (x : Issue) (out : Nat → LaneOut), x.Begins s i → instrMem i = some f →
     (∀ l ∈ x.ts, memAlign i f x l = none ∧ s.memForm i f x l = none) → x.operandsDiffer i = false → x.agree out →
     (s.setGroup x.g).memWaits f x x.ts = none → x.Performs i f x.ts (s.setGroup x.g) u out → x.CompletesAsking s i u out) ∧
  ∀ (s : State) (i : Instr) (f : MemForm) (x : Issue) (l k : Nat) (e : TlbEntry), x.Begins s i → instrMem i = some f →
    ((∃ o, i = .ld o) ∨ (∃ o, i = .ldNr o) ∨ (∃ o, i = .st o) ∨ (∃ o, i = .atom o) ∨ (∃ o, i = .atomc o) ∨ (∃ o, i = .red o) ∨
      (∃ o, i = .prf o) ∨ (∃ o, i = .flush o) ∨ (∃ o, i = .inv o) ∨ (∃ o, i = .pgreq o) ∨ (∃ o, i = .pres o) ∨
      (∃ o, i = .tagst o) ∨ (∃ o, i = .tagld o) ∨ (∃ o, i = .gqry o) ∨ (∃ o, i = .ghold o) ∨ ∃ o, i = .grel o) →
    x.ts = [l] → (x.acc i f l).lies f.n f.n → (x.acc i f l).Hits s (Want.need i) k e →
    (s.setGroup x.g).memWaits f x x.ts = none → (Want.checked i = true → (x.acc i f l).Clean s k f.n) →
    (∀ o, i = .tagld o → s.foundBad (k / 32 * 32) 32 = false) →
    (∀ o, i = .flush o ∨ i = .inv o → ((x.acc i f l).a.data.headD 0).toNat ≤ 4096 - (x.acc i f l).a.va.toNat % 4096) →
    ∃ u ws ps, (s.setGroup x.g).perform i (x.acc i f l) = (u, .done ws ps) ∧
      x.CompletesAsking s i u fun _ => outMem i ws ps

/-- R137, R138, R176 to R178: what LD and LD.nr find for each ORD, SCOPE and HINT, extended to the register; no byte's newest
value changes
(the model's choices here: log entries 18 and 38). -/
def Obligations.LoadsRead : Prop :=
  ∀ (s : State) (x : Acc) (k : Nat) (e : TlbEntry), s.Coherent → s.memOk →
    (∀ o : LdOps, x.Hits s needR k e → x.Clean s k o.w.bytes →
      ∃ t, s.perform (.ld o) x = (t, .done (Want.filled o.w (Want.loaded s x.core k o.w.bytes o.ord o.scope o.hint)) false) ∧
        ∀ a, t.value a = s.value a) ∧
    (∀ o : LdnrOps, x.Hits s needR k e → x.Clean s k o.w.bytes →
      ∃ t, s.perform (.ldNr o) x = (t, .done (Want.filled o.w (Want.loaded s x.core k o.w.bytes .weak .core o.hint)) false) ∧
        ∀ a, t.value a = s.value a)

/-- R138, R176, R177: after ST the bytes stored are the newest and no other byte's newest value has changed; they lie at their
homes, in the cluster's cache or dirty in the L1, as ORD, SCOPE and HINT say
(the model's choices here: log entries 18 and 20). -/
def Obligations.StoresWrite : Prop :=
  ∀ (s : State) (o : StOps) (x : Acc) (k : Nat) (e : TlbEntry), s.Coherent → s.memOk → x.Hits s needW k e →
    x.Clean s k o.w.bytes →
    ∃ t, s.perform (.st o) x = (t, .done [] false) ∧
      (∀ a, t.value a = if k ≤ a ∧ a < k + o.w.bytes then Want.stored x.a.data (a - k) else s.value a) ∧
      ∀ j < o.w.bytes,
        let wide := o.scope = .device ∨ o.scope = .system
        (o.ord = .bypass ∨ o.hint = .noalloc ∨ (o.ord ≠ .weak ∧ wide) →
          t.mem.get (k + j) = Want.stored x.a.data j) ∧
        (o.hint ≠ .noalloc ∧ (o.ord = .sync ∨ o.ord = .relaxed) ∧ o.scope = .cluster →
          (ccGet (t.cluster (clusterOf x.core)) (k + j)).bind CcByte.val = some (Want.stored x.a.data j)) ∧
        (o.hint ≠ .noalloc ∧ (o.ord = .weak ∨ (o.ord = .sync ∨ o.ord = .relaxed) ∧ o.scope = .core) →
          ∃ b, l1Get (t.core x.core) (k + j) = some b ∧ b.val = Want.stored x.a.data j ∧ b.dirty = true ∧ b.stale = false)

/-- R181 to R183: ATOM, ATOMC and RED on aligned bytes read the old value where they are performed, and leave the new one as
the newest; no other byte's newest value changes
(the model's choices here: log entries 18, 20 and 47). -/
def Obligations.AtomicsApply : Prop :=
  ∀ (s : State) (i : Instr) (x : Acc) (k n : Nat) (sc : Scope) (new : BitVec (8 * n) → BitVec (8 * n)) (e : TlbEntry),
    ((∃ o : AtomOps, i = .atom o ∧ o.w.bytes = n ∧ o.scope = sc ∧
        new = fun old => Want.atomic o.op (8 * n) old (BitVec.ofNat (8 * n) (natOfWords x.a.data))) ∨
      (∃ o : RedOps, i = .red o ∧ o.w.bytes = n ∧ o.scope = sc ∧
        new = fun old => Want.atomic o.op (8 * n) old (BitVec.ofNat (8 * n) (natOfWords x.a.data))) ∨
      ∃ o : AtomcOps, i = .atomc o ∧ o.w.bytes = n ∧ o.scope = sc ∧ new = fun old =>
        if old = BitVec.ofNat (8 * n) (natOfWords x.a.cmp) then BitVec.ofNat (8 * n) (natOfWords x.a.data) else old) →
    s.Coherent → s.memOk → x.Hits s needRW k e → x.Clean s k n → x.a.va.toNat % n = 0 → x.a.data.length = n / 4 →
    x.a.cmp.length ≤ n / 4 →
    let near := sc = .core ∨ sc = .cluster
    let old := leNat ((Want.keys k n).map (if near then s.clusterValue (clusterOf x.core) else s.value))
    ∃ t ws, s.perform i x = (t, .done ws false) ∧ ((∃ o, i = .red o) ∨ ws = wordsOf old (n / 4)) ∧
      ∀ a, t.value a = if k ≤ a ∧ a < k + n then (new (BitVec.ofNat (8 * n) old)).extractLsb' (8 * (a - k)) 8 else s.value a

/-- R148, R149, R187, R188: TAGST writes the cell's tag and no other, TAGLD reads it, zero-extended; GQRY gives the granule's base,
size and status, and clears the HOLDLOST of the team that asks and of no other; GHOLD counts a hold of the granule and of the team,
up to 255 of the granule; GREL takes back one of the team's own, where it has one, and where no tag-enable change waits for the
last hold changes nothing else. None of them changes data. -/
def Obligations.TagsAndGranules : Prop :=
  ∀ (s : State) (x : Acc) (k : Nat) (e : TlbEntry), s.ListsOk →
    let same (t : State) := ∀ a, t.value a = s.value a
    let team (g : Granule) (n : Nat) := g.teams.find? fun t => t.tid == n
    let count (g : Granule) (n : Nat) := ((team g n).map TeamHold.holds).getD 0
    let lost (g : Granule) (n : Nat) := (team g n).any TeamHold.lost
    (∀ o, x.Hits s needW k e →
      ∃ t, s.perform (.tagst o) x = (t, .done [] false) ∧ t.tagOf k = (x.a.data.headD 0).setWidth 4 ∧
        (∀ a, a / 32 ≠ k / 32 → t.tagOf a = s.tagOf a) ∧ same t) ∧
    (x.Hits s needR k e → ∀ o,
      let g := s.granuleOf k
      let mine := count g x.tid
      (s.foundBad (k / 32 * 32) 32 = false →
        ∃ t, s.perform (.tagld o) x = (t, .done [(s.tagOf k).setWidth 32] false) ∧ (∀ a, t.tagOf a = s.tagOf a) ∧ same t) ∧
      (∃ t b st, s.perform (.gqry o) x = (t, .done [BitVec.ofNat 32 b, BitVec.ofNat 32 (b / 2 ^ 32), st, 0] false) ∧ same t ∧
        lost (t.granuleOf k) x.tid = false ∧ (∀ n, n ≠ x.tid → lost (t.granuleOf k) n = lost g n) ∧
        (∀ n, count (t.granuleOf k) n = count g n) ∧ (t.granuleOf k).hold = g.hold ∧
        b = g.base % 2 ^ 56 ∧ (g.log2 < 32 → st.extractLsb' 0 5 = BitVec.ofNat 5 g.log2) ∧
        (g.log2 < 32 → g.heat < 4 → (∀ h ∈ s.hostGrants, g.base + 2 ^ g.log2 ≤ h.key) →
          (g.entry = true → st.extractLsb' 8 2 = if g.owner.isSome then 2 else if g.sharers = [] then 0 else 1) ∧
          st.getLsbD 10 = ((s.cluster (clusterOf x.core)).cc.any fun b => b.val.isSome && inRange g.base (2 ^ g.log2) b.key) ∧
          st.getLsbD 11 = decide (g.hold ≠ 0) ∧ st.getLsbD 13 = g.te ∧ st.extractLsb' 14 2 = BitVec.ofNat 2 g.heat ∧
          st.getLsbD 12 = lost g x.tid ∧
          st.getLsbD 16 = g.pr ∧ st.getLsbD 17 = g.pw ∧ st.getLsbD 18 = g.px)) ∧
      (∃ t, s.perform (.ghold o) x = (t, .done [if g.hold < 255 then 1 else 0] false) ∧ same t ∧
        (t.granuleOf k).hold = (if g.hold < 255 then g.hold + 1 else g.hold) ∧
        count (t.granuleOf k) x.tid = (if g.hold < 255 then mine + 1 else mine) ∧
        (∀ n, n ≠ x.tid → count (t.granuleOf k) n = count g n) ∧ ∀ n, lost (t.granuleOf k) n = lost g n) ∧
      ∃ t, s.perform (.grel o) x = (t, .done [if mine = 0 then 0 else 1] false) ∧ same t ∧
        (mine = 0 → (t.granuleOf k).hold = g.hold ∧ ∀ n, count (t.granuleOf k) n = count g n ∧ lost (t.granuleOf k) n = lost g n) ∧
        (mine ≠ 0 → g.teNext = [] ∨ 1 < g.hold → (t.granuleOf k).hold = g.hold - 1 ∧ count (t.granuleOf k) x.tid = mine - 1 ∧
          (∀ n, n ≠ x.tid → count (t.granuleOf k) n = count g n) ∧ (∀ n, lost (t.granuleOf k) n = lost g n) ∧
          (t.granuleOf k).base = g.base ∧ (t.granuleOf k).log2 = g.log2 ∧ (t.granuleOf k).te = g.te))

/-- R184 to R186, R326: PRES answers 1 for a page that grants the access and 0 for a non-canonical address; PGREQ agrees at
once; PRF changes no byte's newest value
(the model's choices here: log entry 41). -/
def Obligations.PresenceAnswers : Prop :=
  ∀ (s : State) (x : Acc) (o : PgOps) (p : PrfOps),
    (∀ k e, canonical x.a.va = true → x.Hits s (Want.need (.pres o)) k e →
      ∃ t, s.perform (.pres o) x = (t, .done [1] false) ∧ s.perform (.pgreq o) x = (t, .done [1] false)) ∧
    (canonical x.a.va = false → s.perform (.pres o) x = (s, .done [0] false) ∧ s.perform (.pgreq o) x = (s, .done [0] false)) ∧
    ∀ k e, s.Coherent → s.memOk → { x with a := { x.a with va := x.a.va &&& ~~~127#64 } }.Hits s needR k e →
      ∃ t, s.perform (.prf p) x = (t, .done [] false) ∧ ∀ a, t.value a = s.value a

/-- R185: within one page, FLUSH leaves no dirty byte of its range in the issuing core's L1, and at device scope none in its
cluster; INV leaves no byte of it in the L1; no byte's newest value changes. Through a page of the context's own tables no permission is
needed, of whatever group the lane is, and a page for lamplighters alone serves as well
(the model's choices here: log entry 18). -/
def Obligations.FlushAndInv : Prop :=
  ∀ (s : State) (o : FlushOps) (x : Acc) (k : Nat) (e : TlbEntry) (i : Instr), (i = .flush o ∨ i = .inv o) →
    let own := (s.ctx? x.part x.who.ctx).any fun c => c.local? (transBits x.a.va)
    s.Coherent → s.memOk → canonical x.a.va = true →
    (if own then { x with who := { x.who with priv := true } } else x).Hits s { quiet := true } k e →
    (x.a.data.headD 0).toNat ≤ 4096 - x.a.va.toNat % 4096 →
    ∃ t, s.perform i x = (t, .done [] false) ∧ (∀ a, t.value a = s.value a) ∧
      ∀ a, k ≤ a → a < k + (x.a.data.headD 0).toNat →
        t.l1Dirty x.core a = false ∧ (i = .inv o → l1Get (t.core x.core) a = none) ∧
        ((o.scope = .device ∨ o.scope = .system) → t.dirtyIn (clusterOf x.core) a = false)

/-- R167, R178, R247: on a page that is not there LD.nr gives zeros and PS 1; LD and ST raise one request for the page, context
and kind of access unless it is outstanding already, and wait; while none can be raised, they wait for that. -/
def Obligations.AbsentPages : Prop :=
  ∀ (s u : State) (x : Acc) (i : Instr), x.via = [] → (s.reach x.who (Want.need i) x.a.va = (u, .missing)) →
    (∀ o, i = .ldNr o → s.perform i x = (u, .done (List.replicate (widthRegs o.w.bytes) 0) true)) ∧
    (∀ w, (∃ o, i = .ld o) ∧ w = false ∨ (∃ o, i = .st o) ∧ w = true → u.priDown x.who x.a.va = false → x.who.after = none →
      let vp := transBits x.a.va / 4096
      let p := u.part x.part
      let room (c : Ctx) := p.pageReqs.length < 512 ∧
        (c.local? (vp * 4096) = true → ∀ q ∈ p.pageReqs, q.pri = true ∨ q.entry ≠ p.prqTail % 512)
      ∀ c, u.ctx? x.part x.who.ctx = some c → x.part < u.parts.length →
        s.perform i x = (u.requestPage x.part x.who.ctx vp w, .wait
          (if (p.pageReq? x.who.ctx vp w).isSome = true ∨ room c then .page vp w else .room vp w) x.a) ∧
        ((p.pageReq? x.who.ctx vp w).isSome = true ∨ ¬ room c → u.requestPage x.part x.who.ctx vp w = u) ∧
        (p.pageReq? x.who.ctx vp w = none → room c →
          ∃ q, ((u.requestPage x.part x.who.ctx vp w).part x.part).pageReqs = p.pageReqs ++ [q] ∧
            q.ctx = x.who.ctx ∧ q.vp = vp ∧ q.write = w ∧ q.pri = !c.local? (vp * 4096)))

/-- R133, R189, R206, R207: WAITV with its condition met at the home completes with the value, else it arms a monitor there, in
the same step, and its lane waits; WAITQ goes on where at most n operations of its class are outstanding and parks its lanes else;
PSET clears and PCLR sets the hold of the lines of each lane's range, and no count
(the model's choices here: log entry 41). -/
def Obligations.WaitsAndLines : Prop :=
  (∀ (s : State) (o : WaitvOps) (f : MemForm) (x : Issue) (l k : Nat) (e : TlbEntry), x.Begins s (.waitv o) →
     instrMem (.waitv o) = some f → x.ts = [l] → s.Coherent → s.memOk →
     let y := x.acc (.waitv o) f l
     let v := leNat ((Want.keys k f.n).map s.value)
     let holds := Want.waited o.cond (BitVec.ofNat (8 * f.n) v) (BitVec.ofNat (8 * f.n) (natOfWords y.a.data))
     y.lies f.n f.n → y.Hits s needR k e → y.Clean s k f.n → (s.setGroup x.g).memWaits f x x.ts = none →
     (holds = true → ∃ u, (s.setGroup x.g).perform (.waitv o) y = (u, .done (wordsOf v (f.n / 4)) false) ∧
       (∀ a, u.value a = s.value a) ∧
       x.CompletesAsking s (.waitv o) u fun _ => outMem (.waitv o) (wordsOf v (f.n / 4)) false) ∧
     (holds = false → ∃ t g m ms, exec (.waitv o) s = .next t ∧ t.group? x.g.gid = some g ∧
       (g.lane l).wait = .waitv m.id x.next ∧ (g.lane l).pc = (x.g.lane l).pc ∧ t.monitors = ms ++ [m] ∧
       m.gid = x.g.gid ∧ m.lane = l ∧ m.key = k ∧ m.cond = o.cond ∧ m.scope = o.scope ∧ m.fired = none)) ∧
  ∀ (s : State) (x : Issue),
    (∀ o : WaitqOps, x.Begins s (.waitq o) →
      (Want.outstanding x.g o.cls ≤ o.n.toNat → x.CompletesIn s (.waitq o) (s.setGroup x.g) fun _ => {}) ∧
      (o.n.toNat < Want.outstanding x.g o.cls → ∃ t g, exec (.waitq o) s = .next t ∧ t.group? x.g.gid = some g ∧
        t = { s.setGroup g with fresh := t.fresh } ∧
        ∀ l ∈ x.ts, g.lane l = { x.g.lane l with wait := .waitq o.cls o.n.toNat x.next })) ∧
    ∀ (o : PrsOps) (i : Instr) (b : Bool) (tm : Team), (i = .pset o ∧ b = false ∨ i = .pclr o ∧ b = true) → x.Begins s i →
      x.g.kind = .ordinary → s.ListsOk → s.team? x.g.tid = some tm →
      (∀ l ∈ x.ts, x.g.src l o.b = 0 ∨ (x.g.src l o.a).toNat + (x.g.src l o.b).toNat ≤ tm.alloc) →
      ∃ ts t', x.CompletesIn s i { s.setGroup x.g with teams := ts } (fun _ => {}) ∧
        (ts.find? fun t => t.tid == x.g.tid) = some t' ∧ t' = { tm with lines := t'.lines } ∧
        ∀ ln, lineState t' ln =
          if ∃ l ∈ x.ts, ln ∈ linesOf (x.g.src l o.a).toNat (x.g.src l o.b).toNat then { lineState tm ln with held := b }
          else lineState tm ln

/-- R176, R180, R336: LDS reads the team's scratchpad in every lane taking part, from offsets that are aligned, allotted and
present; STS writes the low bytes of its data, lane by lane in ascending order, and no other byte of the scratchpad; no
memory changes. -/
def Obligations.ScratchAccesses : Prop :=
  (∀ (s : State) (o : LdsOps) (x : Issue) (tm : Team), x.Begins s (.lds o) → x.g.kind = .ordinary →
    s.team? x.g.tid = some tm → x.operandsDiffer (.lds o) = false →
    let n := o.w.bytes
    let at' := fun l => (x.g.src l o.a + o.off.signExtend 32).toNat
    (∀ l ∈ x.ts, at' l % n = 0 ∧ at' l + n ≤ tm.alloc ∧ tm.absent (at' l) n = none ∧ tm.poisoned (at' l) n = false) →
    x.CompletesIn s (.lds o) (s.setGroup x.g) fun l =>
      { d := ((List.range (widthRegs n)).map (regPlus o.d)).zip
          (Want.filled o.w ((Want.keys (at' l) n).map (bget tm.scratch))) }) ∧
  ∀ (s : State) (o : StsOps) (x : Issue) (tm : Team), x.Begins s (.sts o) → x.g.kind = .ordinary → s.ListsOk →
    s.team? x.g.tid = some tm →
    let n := o.w.bytes
    let at' := fun l => (x.g.src l o.a + o.off.signExtend 32).toNat
    (∀ l ∈ x.ts, at' l % n = 0 ∧ at' l + n ≤ tm.alloc ∧ tm.absent (at' l) n = none) →
    (∀ l ∈ x.ts, ∀ p ∈ s.ops, p.tid = x.g.tid → ∀ a len, p.source = some (a, len) → a + len ≤ at' l ∨ at' l + n ≤ a) →
    ∃ u sc po, x.CompletesIn s (.sts o) u (fun _ => {}) ∧ u = { s.setGroup x.g with teams := u.teams } ∧
      u.team? x.g.tid = some { tm with scratch := sc, poison := po } ∧
      (∀ k, k ≠ x.g.tid → u.team? k = s.team? k) ∧
      ∀ a, bget sc a = match x.ts.reverse.find? fun l => decide (at' l ≤ a ∧ a < at' l + n) with
        | some l => Want.stored (x.g.srcWords l o.b (widthRegs n)) (a - at' l)
        | none => bget tm.scratch a

/-! ## Engines, tiles, accumulators, barriers -/

/-- R190, R202, R204, R227, R229: STA, COLL, ACCZ, ACCST and ACCSHR within their ranges, with the class not full, post one
operation with the operands of the lowest lane and count it; COLL counts its destination's lines; nothing else changes
(the model's choices here: log entry 13). -/
def Obligations.AsyncPosts : Prop :=
  ∀ (s : State) (i : Instr) (x : Issue) (tm : Team) (w : Want.Post), x.Begins s i → x.ts ≠ [] → x.g.kind = .ordinary →
    ((∃ o, i = .sta o) ∨ (∃ o, i = .collAdd o) ∨ (∃ o, i = .collMax o) ∨ (∃ o, i = .collBcast o) ∨ (∃ o, i = .accz o) ∨
      (∃ o, i = .accst o) ∨ ∃ o, i = .accshr o) →
    s.team? x.g.tid = some tm → Want.post x tm (((s.span? tm.sid).map Span.count).getD 0) i = some w → w.ok →
    Want.outstanding x.g w.cls < 63 →
    ∃ op ts, x.Posted op i (some w.cls) w.kind ∧
      x.CompletesIn s i { s.setGroup (x.counts w.cls) with ops := s.ops ++ [op], teams := ts } (fun _ => {}) ∧
      (w.cls ≠ .coll → ts = s.teams) ∧
      ∀ k src dst n, w.kind = .coll tm.colls k src dst n →
        ∃ t', (ts.find? fun t => t.tid == x.g.tid) = some t' ∧
          t' = { tm with colls := tm.colls + 1, lines := t'.lines } ∧ Want.lines tm t' (linesOf dst n)

/-- R190, R196 to R201, R209: CPY and GATH with a valid record, within their ranges, post one operation for the record read and
count it; a scratchpad destination's lines become absent, a multicast's in every receiving rank, a tile destination becomes
pending, each receiving rank of a barrier reference is booked
(the model's choices here: log entry 36). -/
def Obligations.CopiesPost : Prop :=
  ∀ (s v : State) (i : Instr) (x : Issue) (tm : Team) (w : Want.Copy) (r : List Byte), x.Begins s i → x.ts ≠ [] →
    ((∃ o, i = .cpySp o) ∨ (∃ o, i = .cpyTile o) ∨ (∃ o, i = .cpyMc o) ∨ (∃ o, i = .gathSp o) ∨ ∃ o, i = .gathTile o) →
    x.g.kind = .ordinary → s.team? x.g.tid = some tm → Want.copy x i = some w → Want.outstanding x.g w.cls < 63 →
    let va := x.g.src64 x.lead w.a
    let dst := (x.g.reg x.lead w.d).toNat
    let ranks := s.ranksIn tm.sid (w.form.mask tm)
    va.toNat % 64 = 0 → canonical va = true →
    (s.setGroup x.g).readRecord x s.curPark va 64 = (v, .ok r) → v.teams = s.teams → v.spans = s.spans → v.ops = s.ops →
    v.group? x.g.gid = some x.g → w.valid r = true →
    (w.form.isTile = false → dst % 16 = 0 ∧
      ∀ k ∈ ranks, ∀ y, s.rankTeam tm.sid k = some y → dst < y.alloc ∧ w.hi r ≤ y.alloc) →
    (w.form.isTile = true → dst < 4096 ∧ ∀ y, s.span? tm.sid = some y → (y.tile dst).st = .undef) →
    (w.form.mask tm).toNat < 2 ^ ((s.span? tm.sid).map Span.count).getD 0 →
    s.refRange tm w.bar ranks = none → v.refBusy tm w.bar ranks = none →
    ∃ u op place, x.CompletesAsking s i u (fun _ => {}) ∧ x.Posted op i (some w.cls) (w.kind r place) ∧ u.ops = s.ops ++ [op] ∧
      u.group? x.g.gid = some (x.counts w.cls) ∧
      (place = match w.form with
        | .sp => .sp dst
        | .tile => .tile dst (s.tileGen tm.sid dst)
        | .mc m => .mc dst m) ∧
      op.books.map Booking.rank = (if w.bar = .none then [] else ranks) ∧
      (w.form = .sp → ∃ t', u.team? x.g.tid = some t' ∧ t'.scratch = tm.scratch ∧ Want.lines tm t' (w.lines r)) ∧
      (∀ m, w.form = .mc m → s.NamesOk → ∀ k ∈ ranks, ∀ y, s.rankTeam tm.sid k = some y → ∃ y', u.team? y.tid = some y' ∧
        y'.scratch = y.scratch ∧ Want.lines y y' (w.lines r)) ∧
      ∀ y, w.form.isTile = true → s.span? tm.sid = some y → ∃ y', u.span? tm.sid = some y' ∧
        (y'.tile dst).st = .pending ∧ (y'.tile dst).gen = (y.tile dst).gen ∧ ∀ n, n ≠ dst → y'.tile n = y.tile n

/-- R209 to R219: TDEF of an undefined name with room in the reserve makes it pending; TREAD of a defined name is bound to its
present generation; TKILL of a defined name ends its generation and of an undefined one does nothing; TQRY reports. -/
def Obligations.TilesAct : Prop :=
  ∀ (s : State) (i : Instr) (x : Issue) (tm : Team) (y : Span), x.Begins s i → x.ts ≠ [] → x.g.kind = .ordinary →
    s.ListsOk → s.team? x.g.tid = some tm → s.span? tm.sid = some y →
    (∀ (d : Reg) (k : Nat → OpKind → Prop),
      ((∃ o : TileSpOps, i = .tdefSp o ∧ d = o.d ∧ Want.within (x.g.src x.lead o.a).toNat 8192 tm.alloc ∧
          k = fun n c => c = .tdefSp n (y.tile n).gen (x.g.src x.lead o.a).toNat) ∨
        ∃ o : TdefRegOps, i = .tdefReg o ∧ d = o.d ∧ k = fun n c => ∃ bs, c = .tdefReg n (y.tile n).gen bs ∧
          ∀ j, bget bs j = Want.tileByte x o.run.val j) →
      let n := (x.g.reg x.lead d).toNat
      n < 4096 → (y.tile n).st = .undef → (s.setGroup x.g).tilesUsed y < y.reserve →
      ∃ op c ss y', k n c ∧ x.Posted op i none c ∧
        x.CompletesIn s i { s.setGroup x.g with ops := s.ops ++ [op], spans := ss } (fun _ => {}) ∧
        (ss.find? fun z => z.sid == tm.sid) = some y' ∧ (y'.tile n).st = .pending ∧ (y'.tile n).storage = true ∧
        ∀ m, m ≠ n → y'.tile m = y.tile m) ∧
    (∀ (a : Src), ((∃ o : TileSpOps, i = .treadSp o ∧ a = o.a) ∨ ∃ o : TreadRegOps, i = .treadReg o ∧ a = o.a) →
      let n := (x.g.src x.lead a).toNat
      let b : Bound := ⟨n, (y.tile n).gen, (y.tile n).bytes, (y.tile n).bad⟩
      n < 4096 → (y.tile n).st = .defined → (∀ p ∈ x.g.bound, p.1 ≠ x.ia) →
      (∀ o, i = .treadSp o → Want.within (x.g.reg x.lead o.d).toNat 8192 tm.alloc →
        ∃ op ts t', x.Posted op i none (.treadSp b (x.g.reg x.lead o.d).toNat) ∧
          x.CompletesIn s i { s.setGroup x.g with ops := s.ops ++ [op], teams := ts } (fun _ => {}) ∧
          (ts.find? fun t => t.tid == x.g.tid) = some t' ∧ t' = { tm with lines := t'.lines } ∧
          Want.lines tm t' (linesOf (x.g.reg x.lead o.d).toNat 8192)) ∧
      ∀ o, i = .treadReg o → ∃ op id t g r, x.Posted op i none (.treadReg b id) ∧ exec i s = .next t ∧
        x.Ends { s.setGroup x.g with ops := s.ops ++ [op] } t (fun _ => {}) ∧ t.group? x.g.gid = some g ∧ r ∈ g.owed ∧
        r.id = id ∧ r.landed = false ∧
        r.lanes.map (fun q => (q.lane, q.ids)) = x.ts.map fun l => (l, x.g.regIds l (Reg.ofNum o.run.val) 64)) ∧
    (∀ o : R1, i = .tkill o →
      let n := (x.g.src x.lead o.a).toNat
      n < 4096 → ((y.tile n).st = .undef → x.CompletesIn s i (s.setGroup x.g) fun _ => {}) ∧
        ((y.tile n).st = .defined → ∃ ss y', x.CompletesIn s i { s.setGroup x.g with spans := ss } (fun _ => {}) ∧
          (ss.find? fun z => z.sid == tm.sid) = some y' ∧ (y'.tile n).st = .undef ∧
          (y'.tile n).gen = (y.tile n).gen + 1 ∧ (y'.tile n).bytes = [] ∧ ∀ m, m ≠ n → y'.tile m = y.tile m)) ∧
    ∀ o : R2, i = .tqry o →
      let n := (x.g.src x.lead o.a).toNat
      n < 4096 → ∃ w : Word, x.CompletesIn s i (s.setGroup x.g) (fun _ => { d := [(o.d, w)] }) ∧
        ((y.tile n).place < 4 →
          w.extractLsb' 0 2 = (match (y.tile n).st with
            | .undef => 0
            | .pending => 1
            | .defined => 2) ∧
          w.extractLsb' 12 4 = (y.tile n).gen ∧ w.extractLsb' 16 16 = BitVec.ofNat 16 ((s.setGroup x.g).tilesUsed y))

/-- R221 to R229: MMAT with a valid block of defined tiles, MMAR, ACCLD with a valid descriptor and ACCGROW post one matrix
operation and count it; MMAT and MMAR stand in the cluster's reservation table from then on
(the model's choices here: log entry 27). -/
def Obligations.MatrixPosts : Prop :=
  ∀ (s : State) (i : Instr) (x : Issue) (tm : Team), x.Begins s i → x.ts ≠ [] → s.team? x.g.tid = some tm →
    x.g.qcnt.matrix < 63 → clusterOf x.g.core < s.clusters.length → (∀ p ∈ x.g.bound, p.1 ≠ x.ia) →
    let done (n : Nat) (b : Bound) := ∃ y, s.span? tm.sid = some y ∧ (y.tile n).st = .defined ∧
      b = ⟨n, (y.tile n).gen, (y.tile n).bytes, (y.tile n).bad⟩
    let posted (k : OpKind → Prop) (g : Group) := ∃ op c cs, k c ∧ x.Posted op i (some .matrix) c ∧
      x.CompletesIn s i { s.setGroup g with ops := s.ops ++ [op], clusters := cs } (fun _ => {}) ∧
      ((∃ o, i = .mmat o) ∨ (∃ o, i = .mmar o) →
        (cs.getD (clusterOf x.g.core) {}).table = (s.cluster (clusterOf x.g.core)).table ++ [(op.id, s.beat)]) ∧
      ((∀ o, i ≠ .mmat o) ∧ (∀ o, i ≠ .mmar o) → cs = s.clusters)
    let block (a : Src) := (Want.keys (x.g.src x.lead a).toNat 32).map (bget tm.scratch)
    let reads (a : Src) := (x.g.src x.lead a).toNat % 32 = 0 ∧ (x.g.src x.lead a).toNat + 32 ≤ tm.alloc ∧
      tm.absent (x.g.src x.lead a).toNat 32 = none ∧ tm.poisoned (x.g.src x.lead a).toNat 32 = false
    (∀ o : ALOps, i = .mmat o → x.g.kind = .ordinary → reads o.a → (s.cluster (clusterOf x.g.core)).table.length < 256 →
      let bs := block o.a
      mmatValid bs = true → (fmtWord (mmatFmt bs)).isSome = true → (∀ n ∈ mmatA bs ++ mmatB bs, n = 0xFFFF ∨ n < 4096) →
      mmatOff bs + 196608 ≤ tm.accSize → ∀ b : Nat → Bound, (∀ n ∈ mmatNames bs, done n (b n)) →
      posted (· = .mmat bs ((mmatNames bs).map b)) (x.counts .matrix)) ∧
    (∀ (o : MmarOps) (b : Bound) (f : FmtWord), i = .mmar o → x.g.kind = .ordinary →
      (s.cluster (clusterOf x.g.core)).table.length < 256 →
      let off := (x.g.reg x.lead o.d).toNat
      let w := (x.g.src64 x.lead o.b).extractLsb' 32 32
      let n := ((x.g.src64 x.lead o.b).extractLsb' 0 32).toNat
      off % 256 = 0 → off + 8192 ≤ tm.accSize → (∀ l ∈ x.ts, (x.g.src64 l o.b).extractLsb' 32 32 = w) →
      fmtWord w = some f → f.akm = true → f.bkm = true → f.asw = 0 → n < 4096 → done n b →
      ∃ a : List Byte, (match x.g.latch with
          | some bs => a = bs
          | none => a.length = 2048 ∧ ∀ j < 2048, a.getD j 0 = Want.rowByte x o.run.val j) ∧
        posted (· = .mmar off w o.h1 a (maskOf x.ts.contains) b)
          { x.counts .matrix with latch := if o.reuse then some a else none }) ∧
    (∀ o : ALOps, i = .accldSp o → x.g.kind = .ordinary → reads o.a →
      let d := block o.a
      accValid d none = true → accMisaligned d false = none → accTarget d ≤ 12 → s.accRanges d false x = none →
      posted (· = .accldSp d) (x.counts .matrix)) ∧
    (∀ o : AccldRegOps, i = .accldReg o → x.g.kind = .ordinary → reads o.a →
      let d := block o.a
      let rows := { x with ts := x.ts.filter fun l => decide (l < accRows d) }
      accValid d (some o.run.val) = true → (∀ l ∈ rows.ts, accReg d o.run.val rows l = none) → accMisaligned d true = none → accTarget d ≤ 12 →
      s.accRanges d true x = none →
      let names : Uses := { wr := [(Reg.ofNum o.run.val, accNames d)] }
      rows.waitsFor names = none → (∀ l ∈ rows.ts, rows.lookFault names l = none) →
      ∃ (id : Nat) (ow : List Owed) (op : AOp) (t : State) (g : Group), x.Posted op i (some .matrix) (.accldReg d o.run.val id) ∧ exec i s = .next t ∧
        x.Ends { s.setGroup (x.counts .matrix) with ops := s.ops ++ [op] } t (fun _ => {}) ∧ t.group? x.g.gid = some g ∧
        (∀ r ∈ ow, r ∈ g.owed ∧ r.id = id ∧ r.landed = false) ∧
        (ow.map fun r => r.lanes.map fun q => (q.lane, q.ids)).flatten =
          rows.ts.map fun l => (l, x.g.regIds l (Reg.ofNum o.run.val) (accNames d))) ∧
    ∀ o : DaOps, i = .accgrow o → x.operandsDiffer i = false →
      (x.g.kind ≠ .ordinary → x.CompletesIn s i (s.setGroup x.g) fun _ => { d := [(o.d, 0)] }) ∧
      (x.g.kind = .ordinary → ∃ id, posted (· = .accgrow (x.g.src x.lead o.a).toNat id) (x.counts .matrix))

/-- R242 to R244, R330: BARINIT, BAREXP and BARINV change the object that the lowest lane's handle names, and test it for phase
completion; BARARR marks its lanes and gives PHASE as it stood, and a group whose every live lane is marked arrives; BARTRY
tells whether the phase is past; BARWAIT goes on or parks by the same test
(the model's choices here: log entry 15). -/
def Obligations.BarriersAct : Prop :=
  ∀ (s : State) (i : Instr) (x : Issue) (p : BarPlace), x.Begins s i → x.ts ≠ [] → s.ListsOk →
    let b := s.barAt p
    let tested (b : Bar) : Bar := if b.arr = s.barExpected p b ∧ b.owed b.phase = 0
      then { b with phase := (b.phase + 1) % 2 ^ 24, arr := 0 } else b
    let wrap (n : Int) : Int := (BitVec.ofInt 32 n).toInt
    let acts (b' : Bar) (out : Nat → LaneOut) := ∃ u, x.CompletesIn s i u out ∧ u.barAt p = b' ∧
      u.spans = s.spans ∧ u.ops = s.ops ∧ u.grids = s.grids
    (∀ o : BarDabOps, i = .barinit o →
      let h := x.g.src x.lead o.a
      let e := min (x.g.src x.lead o.b).toNat 128
      s.placeOfHandle x.g h = some p → s.barRoom p = true → s.barWaiters p = false →
      s.barExpected p { b with exp := e } ≠ 0 →
      ∃ d : Word, d.extractLsb' 24 8 = BitVec.ofNat 8 (b.inc + 1) ∧ d.extractLsb' 0 19 = h.extractLsb' 0 19 ∧
        acts { exp := e, arr := 0, owe0 := 0, owe1 := 0, phase := 0, inc := (b.inc + 1) % 256 } fun _ => { d := [(o.d, d)] }) ∧
    (∀ o : AbOps, i = .barexp o →
      let h := x.g.src x.lead o.a
      let n := (x.g.src x.lead o.b).toInt
      s.placeOfHandle x.g h = some p → handleInc h = b.inc → s.barRoom p = true →
      acts (tested (if s.workPhase p x.g.gid % 2 = 0 then { b with owe0 := wrap (b.owe0 + n) }
        else { b with owe1 := wrap (b.owe1 + n) })) fun _ => {}) ∧
    (∀ o : ALOps, i = .barinv o →
      let h := x.g.src x.lead o.a
      s.placeOfHandle x.g h = some p → handleInc h = b.inc → s.barRoom p = true → s.barExpected p b ≠ 0 →
      acts { b with inc := (b.inc + 1) % 256, arr := 0, owe0 := 0, owe1 := 0 } fun _ => {}) ∧
    (∀ (o : DaOps) (h : Word), i = .bararr o → (∀ l ∈ x.ts, x.g.src l o.a = h) → s.placeOfHandle x.g h = some p →
      handleInc h = b.inc → s.barRoom p = true →
      (∀ t y, s.team? p.tid = some t → t.barObj? p.off p.span = some y → ∀ m ∈ y.marks, m.1 ≠ x.g.gid) →
      acts (if ∀ l ∈ x.g.liveLanes, l ∈ x.ts then tested { b with arr := (b.arr + 1) % 65536 } else b)
        fun _ => { d := [(o.d, BitVec.ofNat 32 b.phase)] }) ∧
    ∀ (a c : Src), ((∃ o, i = .bartry o ∧ a = o.a ∧ c = o.b) ∨ ∃ o, i = .barwait o ∧ a = o.a ∧ c = o.b) →
      x.operandsDiffer i = false →
      (∀ l ∈ x.ts, ∃ q, s.placeOfHandle x.g (x.g.src l a) = some q ∧ handleInc (x.g.src l a) = (s.barAt q).inc ∧
        s.barRoom q = true ∧ ((∃ t, s.team? q.tid = some t ∧ (t.barObj? q.off q.span).isSome = true) ∨
          ∀ k ∈ x.ts, x.g.src k a = x.g.src l a)) →
      ∀ past : Nat → Bool, (∀ l ∈ x.ts, ∀ q, s.placeOfHandle x.g (x.g.src l a) = some q →
        (past l = true ↔ Want.past (s.barAt q).phase (x.g.src l c))) →
      (∀ o, i = .bartry o → acts b fun l => { d := [(o.d, if past l then 1 else 0)] }) ∧
      ∀ o, i = .barwait o → ((∀ l ∈ x.ts, past l = true) → acts b fun _ => { p := [(o.ps.toNat, true)] }) ∧
        ∃ t g, exec i s = .next t ∧ t.group? x.g.gid = some g ∧ ∀ l ∈ x.ts, past l = false →
          g.lane l = { x.g.lane l with wait := .bar (x.g.src l a) (x.g.src l c) o.ps x.next }

/-- R231, R232, R279: LAUNCH of a valid record for a queue that the context owns hands it to the queue, once the group's earlier
accesses are visible at device scope, and owes the sequence number
(the model's choices here: log entry 36). -/
def Obligations.LaunchPosts : Prop :=
  ∀ (s v : State) (o : DaOps) (x : Issue) (r : List Byte), x.Begins s (.launch o) → x.ts ≠ [] →
    let va := x.g.src64 x.lead o.a
    va.toNat % 128 = 0 → canonical va = true → (s.setGroup x.g).readRecord x s.curPark va 128 = (v, .ok r) →
    v.group? x.g.gid = some x.g → recValid r = true → x.g.part < v.parts.length →
    (v.part x.g.part).granted (recQueue r) x.g.ctx = true →
    ∃ u id l, x.CompletesAsking s (.launch o) u (fun _ => {}) ∧
      (u.part x.g.part).launches = (v.part x.g.part).launches ++ [l] ∧
      l = { gid := x.g.gid, hart := 0, rd := 0, owed := id, ctx := x.g.ctx, part := x.g.part, rcd := r } ∧
      (v.Coherent → ∀ k, u.dirtyBelow (clusterOf x.g.core) k = true → ∃ c, c ≠ x.g.core ∧ u.l1Dirty c k = true)

/-! ## Lamplighters and invalidation -/

/-- R305, R310 to R313: with a valid capability FZREC reads the record, FZRD an item of a lane frozen under it, FZWR writes one;
FZRES resumes the lanes of a mask at an address with their guard cleared, FZRES.RPL with the record's instruction to replay or
its operation to go on, and FZKILL ends them, and with the last live lane their group; other frozen lanes are left alone. -/
def Obligations.HandlersAct : Prop :=
  ∀ (s v : State) (i : Instr) (x : Issue) (cap : BitVec 2) (r : Record) (g : Group), x.Begins s i → x.ts ≠ [] →
    (s.setGroup x.g).capRecord x.g cap.toNat = (v, some r) → v.group? r.gid = some g → r.gid ≠ x.g.gid →
    v.group? x.g.gid = some x.g → g.lanes.length = 32 →
    let target (l : Nat) (a : Src) := (x.g.src l a).toNat % 32
    let each (a : Src) := ∀ l ∈ x.ts, (g.lane (target l a)).exited = false ∧
      ((g.lane (target l a)).hold = .frozen r.rid ∨ (g.lane (target l a)).hold = .held r.rid)
    let masked (a : Src) (kills : Bool) (after : Lane → Lane → Prop) := let m := x.g.src x.lead a
      Want.frozenUnder g r.rid m → m ≠ 0 → g.later = [] → ∃ u, x.CompletesIn s i u (fun _ => {}) ∧
        (kills = true → (∀ l ∈ g.liveLanes, hasLane m l = true) → u.group? r.gid = none) ∧
        (kills = false ∨ (∃ l ∈ g.liveLanes, hasLane m l = false) → ∃ g', u.group? r.gid = some g' ∧
          (∀ l, hasLane m l = true → after (g.lane l) (g'.lane l)) ∧
          ∀ l rid, hasLane m l = false → (g.lane l).hold = .frozen rid → g'.lane l = g.lane l)
    (∀ o : FzrecOps, i = .fzrec o → cap = o.cap → x.CompletesIn s i v fun _ =>
      { d := (List.range 16).map fun j => (regPlus (Reg.ofNum o.run.val) j, BitVec.ofNat 32 (blk r.bytes (4 * j) 4)) }) ∧
    (∀ o : FzrdOps, i = .fzrd o → cap = o.cap → x.operandsDiffer i = false → each o.a → ∀ out : Nat → LaneOut, x.agree out →
      (∀ l, out l = match Want.selected v g (target l o.a) (x.g.src l o.b) with
        | some w => { d := [(o.d, w)], p := [(o.ps.toNat, false)] }
        | none => { d := [(o.d, 0)], p := [(o.ps.toNat, true)] }) → x.CompletesIn s i v out) ∧
    (∀ (o : FzwrOps) (l : Nat), i = .fzwr o → cap = o.cap → each o.a → x.ts = [l] → (∀ n < 14, ∃ c ∈ g.scal, c.r = n ∧ hasLane c.lanes (target l o.a) = true) →
      ∃ u g', x.CompletesIn s i u (fun _ => {}) ∧ u = { v with groups := u.groups } ∧ u.group? r.gid = some g' ∧
        match Want.rewritten g (x.g.src l o.b) (x.g.reg l o.d) with
        | some w => Want.selected u g' (target l o.a) (x.g.src l o.b) = some w
        | none => g' = g) ∧
    (∀ o : FzresOps, i = .fzres o → cap = o.cap → masked o.a false fun y y' => y' = Want.resumedAt y (x.g.src64 x.lead o.b)) ∧
    (∀ o : FzMaskOps, i = .fzresRpl o → cap = o.cap → masked o.a false fun y y' =>
      (r.op = none → y' = Want.replaying y r (x.g.src x.lead o.a)) ∧ (r.op ≠ none → y' = { y with hold := .free, wait := .none })) ∧
    ∀ o : FzMaskOps, i = .fzkill o → cap = o.cap → masked o.a true fun _ y' => y'.exited = true

/-- R151 to R153, R169 to R171, R314, R333, R355: TLBI with a legal control word leaves no translation of its context and range,
ends write ownership of a leaf divided with DW and every cached copy with DR, and changes no byte's newest value; TLBI.ctx drops
all of its context; MIGR of a page between ranges of HBM begins its copy, and when no block is marked, or at most 16 are after
three recopies, moves its newest bytes and its tags, rewrites its leaf and gives 0; with more, or after a change met meanwhile,
it gives 1, and 2 where no leaf maps the address; a hart's rh.tlbi does as TLBI, or takes the illegal-instruction exception
(the model's choices here: log entries 24, 25, 35 and 42). -/
def Obligations.TranslationsGo : Prop :=
  ∀ (s : State), s.Coherent → s.memOk → s.ListsOk → Want.atRest s →
    (∀ (o : TlbiOps) (x : Issue), x.Begins s (.tlbiRange o) → x.ts ≠ [] → Want.atRest (s.setGroup x.g) →
      let base := x.g.src64 x.lead o.a
      let w := x.g.src x.lead o.b
      let log2 := (w.extractLsb' 0 6).toNat
      let v := transBits base
      w.extractLsb' 6 3 = 0 → w.extractLsb' 12 20 = 0 → 12 ≤ log2 → log2 ≤ 57 → (w.extractLsb' 9 3 ≠ 0 → log2 ≤ 21) →
      canonical base = true → base.toNat % 2 ^ log2 = 0 →
      (s.setGroup x.g).atomicsOut x.g.part x.g.ctx v (2 ^ log2) = false →
      ∃ u, x.CompletesIn s (.tlbiRange o) u (fun _ => {}) ∧ Want.untranslated u x.g.part x.g.ctx v (2 ^ log2) ∧
        (∀ a, u.value a = s.value a) ∧
        ∀ l e addr k, s.leafAny x.g.part x.g.ctx v = some (l, e, addr) → v % 2 ^ leafLog2 l e + 2 ^ log2 ≤ 2 ^ leafLog2 l e →
          bitsAt e 61 2 ≠ 3 → s.physOf x.g.part (leafBase e + v % 2 ^ leafLog2 l e) = .mem k → k + 2 ^ log2 ≤ 2 ^ 60 →
          ∀ a cl, k ≤ a → a < k + 2 ^ log2 → cl < 8 →
            (w.getLsbD 9 = true ∨ w.getLsbD 10 = true → u.holdsOwn cl a = false) ∧
            (w.getLsbD 10 = true → (ccGet (u.cluster cl) a).bind CcByte.val = none ∧
              ∀ c ∈ clusterCores cl, l1Get (u.core c) a = none)) ∧
    (∀ (o : TlbiCtxOps) (x : Issue), x.Begins s (.tlbiCtx o) → x.ts ≠ [] → Want.atRest (s.setGroup x.g) →
      (s.setGroup x.g).atomicsOut x.g.part x.g.ctx 0 (2 ^ 57) = false → x.g.part < s.parts.length → ∀ old u c,
      s.ctx? x.g.part x.g.ctx = some old →
      ((s.setGroup x.g).dropTranslations x.g.part x.g.ctx 0 (2 ^ 57)).readDesc x.g.part x.g.ctx old = (u, some c) →
      ∃ t, x.CompletesIn s (.tlbiCtx o) t (fun _ => {}) ∧ Want.untranslated t x.g.part x.g.ctx 0 (2 ^ 57) ∧
        t.ctx? x.g.part x.g.ctx = some { c with ended := old.ended }) ∧
    (∀ (o : MigrOps) (x : Issue), x.Begins s (.migr o) → x.ts ≠ [] → x.operandsDiffer (.migr o) = false →
      Want.atRest (s.setGroup x.g) →
      let va := x.g.src64 x.lead o.a
      let dst := (x.g.src64 x.lead o.b).toNat
      let part := x.g.part
      let gives (u : State) (d : Word) := x.CompletesIn s (.migr o) u fun _ => { d := [(o.d, d)] }
      canonical va = true →
      (s.setGroup x.g).atomicsOut part x.g.ctx (transBits va / 2 ^ 21 * 2 ^ 21) (2 ^ 21) = false →
      ((∀ m ∈ s.migs, m.gid = x.g.gid → m.lost = false) → s.leafNow part x.g.ctx (transBits va) = none → ∃ u, gives u 2) ∧
      ∀ l e addr ka, s.leafNow part x.g.ctx (transBits va) = some (l, e, addr) →
        let n := 2 ^ leafLog2 l e
        let src := leafBase e
        let ks := part * 2 ^ 56 + src
        let kd := part * 2 ^ 56 + dst
        let v := transBits va / n * n
        bitsAt e 61 2 ≠ 3 → bitsAt e 63 1 = 0 → dst % n = 0 → (src + n ≤ dst ∨ dst + n ≤ src) → part < 16 →
        src + n ≤ s.hbmSize part → dst + n ≤ s.hbmSize part → s.hbmSize part ≤ 2 ^ 40 →
        s.physOf part addr = .mem ka → addr % 8 = 0 → (ka + 8 ≤ kd ∨ kd + n ≤ ka) → (ka + 8 ≤ ks ∨ ks + n ≤ ka) →
        let plan : MigPlan := { level := l, leafAt := addr, size := n, src := ks, dst := kd }
        ((∀ m ∈ s.migs, m.gid ≠ x.g.gid) → ∃ t m, exec (.migr o) s = .next t ∧ t.migs = m :: s.migs ∧
          m = { gid := x.g.gid, part := part, ctx := x.g.ctx, v := v, plan := plan, recopies := 0, marked := [], lost := false } ∧
          (∀ y, s.group? x.g.gid = some y → t.group? x.g.gid = some { y with park := .owed 0 }) ∧
          ∀ a, t.value a = s.value a) ∧
        ∀ m, (s.migs.find? fun y => y.gid == x.g.gid) = some m → (∀ y ∈ s.migs, y.gid = x.g.gid → y = m) →
          m.plan = plan → m.v = v → m.ctx = x.g.ctx → m.part = part →
          ((m.lost = true ∨ m.recopies = 3 ∧ 16 < m.marked.length) → ∃ u, gives u 1) ∧
          (m.lost = false → (m.marked = [] ∨ m.recopies = 3 ∧ m.marked.length ≤ 16) →
            ∃ u, gives u 0 ∧ Want.untranslated u part x.g.ctx v n ∧
              (∀ j < n, u.value (kd + j) = s.value (ks + j) ∧ u.tagOf (kd + j) = s.tagOf (ks + j)) ∧
              bitsAt (Want.memNat u ka 8) 10 44 = dst / 4096 ∧ Want.memNat u ka 8 % 2 ^ 10 = e % 2 ^ 10 ∧
              Want.memNat u ka 8 / 2 ^ 54 = e / 2 ^ 54)) ∧
    ∀ (o : RhOps) (n : Nat) (i : Instr) (range : Bool), s.turn = .hart n → n < s.harts.length →
      (i = .rhTlbiRange o ∧ range = true ∨ i = .rhTlbiCtx o ∧ range = false) →
      let base := (s.hart n).reg o.rs1
      let w := ((s.hart n).reg o.rs2).setWidth 32
      let log2 := (w.extractLsb' 0 6).toNat
      let ctx := (w.extractLsb' 16 16).toNat
      let part := s.hartPart n
      let legal := w.extractLsb' 6 3 = 0 ∧ w.extractLsb' 12 4 = 0 ∧ ctx < (s.part part).ctxn ∧
        12 ≤ log2 ∧ log2 ≤ 57 ∧ (w.extractLsb' 9 3 ≠ 0 → log2 ≤ 21) ∧
        (range = true → canonical base = true ∧ base.toNat % 2 ^ log2 = 0)
      (¬ legal → Brings i s fun t => t = { s with harts := t.harts } ∧
        t.hart n = { s.hart n with illegal := true } ∧ ∀ k, k ≠ n → t.hart k = s.hart k) ∧
      (legal → s.atomicsOut part ctx (if range then transBits base else 0) (if range then 2 ^ log2 else 2 ^ 57) = false →
        Brings i s fun t => (t.hart n).pc = (s.hart n).pc + 4 ∧
          Want.untranslated t part ctx (if range then transBits base else 0) (if range then 2 ^ log2 else 2 ^ 57))

/-! ## Events: engines -/

/-- R133, R135, R194 to R201, R245: a copy, a gather or a staging region whose units are all read delivers each byte at its
place, in the scratchpad of every receiving team that has not finished or in a tile, which becomes defined; its lines are
counted out, a booked barrier is credited, a delivery to a finished team is noted, and the operation is over
(the model's choices here: log entry 5). -/
def Obligations.CopiesDeliver : Prop :=
  ∀ (s v : State) (o : AOp) (w : Who) (i : Instr) (d : Want.Delivery) (bs : List Byte), s.Runs o → s.dstFree o = true →
    s.nameFree o = true → s.opWho o = some w → Want.delivery o = some d → d.ok →
    ((∃ lay c dst, o.kind = .cpy lay c dst) ∧ (i = .copyOperationComplete o.id ∨ i = .tileDefinitionComplete o.id) ∨
      (∃ lay rows dst, o.kind = .gath lay rows dst) ∧ (i = .gathComplete o.id ∨ i = .tileDefinitionComplete o.id) ∨
      (∃ k va dst len, o.kind = .stage k va dst len) ∧ i = .stagingRegionWritten o.id) →
    State.EngReads o w d.unit d.elems (s.updOp o.id fun y => { y with wait := none }) v bs →
    v.teams = s.teams → v.spans = s.spans → v.groups = s.groups →
    Brings i s fun t => t = { v with teams := t.teams, spans := t.spans, ops := t.ops, groups := t.groups } ∧ t.over o.id ∧
      (∀ off y, d.receives v o off y → ∃ y', t.team? y.tid = some y' ∧
        (∀ j < bs.length, Want.unbooked v o y.tid (off + d.pos j) → bget y'.scratch (off + d.pos j) = bs.getD j 0) ∧
        (∀ a, (∀ j < bs.length, off + d.pos j ≠ a) → Want.unbooked v o y.tid a → bget y'.scratch a = bget y.scratch a) ∧
        ∀ ln, lineState y' ln =
          { lineState y ln with count := (lineState y ln).count - if ln ∈ d.lines off then 1 else 0 }) ∧
      (∀ n gen x, d.dst = .tile n gen → v.span? o.sid = some x → ∃ x', t.span? o.sid = some x' ∧
        (x'.tile n).st = .defined ∧ (x'.tile n).gen = (x.tile n).gen ∧ (∀ m, m ≠ n → x'.tile m = x.tile m) ∧
        (∀ j < bs.length, bget (x'.tile n).bytes (d.pos j) = bs.getD j 0) ∧
        ∀ a, (∀ j < bs.length, d.pos j ≠ a) → bget (x'.tile n).bytes a = 0) ∧
      (∀ off m y x, d.dst = .mc off m → v.rankTeam o.sid y.rank = some y → y.rank < 4 → m.getLsbD y.rank = true →
        y.finished = true → v.span? o.sid = some x → ∃ x', t.span? o.sid = some x' ∧ x'.mcdisc = true) ∧
      ∀ k p n, o.books = [k] → v.bookPlace o.sid k = some p → (v.barAt p).inc = k.inc →
        (k.phase = (v.barAt p).phase ∨ k.phase = ((v.barAt p).phase + 1) % 2 ^ 24) →
        ((∃ m g, d.dst = .tile m g) ∧ n = 8192 ∨ (∃ off y, d.receives v o off y ∧ k.rank = y.rank) ∧ n = bs.length ∧
          ∀ off y, d.receives v o off y → y.tid = p.tid → ∀ j < bs.length, off + d.pos j < p.off ∨ p.off + 16 ≤ off + d.pos j) →
        t.barAt p = Want.credited v p (v.barAt p) k.phase n

/-- R202, R209, R210, R214, R216 to R218: an engine reads its scratchpad source, which unlocks it; a definition whose data is
complete defines its tile, one that waits for storage begins when there is room; a tile read delivers to the scratchpad, whose
line wakes the groups parked on it, or to the registers fixed at issue
(the model's choices here: log entry 5). -/
def Obligations.TilesComplete : Prop :=
  ∀ (s : State) (o : AOp) (y : Team) (x : Span), s.Runs o → s.team? o.tid = some y → s.span? o.sid = some x →
    (∀ src len, o.source = some (src, len) → s.srcReady o = true → y.poisoned src len = false →
      Brings (.sourceReadComplete o.id) s fun t => t = { s with ops := t.ops } ∧
        ∃ bs, t.op? o.id = some { o with data := bs, srcRead := true } ∧ bs.length = len ∧
          ∀ j < len, bs.getD j 0 = bget y.scratch (src + j)) ∧
    (∀ n gen (b : Nat → Byte), ((∃ src, o.kind = .tdefSp n gen src ∧ o.srcRead = true ∧ b = fun j => o.data.getD j 0) ∨
        ∃ bytes, o.kind = .tdefReg n gen bytes ∧ b = bget bytes) → s.nameFree o = true →
      Brings (.tileDefinitionComplete o.id) s fun t => t.over o.id ∧ ∃ x', t.span? o.sid = some x' ∧
        (x'.tile n).st = .defined ∧ (x'.tile n).gen = (x.tile n).gen ∧ (∀ m, m ≠ n → x'.tile m = x.tile m) ∧
        ∀ j, bget (x'.tile n).bytes j = b j) ∧
    (∀ b dst line, o.kind = .treadSp b dst → o.cls = none → s.dstFree o = true → line ∈ linesOf dst 8192 →
      (∀ p ∈ s.ops, (∃ b' d', p.kind = .treadSp b' d') → p = o) →
      Brings (.presenceLinePresent o.tid line) s fun t => t.over o.id ∧ ∃ y', t.team? o.tid = some y' ∧
        (∀ a, bget y'.scratch a = if dst ≤ a ∧ a < dst + 8192 then bget b.bytes (a - dst) else bget y.scratch a) ∧
        (∀ ln, lineState y' ln =
          { lineState y ln with count := (lineState y ln).count - if ln ∈ linesOf dst 8192 then 1 else 0 }) ∧
        ∀ g ∈ s.groups, g.tid = o.tid → g.park = .line line → (lineState y' line).present = true →
          t.group? g.gid = some { g with park := .none }) ∧
    (∀ b w g, o.kind = .treadReg b w → b.bad = [] → o.cls = none → s.group? o.gid = some g → (∀ p ∈ s.ops, p.sid = o.sid → p.begun = true) →
      (∀ p ∈ s.ops, p.kind.owes = some w → p = o) →
      Brings (.longLatencyResult o.gid w) s fun t => t.op? o.id = none ∧ ∃ g', t.group? o.gid = some g' ∧
        g.Lands g' w (fun l k => bget b.bytes (128 * k + 4 * l + 3) ++ bget b.bytes (128 * k + 4 * l + 2) ++
          bget b.bytes (128 * k + 4 * l + 1) ++ bget b.bytes (128 * k + 4 * l)) 64) ∧
    ∀ (p : AOp) (n : Nat) (gen : BitVec 4), (s.ops.find? fun p => p.sid == o.sid && !p.begun) = some p →
      p.defines = some (n, gen) → s.tilesUsed x < x.reserve →
      Brings (.tileStorageRelease o.sid n) s fun t => t = { s with ops := t.ops, spans := t.spans } ∧
        t.op? p.id = some { p with begun := true } ∧ ∃ x', t.span? o.sid = some x' ∧
          x'.tile n = { x.tile n with storage := true, place := 0 } ∧ ∀ m, m ≠ n → x'.tile m = x.tile m

/-- R202 to R205: an STA whose source has been read writes its units in order, each the newest value of its bytes, and is over;
a collective that every member has issued gives every member the bytes of the root, or the sums or maxima of the members'
elements in rank order
(the model's choices here: log entries 5 and 47). -/
def Obligations.BlocksMove : Prop :=
  (∀ (s v : State) (o : AOp) (w : Who) (va : DWord) (src len : Nat) (h : Hint), s.Runs o → o.kind = .sta va src len h →
    o.srcRead = true → o.lost = none → s.opWho o = some w → 16 * ((len - o.pos) / 16) = (o.data.drop o.pos).length →
    State.EngWrites o w h va o.pos (o.data.drop o.pos) (s.updOp o.id fun y => { y with wait := none }) v →
    v.groups = s.groups →
    Brings (.staComplete o.id) s fun t => t = { v with ops := t.ops, groups := t.groups } ∧ t.over o.id) ∧
  (∀ (s : State) (o : AOp) (x : Acc) (k : Nat) (e : TlbEntry) (h : Hint) (bs : List Byte), s.Coherent → s.memOk →
    canonical x.a.va = true → x.Hits s needW k e → x.Clean s k 16 → bs.length = 16 →
    ∃ t, s.engWrite o x.who h x.a.va bs = (t, .ok []) ∧
      ∀ a, t.value a = if k ≤ a ∧ a < k + 16 then bs.getD (a - k) 0 else s.value a) ∧
  ∀ (s : State) (sid k len : Nat) (kind : CollKind), s.NamesOk → s.ListsOk → s.collReady sid k = true →
    let ms := s.collMembers sid k
    (∀ m ∈ ms, m.kind = kind ∧ m.len = len ∧ m.op.data.length = len) →
    let elem (f : FloatFmt → List Nat → Nat) (ty : CollType) (j : Nat) : Byte :=
      let w := match ty with
        | .f32 => 4
        | .bf16 => 2
      BitVec.ofNat 8 (f (match ty with
        | .f32 => fF32
        | .bf16 => fBf16) (ms.map fun m => leNat ((m.op.data.drop (w * (j / w))).take w)) / 256 ^ (j % w))
    (∀ ty, kind ≠ .bcast ty → len % 4 = 0) →
    Brings (.collRun sid k) s fun t => ∀ m ∈ ms, t.over m.op.id ∧ ∀ y, s.team? m.op.tid = some y → m.dst + len ≤ y.alloc →
      ∃ y', t.team? m.op.tid = some y' ∧
        (∀ j < len, match kind with
          | .bcast root => ∀ r ∈ ms, r.rank = root → bget y'.scratch (m.dst + j) = r.op.data.getD j 0
          | .add ty => bget y'.scratch (m.dst + j) = elem collSum ty j
          | .max ty => bget y'.scratch (m.dst + j) = elem collMax ty j) ∧
        (∀ a, (a < m.dst ∨ m.dst + len ≤ a) → bget y'.scratch a = bget y.scratch a) ∧
        ∀ ln, lineState y' ln =
          { lineState y ln with count := (lineState y ln).count - if ln ∈ linesOf m.dst len then 1 else 0 }

/-- R83 to R86, R221 to R229: the engine's pass over a granted MMAT or MMAR adds to each accumulator of the allocation the products
of its row and column, and changes no other; ACCZ clears, ACCST stores what was read, ACCLD delivers its rows, ACCGROW and
ACCSHR change the allocation; the operation is then over
(the model's choices here: log entries 5 and 47). -/
def Obligations.MatrixCompletes : Prop :=
  ∀ (s : State) (o : AOp) (y : Team), s.Runs o → s.team? o.tid = some y → s.accBadOf o = none → o.kind.badTile = none →
    let after (i : Instr) (P : State → Team → Prop) := Brings i s fun t => t.over o.id ∧ ∃ y', t.team? o.tid = some y' ∧ P t y'
    let word (t : Team) (off : Nat) : Word := BitVec.ofNat 32 (leNat ((Want.keys off 4).map (bget t.acc)))
    let words (y' : Team) (at' : Nat → Nat → Nat) (rows : Nat → Prop) (cols : Nat) (new : Nat → Nat → Word) :=
      (∀ i j, rows i → j < cols → at' i j + 4 ≤ y.accSize → word y' (at' i j) = new i j) ∧
      ∀ a, (∀ i j, rows i → j < cols → a < at' i j ∨ at' i j + 4 ≤ a) → bget y'.acc a = bget y.acc a
    (∀ cl bs ts f, s.granted cl = some o → o.kind = .mmat bs ts → mmatValid bs = true → fmtWord (mmatFmt bs) = some f →
      after (.enginePassGrant cl) fun t y' => (∀ p ∈ (t.cluster cl).table, p.1 ≠ o.id) ∧
        words y' (fun i j => mmatOff bs + 768 * i + 4 * j) (· < mmatMv bs) (mmatNv bs) fun i j =>
          let a := if (bs.getD 0x1C 0).getLsbD 0 then 0 else word y (mmatOff bs + 768 * i + 4 * j)
          match Want.mmatPairs bs ts f i j with
          | some ps => Want.mac f a ps
          | none => a) ∧
    (∀ cl off w h1 a rows b f, s.granted cl = some o → o.kind = .mmar off w h1 a rows b → fmtWord w = some f →
      after (.enginePassGrant cl) fun t y' => (∀ p ∈ (t.cluster cl).table, p.1 ≠ o.id) ∧
        words y' (fun l n => off + 256 * l + 4 * n) (fun l => hasLane rows l = true) 64 fun l n =>
          Want.mac f (word y (off + 256 * l + 4 * n)) (Want.mmarPairs a b f h1 l n)) ∧
    (s.matTurn o = true →
      let done := after (.matrixOperationComplete o.id)
      let clips (y' : Team) (off : Nat) (bs : Nat → Byte) (n : Nat) := ∀ a,
        bget y'.acc a = if off ≤ a ∧ a < off + n ∧ a < y.accSize then bs (a - off) else bget y.acc a
      (∀ off len, o.kind = .accz off len → done fun _ y' => clips y' off (fun _ => 0) len) ∧
      (∀ off src len, o.kind = .accst off src len → o.srcRead = true →
        done fun _ y' => clips y' off (fun j => o.data.getD j 0) o.data.length) ∧
      (∀ q, o.kind = .accshr q → (∀ p ∈ s.ops, p.tid = o.tid → p.cls = some .matrix → p.id < o.id → p.done = true) →
        done fun _ y' => y'.accSize = min q y.accSize ∧
          ∀ a, bget y'.acc a = if q < y.accSize ∧ q ≤ a then 0 else bget y.acc a) ∧
      (∀ q w g, o.kind = .accgrow q w → o.id = w → s.group? o.gid = some g →
        let grows := q % 16384 = 0 ∧ q ≤ 4194304 ∧ y.accSize < q ∧ s.accUsed y.core + (q - y.accSize) ≤ 4194304
        let ok := grows ∨ q % 16384 = 0 ∧ q ≤ y.accSize
        done fun t y' => (grows → y'.accSize = q) ∧ (¬ grows → y'.accSize = y.accSize) ∧
          ∃ g', t.group? o.gid = some g' ∧ (ok → g.Lands g' w (fun _ _ => 1) 1) ∧ (¬ ok → g.Lands g' w (fun _ _ => 0) 1)) ∧
      ∀ (d : List Byte) (run : Option Nat), (o.kind = .accldSp d ∧ run = none ∨ ∃ r w, o.kind = .accldReg d r w ∧ run = some r ∧ w = o.id) →
        (∀ p ∈ accScales d, s.spReady o y p.1 p.2 = true ∧ y.poisoned p.1 p.2 = false) →
        (∀ g, s.group? o.gid = some g → ∀ i < accRows d, trapped g.stat (accRow y d i).2 = 0) →
        (run = none → (∀ i < accRows d, s.locked o.tid (accDoff d + accDstr d * i) (accRowBytes d) o.id = false) →
          (accRowBytes d ≤ accDstr d ∨ accRows d ≤ 1) → done fun _ y' =>
          (∀ i < accRows d, ∀ j < accRowBytes d, (accCols d * accBits (accTarget d) % 8 = 0 ∨ j + 1 < accRowBytes d) →
            bget y'.scratch (accDoff d + accDstr d * i + j) = BitVec.ofNat 8 ((accRow y d i).1 / 256 ^ j)) ∧
          (∀ a, (∀ i < accRows d, a < accDoff d + accDstr d * i ∨ accDoff d + accDstr d * i + accRowBytes d ≤ a) →
            bget y'.scratch a = bget y.scratch a) ∧
          (accCtrl d = 42 → accRs d = 0xFFFFFFFF → accCs d = 0xFFFFFFFF → ∀ i < accRows d, ∀ j < accCols d,
            leNat ((Want.keys (accDoff d + accDstr d * i + 4 * j) 4).map (bget y'.scratch)) =
              (word y (accAoff d + accAstr d * i + 4 * j)).toNat)) ∧
        ∀ g r, run = some r → s.group? o.gid = some g → done fun t _ => ∃ g', t.group? o.gid = some g' ∧
          g.Lands g' o.id (fun l k => BitVec.ofNat 32 ((accRow y d l).1 / 2 ^ (32 * k))) (accNames d))

/-! ## Events: grids -/

/-- R231 to R235, R381: the oldest launch of a queue with room is accepted under the next sequence number, journalled, and
returned to the hart or the lanes that asked; rh.launch is refused with all ones or waits for its acceptance; a head's
dependence is met, or watched
(the model's choices here: log entry 22). -/
def Obligations.LaunchesAccepted : Prop :=
  (∀ (s : State) (part q : Nat) (l : Launch), s.NamesOk → s.memOk → s.Coherent → part < s.parts.length →
    q < (s.part part).seqs.length → ((s.part part).launches.find? fun l => recQueue l.rcd == q) = some l →
    (s.grids.filter fun g => g.part == part && g.queue == q).length < 256 →
    Brings (.launchAccept part q) s fun t =>
      let seq := (s.part part).seqs.getD q 0
      (t.part part).seqs.getD q 0 = seq + 1 ∧ (t.part part).launches.length + 1 = (s.part part).launches.length ∧
      (∃ g, t.grid? s.fresh = some g ∧ g.part = part ∧ g.queue = q ∧ g.seq = seq ∧ g.ctx = l.ctx ∧ g.rcd = l.rcd ∧
        g.st = .queued ∧ g.nextSpan = 0 ∧ (g.depMet = true ↔ leNat ((l.rcd.drop 0x30).take 8) = 0) ∧ Want.journalled s t g 1) ∧
      (l.gid = 0 → l.hart < s.harts.length → (s.hart l.hart).x.length = 31 → (t.hart l.hart).waiting = false ∧
        (t.hart l.hart).pc = (s.hart l.hart).pc + 4 ∧
        (t.hart l.hart).reg l.rd = if l.rd = 0 then 0 else BitVec.ofNat 64 seq) ∧
      ∀ g, l.gid ≠ 0 → s.group? l.gid = some g → ∃ g', t.group? l.gid = some g' ∧
        g.Lands g' l.owed (fun _ k => BitVec.ofNat 32 (seq / 2 ^ (32 * k))) 2) ∧
  (∀ (s : State) (n : Nat) (o : RhOps), s.turn = .hart n → n < s.harts.length → (s.hart n).x.length = 31 →
    let a := ((s.hart n).reg o.rs1).toNat
    let ctx := ((s.hart n).reg o.rs2).toNat % 2 ^ 16
    let same (t : State) := t.parts.map Partition.launches = s.parts.map Partition.launches
    let answers (t : State) := (t.hart n).pc = (s.hart n).pc + 4 ∧ (t.hart n).waiting = (s.hart n).waiting ∧ same t ∧
      (t.hart n).reg o.rd = if o.rd = 0 then 0 else BitVec.allOnes 64
    (a % 128 ≠ 0 → Brings (.rhLaunch o) s answers) ∧
    (a % 128 = 0 → (∀ u, s.hartPhys n .read a = (u, none) → Brings (.rhLaunch o) s fun t => same t ∧
      (t.hart n).pc = (s.hart n).pc ∧ (t.hart n).x = (s.hart n).x ∧ (t.hart n).pageFault = some (BitVec.ofNat 64 a)) ∧
      ∀ u pa, s.hartPhys n .read a = (u, some pa) →
        let part := pa / 2 ^ 48
        let r := (u.physRead part (pa % 2 ^ 48) 128).2
        let refused := s.partCount ≤ part ∨ (s.part part).ctxn ≤ ctx ∨ recValid r = false ∨
          (s.ctx? part ctx).any Ctx.ended = true
        (refused → Brings (.rhLaunch o) s answers) ∧
        (¬ refused → part < s.parts.length → Brings (.rhLaunch o) s fun t => (t.hart n).pc = (s.hart n).pc ∧
          (t.hart n).waiting = true ∧ (t.hart n).x = (s.hart n).x ∧ ∃ l, (t.part part).launches = (s.part part).launches ++ [l] ∧
            l.gid = 0 ∧ l.hart = n ∧ l.rd = o.rd ∧ l.ctx = ctx ∧ l.part = part ∧ l.rcd = r))) ∧
  ∀ (s : State) (part q : Nat) (g : Grid), s.NamesOk → s.headOf part q = some g → g.depMet = false →
    let dep : DWord := BitVec.ofNat 64 (leNat ((g.rcd.drop 0x30).take 8))
    (g.depKey.isSome = true → g.depHit = true → Brings (.dependenceSatisfied part q) s fun t =>
      t = { s with grids := t.grids, cores := t.cores } ∧ t.grid? g.uid = some { g with depMet := true, depKey := none } ∧
        ∀ c ∈ s.coresOf part, ∀ b ∈ (t.core c).l1, b.stale = false) ∧
    ∀ u v r w, g.depKey = none → s.gridReach g.uid needR dep 8 true = (u, .ok r) → u.gridRead g dep 8 (.ok r) = (v, w) →
      Brings (.dependenceSatisfied part q) s fun t => t = { v with grids := t.grids, cores := t.cores } ∧
        ∃ y, t.grid? g.uid = some y ∧
          if leNat ((g.rcd.drop 0x38).take 8) ≤ w then y.depMet = true else y.depMet = false ∧ y.depKey = some r.key

/-- R17, R19, R20, R149, R236 to R241, R382: the distributor admits the next span of the head that it serves; a span whose
teams have finished and whose operations are over retires; a grid that is done advances the generation of its RDCs, reads its
event counter, writes its completion record, adds to the counter and is gone
(the model's choices here: log entry 34). -/
def Obligations.GridsRun : Prop :=
  (∀ (s : State) (part q : Nat) (g : Grid) (cores : List Nat) (c : Ctx), s.NamesOk → s.served part = some (g, cores) →
    g.queue = q → s.ctx? part g.ctx = some c → c.ended = false → Brings (.distributorPlaceSpan part q) s fun t =>
      (∃ x, t.span? s.fresh = some x ∧ x.uid = g.uid ∧ x.index = g.nextSpan ∧ x.count = cores.length ∧ x.home = .resident ∧
        x.cluster = cores.headD 0 / 4 ∧ x.reserve = leNat ((g.rcd.drop 0x24).take 4) % 2048 * cores.length ∧ x.tiles = []) ∧
      (∃ g', t.grid? g.uid = some g' ∧ g'.nextSpan = g.nextSpan + 1 ∧
        (g'.issued = true ↔ g.teamCount ≤ (g.nextSpan + 1) * g.spanSize)) ∧
      (∀ k, k ≠ g.uid → (t.grid? k).map Grid.st = (s.grid? k).map Grid.st) ∧
      ∀ r < cores.length, ∃ y, t.rankTeam s.fresh r = some y ∧ y.rank = r ∧ y.core = cores.getD r 0 ∧
        y.t = g.nextSpan * g.spanSize + r ∧ y.alloc = g.alloc r ∧ y.accSize = leNat ((g.rcd.drop 0x20).take 4) ∧
        y.finished = false ∧ y.scratch = [] ∧ y.acc = [] ∧
        ((t.groups.filter fun z => z.tid == y.tid).map Group.grpix) = List.range g.groupCount ∧
        ∀ z ∈ t.groups, z.tid = y.tid → z.core = cores.getD r 0 ∧ z.kind = .ordinary ∧ z.part = g.part ∧ z.ctx = g.ctx ∧
          (z.producer = true ↔ z.grpix < g.pgrp) ∧ z.allot = 16 * (if z.grpix < g.pgrp then g.pbud else g.cbud) ∧
          (∀ l < 32, z.lane l = { pc := BitVec.ofNat 64 (leNat (g.rcd.take 8)) }) ∧ ∀ l n, l < 32 → z.scalar n l = 0) ∧
  (∀ (s : State) (x : Span), s.NamesOk → s.span? x.sid = some x → s.spanOver x = true →
    (∀ o ∈ s.ops, o.sid = x.sid → s.group? o.gid = none ∧ ∀ y, s.team? o.tid = some y → y.poison = []) →
    Brings (.spanRetire x.sid) s fun t => t.span? x.sid = none ∧ (∀ y ∈ t.teams, y.sid ≠ x.sid) ∧
      (∀ y ∈ s.teams, y.sid ≠ x.sid → y ∈ t.teams) ∧ (∀ k, k ≠ x.sid → t.span? k = s.span? k) ∧ t.groups = s.groups ∧
      ∀ g, s.grid? x.uid = some g → t.grid? x.uid = some { g with
        teams := g.teams + x.count, mcdisc := g.mcdisc || x.mcdisc, collabs := g.collabs || x.collabs
        bcdisc := g.bcdisc || x.bcdisc, engflt := g.engflt || x.engflt }) ∧
  (∀ (s : State) (g : Grid), s.NamesOk → s.grid? g.uid = some g → g.bumped = false →
    (s.gridIdle g = true ∨ ∃ c, g.st = .failed c) → s.dies.length = 4 → g.part < s.partCount → s.partCount ≤ 4 →
    Brings (.gridComplete g.uid) s fun t => t = { s with grids := t.grids, dies := t.dies } ∧
      t.grid? g.uid = some { g with bumped := true } ∧ ∀ d < 4,
        t.die d = if g.part * s.dieCount ≤ d ∧ d < (g.part + 1) * s.dieCount
          then { s.die d with gen := (s.die d).gen + 1 } else s.die d) ∧
  ∀ (s : State) (g : Grid), s.NamesOk → s.memOk → s.Coherent → s.grid? g.uid = some g → s.complReady g = true →
    g.bumped = true →
    let ev : DWord := BitVec.ofNat 64 (leNat ((g.rcd.drop 0x48).take 8))
    let cmp : DWord := BitVec.ofNat 64 (leNat ((g.rcd.drop 0x40).take 8))
    (g.compl = .no → ev = 0 → Brings (.gridComplete g.uid) s fun t => Want.journalled s t g 3 ∧
      (∃ y, t.grid? g.uid = some y ∧ y.compl = .completing ∧ y.evOut = true) ∧
      ∀ c ∈ s.coresOf g.part, ∀ k, t.dirtyIn (c / 4) k = false) ∧
    (∀ u r, g.compl ≠ .no → g.recOut = false → cmp ≠ 0 → s.gridReach g.uid needW cmp 32 false = (u, .ok r) → u.memOk →
      u.Coherent → Brings (.gridComplete g.uid) s fun t => Want.memNat t r.key 8 = g.seq % 2 ^ 64 ∧
        Want.memNat t (r.key + 8) 4 = Want.complStatus g % 2 ^ 32 ∧ Want.memNat t (r.key + 12) 4 = g.gridh.toNat ∧
        Want.memNat t (r.key + 16) 8 = g.teams % 2 ^ 64 ∧ Want.memNat t (r.key + 24) 8 = s.clockOf g.part % 2 ^ 64 ∧
        ∃ y, t.grid? g.uid = some y ∧ y.recOut = true) ∧
    (g.compl ≠ .no → g.recOut = true → g.evOut = true → Brings (.gridComplete g.uid) s fun t => t.grid? g.uid = none ∧
      Want.journalled s t g 0) ∧
    ∀ u v r n, g.compl ≠ .no → g.recOut = true → g.evOut = false → s.gridReach g.uid needRW ev 8 true = (u, .ok r) →
      u.gridRead g ev 8 (.ok r) = (v, n) → v.memOk → v.Coherent → (g.compl = .completing ∨ n = g.oldev.toNat) →
      (∀ j k, j = (s.part g.part).jrn0 ∨ j = (s.part g.part).jrn1 → Want.journalAt s g j = some k →
        r.key + 8 ≤ k ∨ k + 256 ≤ r.key) →
      Brings (.gridComplete g.uid) s fun t => t.grid? g.uid = none ∧ Want.memNat t r.key 8 = (n + 1) % 2 ^ 64

/-! ## Events: groups and spans -/

/-- R24, R36, R189: a yielding lane that the group has issued without goes on, and so does every one where no lane is
eligible; a group that waits to issue is promoted; a fired monitor delivers its value and its lane leaves the wait
(the model's choices here: log entry 33). -/
def Obligations.GroupsGoOn : Prop :=
  (∀ (s : State) (g : Group), s.NamesOk → s.group? g.gid = some g → g.lanes.length = 32 →
    Brings (.yieldRelease g.gid) s fun t => t = { s with groups := t.groups } ∧
      (∀ k, k ≠ g.gid → t.group? k = s.group? k) ∧ ∃ g', t.group? g.gid = some g' ∧
        (∀ l met next, l < 32 → (g.lane l).wait = .yield met next → (met = true ∨ g.eligibleLanes = []) →
          (g.lane l).exited = false → (g.lane l).hold = .free → (g.lane l).replay.bind Replay.cont = none →
          (g'.lane l).wait = .none ∧ (g'.lane l).pc = next) ∧
        ∀ l, (∀ met next, (g.lane l).wait ≠ .yield met next) → g'.lane l = g.lane l) ∧
  (∀ (s : State) (g : Group), s.group? g.gid = some g → g.kind.isFull = false → g.park = .none → g.eligibleLanes ≠ [] →
    Brings (.groupPromotion g.gid) s fun t => t = { s with groups := t.groups } ∧
      t.group? g.gid = some { g with promoted := true }) ∧
  ∀ (s : State) (m : Monitor) (g : Group) (v next : DWord), (s.monitors.find? fun y => y.id == m.id) = some m →
    m.fired = some v → s.group? m.gid = some g → m.lane < g.lanes.length → (g.lane m.lane).hold = .free →
    (g.lane m.lane).wait = .waitv m.id next → (g.lane m.lane).replay.bind Replay.cont = none → m.dst.Nodup →
    Brings (.waitvMonitorDeliver m.id) s fun t => (∀ y ∈ t.monitors, y.id ≠ m.id) ∧ ∃ g', t.group? m.gid = some g' ∧
      (g'.lane m.lane).wait = .none ∧ (g'.lane m.lane).pc = next ∧
      (∀ k n, m.dst[k]? = some n → k < (if m.w64 then 2 else 1) → n < 1024 → n < g.allot →
        (g'.lane m.lane).name n = v.extractLsb' (32 * k) 32) ∧
      ∀ l, l ≠ m.lane → (g'.lane l).pc = (g.lane l).pc ∧ (g'.lane l).wait = (g.lane l).wait ∧
        (g'.lane l).names = (g.lane l).names

/-- R32, R247, R248, R350, R362: pre-emption is asked for by a page that stays out, by a head of smaller PRIO that finds no
place, and by system software; it is forced when its timer runs out, and withdrawn when no group is parked on a page
(the model's choices here: log entry 33). -/
def Obligations.PreemptionAsked : Prop :=
  ∀ (s : State), s.NamesOk →
    let asks (i : Instr) (x : Span) (c : PreCause) := Brings i s fun t => t = { s with spans := t.spans } ∧
      t.span? x.sid = some { x with pre := some c, forced := false } ∧ ∀ k, k ≠ x.sid → t.span? k = s.span? k
    let able (x : Span) := s.span? x.sid = some x ∧ x.home = .resident ∧ x.pre = none ∧ s.cellarFits x = true
    (∀ g x, s.group? g.gid = some g → s.spanOf g = some x → able x → s.pageParked g = true → g.kind = .ordinary →
      asks (.pageParkTimeout g.gid) x .page) ∧
    (∀ part q g x, s.headOf part q = some g → g.depMet = true → s.nextSite g = none →
      (∀ y ∈ s.spans, s.spanPart y = part → y.pre ≠ some .priority) → s.victim g = some x →
      g.prio < s.spanPrio x ∧ able x ∧ asks (.priorityPreemption part q) x .priority ∧
        ∀ y ∈ s.spans, able y → s.spanPart y = g.part → s.spanPrio x < s.spanPrio y →
          (((s.groupsOf y.sid).foldl (fun u z => u.updGroup z.gid Group.stow) s).leave y).nextSite g = none) ∧
    (∀ part ctx, Brings (.contextPreemptionRequest part ctx) s fun t => t = { s with spans := t.spans } ∧
      ∀ x, able x → t.span? x.sid = some
        (if (s.grid? x.uid).any (fun g => g.part == part && g.ctx == ctx) then { x with pre := some .software, forced := false }
          else x)) ∧
    (∀ x c, s.span? x.sid = some x → x.pre = some c → Brings (.forcedSaveTimeout x.sid) s fun t =>
      t = { s with spans := t.spans } ∧ t.span? x.sid = some { x with forced := true }) ∧
    ∀ x, s.span? x.sid = some x → x.pre = some .page → (∀ g ∈ s.groupsOf x.sid, s.pageParked g = false) →
      Brings (.preemptionWithdraw x.sid) s fun t =>
        t = { s with spans := t.spans } ∧ t.span? x.sid = some { x with pre := none, forced := false }

/-- R33, R34, R249, R250, R363: a span that may be saved goes to the cellar: its dirty bytes are at their homes, its teams
have no core, and each group's items are as they were, or, where its mask leaves them out, perhaps zero; a span that is ready
and first returns to the site found for it, its lanes as they were
(the model's choices here: log entries 10 and 26). -/
def Obligations.SpansMove : Prop :=
  (∀ (s : State) (x : Span), s.NamesOk → s.memOk → s.Coherent → s.span? x.sid = some x → s.saveReady x = true →
    Brings (.spanSave x.sid) s fun t =>
      t.span? x.sid = some { x with home := .cellar, away := x.pre, pre := none, forced := false } ∧
      (∀ y : Team, s.team? y.tid = some y → t.team? y.tid = some (if y.sid = x.sid then { y with core := 32 } else y)) ∧
      (∀ c ∈ s.spanCores x.sid, ∀ k, t.dirtyIn (c / 4) k = false) ∧ (∀ k, t.value k = s.value k) ∧
      ∀ g ∈ s.groupsOf x.sid, g.liveLanes ≠ [] → g.lanes.length = 32 → ∃ g', t.group? g.gid = some g' ∧ g'.away = true ∧
        g'.allot = g.allot ∧ g'.stat = g.stat ∧ g'.park = g.park ∧ g'.accs = g.accs ∧
        ∀ l < 32, (g'.lane l).pc = (g.lane l).pc ∧ (g'.lane l).link = (g.lane l).link ∧ (g'.lane l).wbase = (g.lane l).wbase ∧
          (g'.lane l).exited = (g.lane l).exited ∧ (g'.lane l).hold = (g.lane l).hold ∧
          (∀ n, (g'.lane l).name n = (g.lane l).name n ∨ x.forced = false ∧ (g'.lane l).name n = 0) ∧
          (∀ p < 63, (g'.lane l).pred p = (g.lane l).pred p ∨ x.forced = false ∧ (g'.lane l).pred p = false) ∧
          ∀ n, g'.scalar n l = g.scalar n l ∨ x.forced = false ∧ g'.scalar n l = 0) ∧
  ∀ (s : State) (x : Span) (g : Grid) (cores : List Nat), s.NamesOk → s.span? x.sid = some x → s.grid? x.uid = some g →
    s.returnReady x = true → s.returnFirst x = true → (s.part g.part).tdi ≠ .error →
    s.findSite g.part g.spanSize x.reserve ((s.ranked x.sid).map (s.askAgain g)) = some cores →
    Brings (.spanReturn x.sid) s fun t =>
      t.span? x.sid = some { x with home := .resident, cluster := cores.headD 0 / 4, away := none } ∧
      ∀ (r : Nat) (y : Team) (c : Nat), (s.ranked x.sid)[r]? = some y → cores[r]? = some c → t.team? y.tid = some { y with core := c } ∧
        ∀ z ∈ s.groups, z.tid = y.tid → z.kind = .ordinary → z.liveLanes ≠ [] → ∃ z', t.group? z.gid = some z' ∧
          z' = { z with core := c, away := false, slot := z'.slot, quarter := z'.quarter, age := z'.age } ∧ z'.quarter < 4

/-! ## Records and lamplighters -/

/-- R299, R300, R303, R307, R308: where a record lies and its fields; a fault of a lamplighter writes the second-level record,
and a second one ends the context; a record that finds no slot is kept in the core; the 768th asks for the span's
pre-emption
(the model's choices here: log entries 16 and 17). -/
def Obligations.RecordsLie : Prop :=
  (∀ (s : State) (core slot k : Nat) (r : Record), s.memOk → core < s.cores.length → r.words.length ≤ 4 →
    s.keyOf (s.partOfCore core) ((s.part (s.partOfCore core)).fqbase.toNat +
      0x20000 * (core - s.firstCore (s.partOfCore core)) + 64 * slot) = some k →
    let t := s.putRecord core slot r
    let field (off n : Nat) := Want.memNat t (k + off) n
    ({ slot := slot, rcd := r } : FSlot) ∈ (t.core core).fslots ∧ field 0 2 = r.code % 2 ^ 16 ∧
      field 2 2 = (if r.grp then 1 else 0) + (if r.late then 2 else 0) + (if r.deleg then 4 else 0) +
        16 * (if r.nw0 then 0 else r.words.length - 1) + 64 * (r.level % 8) ∧
      field 4 4 = r.lanes.toNat ∧ field 8 8 = r.pc.toNat ∧ field 16 8 = r.faddr.toNat ∧
      field 24 8 = ((r.granule.map Prod.fst).getD 0) % 2 ^ 64 ∧
      field 32 4 = (r.acc + match r.granule with
        | some (_, log2) => 256 * log2 + 8192
        | none => 0) % 2 ^ 32 ∧
      field 36 4 = r.gridh.toNat ∧ (∀ j < 4, field (40 + 4 * j) 4 = (r.words.getD j 0).toNat) ∧ field 56 8 = r.detail.toNat) ∧
  (∀ (s : State) (g : Group) (l : Nat) (f : Flt) (late grp : Bool) (pc : DWord) (ws : List Word), s.NamesOk → s.memOk →
    s.group? g.gid = some g → g.core < s.cores.length → l < 32 → (g.lane l).exited = false → (g.lane l).hold = .free →
    let t := s.raise g.gid [(l, f)] late grp pc ws false none
    (g.kind ≠ .ordinary → Want.secondCode s g.core = 0 → Want.sends s t ⟨.secondLevel, g.part, [g.core]⟩ ∧
      (∃ r, (t.core g.core).second = some r ∧ r.code = f.code ∧ r.gid = g.gid ∧ r.lanes = maskOf (· == l) ∧ r.pc = pc ∧
        ∃ g', t.group? g.gid = some g' ∧ (g'.lane l).hold = .frozen r.rid) ∧
      ∀ k, s.keyOf (s.partOfCore g.core) (s.fqArea g.core + 0x11000) = some k → Want.memNat t k 2 = f.code % 2 ^ 16) ∧
    (g.kind ≠ .ordinary → Want.secondCode s g.core ≠ 0 → Want.contextEnds s t g.part g.ctx)) ∧
  ∀ (s : State) (g : Group) (r : Record), g.kind = .ordinary → g.core < s.cores.length →
    (((s.core g.core).late ≠ [] ∨ (s.core g.core).freeFSlot = none) →
      s.placeRecord g r = s.updCore g.core fun c => { c with late := c.late ++ [r] }) ∧
    ∀ x, (s.core g.core).late = [] → (s.core g.core).fslots.length = 767 → s.spanOf g = some x →
      ((s.placeRecord g r).span? x.sid).map Span.pre = some (some (.faults g.core))

/-- R300 to R307: a lamplighter starts in the lowest free handler slot for the oldest waiting record, with the handle and
address of the record, or, with no entry or budget, its context ends; a record kept in the core takes a slot that is free;
SLCMD resumes, replays or retires the lanes of the second-level record, or ends their context
(the model's choices here: log entries 33 and 37). -/
def Obligations.HandlersServe : Prop :=
  (∀ (s u : State) (core k : Nat) (fs : FSlot) (g : Group) (v : Vectors), s.NamesOk → core < s.cores.length →
    freeSlot (s.handlerSlots core) 0 4 = some k → (s.core core).waitingRecord = some fs → s.group? fs.rcd.gid = some g →
    s.readVectors g.part (((s.ctx? g.part g.ctx).map Ctx.fvt).getD 0) = (u, v) →
    let code := fs.rcd.code
    let deleg := code = 0x0107 ∧ v.dmask.testBit 0 = true ∨ code = 0x010A ∧ v.dmask.testBit 1 = true ∨
      code = 0x010B ∧ v.dmask.testBit 2 = true ∨ code = 0x010E ∧ v.dmask.testBit 3 = true
    let entry := if deleg then v.uent else v.ent.getD (code / 256 - 1) 0
    let inc := ((u.capRead core k).2.1 + 1) % 256
    (entry = 0 ∨ v.hbud = 0 → Brings (.lamplighterStart core) s fun t => Want.contextEnds s t g.part g.ctx) ∧
    (entry ≠ 0 → v.hbud ≠ 0 → Brings (.lamplighterStart core) s fun t =>
      (∃ h, t.group? s.fresh = some h ∧ h.kind = .handler k fs.rcd.rid (decide deleg) ∧ h.core = core ∧ h.slot = 60 + k ∧
        h.part = g.part ∧ h.ctx = g.ctx ∧ h.tid = g.tid ∧ h.allot = 16 * v.hbud ∧
        h.caps = [BitVec.ofNat 32 (inc * 2 ^ 24 + k), 0, 0, 0] ∧
        h.frecp = BitVec.ofNat 64 (v.qvbase + 0x20000 * (core - s.firstCore g.part) + 64 * fs.slot) ∧
        ∀ l < 32, h.lane l = { pc := BitVec.ofNat 64 entry }) ∧
      (∃ x ∈ (t.core core).fslots, x.slot = fs.slot ∧ x.started = true ∧ x.rcd = { fs.rcd with deleg := decide deleg }) ∧
      ∀ n, n ≠ s.fresh → t.group? n = s.group? n)) ∧
  (∀ (s : State) (core slot : Nat) (r : Record) (rest : List Record), core < s.cores.length → (s.core core).late = r :: rest →
    (s.core core).freeFSlot = some slot → Brings (.faultSlotFree core slot) s fun t => (t.core core).late = rest ∧
      ({ slot := slot, rcd := r } : FSlot) ∈ (t.core core).fslots ∧ t.groups = s.groups) ∧
  ∀ (s : State) (core : Nat) (r : Record) (g : Group), s.NamesOk → core < s.cores.length → (s.core core).second = some r →
    s.group? r.gid = some g → g.lanes.length = 32 → (∀ y ∈ s.groups, y.later = []) →
    let stands (l : Nat) := l < 32 ∧ (g.lane l).exited = false ∧ (g.lane l).hold = .frozen r.rid
    let after (i : Instr) (P : Lane → Lane → Prop) := Brings i s fun t => (t.core core).second = none ∧
      ∃ g', t.group? r.gid = some g' ∧ ∀ l, stands l → P (g.lane l) (g'.lane l)
    (∀ pc, after (.slcmdResume core pc) fun y y' => y' = Want.resumedAt y pc) ∧
    (r.op = none → after (.slcmdReplay core) fun y y' => y' = Want.replaying y r (maskOf fun l => (g.lane l).live && (g.lane l).hold == .frozen r.rid)) ∧
    (Brings (.slcmdRetire core) s fun t => (t.core core).second = none ∧
      (∀ g', t.group? r.gid = some g' → ∀ l, stands l → (g'.lane l).exited = true) ∧
      ((∀ l ∈ g.liveLanes, stands l) → t.group? r.gid = none)) ∧
    Brings (.slcmdEndContext core) s fun t => (t.core core).second = none ∧ Want.contextEnds s t g.part g.ctx

/-! ## Answers -/

/-- R166, R167, R247, R280, R340, R341, R346 to R348: an answered page request is outstanding no more; a group parked on it
issues again with the answer; after a success the access is performed again and its results land; a younger access is held with
one that is parked on a page though its own translation has come; after a failure the lane that waits freezes late; Response Failure is cleared by software
(the model's choices here: log entry 17). -/
def Obligations.PagesAnswer : Prop :=
  (∀ (s u : State) (g : Group) (a : PendAcc) (q : LaneAcc) (vp : Nat) (wr : Bool) (ws : List Word) (ps : Bool),
    s.group? g.gid = some g → g.accs = [a] → a.lanes = [(q, .page vp wr)] → (∀ o, a.instr ≠ .waitv o) →
    (∀ o, a.instr ≠ .pgreq o) → (s.part g.part).pageReq? g.ctx vp wr = none →
    g.away = false → (g.lane q.lane).hold = .free → g.park = .page → q.lane < g.lanes.length → q.dst.Nodup →
    s.perform a.instr { who := { g.who with after := some vp }, gid := g.gid, tid := g.tid, pc := a.pc,
                        kind := instrAcc a.instr, a := q } = (u, .done ws ps) → u.group? g.gid = some g →
    Brings (.pageReplay g.gid) s fun t => t = { u with groups := t.groups } ∧
      ∃ g', t.group? g.gid = some g' ∧ g'.accs = [] ∧ g'.park = .none ∧ (∀ o ∈ g'.owed, o.id = a.owed → o.landed = true) ∧
        (∀ (k n : Nat) (w : Word), q.dst[k]? = some n → ws[k]? = some w → n < 1024 → n < g.allot → (g'.lane q.lane).name n = w) ∧
        (∀ d, instrLdest a.instr = some d → d.ps < 63 → (g'.lane q.lane).pred d.ps = ps) ∧
        ∀ l, l ≠ q.lane → (g'.lane l).names = (g.lane l).names ∧ (g'.lane l).pc = (g.lane l).pc) ∧
  (∀ (s : State) (part : Nat) (q : PageReq) (i : Instr) (ans : Option (Nat × DWord)), part < s.parts.length →
    (∀ o ∈ s.ops, o.wait = none) →
    (∃ val : Word, i = .prqdoneWrite part val ∧
        ((s.part part).pageReqs.find? fun q => !q.pri && q.entry == val.toNat % 512) = some q ∧
        ans = if val.getLsbD 16 then some (0x0201, 0) else none) ∨
      (∃ pasid page write code, i = .priResponse part pasid page write code ∧
        ((s.part part).pageReqs.find? fun q => q.pri && q.write == write && wide (q.vp * 4096) / 4096 == page &&
          (s.ctx? part q.ctx).any fun c => c.pasid == pasid) = some q ∧
        ans = match code with
          | .success => none
          | .invalid => some (0x0206, 1)
          | .failure => some (0x0206, 0xF)) →
    ((∀ g ∈ s.groups, g.accs = []) → Brings i s fun t => (∀ r ∈ (t.part part).pageReqs, r ≠ q) ∧
      (∀ r ∈ (s.part part).pageReqs, r ≠ q → r ∈ (t.part part).pageReqs) ∧
      ((t.part part).priFailed = true ↔ (s.part part).priFailed = true ∨ ans = some (0x0206, 0xF)) ∧
      ∀ g, s.group? g.gid = some g → g.part = part → g.ctx = q.ctx → g.park = .xlate q.vp none →
        t.group? g.gid = some (if q.write then g
          else { g with park := .answer q.vp ((ans.map Prod.fst).getD 0) ((ans.map Prod.snd).getD 0) })) ∧
    ∀ (g : Group) (a : PendAcc) (y : LaneAcc) (f : Nat × DWord), s.NamesOk → ans = some f → s.group? g.gid = some g →
      (∀ h ∈ s.groups, h ≠ g → h.accs = []) → g.part = part → g.ctx = q.ctx → g.accs = [a] →
      a.lanes = [(y, .page q.vp q.write)] → (∀ o, a.instr ≠ .pgreq o) → transBits y.va / 4096 = q.vp → y.lane < 32 →
      (g.lane y.lane).exited = false → (g.lane y.lane).hold = .free → Records s g →
      Brings i s fun t => Took t g { code := f.1, detail := f.2, faddr := y.va, acc := instrAcc a.instr }
        (maskOf (· == y.lane)) true false a.pc (encode a.instr)) ∧
  (∀ (s : State) (part : Nat) (q : AtsReq) (g : Group) (a b : PendAcc) (x y : LaneAcc) (vp pa log2 : Nat) (wr after r w e : Bool),
    s.groups = [g] → g.part = part → g.ctx = q.ctx → part < s.parts.length → q.core < s.cores.length →
    ((s.part part).atsReqs.find? fun r => r.id == q.id) = some q → q.stale = false → (∀ o ∈ s.ops, o.wait = none) →
    (∀ h ∈ s.grids, h.wait = none) → g.accs = [a, b] → a.owed ≠ b.owed → (∀ o, a.instr ≠ .pgreq o) → g.park = .page →
    a.lanes = [(x, .page vp wr)] → ((s.part part).pageReq? g.ctx vp wr).isSome = true → (g.lane x.lane).hold = .free →
    b.lanes = [(y, .ats q.id after)] → (r = true ∨ w = true) →
    Brings (.atsTranslationCompletion part q.id (.granted r w e pa log2)) s fun t => t.mem = s.mem ∧
      ∃ g', t.group? g.gid = some g' ∧ g'.park = .page ∧ g'.lanes = g.lanes ∧
        g'.accs = [a, { b with lanes := [(y, .held (if after then some q.vp else none))] }]) ∧
  ∀ (s : State) (part : Nat), s.imageBad = false → part < s.partCount → part < s.parts.length → (s.port 0).up = true →
    (s.part part).tdi = .unlocked → Brings (.priEnable part) s fun t => t = { s with parts := t.parts } ∧
      t.part part = { s.part part with priFailed := false } ∧ ∀ p, p ≠ part → t.part p = s.part p

/-- R163, R165, R166, R168, R335: an ATS completion that grants installs the piece that holds the page; one that does not
raises a page request, and a failed one is a fault; an invalidation request leaves no ATS translation of its range and is
answered; a walk sets A, D where it must and installs the leaf, or freezes its lanes with RESERVED_BIT, late but for a fetch
(the model's choices here: log entry 41). -/
def Obligations.TranslationsArrive : Prop :=
  (∀ (s : State) (part : Nat) (q : AtsReq), part < s.parts.length → q.core < s.cores.length →
    ((s.part part).atsReqs.find? fun r => r.id == q.id) = some q → q.stale = false → (∀ g ∈ s.groups, g.accs = []) →
    (∀ o ∈ s.ops, o.wait = none) → (∀ g ∈ s.grids, g.wait = none) →
    let sent (after : Bool) (g : Group) := s.group? g.gid = some g ∧ g.part = part ∧ g.ctx = q.ctx ∧
      g.park = .xlate q.vp (some (q.id, after))
    let parked (g : Group) := ∃ after, sent after g
    let gone (t : State) := ∀ r ∈ (t.part part).atsReqs, r.id ≠ q.id
    (∀ r w x pa log2, (r = true ∨ w = true) → (∀ g, parked g → (q.exec = true → x = true) ∧ (q.exec = false → r = true)) →
      Brings (.atsTranslationCompletion part q.id (.granted r w x pa log2)) s fun t => gone t ∧
        (∀ g, parked g → t.group? g.gid = some { g with park := .none }) ∧
        ∃ e ∈ (t.core q.core).tlb, e.part = part ∧ e.ctx = q.ctx ∧ e.ats = true ∧ e.r = r ∧ e.w = w ∧ e.x = x ∧
          e.u = !q.priv ∧ (e.log2 = 12 ∨ e.log2 = 16 ∨ e.log2 = 21) ∧ (12 ≤ log2 → e.log2 ≤ log2) ∧ e.vbase % 2 ^ e.log2 = 0 ∧
          e.vbase ≤ q.vp * 4096 ∧ q.vp * 4096 < e.vbase + 2 ^ e.log2 ∧
          e.pbase + (q.vp * 4096 - e.vbase) = pa / 2 ^ (max 12 log2) * 2 ^ (max 12 log2) + q.vp * 4096 % 2 ^ (max 12 log2)) ∧
    (∀ st, Brings (.atsTranslationCompletion part q.id (.failed st)) s fun t => gone t ∧
      ∀ g, parked g → t.group? g.gid = some { g with park := .answer q.vp 0x0205 (BitVec.ofNat 64 st) }) ∧
    ∀ x pa log2, Brings (.atsTranslationCompletion part q.id (.granted false false x pa log2)) s fun t => gone t ∧
      ((s.part part).priFailed = true → ∀ g, parked g → t.group? g.gid = some { g with park := .answer q.vp 0x0206 0xF }) ∧
      ((s.part part).priFailed = false → (∀ g, sent true g → t.group? g.gid = some { g with park := .answer q.vp 0x0206 0 }) ∧
        ∀ g, sent false g → t.group? g.gid = some { g with park := .xlate q.vp none })) ∧
  (∀ (s : State) (part pasid va log2 : Nat), part < s.parts.length → Want.atRest s → (s.part part).hostAtomics = [] →
    (s.part part).tdi ≠ .error → Brings (.atsInvalidationRequest part pasid va log2) s fun t => Want.sends s t ⟨.atsInvalidated, part, [pasid, va, log2]⟩ ∧
      ∀ c ∈ (s.part part).ctxs, c.pasid = pasid → c.regime = 2 →
        (∀ core ∈ s.coresOf part, ∀ e ∈ (t.core core).tlb, e.ats = true → e.part = part → e.ctx = c.ctx →
          e.vbase + 2 ^ e.log2 ≤ va % 2 ^ 57 ∨ va % 2 ^ 57 + 2 ^ log2 ≤ e.vbase) ∧
        ∀ q ∈ (t.part part).atsReqs, q.ctx = c.ctx → q.vp * 4096 < va % 2 ^ 57 + 2 ^ log2 →
          va % 2 ^ 57 < q.vp * 4096 + 4096 → q.stale = true) ∧
  (∀ (s : State) (part pasid va log2 : Nat), (s.part part).tdi = .error → Brings (.atsInvalidationRequest part pasid va log2) s
    fun t => t = { s with out := t.out } ∧ Want.sends s t ⟨.unsupported, part, []⟩) ∧
  ∀ (s u : State) (g : Group) (c : Ctx) (w : WalkReq), s.group? w.gid = some g → s.ctx? g.part g.ctx = some c →
    canonical w.va = true → c.local? (transBits w.va) = true → g.core < s.cores.length → s.memOk → s.Coherent →
    let v := transBits w.va
    let at0 := (s.cluster (g.core / 4)).walkStart g.who v c.root
    let s0 := if at0.1 < 4 then s.walkPut g.who (at0.1 + 1) v at0.2 else s
    (∀ level e addr ka, State.walkAt g.who v at0.1 s0 at0.2 = (u, .leaf level e addr) → (w.acc = .load ∨ w.acc = .store) →
      permits g.who (accNeed w.acc) (bitsAt e 1 1 == 1) (bitsAt e 2 1 == 1) (bitsAt e 3 1 == 1) (bitsAt e 4 1 == 1) = true →
      bitsAt e 61 2 ≠ 3 → u.physOf g.part addr = .mem ka → leNat ((Want.keys ka 8).map u.value) = e →
      Brings (.walkComplete w) s fun t =>
        (∀ n, n < 57 ∨ 60 < n → bitsAt (leNat ((Want.keys ka 8).map t.value)) n 1 =
          if n = 6 ∨ n = 7 ∧ w.acc = .store then 1 else bitsAt e n 1) ∧
        ∃ y, (t.core g.core).tlb.head? = some y ∧ y.part = g.part ∧ y.ctx = g.ctx ∧ y.log2 = leafLog2 level e ∧
          y.vbase = v / 2 ^ y.log2 * 2 ^ y.log2 ∧ y.pbase = leafBase e ∧ y.r = (bitsAt e 1 1 == 1) ∧
          y.w = (bitsAt e 2 1 == 1) ∧ y.x = (bitsAt e 3 1 == 1) ∧ y.u = (bitsAt e 4 1 == 1) ∧ y.ats = false) ∧
    ∀ level e, State.walkAt g.who v at0.1 s0 at0.2 = (u, .bad level e) → Records s g → w.lanes ≠ 0 → w.quiet = false →
      (∀ l, hasLane w.lanes l = true → l < 32 ∧ (g.lane l).exited = false ∧ (g.lane l).hold = .free) →
      let pc := ((lanesOf w.lanes).head?.map fun l => (g.lane l).at).getD 0
      Brings (.walkComplete w) s fun t =>
        Took t g { code := 0x0203, faddr := w.va, detail := BitVec.ofNat 64 e, level := level,
                   acc := if w.acc = .pageReq then .walk else w.acc } w.lanes (w.acc != .fetch) false pc
          (if w.acc = .fetch then [] else ((u.instrAt g pc).map encode).getD [])

/-- R275, R359, R360, R369, R372: a completion of a host atomic lands its value; the compare-and-swap loop reads, compares and
tries again; a completer without the atomic is reported, and tried by the loop, or the lane freezes, as it does at any
other refusal; a request that times out
freezes its lane, and is reported
(the model's choices here: log entries 41 and 44). -/
def Obligations.HostAnswers : Prop :=
  ∀ (s : State) (part : Nat) (a : HostAtomic) (g : Group) (acc : PendAcc) (y : LaneAcc),
    ((s.part part).hostAtomics.find? fun b => b.id == a.id) = some a → part < s.parts.length → s.group? a.gid = some g →
    g.gid = a.gid → g.accs = [acc] → acc.lanes = [(y, .host a.id)] → y.lane < 32 → (g.lane y.lane).exited = false →
    (g.lane y.lane).hold = .free → g.lanes.length = 32 → (∀ o, acc.instr ≠ .waitv o) → (∀ o, acc.instr ≠ .pgreq o) →
    a.hart = none → (s.part part).newHwtn = none →
    let cpl (c : HostCpl) := Instr.hostAtomicopCompletion part a.id c
    let gone (t : State) := ∀ b ∈ (t.part part).hostAtomics, b.id ≠ a.id
    let lands (v : Nat) := Brings (cpl (.success v)) s fun t => gone t ∧ ∃ g', t.group? g.gid = some g' ∧ g'.accs = [] ∧
      (g.park = .page → g'.park = .none) ∧ ∀ k n, y.dst[k]? = some n → k < a.w / 32 → n < 1024 → n < g.allot → y.dst.Nodup →
        (g'.lane y.lane).name n = BitVec.ofNat 32 (v / 2 ^ (32 * k))
    let asks (c : HostCpl) (p : HaPhase) (m : MsgKind) (args : List Nat) := Brings (cpl c) s fun t =>
      t = { s with parts := t.parts, out := t.out, aer := t.aer, msix := t.msix } ∧
      Want.sends s t ⟨m, part, [a.id, a.window, a.link, a.w / 8, a.win.tc] ++ args ++ s.onStream part a.win.port⟩ ∧
      ((t.part part).hostAtomics.find? fun b => b.id == a.id) = some { a with phase := p }
    let freezes (i : Instr) (f : Flt) (more : State → Prop) := Records s g → Brings i s fun t => gone t ∧ more t ∧
      Took t g { f with faddr := y.va, acc := instrAcc acc.instr } (maskOf (· == y.lane)) true false acc.pc (encode acc.instr)
    let told (what : ErrKind) (t : State) := Want.reported s t ⟨.nonFatal, 0, what⟩ ∧ Want.reported s t ⟨.nonFatal, part + 1, what⟩
    (∀ v, a.phase = .first → lands v) ∧
    (∀ v, a.phase = .read → asks (.success v) (.cas v) .cas [v, atNew a.op a.w v a.b]) ∧
    (∀ v old, a.phase = .cas old → (v = old → lands v) ∧
      (v ≠ old → asks (.success v) (.cas v) .cas [v, atNew a.op a.w v a.b])) ∧
    (a.phase = .first → a.first ≠ 3 → a.win.nofb = false → asks .unsupported .read .hostRead []) ∧
    (a.phase = .first → (a.first = 3 ∨ a.win.nofb = true) → freezes (cpl .unsupported)
      { code := 0x020B, detail := BitVec.ofNat 64 (a.window + 256 * a.first) } (told .unsupported)) ∧
    (a.phase = .read → freezes (cpl .unsupported)
      { code := 0x020B, detail := BitVec.ofNat 64 (a.window + 256 * a.first + 4096) } (told .unsupported)) ∧
    (∀ old, a.phase = .cas old → freezes (cpl .unsupported)
      { code := 0x020B, detail := BitVec.ofNat 64 (a.window + 256 * 3 + 4096) } (told .unsupported)) ∧
    (∀ st, freezes (cpl (.other st))
      { code := 0x020B
        detail := BitVec.ofNat 64 (a.window + match a.phase with
          | .first => 256 * a.first
          | .read => 256 * a.first + 4096
          | .cas _ => 256 * 3 + 4096) } fun _ => True) ∧
    ∀ port, freezes (.completionTimeout port (.hostAtomic part a.id))
      { code := 0x020D, detail := BitVec.ofNat 64 (port + 256) } (told .completionTimeout)

/-! ## Events: homes, harts, the host -/

/-- R142 to R145, R149, R150, R164, R211, R219, R351, R356, R360, R400: the snuffer takes one from each heat of a leaf and
changes nothing else of it; a sweep ends an interval; a store takes ownership or is refused; entries are dropped and rebuilt; lines are
written back, or lost with their link; a tile moves
(the model's choices here: log entries 20, 43 and 46). -/
def Obligations.HomesAct : Prop :=
  (∀ (s : State) (part : Nat), (s.part part).snuff = 0 → exec (.snufferInterval part) s = .next s) ∧
  (∀ (s u v : State) (part va l e addr k : Nat) (c : Ctx), s.Coherent → s.memOk → (s.part part).snuff ≠ 0 →
    (s.part part).ctxn = 1 → s.readCtx part 0 = (u, some c) → c.heaten = true → (c.regime = 1 ∨ c.lsize ≠ 0) →
    c.root % 8 = 0 → State.walkAt { part := part, ctx := 0, core := s.firstCore part } va 4 s c.root = (v, .leaf l e addr) →
    s.physOf part addr = .mem k → k < 2 ^ 60 → Brings (.snufferInterval part) s fun t =>
      let e' := leNat ((Want.keys k 8).map t.value)
      (∀ n, n < 57 ∨ 60 < n → bitsAt e' n 1 = bitsAt e n 1) ∧ bitsAt e' 57 2 = bitsAt e 57 2 - 1 ∧
        bitsAt e' 59 2 = bitsAt e 59 2 - 1) ∧
  (∀ (s : State) (part : Nat), s.ListsOk →
    (∀ a ∈ s.granules, a.base % 2 ^ a.log2 = 0 ∧ 4 ≤ a.log2 ∧ a.log2 ≤ 21 ∧ a.base < 2 ^ 60) →
    (∀ a ∈ s.granules, ∀ b ∈ s.granules, a = b ∨ a.base + 2 ^ a.log2 ≤ b.base ∨ b.base + 2 ^ b.log2 ≤ a.base) →
    Brings (.sweepIntervalEnd part) s fun t => t = { s with granules := t.granules } ∧
      ∀ g ∈ s.granules, s.keyIn part g.base = true → (t.granuleOf g.base).count = 0 ∧
        (t.granuleOf g.base).heat = if g.count = 0 then 0 else if g.count < 16 then 1 else if g.count < 256 then 2 else 3) ∧
  (∀ (s : State) (r : OwnReq) (g : Group) (k : Nat), s.Coherent → s.memOk → s.group? r.gid = some g → g.core < 32 →
    s.physOf g.part r.pa = .mem k → k < 2 ^ 64 →
    (s.refusing k r.bytes r.filledAt = none → (∀ i < r.bytes, s.watched (k + i) = false) → Brings (.writeOwnershipRequest r) s fun t => (∀ a, t.value a = s.value a) ∧
      ∀ i < r.bytes, t.holdsOwn (g.core / 4) (k + i) = true ∧ ∀ c < 8, c ≠ g.core / 4 → t.holdsOwn c (k + i) = false) ∧
    ∀ x, s.refusing k r.bytes r.filledAt = some x → Records s g → r.lanes ≠ 0 →
      (∀ l, hasLane r.lanes l = true → l < 32 ∧ (g.lane l).exited = false ∧ (g.lane l).hold = .free) →
      Brings (.writeOwnershipRequest r) s fun t => Took t g
        { code := 0x0202, faddr := r.va, detail := s.leafGrants g.part g.ctx needW r.va, acc := .store } r.lanes true false r.pc
        (((s.instrAt g r.pc).map encode).getD [])) ∧
  (∀ (s : State) (part pa k : Nat), s.ListsOk → s.physOf part pa = .mem k → k < 2 ^ 64 →
    let g := s.granuleOf k
    let p := partOfKey g.base
    let lies (l : Nat) := l * 64 < g.base + 2 ^ g.log2 ∧ g.base < l * 64 + 64
    let among (a : Nat) := g.base ≤ a ∧ a < g.base + 2 ^ g.log2
    let hears (a : Nat) := (a ∈ s.clustersOf p ∧ a ≠ 8 ∧ a ≠ 9 ∧ ((∃ b ∈ (s.cluster a).cc, among b.key ∧ (b.val.isSome = true ∨ b.own = true)) ∨
      ∃ c ∈ clusterCores a, ∃ b ∈ (s.core c).l1, among b.key ∧ b.stale = false)) ∨
      (a = 8 ∧ ∃ h ∈ s.harts, ∃ l ∈ h.held, lies l) ∨ a = 9 ∧ ∃ l ∈ (s.part p).hostHeld, lies l
    (g.entry = false → Brings (.crierRound part pa) s fun t => t = { s with granules := t.granules } ∧
      (t.granuleOf k).entry = true ∧ (∀ a, (t.granuleOf k).owner = some a ↔ g.owner = some a ∧ hears a) ∧
      ∀ a, a ∈ (t.granuleOf k).sharers ↔ hears a ∧ (t.granuleOf k).owner ≠ some a) ∧
    (g.owner.isSome = true → g.sharers = [] → g.hold = 0 → g.teNext = [] → g ∈ s.granules →
      Brings (.directoryEntryDrop part pa) s fun t => t = { s with granules := t.granules } ∧
        t.granuleOf k = { g with entry := false })) ∧
  (∀ (s : State) (part pa k : Nat), s.memOk → part < 4 → s.physOf part pa = .mem k → isFar k = true → k / 128 ∈ s.l2dirty →
    partOfKey k = part →
    let line := k / 128 * 128
    let other (p : Nat) := 2 ^ 60 + p * 2 ^ 56 + line % 2 ^ 56
    let takes := s.homeLost part line = false ∧ (s.port (portOfKey k)).up = true ∧ (s.port (portOfKey k)).silent = false ∧
      s.streamFlt part (portOfKey k) = none
    Brings (.homeWriteBack part pa) s fun t => k / 128 ∉ t.l2dirty ∧
      t = { s with l2dirty := t.l2dirty, behind := t.behind, poison := t.poison, mem := t.mem } ∧
      (takes → t.poison = s.poison ∧
        (∀ a, a < 2 ^ 60 ∨ 2 ^ 64 ≤ a → t.mem.get a = s.mem.get a) ∧ ∀ j < 128, t.mem.get (line + j) = s.mem.get (line + j) ∧
          ∀ p < 4, p ≠ part →
            (other p / 128 ∉ s.l2dirty → t.mem.get (other p + j) = s.mem.get (line + j)) ∧
            (other p / 128 ∈ s.l2dirty → t.mem.get (other p + j) = s.mem.get (other p + j) ∧
              ∃ b, kget Prod.fst (other p / 128) t.behind = some b ∧ b.2.getD j 0 = s.mem.get (line + j))) ∧
      (¬ takes → (∀ j < 128, t.poisoned (line + j) 1 = true) ∧
        (kget Prod.fst (k / 128) s.behind = none → t.mem = s.mem) ∧
        ∀ b, kget Prod.fst (k / 128) s.behind = some b → b.2.length = 128 →
          (∀ j < 128, t.mem.get (line + j) = b.2.getD j 0) ∧
          ∀ a, a < line ∨ line + 128 ≤ a → t.mem.get a = s.mem.get a)) ∧
  ∀ (s : State) (x : Span) (n p : Nat), s.span? x.sid = some x → (x.tile n).storage = true → p < 3 →
    (x.tiles.map Tile.name).Pairwise (· < ·) → Brings (.tilePlacementChange x.sid n p) s fun t =>
      ∃ y, t.span? x.sid = some y ∧ y.tile n = { x.tile n with place := p } ∧ ∀ m, m ≠ n → y.tile m = x.tile m

/-- R158, R271, R281: a hart's loads, stores, AMOs, LR, SC, fences and wrs.nto on bytes of HBM, at their home; a store takes away the
reservations that it meets, and a hart that waits for one goes on; under Sv57 an address without a valid entry is a page fault
(the model's choices here: log entries 24 and 32). -/
def Obligations.HartsAccess : Prop :=
  ∀ (s : State) (n : Nat), n < s.harts.length → (s.hart n).x.length = 31 → s.Coherent → s.memOk → s.imageBad = false →
    (∀ p < 4, (s.part p).newHwtn = none) →
    let does (op : HartOp) (P : State → Prop) := Brings (.applicationCoreAccess n op) s P
    let word (k b : Nat) := (Want.keys k b).map s.value
    let gets (t : State) (rd : BitVec 5) (v : DWord) := (t.hart n).reg rd = if rd = 0 then 0 else v
    let writes (t : State) (k b v : Nat) := ∀ a, t.value a = if k ≤ a ∧ a < k + b then BitVec.ofNat 8 (v / 256 ^ (a - k))
      else s.value a
    let same (t : State) := ∀ a, t.value a = s.value a
    let sv57 := (s.hart n).mode ≠ .machine ∧ (s.hart n).satp.toNat / 2 ^ 60 = 10
    ((s.hart n).waiting = false → (∀ op : HartOp, op = .fence → exec (.applicationCoreAccess n op) s = .next s) ∧
      (does .wrsNto fun t => same t ∧ ((t.hart n).waiting = true ↔ (s.hart n).resv ≠ none)) ∧
      (∀ v, does (.satp v) fun t => t = { s with harts := t.harts } ∧ t.hart n = { s.hart n with satp := v }) ∧
      (∀ m, does (.mode m) fun t => t = { s with harts := t.harts } ∧ t.hart n = { s.hart n with mode := m }) ∧
      (∀ a b k rd sx aq v rl, sv57 → a < 2 ^ 64 →
        Want.hartKey s ((s.hart n).satp.toNat % 2 ^ 44 * 4096 + 8 * (a / 2 ^ 48 % 512)) 8 k →
        (canonical (BitVec.ofNat 64 a) = false ∨ (s.value k).toNat % 2 = 0) →
        let stays (op : HartOp) := does op fun t => same t ∧
          t.hart n = { s.hart n with pageFault := some (BitVec.ofNat 64 a), resv := (t.hart n).resv }
        stays (.load rd a b sx aq) ∧ stays (.store a b v rl)) ∧
      ∀ a b k, ¬ sv57 → Want.hartKey s a b k → (b = 1 ∨ b = 2 ∨ b = 4 ∨ b = 8) →
        (∀ rd sx aq, does (.load rd a b sx aq) fun t => gets t rd (Want.extended sx (word k b)) ∧ same t) ∧
        (∀ v rl, does (.store a b v rl) fun t => writes t k b v.toNat ∧ ∀ m r w, (s.hart m).resv = some (r, w) →
          r < k + b → k < r + w → (t.hart m).resv = none) ∧
        (∀ rd op v, (b = 4 ∨ b = 8) → op ≠ .fadd → op ≠ .hadd2 → does (.amo rd a op (b == 8) v) fun t => gets t rd (Want.extended true (word k b)) ∧
          writes t k b (Want.atomic op (8 * b) (BitVec.ofNat (8 * b) (leNat (word k b))) (BitVec.ofNat (8 * b) v.toNat)).toNat) ∧
        (∀ rd aq, does (.lr rd a b aq) fun t => gets t rd (Want.extended true (word k b)) ∧ same t ∧
          (t.hart n).resv = some (k, b)) ∧
        ∀ rd v rl, does (.sc rd a b v rl) fun t => (t.hart n).resv = none ∧
          if (s.hart n).resv = some (k, b) then gets t rd 0 ∧ writes t k b v.toNat else gets t rd 1 ∧ same t) ∧
    ((s.hart n).resv = none → s.hartOut n = false → Brings (.wrsNtoWake n) s fun t => (t.hart n).waiting = false ∧
      (t.hart n).x = (s.hart n).x ∧ (t.hart n).pc = (s.hart n).pc)

/-- R270, R272 to R274, R276, R277, R279, R283, R376: the host snoops a line; its accepted requests to device memory read the
newest bytes or write them, its AtomicOps act on them, and requests turned away are answered so; it programs the HDM decoder,
MSI-X and streams of a function that is not locked, and a port's completion timeout; HWTN reads the window table,
valid entries within R272, and waits, with what comes after it, for atomics sent through an entry that changes; the control page's registers, S fields only without teams, and never on a locked interface
(the model's choices here: log entries 21 and 28). -/
def Obligations.HostActs : Prop :=
  ∀ (s : State) (part : Nat), s.Coherent → s.memOk → part < s.parts.length →
    (∀ line inval data, (s.port 0).up = true → let k := 2 ^ 64 + 64 * line
      ((∀ h ∈ (s.part part).hlines, h.line ≠ k / 64) → Brings (.hostSnoop part line inval data) s fun t =>
        Want.sends s t ⟨.snoopAnswer, part, [line, 0, 0]⟩ ∧ ∀ j < data.length, j < 64 → t.mem.get (k + j) = data.getD j 0) ∧
      ∀ h ∈ (s.part part).hlines, h.line = k / 64 → Brings (.hostSnoop part line inval data) s fun t =>
        (∃ rest, Want.sends s t ⟨.snoopAnswer, part, line :: 1 :: rest⟩) ∧
        (∀ y ∈ (t.part part).hlines, y.line = k / 64 → inval = false ∧ y.dirty = false) ∧
        ∀ j < 64, ∀ cl < 8, t.dirtyIn cl (k + j) = false ∧
          (inval = true → (ccGet (t.cluster cl) (k + j)).bind CcByte.val = none)) ∧
    (∀ base addr stream, (s.port 0).up = true → (s.part part).hdmBase = some base → s.imageBad = false → part < s.partCount →
      let off := addr - base
      let k := part * 2 ^ 56 + off
      let inside (n : Nat) := base ≤ addr ∧ addr + n ≤ base + s.hbmSize part
      let clean (n : Nat) := s.foundBad (k / 16 * 16) ((k + n + 15) / 16 * 16 - k / 16 * 16) = false
      let admitted := (s.part part).tdi ≠ .error ∧ ((s.part part).tdi = .run →
        ∃ i, stream = some i ∧ ∃ x ∈ s.streams, x.id = i ∧ x.part = some part)
      (∀ op, ¬ admitted → ((∃ n, op = .read n) ∨ ∃ bs, op = .write bs) → Brings (.hostHdmRequest part addr stream op) s fun t =>
        t = { s with out := t.out } ∧ Want.sends s t ⟨.hdmUnsupported, part, [addr]⟩) ∧
      (∀ op n x y, ¬ admitted → Brings (.hostAtomicopRequest part addr stream op n x y) s fun t => t = { s with out := t.out } ∧
        Want.sends s t ⟨.atomicUnsupported, part, [addr]⟩) ∧
      (∀ n, admitted → inside n → 0 < n → s.lostIn part k n = false → clean n →
        Brings (.hostHdmRequest part addr stream (.read n)) s fun t => (∀ a, t.value a = s.value a) ∧
          Want.sends s t ⟨.hdmData, part, addr :: (Want.keys k n).map fun a => (s.value a).toNat⟩) ∧
      (∀ bs, admitted → inside bs.length → bs ≠ [] → s.lostIn part k bs.length = false →
        Brings (.hostHdmRequest part addr stream (.write bs)) s fun t => Want.sends s t ⟨.hdmData, part, [addr]⟩ ∧
          ∀ a, t.value a = if k ≤ a ∧ a < k + bs.length then bs.getD (a - k) 0 else s.value a) ∧
      ∀ op n x y, admitted → inside n → (n = 4 ∨ n = 8 ∨ n = 16 ∧ op = .cas) → addr % n = 0 → s.lostIn part k n = false →
        clean n → Brings (.hostAtomicopRequest part addr stream op n x y) s fun t =>
          let old := leNat ((Want.keys k n).map s.value)
          let new := match op with
            | .fetchAdd => old + x
            | .swap => x
            | .cas => if old = y % 256 ^ n then x else old
          Want.sends s t ⟨.atomicData, part, [addr, old]⟩ ∧
            ∀ a, t.value a = if k ≤ a ∧ a < k + n then BitVec.ofNat 8 (new / 256 ^ (a - k)) else s.value a) ∧
    (∀ addr stream b n, (s.port 0).up = true → s.imageBad = false → part < s.partCount → n < 64 →
      let asks (op : HdmOp) (P : State → Prop) := Brings (.hostHdmRequest part addr stream op) s P
      let writes (op : HdmOp) := (∃ b, op = .program b) ∨ (∃ n, op = .vector false n) ∨ (∃ n a d m, op = .msix false n a d m) ∨
        ∃ i p l, op = .stream i p l
      ((s.part part).tdi = .unlocked →
        (asks (.program b) fun t => t = { s with parts := t.parts } ∧ t.part part = { s.part part with hdmBase := some b }) ∧
        (asks (.vector false n) fun t => t = { s with errVecs := t.errVecs } ∧
          (part + 1 < s.errVecs.length → t.errVecs.getD (part + 1) 0 = n)) ∧
        (∀ a d m, asks (.msix false n a d m) fun t =>
          let key := 64 * (part + 1) + n
          let waits := ((kget Msix.key key s.msix).map Msix.pending).getD false
          kget Msix.key key t.msix = some ⟨key, a, d, m, waits && m⟩ ∧ t = { s with msix := t.msix, out := t.out } ∧
            if waits = true ∧ m = false then t.out = s.out ++ [⟨.msix, part + 1, [n, a, d]⟩] else t.out = s.out) ∧
        ∀ i, (∀ y ∈ s.streams, y.id = i → ∀ q, y.part = some q → (s.part q).tdi = .unlocked) →
          asks (.stream i 0 false) fun t => t = { s with streams := t.streams } ∧
            ∃ y ∈ t.streams, y.id = i ∧ y.link = false ∧ y.port = 0 ∧ y.user = some part) ∧
      (∀ op, writes op → (s.part part).tdi = .locked ∨ (s.part part).tdi = .run → asks op fun t =>
        (t.part part).tdi = .error ∧ (t.part part).hdmBase = (s.part part).hdmBase ∧ t.errVecs = s.errVecs ∧ t.streams = s.streams) ∧
      (∀ op, writes op → (s.part part).tdi = .error → asks op fun t =>
        t = { s with out := t.out } ∧ Want.sends s t ⟨.unsupported, part, []⟩) ∧
      ∀ port code, (code ∈ [0, 1, 2, 5, 6, 9, 10, 13, 14] → port < s.ports.length → asks (.timeout port code) fun t =>
          t = { s with ports := t.ports } ∧ t.port port = { s.port port with timeout := code }) ∧
        (code ∉ [0, 1, 2, 5, 6, 9, 10, 13, 14] → asks (.timeout port code) fun t => t = s)) ∧
    (∀ n : Word, n.toNat ≤ 256 → s.imageBad = false → part < s.partCount → (s.part part).hostAtomics = [] →
      (s.part part).newHwtn = none → Brings (.hwtnWrite part n) s fun t => (t.part part).hwtn = n.toNat ∧
      (t.part part).windows.length = n.toNat ∧
      (∀ w ∈ (t.part part).windows, w.valid = true → 2 ^ 47 ≤ w.dbase ∧ w.dbase + w.size ≤ 2 ^ 48 ∧ w.size ≠ 0 ∧
        w.dbase % 2 ^ 21 = 0 ∧ w.size % 2 ^ 21 = 0 ∧ w.hbase % 2 ^ 21 = 0 ∧ w.mode < 3 ∧ w.route < 3 ∧
        w.tc < 8 ∧ (w.mode = 0 ↔ w.route = 0) ∧ (w.mode = 0 → w.port = 0)) ∧
      ((t.part part).windows.filter Window.valid).Pairwise fun a b => a.dbase + a.size ≤ b.dbase ∨ b.dbase + b.size ≤ a.dbase) ∧
    (∀ n : Word, 256 < n.toNat → (s.part part).newHwtn = none → exec (.hwtnWrite part n) s = .next s) ∧
    (∀ (n : Word) (a : HostAtomic), n.toNat ≤ 256 → s.imageBad = false → part < s.partCount → (s.part part).newHwtn = none →
      let ws := (s.readWindows part n.toNat).2
      a ∈ (s.part part).hostAtomics → a.win ∈ (s.part part).windows → a.win.valid = true → a.win ∉ ws →
      Brings (.hwtnWrite part n) s fun t => (t.part part).windows = (s.part part).windows ∧
        (t.part part).hwtn = (s.part part).hwtn ∧ (t.part part).newHwtn = some (n.toNat, ws)) ∧
    (∀ i, (s.part part).newHwtn.isSome = true → s.imageBad = false → part < s.partCount →
      ((∃ n, i = .hwtnWrite part n) ∨ ∃ off v, i = .controlPageWrite part off v) → Brings i s fun t =>
        t = { s with parts := t.parts } ∧ t.part part = { s.part part with held := (s.part part).held ++ [i] }) ∧
    ∀ off val, s.imageBad = false → part < s.partCount → (s.part part).newHwtn = none →
      (off = 0x20 → exec (.controlPageWrite part off val) s = exec (.hwtnWrite part (val.setWidth 32)) s) ∧
      (off = 0x58 → exec (.controlPageWrite part off val) s = exec (.prqdoneWrite part (val.setWidth 32)) s) ∧
      (∀ q < 16, q < (s.part part).qown.length → off = 0x80 + 4 * q →
        Brings (.controlPageWrite part off val) s fun t =>
          t.part part = { s.part part with qown := (s.part part).qown.set q (val.setWidth 32 &&& 0x1FFFF) } ∧
          t = { s with parts := t.parts }) ∧
      ((off = 0x24 ∨ off = 0x28 ∨ off = 0x30 ∨ off = 0x38 ∨ off = 0x60 ∨ off = 0x68) →
        ((s.part part).tdi = .locked ∨ (s.part part).tdi = .run → Brings (.controlPageWrite part off val) s fun t =>
          (t.part part).tdi = .error ∧ (t.part part).layout = (s.part part).layout) ∧
        ((s.part part).tdi = .unlocked → s.hasTeams part = true → exec (.controlPageWrite part off val) s = .next s))

/-- R282 to R288, R290, R376, R384: the partition count changes only when idle, and wipes; an interface is locked, run, put in
ERROR and unlocked with a wipe; a module reset wipes the device and starts the image, with the identity key of its SHA-256, or
offers image recovery on port 0; answers of the
security processor, of image recovery and of PLDM; limits and channels
(power and temperature are free values: log entry 10; the model's other choices: log entries 9, 28 and 29). -/
def Obligations.ManagementActs : Prop :=
  ∀ (s : State), s.memOk →
    let wiped (t : State) (part : Nat) := (∀ k, part * 2 ^ 56 ≤ k → k < (part + 1) * 2 ^ 56 → t.mem.get k = 0) ∧
      (∀ g ∈ t.grids, g.part ≠ part) ∧ (t.part part).ctxs = [] ∧ (t.part part).pageReqs = [] ∧
      ∀ c ∈ s.coresOf part, (t.core c).l1 = [] ∧ (t.core c).tlb = []
    let passes (im : List Byte) := Config.versionOk im = true ∧ Config.signed im = true
    let failing (im : List Byte) := if Config.versionOk im = true then 2 else 1
    (∀ n, ((n = 1 ∨ n = 2 ∨ n = 4) ∧ ∀ p < s.partCount, s.hasTeams p = false ∧ (s.part p).tdi = .unlocked) →
      s.imageBad = false → s.parts.length = 4 → s.partCount = 1 ∨ s.partCount = 2 ∨ s.partCount = 4 →
      Brings (.partitionCountWrite n) s fun t => t.partCount = n ∧ ∀ p < s.partCount, wiped t p) ∧
    (∀ n, ¬ ((n = 1 ∨ n = 2 ∨ n = 4) ∧ ∀ p < s.partCount, s.hasTeams p = false ∧ (s.part p).tdi = .unlocked) →
      exec (.partitionCountWrite n) s = .next s) ∧
    (∀ part, part < s.parts.length → s.imageBad = false → part < s.partCount →
      let old := (s.part part).tdi
      let becomes (i : Instr) (new : Tdi) := Brings i s fun t => (t.part part).tdi = new ∧
        Want.sends s t ⟨.tdiAnswer, part, [match new with
          | .unlocked => 0
          | .locked => 1
          | .run => 2
          | .error => 3]⟩
      let open' (st : Nat) := ∀ y ∈ s.streams, y.id = st → y.link = false ∧ y.port = 0 ∧ (∀ q, y.user = some q → q = part) ∧
        (y.part = some part ∨ ∀ q, y.part = some q → (s.part q).tdi = .unlocked)
      (∀ st, open' st → becomes (.tdiConfigLock ⟨part, st⟩) (if old = .unlocked then .locked else old)) ∧
      (∀ st, ¬ open' st → becomes (.tdiConfigLock ⟨part, st⟩) old) ∧
      (∀ st, open' st → old = .unlocked → Brings (.tdiConfigLock ⟨part, st⟩) s fun t => ∃ y ∈ t.streams, y.id = st ∧ y.part = some part) ∧
      (∀ st, (∃ y ∈ s.streams, y.id = st ∧ y.part = some part) → becomes (.tdiRun part st) (if old = .locked then .run else old)) ∧
      (∀ st, (∀ y ∈ s.streams, y.id = st → y.part ≠ some part) → becomes (.tdiRun part st) old) ∧
      becomes (.tdiUnlock part) .unlocked ∧
      (old ≠ .unlocked → Brings (.tdiUnlock part) s fun t => wiped t part) ∧
      (old = .locked ∨ old = .run → Brings (.tdiError part) s fun t => (t.part part).tdi = .error ∧
        Want.reported s t ⟨.nonFatal, part + 1, .tdi⟩ ∧
        ∀ g, s.NamesOk → s.grid? g.uid = some g → g.part = part → ∃ y, t.grid? g.uid = some y ∧
          (g.compl = .no → g.st = .queued → y.st = .failed 0x020E ∧ y.issued = true)) ∧
      (old = .unlocked ∨ old = .error → exec (.tdiError part) s = .next s)) ∧
    (Brings .moduleReset s fun t => t.groups = [] ∧ t.grids = [] ∧ t.tags = [] ∧ t.partCount = 1 ∧ t.stopped = false ∧
      t.staged = none ∧ t.image = s.staged.getD s.image ∧
      (∀ k < 2 ^ 60, t.mem.get k = 0) ∧
      ((∀ p < 4, ∀ h ∈ (s.part p).hlines, h.dirty = true → 2 ^ 64 ≤ 64 * h.line ∧ h.was.length = 64) →
        (∀ b ∈ s.behind, b.2.length = 128) →
        (∀ k, 2 ^ 60 ≤ k → k / 128 ∉ s.l2dirty → (∀ p < 4, ∀ h ∈ (s.part p).hlines, h.dirty = true → h.line ≠ k / 64) →
          t.mem.get k = s.mem.get k) ∧
        ∀ line ∈ s.l2dirty, isFar (128 * line) = true → partOfKey (128 * line) < 4 → ∀ b, kget Prod.fst line s.behind = some b →
          ∀ j < 128, t.mem.get (128 * line + j) = b.2.getD j 0) ∧
      (∀ c, t.core c = {}) ∧ (∀ p, (t.part p).tdi = .unlocked) ∧
      (passes t.image → t.imageBad = false ∧ t.running = t.image ∧
        t.identity = Config.deviceKey (sha256 t.image) ∧ ∀ p ∈ t.ports, p.up = true) ∧
      (¬ passes t.image → t.imageBad = true ∧ t.running = [] ∧ t.lastFail = failing t.image ∧
        t.ports.map Port.up = (List.range s.ports.length).map (· == 0))) ∧
    (∀ pf path, (s.port 0).up = true ∨ path = .mctpSmbus → pf ≤ s.partCount → (s.imageBad = true → pf = 0) →
      let num (v : SpdmVer) := if v = .v12 then 0x12 else 0x13
      (∀ v i, Brings (.spdmRequest pf (.measurement v i path)) s fun t => t = { s with out := t.out } ∧
        Want.sends s t ⟨.spdm, pf, num v :: i :: match i with
          | 1 => [Config.romDigest]
          | 2 => (sha256 s.running).map BitVec.toNat
          | 3 => [Config.imageVersion s.running]
          | 4 => s.measurement pf 4
          | _ => []⟩) ∧
      ∀ v, Brings (.spdmRequest pf (.signature v path)) s fun t => Want.sends s t ⟨.spdm, pf, [num v, Config.signature s.free]⟩) ∧
    (∀ off piece len, s.imageBad = false → exec (.imageWrite off piece) s = .next s ∧ exec (.imageCommit len) s = .next s ∧
      exec .imageStatus s = .next s) ∧
    (s.imageBad = true →
      (∀ off piece, off % 4096 ≠ 0 ∨ piece.length ≠ 4096 → Brings (.imageWrite off piece) s fun t =>
        t = { s with out := t.out } ∧ Want.sends s t ⟨.imageAnswer, 0, [1]⟩) ∧
      (∀ off piece, off % 4096 = 0 → piece.length = 4096 → Brings (.imageWrite off piece) s fun t =>
        Want.sends s t ⟨.imageAnswer, 0, [0]⟩ ∧ (off, piece) ∈ t.pieces) ∧
      (∀ len, let image := (List.range len).map (pieceByte s.pieces)
        (passes image → Brings (.imageCommit len) s fun t => Want.sends s t ⟨.imageAnswer, 0, [0]⟩ ∧
          t.image = image ∧ t.running = image ∧ t.imageBad = false ∧ t.identity = Config.deviceKey (sha256 image) ∧
          ∀ p ∈ t.ports, p.up = true) ∧
        (¬ passes image → Brings (.imageCommit len) s fun t => Want.sends s t ⟨.imageAnswer, 0, [2]⟩ ∧
          t.image = s.image ∧ t.imageBad = true ∧ t.pieces = [] ∧ t.lastFail = failing image)) ∧
      Brings .imageStatus s fun t => t = { s with out := t.out } ∧
        Want.sends s t ⟨.imageAnswer, 0, [4096 * s.pieces.length, s.lastFail]⟩) ∧
    (s.imageBad = false → (∀ w, exec (.powerLimitWrite w) s =
        .next (if 1200 ≤ w ∧ w ≤ 2600 ∧ w % 25 = 0 then { s with powerLimit := w } else s)) ∧
      (∀ im, exec (.pldmFirmwareUpdate im) s = .next { s with staged := some im }) ∧
      (Brings .pldmMonitoring s fun t => t = { s with out := t.out, free := t.free } ∧ ∃ p q : Byte,
        Want.sends s t ⟨.pldm, 0, [p.toNat, q.toNat] ++ (s.ports.map fun p => if p.up then 1 else 0) ++ [s.aer.length]⟩)) ∧
    (s.imageBad = true → (∀ w, exec (.powerLimitWrite w) s = .next s) ∧ (∀ im, exec (.pldmFirmwareUpdate im) s = .next s) ∧
      exec .pldmMonitoring s = .next s) ∧
    ∀ ch, (ch < 512 →
      (Brings (.channelPowerDown ch) s fun t => t = { s with channels := t.channels } ∧ (ch, .powerDown) ∈ t.channels) ∧
      Brings (.channelSelfRefresh ch) s fun t => t = { s with channels := t.channels } ∧ (ch, .selfRefresh) ∈ t.channels) ∧
      (512 ≤ ch → exec (.channelPowerDown ch) s = .next s ∧ exec (.channelSelfRefresh ch) s = .next s)

/-! ## Events: errors -/

/-- R357, R359, R361, R372 to R378, R380, R381, R383, R385: links that fail, train or replay; insecure streams; poison and
on-die errors; losses, with the recovery of every partition that uses what is lost; the loss of the hub
(the model's choices here: log entries 29 and 30). -/
def Obligations.ErrorsAct : Prop :=
  ∀ (s : State), s.NamesOk →
    let told (t : State) (cls : AerClass) (part : Option Nat) (what : ErrKind) := Want.reported s t ⟨cls, 0, what⟩ ∧
      ∀ p, part = some p → Want.reported s t ⟨cls, p + 1, what⟩
    let quiet (t : State) := t = { s with aer := t.aer, out := t.out, msix := t.msix }
    (∀ port, (s.port port).up = false → exec (.linkDown port) s = .next s) ∧
    (∀ port, (s.port port).up = true → port < s.ports.length → Brings (.linkDown port) s fun t =>
      (t.port port).up = false ∧ (∀ p, p ≠ port → t.port p = s.port p) ∧ told t .nonFatal none .linkDown ∧
      (port = 0 → (∀ c ∈ t.cores, ∀ e ∈ c.tlb, e.ats = false) ∧
        ∀ p < s.partCount, p < s.parts.length → (t.part p).viral = true)) ∧
    (∀ port cap, s.imageBad = true → port ≠ 0 → exec (.linkTrained port cap) s = .next s) ∧
    (∀ port cap, port < s.ports.length → (s.imageBad = true → port = 0) → Brings (.linkTrained port cap) s fun t => t = { s with ports := t.ports } ∧
      t.port port = { s.port port with up := true, capacity := if port = 0 then 0 else cap } ∧ ∀ p, p ≠ port → t.port p = s.port p) ∧
    (∀ port < 4, Brings (.linkReplay port) s fun t => quiet t ∧ told t .correctable none .linkReplay) ∧
    (∀ st, Brings (.ideIntegrityFailure st) s fun t => told t .nonFatal ((s.streams.find? fun y => y.id == st).bind fun y => y.part.orElse fun _ => y.user) .ide ∧
      (∃ y ∈ t.streams, y.id = st ∧ y.insecure = true) ∧ ∀ y p, (s.streams.find? fun y => y.id == st) = some y →
        y.part = some p → p < s.parts.length → (s.part p).tdi = .locked ∨ (s.part p).tdi = .run → (t.part p).tdi = .error) ∧
    (∀ st, Brings (.ideStreamEstablish st) s fun t => t = { s with streams := t.streams } ∧
      (∀ y ∈ t.streams, y.id = st → y.insecure = false) ∧ t.streams.map Stream.part = s.streams.map Stream.part) ∧
    (∀ part pa k, s.keyOf part pa = some k →
      let marks (i : Instr) (k0 n : Nat) (what : ErrKind) := Brings i s fun t => told t .nonFatal (some part) what ∧
        (∀ u, u ∈ t.poison ↔ u ∈ s.poison ∨ k0 / 16 ≤ u ∧ u ≤ (k0 + n - 1) / 16) ∧
        ∀ g d, s.grid? g.uid = some g → g.depKey = some d → k0 / 16 * 16 < d + 8 → d < (k0 + n - 1) / 16 * 16 + 16 →
          ∃ y, t.grid? g.uid = some y ∧ y.st = .failed 0x020A
      marks (.poisonedDataReceived part pa) k 1 .poison ∧
      (k < 2 ^ 60 → marks (.hbmUncorrectableError part pa) (k / 64 * 64) 64 .hbm) ∧
      marks (.sramUncorrectableError (.home part k)) k 1 .sram) ∧
    (∀ g, s.group? g.gid = some g → Records s g →
      let m := maskOf fun l => (g.lane l).live && (g.lane l).hold == .free
      let pc := g.issueAddr.getD ((g.liveLanes.head?.map fun l => (g.lane l).at).getD 0)
      let freezes (site : SramSite) (d : Nat) := Brings (.sramUncorrectableError site) s fun t => told t .nonFatal (some g.part) .sram ∧
        Took t g { code := 0x020A, detail := BitVec.ofNat 64 (2 ^ 62 + d) } m true true pc
          (((s.instrAt g pc).map encode).getD [])
      m ≠ 0 → (∀ l n, freezes (.name g.gid l n) (n % 1024)) ∧ freezes (.groupState g.gid) 0x3FF) ∧
    (∀ y off, s.team? y.tid = some y →
      (Brings (.sramUncorrectableError (.accumulator y.tid off)) s fun t => t = { s with teams := t.teams, aer := t.aer, out := t.out, msix := t.msix } ∧
        ∃ y', t.team? y.tid = some y' ∧ off / 4 * 4 ∈ y'.accBad ∧ y' = { y with accBad := y'.accBad }) ∧
      Brings (.sramUncorrectableError (.scratchpad y.tid off)) s fun t => t = { s with teams := t.teams, aer := t.aer, out := t.out, msix := t.msix } ∧
        ∃ y', t.team? y.tid = some y' ∧ off / 16 ∈ y'.poison ∧ y' = { y with poison := y'.poison }) ∧
    (∀ c key, c < s.cores.length → Brings (.sramUncorrectableError (.l1 c key)) s fun t =>
      t = { s with cores := t.cores, aer := t.aer, out := t.out, msix := t.msix } ∧ told t .nonFatal (some (c / 8 / s.dieCount)) .sram ∧
      (t.core c).l1 = (s.core c).l1.map fun x => if x.key / 16 = key / 16 then { x with bad := true } else x) ∧
    (∀ c key, c < s.clusters.length → Brings (.sramUncorrectableError (.clusterCache c key)) s fun t =>
      t = { s with clusters := t.clusters, aer := t.aer, out := t.out, msix := t.msix } ∧ told t .nonFatal (some (c / 2 / s.dieCount)) .sram ∧
      (t.cluster c).cc = (s.cluster c).cc.map fun x => if x.key / 16 = key / 16 ∧ x.val ≠ none then { x with bad := true } else x) ∧
    (∀ d key, d < s.dies.length → Brings (.sramUncorrectableError (.rdc d key)) s fun t =>
      t = { s with dies := t.dies, aer := t.aer, out := t.out, msix := t.msix } ∧ told t .nonFatal (some (d / s.dieCount)) .sram ∧
      (t.die d).rdc = (s.die d).rdc.map fun x => if x.key / 16 = key / 16 then { x with bad := true } else x) ∧
    (∀ x name off, s.span? x.sid = some x → (x.tiles.map Tile.name).Pairwise (· < ·) → (x.tile name).st = .defined → off < 8192 →
      Brings (.sramUncorrectableError (.tile x.sid name off)) s fun t => told t .nonFatal (some (s.spanPart x)) .sram ∧
        ∃ y, t.span? x.sid = some y ∧ off / 16 ∈ (y.tile name).bad ∧ (y.tile name).bytes = (x.tile name).bytes) ∧
    (∀ c n, Brings (.sramUncorrectableError (.translation c n)) s fun t => told t .correctable none .correctedEcc ∧
      (c < s.cores.length → (t.core c).tlb = (s.core c).tlb.eraseIdx n)) ∧
    (∀ c n, Brings (.sramUncorrectableError (.walkCache c n)) s fun t => told t .correctable none .correctedEcc ∧
      (c < s.clusters.length → (t.cluster c).walk = (s.cluster c).walk.eraseIdx n)) ∧
    (∀ d, exec (.sramUncorrectableError (.directory d)) s = exec (.dieLoss (.die d)) s ∧
      exec (.sramUncorrectableError (.granary d)) s = exec (.dieLoss (.die d)) s) ∧
    (∀ d, Brings (.correctedEccError d) s fun t => quiet t ∧ told t .correctable (some (d / s.dieCount)) .correctedEcc) ∧
    (∀ (l : Loss) (i : Instr) (p code : Nat), p < s.partCount → p < s.parts.length → s.partCount = 1 ∨ s.partCount = 2 ∨ s.partCount = 4 →
      (s.part p).tdi = .unlocked →
      (i = .dieLoss l ∧ (∃ d, l = .die d ∧ d / s.dieCount = p ∨ l = .stack d ∧ d / 2 / s.dieCount = p) ∧ code = 0x020A ∨
        (∃ a b, l = .link a b ∧ (i = .dieLoss l ∨ i = .ucieRetrainTimeout a b) ∧ (a / s.dieCount = p ∨ a = 4) ∧
          (b / s.dieCount = p ∨ b = 4) ∧ (a / s.dieCount = p ∨ b / s.dieCount = p)) ∧
          code = 0x020C) →
      Brings i s fun t => told t .fatalPartition (some p) .dieLoss ∧
        (∀ d, l = .die d → d < s.dies.length → (t.die d).lost = true) ∧
        (∀ c ∈ s.coresOf p, (t.core c).l1 = [] ∧ (t.core c).tlb = [] ∧ (t.core c).fslots = []) ∧
        (∀ x ∈ t.spans, ∀ g, s.grid? x.uid = some g → g.part ≠ p) ∧
        ∀ g, s.grid? g.uid = some g → g.part = p → ∃ y, t.grid? g.uid = some y ∧ y.seq = g.seq ∧ y.rcd = g.rcd ∧
          if g.compl ≠ .no then y.compl = .again ∧ y.recOut = false
          else if g.st ≠ .queued then y.st = g.st
          else if 0 < g.nextSpan ∧ (leNat ((g.rcd.drop 0x28).take 4)).testBit 9 = false then y.st = .failed code ∧ y.issued = true
          else y.st = .queued ∧ y.nextSpan = 0 ∧ y.issued = false ∧ y.teams = 0) ∧
    Brings .hubDieLoss s fun t => t.stopped = true ∧ (∀ p ∈ t.ports, p.up = false) ∧ told t .fatalModule none .hubLoss

/-! ## The machine as a whole -/

/-- Words written out from the spec's encodings decode to the instructions they stand for: a branch, GUARD, a store with release
at device scope, a load of 8 bytes, a tile definition, MMAR, a barrier's arrival, and rh.launch; a word of an opcode that stands
for none decodes to none. -/
def Obligations.WordsDecode : Prop :=
  decodeTableWord 32 0x0C140009 = some (.br { p := 2, n := true, off := 9, m := none }) ∧
  decodeTableWord 32 0x08090000 = some (.guard { p := 1, n := false, cnt := 2, m := none }) ∧
  decodeTableWord 64 0x47F40000940017EF = some (.st
    { a := .reg (.v 2), b := .reg .zero, off := 0, w := .w32, ord := .sync, scope := .device, hint := .normal, la := 15
      m := none }) ∧
  decodeTableWord 64 0x63F000089020100F = some (.ld
    { d := .v 8, a := .reg (.v 2), off := 8, w := .w64, ord := .weak, scope := .core, hint := .normal, ps := 63, la := 15
      m := none }) ∧
  decodeTableWord 64 0x03F00000E053F00F = some (.tdefSp { d := .v 20, a := .reg .zero, la := 15, m := none }) ∧
  decodeTableWord 64 0x03F00000F5F8014F = some (.mmar { d := .zero, run := 0, b := .reg (.v 20), h1 := false, reuse := false
                                                        la := 15, m := none }) ∧
  decodeTableWord 64 0x07F00000D843A00F = some (.bararr { d := .v 16, a := .reg (.s 4), la := 15, m := none }) ∧
  decodeTableWord 32 (0x0B + 5 * 2 ^ 7 + 2 * 2 ^ 12 + 6 * 2 ^ 15 + 7 * 2 ^ 20) = some (.rhLaunch { rd := 5, rs1 := 6, rs2 := 7 }) ∧
  decodeTableWord 32 0xFC000000 = none

/-- R57 to R69: every well-formed instruction decodes from its words to itself, with every operand at every value; every
instruction that the decoder gives is well-formed, and has those words and no others. -/
def Obligations.DecodeInvertsEncode : Prop :=
  (∀ i : Instr, i.wellFormed = true → decodeList (encode i) = .ok i) ∧
  ∀ (w0 w1 w2 w3 : Word) (i : Instr), decodeWords w0 w1 w2 w3 = .ok i →
    i.wellFormed = true ∧ encode i = [w0, w1, w2, w3].take (encode i).length

/-- R5, R22, R25, R36, R63, R301, R306, R320, R325: the group that issues next is ready; among the ready groups of its quarter
lamplighters that are not delegated come first, then promoted groups, the oldest first; and some group issues when one is
ready. A group that is owed no result, with no access that it went on past, begins any instruction that is not barred to it
and no control instruction under a guard: in the lanes that stand at the issue address, of which those take part that
their guard enables (the model's choices here: log entry 33). -/
def Obligations.OldestIssues : Prop :=
  (∀ (s : State) (g : Group), s.pick = some g → g ∈ s.groups ∧ s.ready g = true ∧
    ∀ h ∈ s.groups, h.core = g.core → h.quarter = g.quarter → s.ready h = true →
      if g.kind.isFull = false then h.kind.isFull = false ∧ (h.promoted = true → g.promoted = true) ∧
        (g.promoted = h.promoted → g.age ≤ h.age)
      else h.kind.isFull = true → g.age ≤ h.age) ∧
  (∀ (s : State) (g : Group), g ∈ s.groups → s.ready g = true → g.core < 32 → g.quarter < 4 → s.pick.isSome = true) ∧
  ∀ (s : State) (g : Group) (i : Instr) (ia : DWord), s.group? s.cur = some g → g.issueAddr = some ia →
    instrBarred g.kind i = false → (instrControl i = true → ∀ l < 32, (g.lane l).guardCnt = 0) → g.owed = [] → g.running = [] →
    ∃ x, s.begin i = .go x ∧ x.ia = ia ∧ x.es = lanes32.filter g.stands ∧ x.ts = x.es.filter (fun l => (g.lane l).enabled) ∧
      x.g.lanes = g.lanes ∧ ∀ l, x.lookFault (instrUses x.g.latch.isSome i) l = none

/-- R23, R57, R295: a step executes what came from outside, else what its turn brings: the instruction that the fetched words of
the next group decode to, its fetch fault, or its wait; one of the part's own events; a hart's custom instruction, a bad
encoding of rh.tlbi as an illegal instruction, any other word not at all, as the spec gives it no meaning. Beside that
one beat passes and the turn goes on (log entries 1 and 4). -/
def Obligations.StepRunsDecoded : Prop :=
  (∀ (w0 w1 w2 w3 : Word) (i : Instr), decodeWords w0 w1 w2 w3 = .ok i → issueOfWords [w0, w1, w2, w3] = i) ∧
  (∀ (s : State) (i : Instr) (rest : List Instr), s.stopped = false → s.inputs = i :: rest →
    step s = ticked s.turn (exec i { s with inputs := rest })) ∧
  (∀ (s : State) (g : Group) (t : State), s.stopped = false → s.inputs = [] → s.turn = .issue → s.pick = some g →
    (∀ ws, (s.rotate g).fetchNext g = (t, .words ws) → step s = ticked .device (exec (issueOfWords ws) { t with cur := g.gid })) ∧
    (∀ f pc, (s.rotate g).fetchNext g = (t, .flt f) → g.issueAddr = some pc →
      step s = ticked .device (exec (.fetchFault g.gid pc) { s.rotate g with cur := g.gid })) ∧
    ∀ p, (s.rotate g).fetchNext g = (t, .wait p) → step s = .next ((t.park g.gid p).tick .device)) ∧
  (∀ (s : State) (i : Instr), s.stopped = false → s.inputs = [] → s.turn = .device →
    s.events[s.beat / 2 % s.events.length]? = some i → step s = ticked .issue (exec i s)) ∧
  (∀ (s u : State) (n : Nat), s.stopped = false → s.inputs = [] → s.turn = .hart n → (s.hart n).waiting = false →
    s.imageBad = false →
    (s.hartPhys n .fetch (s.hart n).pc.toNat = (u, none) → step s = .next (u.tick .issue)) ∧
    ∀ (t : State) (pa : Nat) (bs : List Byte), s.hartPhys n .fetch (s.hart n).pc.toNat = (u, some pa) →
      u.physRead (pa / 2 ^ 48) (pa % 2 ^ 48) 4 = (t, bs) →
      (∀ i, decodeRh (BitVec.ofNat 32 (leNat bs)) = some i → step s = ticked .issue (exec i t)) ∧
      (decodeRh (BitVec.ofNat 32 (leNat bs)) = none → isRhTlbi (leNat bs) = true →
        step s = .next ((t.updHart n fun h => { h with illegal := true }).tick .issue)) ∧
      (decodeRh (BitVec.ofNat 32 (leNat bs)) = none → isRhTlbi (leNat bs) = false → step s = .refused .hartInstruction)) ∧
  (∀ (s : State), s.stopped = true → (∀ rest, s.inputs ≠ .moduleReset :: rest) → step s = .fault .moduleStopped) ∧
  ∀ (s : State) (u : Turn), ticked u (.next s) = .next (s.tick u) ∧ (s.tick u).beat = s.beat + 1 ∧ (s.tick u).turn = u

/-- R142, R153, R277, R282, R287, R288: what reset leaves, as the spec gives it: nothing resident, HBM and tags zero, undivided
granules, no translation, one partition, no queue granted, the sweep and snuffer intervals, the power limit; and the state's
invariants hold (bytes outside HBM, the partition count and the interfaces' states are the model's choices: log entries 2
and 3). -/
def Obligations.ResetLeaves : Prop :=
  let s := State.reset
  s.groups = [] ∧ s.teams = [] ∧ s.spans = [] ∧ s.grids = [] ∧ s.ops = [] ∧ (∀ k, s.mem.get k = 0) ∧ (∀ k, s.tagOf k = 0) ∧
    (∀ k < 2 ^ 64, s.granuleOf k = { base := k / 2 ^ 21 * 2 ^ 21, log2 := 21 }) ∧ (∀ c < 32, (s.core c).tlb = [] ∧ (s.core c).l1 = []) ∧
    s.partCount = 1 ∧ (∀ q < 16, (s.part 0).granted q 0 = false) ∧ (s.part 0).ctxn = 0 ∧ (s.part 0).sweep = 6 ∧
    (s.part 0).snuff = 7 ∧ (s.part 0).tdi = .unlocked ∧ s.powerLimit = 2600 ∧ s.memOk ∧ s.ListsOk ∧ s.NamesOk ∧ s.Coherent

/-- An invariant of every step: memory keeps its canonical form, so that equal memories are equal data. -/
def Obligations.StepKeepsMemory : Prop :=
  ∀ s t : State, s.memOk → step s = .next t → t.memOk

/-- An invariant of every step: live objects keep names of their own, and scratchpads, accumulators, lines, tiles, tags and
granules their canonical forms. -/
def Obligations.StepKeepsNames : Prop :=
  ∀ s t : State, s.NamesOk → s.ListsOk → step s = .next t → t.NamesOk ∧ t.ListsOk

/-- R137, R142, R400 as an invariant of every step: one L1 at most holds a byte dirty, and while a cluster holds a byte dirty or
owns it no other cluster's cache holds it. -/
def Obligations.StepKeepsCaches : Prop :=
  ∀ s t : State, s.Coherent → step s = .next t → t.Coherent
end

