-- ==== Sys2Proof/Laws/Memory.lean ====
section
/-!
SUPPORT. Sparse byte maps and memory: reading after a write, and the canonical form that every memory operation keeps.
-/
namespace Sys2Proof.Machine

/-! ## Keyed lists -/

/-- Keys strictly rise from `lo` on. -/
def rising {α : Type} (key : α → Nat) : Nat → List α → Prop
  | _, [] => True
  | lo, x :: xs => lo ≤ key x ∧ rising key (key x + 1) xs

theorem rising_mono {α : Type} {key : α → Nat} {lo lo' : Nat} {xs : List α} (h : lo' ≤ lo) (hx : rising key lo xs) :
    rising key lo' xs := by
  cases xs with
  | nil => trivial
  | cons x xs => exact ⟨Nat.le_trans h hx.1, hx.2⟩

theorem kget_none_of_lt {α : Type} {key : α → Nat} {lo k : Nat} {xs : List α} (hx : rising key lo xs) (h : k < lo) :
    kget key k xs = none := by
  induction xs generalizing lo with
  | nil => rfl
  | cons x xs ih =>
    have := hx.1
    rw [kget, if_neg (by omega)]
    exact ih hx.2 (by omega)

/-- Reading back the element put. -/
theorem kget_kset_self {α : Type} (key : α → Nat) (x : α) (xs : List α) : kget key (key x) (kset key x xs) = some x := by
  induction xs with
  | nil => simp [kset, kget]
  | cons y ys ih =>
    unfold kset
    split
    · simp [kget]
    · split
      · simp [kget]
      · rename_i h1 h2
        rw [kget, if_neg (fun e => h2 e.symm)]
        exact ih

/-- Any other key reads as before. -/
theorem kget_kset_other {α : Type} (key : α → Nat) (x : α) (xs : List α) {k : Nat} (h : k ≠ key x) :
    kget key k (kset key x xs) = kget key k xs := by
  induction xs with
  | nil => simp [kset, kget, Ne.symm h]
  | cons y ys ih =>
    unfold kset
    split
    · rw [kget, if_neg (Ne.symm h)]
    · split
      · rename_i h1 h2
        rw [kget, if_neg (Ne.symm h), kget, if_neg (by omega)]
      · rw [kget, kget, ih]

theorem kset_rising {α : Type} {key : α → Nat} {x : α} {lo : Nat} {xs : List α} (hx : rising key lo xs) (h : lo ≤ key x) :
    rising key lo (kset key x xs) := by
  induction xs generalizing lo with
  | nil => exact ⟨h, trivial⟩
  | cons y ys ih =>
    unfold kset
    split
    · exact ⟨h, by omega, hx.2⟩
    · split
      · rename_i h1 h2
        exact ⟨h, h2 ▸ hx.2⟩
      · exact ⟨hx.1, ih hx.2 (by omega)⟩

theorem kdel_rising {α : Type} {key : α → Nat} {k lo : Nat} {xs : List α} (hx : rising key lo xs) :
    rising key lo (kdel key k xs) := by
  induction xs generalizing lo with
  | nil => trivial
  | cons y ys ih =>
    unfold kdel
    split
    · exact rising_mono (by have := hx.1; omega) hx.2
    · exact ⟨hx.1, ih hx.2⟩

/-- A key removed from rising keys is not there any more. -/
theorem kget_kdel_self {α : Type} {key : α → Nat} {k lo : Nat} {xs : List α} (hx : rising key lo xs) :
    kget key k (kdel key k xs) = none := by
  induction xs generalizing lo with
  | nil => rfl
  | cons y ys ih =>
    unfold kdel
    split
    · rename_i h
      exact kget_none_of_lt hx.2 (by omega)
    · rename_i h
      rw [kget, if_neg h]
      exact ih hx.2

theorem kget_kdel_other {α : Type} (key : α → Nat) (xs : List α) {k k' : Nat} (h : k' ≠ k) :
    kget key k' (kdel key k xs) = kget key k' xs := by
  induction xs with
  | nil => rfl
  | cons y ys ih =>
    unfold kdel
    split
    · rename_i hy
      rw [kget, if_neg (by omega)]
    · rw [kget, kget, ih]

/-! ## Sparse bytes -/

/-- What the canonical form says. -/
theorem risingFrom_iff (lo : Nat) (m : List (Nat × Byte)) :
    risingFrom lo m = true ↔ rising Prod.fst lo m ∧ ∀ c ∈ m, c.2 ≠ 0 := by
  induction m generalizing lo with
  | nil => simp [risingFrom, rising]
  | cons c cs ih =>
    obtain ⟨k, b⟩ := c
    simp only [risingFrom, rising, Bool.and_eq_true, decide_eq_true_eq, bne_iff_ne, ih, List.mem_cons, forall_eq_or_imp]
    constructor
    · rintro ⟨⟨h1, h2⟩, h3, h4⟩; exact ⟨⟨h1, h3⟩, h2, h4⟩
    · rintro ⟨⟨h1, h3⟩, h2, h4⟩; exact ⟨⟨h1, h2⟩, h3, h4⟩

theorem mem_kset {α : Type} {key : α → Nat} {x y : α} {xs : List α} (h : y ∈ kset key x xs) : y = x ∨ y ∈ xs := by
  induction xs with
  | nil => simpa [kset] using h
  | cons z zs ih =>
    unfold kset at h
    split at h
    · simpa using h
    · split at h
      · rcases List.mem_cons.1 h with h | h
        · exact .inl h
        · exact .inr (List.mem_cons_of_mem _ h)
      · rcases List.mem_cons.1 h with h | h
        · exact .inr (h ▸ List.mem_cons_self)
        · rcases ih h with h | h
          · exact .inl h
          · exact .inr (List.mem_cons_of_mem _ h)

theorem mem_kdel {α : Type} {key : α → Nat} {k : Nat} {y : α} {xs : List α} (h : y ∈ kdel key k xs) : y ∈ xs := by
  induction xs with
  | nil => exact h
  | cons z zs ih =>
    unfold kdel at h
    split at h
    · exact List.mem_cons_of_mem _ h
    · rcases List.mem_cons.1 h with h | h
      · exact h ▸ List.mem_cons_self
      · exact List.mem_cons_of_mem _ (ih h)

/-- Writing a byte keeps the canonical form. -/
theorem bset_wf {m : List (Nat × Byte)} (h : risingFrom 0 m = true) (k : Nat) (b : Byte) : risingFrom 0 (bset m k b) = true := by
  rw [risingFrom_iff] at *
  unfold bset
  split
  · exact ⟨kdel_rising h.1, fun c hc => h.2 c (mem_kdel hc)⟩
  · rename_i hb
    refine ⟨kset_rising h.1 (Nat.zero_le _), fun c hc => ?_⟩
    rcases mem_kset hc with hc | hc
    · subst hc; exact hb
    · exact h.2 c hc

/-- Cells of bytes rise from their first key, and hold no 0. -/
theorem bcells_mem {k : Nat} {bs : List Byte} {c : Nat × Byte} (h : c ∈ bcells k bs) :
    k ≤ c.1 ∧ c.1 < k + bs.length ∧ c.2 ≠ 0 := by
  induction bs generalizing k with
  | nil => cases h
  | cons b bs ih =>
    rw [List.length_cons]
    unfold bcells at h
    split at h
    · obtain ⟨h1, h2, h3⟩ := ih h
      exact ⟨by omega, by omega, h3⟩
    · rename_i hb
      rcases List.mem_cons.1 h with rfl | h
      · exact ⟨Nat.le_refl _, Nat.lt_add_of_pos_right (Nat.succ_pos _), hb⟩
      · obtain ⟨h1, h2, h3⟩ := ih h
        exact ⟨by omega, by omega, h3⟩

theorem bcells_rising (k : Nat) (bs : List Byte) : rising Prod.fst k (bcells k bs) := by
  induction bs generalizing k with
  | nil => trivial
  | cons b bs ih =>
    unfold bcells
    split
    · exact rising_mono (Nat.le_succ k) (ih (k + 1))
    · exact ⟨Nat.le_refl k, ih (k + 1)⟩

theorem filter_rising {α : Type} {key : α → Nat} (p : α → Bool) {lo : Nat} {xs : List α} (h : rising key lo xs) :
    rising key lo (xs.filter p) := by
  induction xs generalizing lo with
  | nil => exact h
  | cons x xs ih =>
    rw [List.filter_cons]
    split
    · exact ⟨h.1, ih h.2⟩
    · exact rising_mono (by have := h.1; omega) (ih h.2)

/-- Rising lists one after the other. -/
theorem append_rising {α : Type} {key : α → Nat} {lo hi : Nat} {xs ys : List α} (hx : rising key lo xs)
    (hy : rising key hi ys) (hl : lo ≤ hi) (h : ∀ x ∈ xs, key x < hi) : rising key lo (xs ++ ys) := by
  induction xs generalizing lo with
  | nil => exact rising_mono hl hy
  | cons x xs ih =>
    exact ⟨hx.1, ih hx.2 (h x List.mem_cons_self) fun y hy => h y (List.mem_cons_of_mem x hy)⟩

/-- Rising from a higher key on, where no element lies below it. -/
theorem rising_from {α : Type} {key : α → Nat} {lo hi : Nat} {xs : List α} (hx : rising key lo xs)
    (h : ∀ x ∈ xs, hi ≤ key x) : rising key hi xs := by
  cases xs with
  | nil => trivial
  | cons x xs => exact ⟨h x List.mem_cons_self, hx.2⟩

theorem bwrite_wf {m : List (Nat × Byte)} (h : risingFrom 0 m = true) (k : Nat) (bs : List Byte) :
    risingFrom 0 (bwrite m k bs) = true := by
  unfold bwrite
  split
  · exact h
  · rw [risingFrom_iff] at *
    constructor
    · rw [List.append_assoc]
      refine append_rising (filter_rising _ h.1) (hi := k) ?_ (Nat.zero_le k) fun c hc => of_decide_eq_true (List.mem_filter.1 hc).2
      refine append_rising (bcells_rising k bs) (hi := k + bs.length)
        (rising_from (filter_rising _ h.1) fun c hc => of_decide_eq_true (List.mem_filter.1 hc).2)
        (Nat.le_add_right _ _) fun c hc => (bcells_mem hc).2.1
    · intro c hc
      rcases List.mem_append.1 hc with hc | hc
      · rcases List.mem_append.1 hc with hc | hc
        · exact h.2 c (List.mem_filter.1 hc).1
        · exact (bcells_mem hc).2.2
      · exact h.2 c (List.mem_filter.1 hc).1

/-! ## Reading what was written -/

theorem kget_append {α : Type} (key : α → Nat) (k : Nat) (xs ys : List α) :
    kget key k (xs ++ ys) = (kget key k xs).orElse fun _ => kget key k ys := by
  induction xs with
  | nil => rfl
  | cons x xs ih =>
    rw [List.cons_append, kget, kget]
    split
    · rfl
    · exact ih

theorem kget_none {α : Type} {key : α → Nat} {k : Nat} {xs : List α} (h : ∀ x ∈ xs, key x ≠ k) : kget key k xs = none := by
  induction xs with
  | nil => rfl
  | cons x xs ih =>
    rw [kget, if_neg (h x List.mem_cons_self)]
    exact ih fun y hy => h y (List.mem_cons_of_mem x hy)

/-- A filter that keeps every element with key k keeps what k reads. -/
theorem kget_filter {α : Type} {key : α → Nat} {k : Nat} {p : α → Bool} {xs : List α} (h : ∀ x ∈ xs, key x = k → p x = true) :
    kget key k (xs.filter p) = kget key k xs := by
  induction xs with
  | nil => rfl
  | cons x xs ih =>
    have hx := ih fun y hy => h y (List.mem_cons_of_mem x hy)
    rw [List.filter_cons, kget]
    split
    · rw [kget, hx]
    · rename_i hp
      rw [if_neg fun e => hp (h x List.mem_cons_self e), hx]

theorem bget_bcells (k : Nat) (bs : List Byte) (a : Nat) : bget (bcells k bs) a = if k ≤ a then bs.getD (a - k) 0 else 0 := by
  induction bs generalizing k with
  | nil => simp [bcells, bget, kget]
  | cons b bs ih =>
    by_cases ha : a = k
    · subst ha
      unfold bcells
      split
      · rename_i hb
        rw [ih, if_neg (by omega), if_pos (Nat.le_refl _)]
        simp [hb]
      · simp [bget, kget]
    · have e : bget (bcells k (b :: bs)) a = bget (bcells (k + 1) bs) a := by
        conv => lhs; unfold bcells
        split
        · rfl
        · unfold bget; rw [kget, if_neg (Ne.symm ha)]
      rw [e, ih]
      by_cases hk : k ≤ a
      · rw [if_pos (by omega), if_pos hk, show a - k = (a - (k + 1)) + 1 by omega]
        simp
      · rw [if_neg (by omega), if_neg hk]

/-- What a byte reads as after bytes have been written: theirs, or as before. -/
theorem bget_bwrite (m : List (Nat × Byte)) (k : Nat) (bs : List Byte) (a : Nat) :
    bget (bwrite m k bs) a = if k ≤ a ∧ a < k + bs.length then bs.getD (a - k) 0 else bget m a := by
  unfold bwrite
  split
  · rename_i h
    have : bs = [] := List.isEmpty_iff.1 h
    subst this
    rw [if_neg (by simp)]
  · unfold bget
    rw [List.append_assoc, kget_append, kget_append]
    by_cases h1 : a < k
    · have e2 : kget Prod.fst a (bcells k bs) = none :=
        kget_none fun c hc => by have := (bcells_mem hc).1; omega
      have e3 : kget Prod.fst a (m.filter fun p => decide (k + bs.length ≤ p.1)) = none :=
        kget_none fun c hc => by have := of_decide_eq_true (List.mem_filter.1 hc).2; omega
      rw [e2, e3, kget_filter (fun c _ hc => decide_eq_true (by omega)), if_neg (by omega)]
      cases kget Prod.fst a m <;> rfl
    · have e1 : kget Prod.fst a (m.filter fun p => decide (p.1 < k)) = none :=
        kget_none fun c hc => by have := of_decide_eq_true (List.mem_filter.1 hc).2; omega
      rw [e1]
      by_cases h2 : a < k + bs.length
      · have e3 : kget Prod.fst a (m.filter fun p => decide (k + bs.length ≤ p.1)) = none :=
          kget_none fun c hc => by have := of_decide_eq_true (List.mem_filter.1 hc).2; omega
        rw [e3, if_pos ⟨by omega, h2⟩]
        have := bget_bcells k bs a
        rw [if_pos (by omega)] at this
        rw [← this]
        unfold bget
        cases kget Prod.fst a (bcells k bs) <;> rfl
      · have e2 : kget Prod.fst a (bcells k bs) = none :=
          kget_none fun c hc => by have := (bcells_mem hc).2.1; omega
        rw [e2, kget_filter (fun c _ hc => decide_eq_true (by omega)), if_neg (by omega)]
        rfl

theorem bnear_length (m : List (Nat × Byte)) (k n : Nat) : (bnear m k n).length = n := by simp [bnear]

/-- Byte j of a near read. -/
theorem bnear_getElem? (m : List (Nat × Byte)) (k n j : Nat) (h : j < n) : (bnear m k n)[j]? = some (bget m (k + j)) := by
  unfold bnear bget
  dsimp only
  rw [List.getElem?_map, List.getElem?_range h, Option.map_some,
    kget_filter fun c _ hc => by simp only [Bool.and_eq_true, decide_eq_true_eq]; omega]

theorem bget_range (m : List (Nat × Byte)) (k n a : Nat) (h : k ≤ a ∧ a < k + n) :
    bget (m.filter fun p => decide (k ≤ p.1) && decide (p.1 < k + n)) a = bget m a := by
  unfold bget
  rw [kget_filter fun c _ hc => by simp only [Bool.and_eq_true, decide_eq_true_eq]; omega]

/-- Blocks of 64, one after the other. -/
theorem blocks_getElem? (f : Nat → List Byte) (hf : ∀ i, (f i).length = 64) (q j : Nat) :
    (((List.range q).map f).flatten).length = 64 * q ∧
    (j < 64 * q → (((List.range q).map f).flatten)[j]? = (f (j / 64))[j % 64]?) := by
  induction q with
  | zero => simp
  | succ q ih =>
    rw [List.range_succ, List.map_append, List.flatten_append]
    refine ⟨by rw [List.length_append, ih.1]; simp [hf]; omega, fun h => ?_⟩
    by_cases hj : j < 64 * q
    · rw [List.getElem?_append_left (by rw [ih.1]; exact hj), ih.2 hj]
    · rw [List.getElem?_append_right (by rw [ih.1]; omega), ih.1]
      have e1 : j / 64 = q := by omega
      have e2 : j - 64 * q = j % 64 := by omega
      rw [e1, e2]
      simp

theorem bread_getElem? (m : List (Nat × Byte)) (k n j : Nat) (h : j < n) : (bread m k n)[j]? = some (bget m (k + j)) := by
  unfold bread
  split
  · exact bnear_getElem? m k n j h
  · dsimp only
    generalize hq : (m.filter fun p => decide (k ≤ p.1) && decide (p.1 < k + n)) = near
    have hb := blocks_getElem? (fun j => bnear near (k + 64 * j) 64) (fun i => bnear_length _ _ _) (n / 64) j
    by_cases hj : j < 64 * (n / 64)
    · rw [List.getElem?_append_left (by rw [hb.1]; exact hj), hb.2 hj, bnear_getElem? _ _ _ _ (by omega), ← hq,
        bget_range m k n _ (by omega)]
      rw [show k + 64 * (j / 64) + j % 64 = k + j by omega]
    · rw [List.getElem?_append_right (by rw [hb.1]; omega), hb.1, bnear_getElem? _ _ _ _ (by omega), ← hq,
        bget_range m k n _ (by omega)]
      rw [show k + n / 64 * 64 + (j - 64 * (n / 64)) = k + j by omega]

/-- Byte j of what `bread` gives. -/
theorem bread_getD (m : List (Nat × Byte)) (k n j : Nat) (h : j < n) : (bread m k n).getD j 0 = bget m (k + j) := by
  rw [List.getD_eq_getElem?_getD, bread_getElem? m k n j h, Option.getD_some]

theorem bread_length (m : List (Nat × Byte)) (k n : Nat) : (bread m k n).length = n := by
  unfold bread
  split
  · exact bnear_length m k n
  · dsimp only
    rw [List.length_append, (blocks_getElem? _ (fun i => bnear_length _ _ _) (n / 64) 0).1, bnear_length]
    omega

/-- Removing entries keeps the canonical form. -/
theorem filter_wf {m : List (Nat × Byte)} (h : risingFrom 0 m = true) (p : Nat × Byte → Bool) :
    risingFrom 0 (m.filter p) = true := by
  have key : ∀ (lo : Nat) (m : List (Nat × Byte)), rising Prod.fst lo m → rising Prod.fst lo (m.filter p) := by
    intro lo m
    induction m generalizing lo with
    | nil => exact id
    | cons c cs ih =>
      intro hc
      rw [List.filter_cons]
      split
      · exact ⟨hc.1, ih _ hc.2⟩
      · exact rising_mono (by have := hc.1; omega) (ih _ hc.2)
  rw [risingFrom_iff] at *
  exact ⟨key 0 m h.1, fun c hc => h.2 c (List.mem_filter.1 hc).1⟩

/-- A byte written reads back. -/
theorem bget_bset_self {m : List (Nat × Byte)} (h : risingFrom 0 m = true) (k : Nat) (b : Byte) : bget (bset m k b) k = b := by
  rw [risingFrom_iff] at h
  unfold bset bget
  split
  · rename_i hb
    rw [kget_kdel_self h.1, hb]; rfl
  · have := kget_kset_self Prod.fst (k, b) m
    simp only at this
    rw [this]; rfl

/-- Every other byte reads as before. -/
theorem bget_bset_other (m : List (Nat × Byte)) {k k' : Nat} (b : Byte) (h : k' ≠ k) : bget (bset m k b) k' = bget m k' := by
  unfold bset bget
  split
  · rw [kget_kdel_other Prod.fst m h]
  · rw [kget_kset_other Prod.fst (k, b) m (show k' ≠ (k, b).1 from h)]

/-! ## Memory -/

theorem Memory.set_wf {m : Memory} (h : m.wf = true) (k : Nat) (b : Byte) : (m.set k b).wf = true := bset_wf h k b

theorem Memory.get_set_self {m : Memory} (h : m.wf = true) (k : Nat) (b : Byte) : (m.set k b).get k = b :=
  bget_bset_self h k b

theorem Memory.get_set_other (m : Memory) {k k' : Nat} (b : Byte) (h : k' ≠ k) : (m.set k b).get k' = m.get k' :=
  bget_bset_other m b h

theorem Memory.filter_wf {m : Memory} (h : m.wf = true) (p : Host.Cell → Bool) : Memory.wf (List.filter p m) = true :=
  Sys2Proof.Machine.filter_wf h p

theorem reset_wf : State.reset.mem.wf = true := rfl

/-! ## Every operation on memory keeps the canonical form -/

theorem State.memPut_wf {s : State} (h : s.mem.wf = true) (k : Nat) (b : Byte) : (s.memPut k b).mem.wf = true := by
  unfold State.memPut
  dsimp only
  split
  · exact Memory.set_wf h k b
  · exact Memory.set_wf h k b

@[simp] theorem State.addPoison_mem (s : State) (u : Nat) : (s.addPoison u).mem = s.mem := by
  unfold State.addPoison
  split <;> rfl

@[simp] theorem State.cleanse_mem (s : State) (ks : List Nat) : (s.cleanse ks).mem = s.mem := by
  unfold State.cleanse
  split <;> rfl

/-- What a home notes of a line leaves memory alone. -/
@[simp] theorem State.lineDirty_mem (s : State) (cl k : Nat) : (s.lineDirty cl k).mem = s.mem := by
  unfold State.lineDirty
  split <;> rfl

@[simp] theorem State.farDirty_mem (s : State) (line : Nat) : (s.farDirty line).mem = s.mem := rfl

/-- A line that its home drops is in canonical form too. -/
theorem State.loseFar_wf {s : State} (h : s.mem.wf = true) (line : Nat) : (s.loseFar line).mem.wf = true := by
  unfold State.loseFar
  split
  · dsimp only
    split
    · exact bwrite_wf h _ _
    · exact h
  · exact h

theorem State.loseLine_wf {s : State} (h : s.mem.wf = true) (x : HLine) : (s.loseLine x).mem.wf = true := by
  unfold State.loseLine
  split
  · exact bwrite_wf h _ _
  · exact h

theorem State.byteHome_wf {s : State} (h : s.mem.wf = true) (cl k : Nat) : (s.byteHome cl k).mem.wf = true := by
  unfold State.byteHome
  split
  · split
    · refine State.memPut_wf ?_ k _
      rw [State.lineDirty_mem]
      split
      · rw [State.addPoison_mem]; exact h
      · exact h
    · exact h
  · exact h

theorem foldl_wf {α : Type} {f : State → α → State} (hf : ∀ s a, s.mem.wf = true → (f s a).mem.wf = true) (xs : List α)
    {s : State} (h : s.mem.wf = true) : (xs.foldl f s).mem.wf = true := by
  induction xs generalizing s with
  | nil => exact h
  | cons x xs ih => exact ih (hf s x h)

@[simp] theorem State.fire_mem (s : State) (k n : Nat) : (s.fire k n).mem = s.mem := rfl

theorem State.seen_mem (s : State) (ks : List Nat) : (s.seen ks).mem = s.mem := by
  unfold State.seen
  induction ks generalizing s with
  | nil => rfl
  | cons k ks ih => exact (ih (s.fire k 1)).trans rfl

theorem State.disown_mem (s : State) (cl k : Nat) : (s.disown cl k).mem = s.mem := by
  unfold State.disown
  split
  · split <;> rfl
  · rfl

theorem State.byteCluster_mem (s : State) (cl k : Nat) : (s.byteCluster cl k).mem = s.mem := by
  unfold State.byteCluster
  generalize clusterCores cl = cs
  induction cs generalizing s with
  | nil => rfl
  | cons c cs ih =>
    rw [List.foldl_cons, ih]
    split
    · split <;> rfl
    · rfl

theorem State.gather_wf {s : State} (h : s.mem.wf = true) (keep : Nat) (ks : List Nat) : (s.gather keep ks).mem.wf = true := by
  unfold State.gather
  refine foldl_wf (fun s cl h => ?_) _ (by rw [State.cleanse_mem]; exact h)
  split
  · exact h
  · refine foldl_wf (fun s k h => ?_) _ h
    rw [State.disown_mem]
    exact State.byteHome_wf (by rw [State.byteCluster_mem]; exact h) _ _

theorem foldl_mem {α : Type} {f : State → α → State} (hf : ∀ s a, (f s a).mem = s.mem) (xs : List α) (s : State) :
    (xs.foldl f s).mem = s.mem := by
  induction xs generalizing s with
  | nil => rfl
  | cons x xs ih => exact (ih (f s x)).trans (hf s x)

theorem State.dropCluster_mem (s : State) (cl k : Nat) : (s.dropCluster cl k).mem = s.mem := by
  unfold State.dropCluster
  refine (foldl_mem (fun s c => ?_) _ _).trans ?_
  · split <;> rfl
  · split <;> rfl

theorem State.dropOthers_mem (s : State) (keep k : Nat) : (s.dropOthers keep k).mem = s.mem := by
  unfold State.dropOthers
  exact foldl_mem (fun s cl => State.dropCluster_mem s cl k) _ _

theorem State.memPuts_wf {s : State} (h : s.mem.wf = true) (k : Nat) (bs : List Byte) : (s.memPuts k bs).mem.wf = true := by
  unfold State.memPuts
  dsimp only
  refine bwrite_wf ?_ k bs
  split
  · rw [foldl_mem State.farDirty_mem]; exact h
  · exact h

theorem State.runHome_wf {s : State} (h : s.mem.wf = true) (cl k n : Nat) : (s.runHome cl k n).mem.wf = true := by
  refine State.memPuts_wf ?_ k _
  have hp := foldl_mem fun s (x : CcByte) => State.addPoison_mem s (x.key / 16)
  split
  · rw [foldl_mem (fun s j => State.lineDirty_mem s cl j), hp, State.cleanse_mem]; exact h
  · rw [hp, State.cleanse_mem]; exact h

theorem State.moveHome_wf {s : State} (h : s.mem.wf = true) (cl : Nat) (ks : List Nat) : (s.moveHome cl ks).mem.wf = true := by
  unfold State.moveHome State.sendHome
  dsimp only
  rw [State.seen_mem]
  exact foldl_wf (fun s r h => State.runHome_wf h cl r.1 r.2) _ h

/-- A write at the home keeps the canonical form. -/
theorem State.homeWrite_wf {s : State} (h : s.mem.wf = true) (k : Nat) (bs : List Byte) : (s.homeWrite k bs).mem.wf = true := by
  unfold State.homeWrite
  dsimp only
  rw [State.fire_mem, State.seen_mem]
  refine State.memPuts_wf ?_ k bs
  rw [foldl_mem (fun s k => State.dropOthers_mem s 8 k)]
  exact State.gather_wf h _ _

/-- A read at the home, which recalls what is dirty, keeps it. -/
theorem State.homeRead_wf {s : State} (h : s.mem.wf = true) (k n : Nat) : (s.homeRead k n).1.mem.wf = true := by
  unfold State.homeRead State.recallAll State.recallFor
  dsimp only
  rw [State.seen_mem]
  exact State.gather_wf h _ _

end Sys2Proof.Machine
end

