-- ==== Sys2Proof/Laws/Group.lean ====
section
/-!
SUPPORT. Groups and lanes: reading a lane, a register, a scalar or a predicate after one of the operations that change
them; what applying results and advancing leave.
-/
namespace Sys2Proof.Machine

/-! ## Lists -/

theorem upd_length {α : Type} (i : Nat) (f : α → α) (xs : List α) : (upd i f xs).length = xs.length := by
  induction xs generalizing i with
  | nil => cases i <;> rfl
  | cons x xs ih => cases i with
    | zero => rfl
    | succ i => exact congrArg (· + 1) (ih i)

theorem getD_upd {α : Type} (i k : Nat) (f : α → α) (xs : List α) (d : α) :
    (upd i f xs).getD k d = if k = i ∧ k < xs.length then f (xs.getD k d) else xs.getD k d := by
  induction xs generalizing i k with
  | nil => simp [upd]
  | cons x xs ih =>
    cases i with
    | zero => cases k with
      | zero => simp [upd]
      | succ k => simp [upd]
    | succ i => cases k with
      | zero => simp [upd]
      | succ k =>
        have := ih i k
        simpa [upd] using this

theorem imap_length {α β : Type} (f : Nat → α → β) (n : Nat) (xs : List α) : (imap f n xs).length = xs.length := by
  induction xs generalizing n with
  | nil => rfl
  | cons x xs ih => exact congrArg (· + 1) (ih (n + 1))

theorem getD_imap {α : Type} (f : Nat → α → α) (n k : Nat) (xs : List α) (d : α) :
    (imap f n xs).getD k d = if k < xs.length then f (n + k) (xs.getD k d) else d := by
  induction xs generalizing n k with
  | nil => simp [imap]
  | cons x xs ih =>
    cases k with
    | zero => simp [imap]
    | succ k =>
      have := ih (n + 1) k
      simpa [imap, Nat.add_assoc, Nat.add_comm 1 k] using this

/-- Searching a list whose elements were changed and thinned out without touching what the search sees. -/
theorem find_map_filter {α β : Type} (P Q : α → Bool) (f : α → α) (v : α → β) (xs : List α) (hP : ∀ c, P (f c) = P c)
    (hv : ∀ c, v (f c) = v c) (hQ : ∀ c, P (f c) = true → Q (f c) = true) :
    (((xs.map f).filter Q).find? P).map v = (xs.find? P).map v := by
  induction xs with
  | nil => rfl
  | cons c cs ih =>
    rw [List.map_cons, List.filter_cons]
    by_cases hp : P c = true
    · rw [if_pos (hQ c ((hP c).trans hp)), List.find?_cons_of_pos ((hP c).trans hp), List.find?_cons_of_pos hp]
      exact congrArg some (hv c)
    · rw [List.find?_cons_of_neg hp]
      split
      · rw [List.find?_cons_of_neg (by rw [hP]; exact hp)]; exact ih
      · exact ih

/-! ## Masks -/

theorem hasLane_maskTo (p : Nat → Bool) (n l : Nat) (h : n ≤ 32) :
    hasLane (maskTo p n) l = (decide (l < n) && p l) := by
  induction n with
  | zero => simp [maskTo, hasLane]
  | succ n ih =>
    have ih := ih (by omega)
    unfold maskTo
    split
    · rename_i hp
      unfold hasLane at *
      rw [BitVec.getLsbD_or, ih, BitVec.getLsbD_shiftLeft, BitVec.getLsbD_one]
      by_cases hl : l = n
      · subst hl; simp [hp]; omega
      · have : decide (l < n + 1) = decide (l < n) := by simp; omega
        rw [this]
        by_cases h2 : l < n
        · simp [h2]
        · have : l - n ≠ 0 := by omega
          simp [h2, this]
    · rename_i hp
      rw [ih]
      by_cases hl : l = n
      · subst hl; simp [hp]
      · have : decide (l < n + 1) = decide (l < n) := by simp; omega
        rw [this]

/-- The lanes of a mask are those that satisfy its condition. -/
theorem hasLane_maskOf (p : Nat → Bool) (l : Nat) : hasLane (maskOf p) l = (decide (l < 32) && p l) :=
  hasLane_maskTo p 32 l (Nat.le_refl _)

/-! ## Lanes of a group -/

theorem Group.lane_updLane (g : Group) (i l : Nat) (f : Lane → Lane) :
    (g.updLane i f).lane l = if l = i ∧ l < g.lanes.length then f (g.lane l) else g.lane l :=
  getD_upd i l f g.lanes deadLane

theorem Group.lane_mapLanes (g : Group) (f : Nat → Lane → Lane) (l : Nat) :
    (g.mapLanes f).lane l = if l < g.lanes.length then f l (g.lane l) else deadLane := by
  have := getD_imap f 0 l g.lanes deadLane
  simpa [Group.mapLanes, Group.lane] using this

/-- A lane that the group does not have is dead. -/
theorem Group.lane_dead (g : Group) {l : Nat} (h : g.lanes.length ≤ l) : g.lane l = deadLane := by
  unfold Group.lane
  simp [List.getD_eq_getElem?_getD, h]

/-- An eligible lane is one that the group has. -/
theorem Group.lt_of_eligible {g : Group} {l : Nat} (h : g.eligible l = true) : l < g.lanes.length := by
  apply Nat.lt_of_not_le
  intro hl
  rw [Group.eligible, Group.lane_dead g hl] at h
  exact absurd h (by decide)

@[simp] theorem Group.updLane_scal (g : Group) (i : Nat) (f : Lane → Lane) : (g.updLane i f).scal = g.scal := rfl
@[simp] theorem Group.updLane_stat (g : Group) (i : Nat) (f : Lane → Lane) : (g.updLane i f).stat = g.stat := rfl
theorem Group.updLane_length (g : Group) (i : Nat) (f : Lane → Lane) : (g.updLane i f).lanes.length = g.lanes.length :=
  upd_length i f g.lanes

/-! ## Scalars (R27) -/

/-- The lanes given a new copy read its value. -/
theorem Group.scalar_newCopy_self (g : Group) (r l : Nat) (m : Lanes) (v : Word) (h : hasLane m l = true) :
    (g.newCopy r m v).scalar r l = v := by
  unfold Group.scalar Group.newCopy
  dsimp only
  rw [List.find?_append]
  have : ((g.scal.map fun (c : ScCopy) => if c.r == r then { c with lanes := c.lanes &&& ~~~m } else c).filter
      (fun (c : ScCopy) => c.lanes != 0)).find? (fun c => c.r == r && hasLane c.lanes l) = none := by
    rw [List.find?_eq_none]
    intro c hc
    rw [List.mem_filter, List.mem_map] at hc
    obtain ⟨⟨d, hd, rfl⟩, -⟩ := hc
    unfold hasLane at *
    split
    · simp [h]
    · rename_i hr; simp [hr]
  rw [this]
  simp [h]

/-- Every other copy reads as before. -/
theorem Group.scalar_newCopy_other (g : Group) (r r' l : Nat) (m : Lanes) (v : Word) (h : r' ≠ r ∨ hasLane m l = false) :
    (g.newCopy r m v).scalar r' l = g.scalar r' l := by
  unfold Group.scalar Group.newCopy
  dsimp only
  rw [List.find?_append]
  have hnew : ([⟨r, m, v⟩] : List ScCopy).find? (fun c => c.r == r' && hasLane c.lanes l) = none := by
    rcases h with h | h
    · simp [Ne.symm h]
    · simp [h]
  rw [hnew, Option.or_none]
  refine congrArg (fun (o : Option Word) => o.getD 0) (find_map_filter _ _ _ _ _ ?_ ?_ ?_)
  · intro c
    split
    · rename_i hr
      rcases h with h | h
      · have : c.r ≠ r' := by simp at hr; omega
        have hb : (c.r == r') = false := by simp [this]
        rw [hb, Bool.false_and, Bool.false_and]
      · unfold hasLane at *
        rw [BitVec.getLsbD_and, BitVec.getLsbD_not, h]
        by_cases hl : l < 32
        · simp [hl]
        · have : c.lanes.getLsbD l = false := BitVec.getLsbD_of_ge _ _ (by omega)
          simp [this]
    · rfl
  · intro c; split <;> rfl
  · intro c hc
    simp only [Bool.and_eq_true] at hc
    simp only [bne_iff_ne, ne_eq]
    intro h0
    rw [h0] at hc
    simp [hasLane] at hc

end Sys2Proof.Machine
end

