-- ==== Sys2Proof/Laws/Issue.lean ====
section
/-!
SUPPORT. What an issue does when nothing goes wrong: the one lemma on `State.issueWith` that every instruction acting on
registers cites, and the lemmas on applying results and advancing that it is assembled from.
-/
namespace Sys2Proof.Machine

/-! ## One lane's results -/

/-- Writing names from a lane's results. -/
def putNames (x : Lane) (ds : List (Reg × Word)) (y : Lane) : Lane :=
  ds.foldl (fun (y : Lane) p => match p.1 with
    | .v n => y.setName (x.abs n.val) p.2
    | _ => y) y

/-- Writing predicates from a lane's results. -/
def putPreds (ps : List (Nat × Bool)) (y : Lane) : Lane := ps.foldl (fun (y : Lane) p => y.setPred p.1 p.2) y

theorem Lane.name_setName_self (y : Lane) (n : Nat) (w : Word) : (y.setName n w).name n = w := by
  unfold Lane.name Lane.setName
  have := kget_kset_self Prod.fst (n, w) y.names
  simp only at this
  rw [this]; rfl

theorem Lane.name_setName_other (y : Lane) {n k : Nat} (w : Word) (h : k ≠ n) : (y.setName n w).name k = y.name k := by
  unfold Lane.name Lane.setName
  rw [kget_kset_other Prod.fst (n, w) y.names (show k ≠ (n, w).1 from h)]

/-- Nothing but the names of a lane. -/
theorem putNames_frame (x : Lane) (ds : List (Reg × Word)) (y : Lane) :
    putNames x ds y = { y with names := (putNames x ds y).names } := by
  induction ds generalizing y with
  | nil => rfl
  | cons p ps ih =>
    unfold putNames
    rw [List.foldl_cons]
    split
    · exact ih (y.setName _ _)
    · exact ih y

theorem putNames_other (x : Lane) (ds : List (Reg × Word)) (y : Lane) (n : Nat)
    (h : ∀ k w, (Reg.v k, w) ∈ ds → x.abs k.val ≠ n) : (putNames x ds y).name n = y.name n := by
  induction ds generalizing y with
  | nil => rfl
  | cons p ps ih =>
    have hps : ∀ k w, (Reg.v k, w) ∈ ps → x.abs k.val ≠ n := fun k w hk => h k w (List.mem_cons_of_mem _ hk)
    unfold putNames
    rw [List.foldl_cons]
    obtain ⟨r, w⟩ := p
    cases r with
    | v k =>
      refine (ih _ hps).trans ?_
      exact Lane.name_setName_other _ _ (Ne.symm (h k w List.mem_cons_self))
    | s k => exact ih _ hps
    | zero => exact ih _ hps

theorem putNames_self (x : Lane) (ds : List (Reg × Word)) (y : Lane) (n : Fin 112) (w : Word)
    (hd : onceEach (ds.map Prod.fst)) (h : (Reg.v n, w) ∈ ds) : (putNames x ds y).name (x.abs n.val) = w := by
  induction ds generalizing y with
  | nil => cases h
  | cons p ps ih =>
    unfold onceEach at hd
    rw [List.map_cons, List.pairwise_cons] at hd
    rcases List.mem_cons.1 h with h | h
    · subst h
      unfold putNames
      rw [List.foldl_cons]
      refine (putNames_other x ps _ _ fun k w' hk => ?_).trans (Lane.name_setName_self _ _ _)
      intro e
      have : k = n := Fin.ext (by unfold Lane.abs at e; omega)
      subst this
      exact Reg.noConfusion (hd.1 _ (List.mem_map.2 ⟨_, hk, rfl⟩) rfl)
    · unfold putNames
      rw [List.foldl_cons]
      exact ih _ hd.2 h

theorem Lane.setPred_frame (y : Lane) (p : Nat) (b : Bool) : y.setPred p b = { y with preds := (y.setPred p b).preds } := by
  unfold Lane.setPred; split <;> rfl

theorem Lane.pred_setPred_self (y : Lane) {p : Nat} (b : Bool) (h : p < 63) : (y.setPred p b).pred p = b := by
  unfold Lane.pred Lane.setPred
  have hp : (p == 63) = false := by simp; omega
  rw [if_neg (by omega), hp, Bool.false_or]
  cases b
  · rw [if_neg (by decide), BitVec.getLsbD_and, BitVec.getLsbD_not, BitVec.getLsbD_shiftLeft]
    simp [show p < 64 by omega]
  · rw [if_pos rfl, BitVec.getLsbD_or, BitVec.getLsbD_shiftLeft]
    simp [show p < 64 by omega]

theorem Lane.pred_setPred_other (y : Lane) {p q : Nat} (b : Bool) (h : q ≠ p) : (y.setPred p b).pred q = y.pred q := by
  unfold Lane.pred Lane.setPred
  split
  · rfl
  · congr 1
    cases b
    · rw [if_neg (by decide), BitVec.getLsbD_and, BitVec.getLsbD_not, BitVec.getLsbD_shiftLeft, BitVec.getLsbD_one]
      by_cases hq : q < 64
      · by_cases h2 : q < p
        · simp [hq, h2]
        · have : q - p ≠ 0 := by omega
          simp [hq, h2, this]
      · rw [BitVec.getLsbD_of_ge _ _ (by omega), Bool.false_and]
    · rw [if_pos rfl, BitVec.getLsbD_or, BitVec.getLsbD_shiftLeft, BitVec.getLsbD_one]
      by_cases h2 : q < p
      · simp [h2]
      · have : q - p ≠ 0 := by omega
        simp [h2, this]

theorem putPreds_frame (ps : List (Nat × Bool)) (y : Lane) : putPreds ps y = { y with preds := (putPreds ps y).preds } := by
  induction ps generalizing y with
  | nil => rfl
  | cons p ps ih =>
    unfold putPreds
    rw [List.foldl_cons]
    have := ih (y.setPred p.1 p.2)
    unfold putPreds at this
    rw [this, Lane.setPred_frame]

theorem putPreds_other (ps : List (Nat × Bool)) (y : Lane) (p : Nat) (h : ∀ b, (p, b) ∉ ps) :
    (putPreds ps y).pred p = y.pred p := by
  induction ps generalizing y with
  | nil => rfl
  | cons q qs ih =>
    unfold putPreds
    rw [List.foldl_cons]
    refine (ih _ fun b hb => h b (List.mem_cons_of_mem _ hb)).trans ?_
    refine Lane.pred_setPred_other _ _ fun e => ?_
    subst e
    exact h q.2 List.mem_cons_self

theorem putPreds_self (ps : List (Nat × Bool)) (y : Lane) (p : Nat) (b : Bool) (hd : (ps.map Prod.fst).Nodup)
    (h : (p, b) ∈ ps) (hp : p < 63) : (putPreds ps y).pred p = b := by
  induction ps generalizing y with
  | nil => cases h
  | cons q qs ih =>
    rw [List.map_cons, List.nodup_cons] at hd
    unfold putPreds
    rw [List.foldl_cons]
    rcases List.mem_cons.1 h with h | h
    · subst h
      refine (putPreds_other qs _ p fun b' hb => hd.1 (List.mem_map.2 ⟨_, hb, rfl⟩)).trans ?_
      exact Lane.pred_setPred_self _ _ hp
    · exact ih _ hd.2 h

/-- Applying a lane's results, in its four parts. -/
theorem Lane.apply_eq (x : Lane) (o : LaneOut) : x.apply o =
    { x with
      names := (putNames x o.d x).names
      preds := (putPreds o.p x).preds
      link := o.link.getD x.link
      wbase := o.wbase.getD x.wbase } := by
  have key : ∀ (ps : List (Nat × Bool)) (y z : Lane), y.preds = z.preds →
      (putPreds ps y).preds = (putPreds ps z).preds := by
    intro ps
    induction ps with
    | nil => exact fun _ _ h => h
    | cons p ps ih =>
      intro y z h
      refine ih _ _ ?_
      show (y.setPred p.1 p.2).preds = (z.setPred p.1 p.2).preds
      unfold Lane.setPred
      split
      · exact h
      · rw [h]
  have hm : putPreds o.p (putNames x o.d x) =
      { x with names := (putNames x o.d x).names, preds := (putPreds o.p x).preds } := by
    rw [putPreds_frame, key o.p (putNames x o.d x) x (by rw [putNames_frame]), putNames_frame]
  obtain ⟨d, p, fl, j, link, wb, gd⟩ := o
  cases link with
  | none => cases wb with
    | none => exact hm
    | some b => exact congrArg (fun (y : Lane) => { y with wbase := b }) hm
  | some v => cases wb with
    | none => exact congrArg (fun (y : Lane) => { y with link := v }) hm
    | some b => exact congrArg (fun (y : Lane) => { y with link := v, wbase := b }) hm

theorem Lane.apply_name (x : Lane) (o : LaneOut) (n : Nat) : (x.apply o).name n = (putNames x o.d x).name n := by
  rw [Lane.apply_eq]; rfl

theorem Lane.apply_pred (x : Lane) (o : LaneOut) (p : Nat) : (x.apply o).pred p = (putPreds o.p x).pred p := by
  rw [Lane.apply_eq]; rfl

/-! ## The group after its lanes' results -/

/-- The scalars of a result, each copied to the lanes of a mask. -/
theorem scalar_foldl_newCopy (ps : List (Nat × Word)) (m : Lanes) (g : Group) (n l : Nat) (h : hasLane m l = true)
    (w : Word) (hd : (ps.map Prod.fst).Nodup) (hm : (n, w) ∈ ps) :
    (ps.foldl (fun (g : Group) p => g.newCopy p.1 m p.2) g).scalar n l = w := by
  have other : ∀ (ps : List (Nat × Word)) (g : Group), (∀ w, (n, w) ∉ ps) →
      (ps.foldl (fun (g : Group) p => g.newCopy p.1 m p.2) g).scalar n l = g.scalar n l := by
    intro ps
    induction ps with
    | nil => exact fun _ _ => rfl
    | cons p ps ih =>
      intro g hn
      rw [List.foldl_cons]
      refine (ih _ fun w hw => hn w (List.mem_cons_of_mem _ hw)).trans ?_
      exact Group.scalar_newCopy_other _ _ _ _ _ _ (.inl fun e => hn p.2 (e ▸ List.mem_cons_self))
  induction ps generalizing g with
  | nil => cases hm
  | cons p ps ih =>
    rw [List.map_cons, List.nodup_cons] at hd
    rw [List.foldl_cons]
    rcases List.mem_cons.1 hm with hm | hm
    · subst hm
      refine (other ps _ fun w' hw => hd.1 (List.mem_map.2 ⟨_, hw, rfl⟩)).trans ?_
      exact Group.scalar_newCopy_self _ _ _ _ _ h
    · exact ih _ hd.2 hm

theorem scalar_foldl_newCopy_other (ps : List (Nat × Word)) (m : Lanes) (g : Group) (n l : Nat)
    (h : hasLane m l = false ∨ ∀ w, (n, w) ∉ ps) :
    (ps.foldl (fun (g : Group) p => g.newCopy p.1 m p.2) g).scalar n l = g.scalar n l := by
  induction ps generalizing g with
  | nil => rfl
  | cons p ps ih =>
    rw [List.foldl_cons]
    refine (ih _ ?_).trans (Group.scalar_newCopy_other _ _ _ _ _ _ ?_)
    · exact h.imp id fun h w hw => h w (List.mem_cons_of_mem _ hw)
    · rcases h with h | h
      · exact .inr h
      · exact .inl fun e => h p.2 (e ▸ List.mem_cons_self)

theorem foldl_newCopy_frame (ps : List (Nat × Word)) (m : Lanes) (g : Group) :
    ps.foldl (fun (g : Group) p => g.newCopy p.1 m p.2) g =
      { g with scal := (ps.foldl (fun (g : Group) p => g.newCopy p.1 m p.2) g).scal } := by
  induction ps generalizing g with
  | nil => rfl
  | cons p ps ih => rw [List.foldl_cons]; exact ih _

theorem LaneOut.mem_scalars (o : LaneOut) (n : Nat) (w : Word) :
    (n, w) ∈ o.scalars ↔ ∃ k : Fin 14, k.val = n ∧ (Reg.s k, w) ∈ o.d := by
  unfold LaneOut.scalars
  rw [List.mem_filterMap]
  constructor
  · rintro ⟨⟨r, v⟩, hp, h⟩
    cases r with
    | v k => cases h
    | zero => cases h
    | s k => cases h; exact ⟨k, rfl, hp⟩
  · rintro ⟨k, rfl, h⟩
    exact ⟨_, h, rfl⟩

theorem LaneOut.scalars_nodup (o : LaneOut) (h : onceEach (o.d.map Prod.fst)) : (o.scalars.map Prod.fst).Nodup := by
  unfold LaneOut.scalars
  revert h
  induction o.d with
  | nil => exact fun _ => List.nodup_nil
  | cons p ps ih =>
    intro h
    unfold onceEach at h
    rw [List.map_cons, List.pairwise_cons] at h
    obtain ⟨r, w⟩ := p
    cases r with
    | v k => exact ih h.2
    | zero => exact ih h.2
    | s k =>
      rw [List.filterMap_cons]
      dsimp only
      rw [List.map_cons, List.nodup_cons]
      refine ⟨fun hm => ?_, ih h.2⟩
      rw [List.mem_map] at hm
      obtain ⟨⟨m, v⟩, hv, e⟩ := hm
      rw [List.mem_filterMap] at hv
      obtain ⟨⟨r', v'⟩, hp, e'⟩ := hv
      cases r' with
      | v k => cases e'
      | zero => cases e'
      | s k' =>
        cases e'
        have : k' = k := Fin.ext e
        subst this
        exact Reg.noConfusion (h.1 _ (List.mem_map.2 ⟨_, hp, rfl⟩) rfl)

/-- What applying results does to a group: lanes, scalars and STAT alone. -/
theorem Group.applyAll_frame (g : Group) (oks : List Nat) (out : Nat → LaneOut) : g.applyAll oks out =
    { g with
      lanes := (g.applyAll oks out).lanes
      scal := (g.applyAll oks out).scal
      stat := raiseFlags g.stat (orFlags (oks.map fun l => (out l).flags)) } := by
  unfold Group.applyAll
  dsimp only
  rw [foldl_newCopy_frame]
  rfl

theorem Group.applyAll_lane (g : Group) (oks : List Nat) (out : Nat → LaneOut) (l : Nat) (h : l ∈ oks → l < g.lanes.length) :
    (g.applyAll oks out).lane l = if l ∈ oks then (g.lane l).apply (out l) else g.lane l := by
  unfold Group.applyAll
  dsimp only
  rw [foldl_newCopy_frame]
  show (g.mapLanes fun l x => if oks.contains l then x.apply (out l) else x).lane l = _
  rw [Group.lane_mapLanes]
  by_cases hl : l < g.lanes.length
  · rw [if_pos hl]
    simp
  · rw [if_neg hl, if_neg fun hm => hl (h hm)]
    exact (Group.lane_dead g (Nat.le_of_not_lt hl)).symm

/-- The scalars that the first of the lanes writes. -/
def leadScalars (out : Nat → LaneOut) : List Nat → List (Nat × Word)
  | [] => []
  | l :: _ => (out l).scalars

theorem Group.applyAll_scal (g : Group) (oks : List Nat) (out : Nat → LaneOut) :
    (g.applyAll oks out).scal = ((leadScalars out oks).foldl (fun (g : Group) p => g.newCopy p.1 (maskOf oks.contains) p.2)
      (g.mapLanes fun l x => if oks.contains l then x.apply (out l) else x)).scal := by
  cases oks <;> rfl

theorem Group.applyAll_scalar (g : Group) (oks : List Nat) (out : Nat → LaneOut) (h32 : ∀ l ∈ oks, l < 32)
    (hd : ∀ l ∈ oks, (out l).distinct) (ha : ∀ l ∈ oks, ∀ k ∈ oks, (out l).scalars = (out k).scalars) :
    (∀ l ∈ oks, ∀ n w, (Reg.s n, w) ∈ (out l).d → (g.applyAll oks out).scalar n.val l = w) ∧
    ∀ l n, (l ∈ oks → ∀ k w, (Reg.s k, w) ∈ (out l).d → k.val ≠ n) → (g.applyAll oks out).scalar n l = g.scalar n l := by
  have hs : ∀ n l, (g.applyAll oks out).scalar n l =
      ((leadScalars out oks).foldl (fun (g : Group) p => g.newCopy p.1 (maskOf oks.contains) p.2)
        (g.mapLanes fun l x => if oks.contains l then x.apply (out l) else x)).scalar n l := by
    intro n l
    unfold Group.scalar
    rw [Group.applyAll_scal]
  have hm : ∀ l, hasLane (maskOf oks.contains) l = true ↔ l ∈ oks := by
    intro l
    rw [hasLane_maskOf]
    simp only [Bool.and_eq_true, decide_eq_true_eq, List.contains_iff_mem]
    exact ⟨fun h => h.2, fun h => ⟨h32 l h, h⟩⟩
  constructor
  · intro l hl n w hw
    rw [hs]
    cases oks with
    | nil => cases hl
    | cons k ks =>
      refine scalar_foldl_newCopy _ _ _ _ _ ((hm l).2 hl) _ (LaneOut.scalars_nodup _ (hd k List.mem_cons_self).1) ?_
      show (n.val, w) ∈ (out k).scalars
      rw [ha k List.mem_cons_self l hl, LaneOut.mem_scalars]
      exact ⟨n, rfl, hw⟩
  · intro l n h
    rw [hs]
    refine (scalar_foldl_newCopy_other _ _ _ _ _ ?_).trans rfl
    by_cases hl : l ∈ oks
    · right
      intro w
      cases oks with
      | nil => exact List.not_mem_nil
      | cons k ks =>
        show (n, w) ∉ (out k).scalars
        rw [ha k List.mem_cons_self l hl, LaneOut.mem_scalars]
        rintro ⟨c, hc, hw⟩
        exact h hl c w hw hc
    · left
      cases e : hasLane (maskOf oks.contains) l
      · rfl
      · exact absurd ((hm l).1 e) hl

/-! ## Advancing -/

/-- A lane past one instruction; a replay that waits comes next (R23, R109, R312). -/
def Lane.past (pc : DWord) (y : Lane) : Lane :=
  match y.replay.bind Replay.cont with
  | some c => { y with pc := c, replay := y.more.head?, more := y.more.tail, wait := .none }
  | none => { y with pc := pc, replay := y.more.head?, more := y.more.tail, wait := .none, guardCnt := y.guardCnt - 1 }

theorem Group.pass_lane (g : Group) (i l : Nat) (pc : DWord) :
    (g.pass i pc).lane l = if l = i ∧ l < g.lanes.length then (g.lane l).past pc else g.lane l := by
  unfold Group.pass
  split
  · rename_i c hc
    rw [Group.lane_updLane]
    split
    · rename_i h; rw [Lane.past, h.1, hc]
    · rfl
  · rename_i hc
    show (g.updLane i _).lane l = _
    rw [Group.lane_updLane]
    split
    · rename_i h; rw [Lane.past, h.1, hc]
    · rfl

theorem Group.pass_frame (g : Group) (i : Nat) (pc : DWord) :
    g.pass i pc = { g with lanes := (g.pass i pc).lanes, owed := (g.pass i pc).owed } := by
  unfold Group.pass; split <;> rfl

theorem Group.pass_length (g : Group) (i : Nat) (pc : DWord) : (g.pass i pc).lanes.length = g.lanes.length := by
  unfold Group.pass; split <;> exact Group.updLane_length _ _ _

/-- The lanes of a list advance, each to its own place. -/
theorem foldl_pass_lane (pcs : Nat → DWord) (es : List Nat) (hn : es.Nodup) (g : Group) (l : Nat)
    (h : l ∈ es → l < g.lanes.length) : (es.foldl (fun (g : Group) l => g.pass l (pcs l)) g).lane l =
      if l ∈ es then (g.lane l).past (pcs l) else g.lane l := by
  induction es generalizing g with
  | nil => rfl
  | cons e es ih =>
    rw [List.nodup_cons] at hn
    rw [List.foldl_cons, ih hn.2 _ (fun hm => by rw [Group.pass_length]; exact h (List.mem_cons_of_mem _ hm)),
      Group.pass_lane]
    by_cases hl : l = e
    · subst hl
      simp [hn.1, h List.mem_cons_self]
    · simp [hl]

theorem foldl_pass_frame (pcs : Nat → DWord) (es : List Nat) (g : Group) :
    es.foldl (fun (g : Group) l => g.pass l (pcs l)) g =
      { g with
        lanes := (es.foldl (fun (g : Group) l => g.pass l (pcs l)) g).lanes
        owed := (es.foldl (fun (g : Group) l => g.pass l (pcs l)) g).owed } := by
  induction es generalizing g with
  | nil => rfl
  | cons e es ih => rw [List.foldl_cons, ih, Group.pass_frame]

/-- A lane that yields has seen an issue without it (R24). -/
def Lane.seenIssue (x : Lane) : Lane :=
  match x.wait with
  | .yield _ n => { x with wait := .yield true n }
  | _ => x

theorem Group.markYields_lane (g : Group) (l : Nat) : g.markYields.lane l = (g.lane l).seenIssue := by
  have : g.markYields = g.mapLanes fun _ x => x.seenIssue := rfl
  rw [this, Group.lane_mapLanes]
  split
  · rfl
  · rw [Group.lane_dead g (by omega)]; rfl

theorem Lane.seenIssue_frame (x : Lane) : x.seenIssue = { x with wait := x.seenIssue.wait } := by
  unfold Lane.seenIssue; split <;> rfl

/-- Advancing with no lane frozen and none left in a wait. -/
theorem Issue.advance_eq (x : Issue) (g : Group) (jump : Nat → Option DWord) :
    x.advance g [] jump (fun _ => none) =
      x.es.foldl (fun (g : Group) l => g.pass l ((jump l).getD x.next)) g.markYields := by
  unfold Issue.advance
  congr 1

/-- A lane under a guard that is set, if one is. -/
def Lane.setGuard (y : Lane) : Option (Nat × Bool) → Lane
  | some p => { y with guardCnt := p.1, guardEn := p.2 }
  | none => y

theorem Group.setGuards_cons (g : Group) (e : Nat) (es : List Nat) (out : Nat → LaneOut) :
    g.setGuards (e :: es) out = (g.updLane e fun y => y.setGuard (out e).guard).setGuards es out := by
  unfold Group.setGuards
  rw [List.foldl_cons]
  congr 1
  cases (out e).guard with
  | some p => rfl
  | none =>
    have key : ∀ (i : Nat) (xs : List Lane), upd i (fun y => y) xs = xs := by
      intro i xs
      induction xs generalizing i with
      | nil => cases i <;> rfl
      | cons x xs ih => cases i with
        | zero => rfl
        | succ i => exact congrArg (x :: ·) (ih i)
    have : g.updLane e (fun y => y.setGuard none) = { g with lanes := upd e (fun y => y) g.lanes } := rfl
    rw [this, key]

/-- The guards that an issue sets. -/
theorem Group.setGuards_lane (g : Group) (oks : List Nat) (hn : oks.Nodup) (out : Nat → LaneOut) (l : Nat)
    (h : l ∈ oks → l < g.lanes.length) :
    (g.setGuards oks out).lane l = (g.lane l).setGuard (if l ∈ oks then (out l).guard else none) := by
  induction oks generalizing g with
  | nil => rfl
  | cons e es ih =>
    rw [List.nodup_cons] at hn
    rw [Group.setGuards_cons, ih _ hn.2 (fun hm => by rw [Group.updLane_length]; exact h (List.mem_cons_of_mem _ hm)),
      Group.lane_updLane]
    by_cases hl : l = e
    · subst hl
      rw [if_pos ⟨rfl, h List.mem_cons_self⟩, if_neg hn.1, if_pos List.mem_cons_self]
      rfl
    · rw [if_neg (fun c => hl c.1)]
      simp [hl]

theorem Group.setGuards_frame (g : Group) (oks : List Nat) (out : Nat → LaneOut) :
    g.setGuards oks out = { g with lanes := (g.setGuards oks out).lanes } := by
  induction oks generalizing g with
  | nil => rfl
  | cons e es ih =>
    rw [Group.setGuards_cons, ih]
    rfl

/-! ## A whole issue -/

theorem lanes32_nodup : lanes32.Nodup := List.nodup_range

theorem Group.foldScalar_lanes (g : Group) (es : List Nat) (r : Nat) : (g.foldScalar es r).lanes = g.lanes := by
  unfold Group.foldScalar
  dsimp only
  split
  · split <;> rfl
  · rfl

/-- The fold of scalars touches no lane. -/
theorem Group.fold_lanes (g : Group) (es : List Nat) : (g.fold es).lanes = g.lanes := by
  unfold Group.fold
  generalize List.range 14 = rs
  induction rs generalizing g with
  | nil => rfl
  | cons r rs ih => rw [List.foldl_cons, ih, Group.foldScalar_lanes]

theorem Group.foldScalar_owed (g : Group) (es : List Nat) (r : Nat) : (g.foldScalar es r).owed = g.owed := by
  unfold Group.foldScalar
  dsimp only
  split
  · split <;> rfl
  · rfl

/-- Nor is anything owed after it that was not before. -/
theorem Group.fold_owed (g : Group) (es : List Nat) : (g.fold es).owed = g.owed := by
  unfold Group.fold
  generalize List.range 14 = rs
  induction rs generalizing g with
  | nil => rfl
  | cons r rs ih => rw [List.foldl_cons, ih, Group.foldScalar_owed]

/-- What beginning an issue comes to: the lanes that stand there, after the fold of their scalars. -/
theorem State.begin_go {s : State} {i : Instr} {x : Issue} (h : s.begin i = .go x) :
    ∃ g y, s.group? s.cur = some g ∧ issueOf g i = some y ∧ y.wordFault i = none ∧ g.foldWaits y.es = none ∧
      x = { y with g := { (g.fold y.es) with park := .none, promoted := false, bound := g.boundKept } } := by
  unfold State.begin at h
  cases hg : s.group? s.cur with
  | none => rw [hg] at h; exact Begun.noConfusion h
  | some g =>
    rw [hg] at h
    dsimp only at h
    cases hy : issueOf g i with
    | none => rw [hy] at h; exact Begun.noConfusion h
    | some y =>
      rw [hy] at h
      dsimp only at h
      cases hf : y.wordFault i with
      | some f =>
        rw [hf] at h
        dsimp only at h
        cases hq : s.queueBlocks y (y.es.map fun l => (l, f)) <;> rw [hq] at h <;> exact Begun.noConfusion h
      | none =>
        rw [hf] at h
        dsimp only at h
        cases hw : g.foldWaits y.es with
        | some id => rw [hw] at h; exact Begun.noConfusion h
        | none =>
          rw [hw] at h
          cases hr : y.orderWaits i with
          | some id => dsimp only [Option.orElse] at h; rw [hr] at h; exact Begun.noConfusion h
          | none =>
          dsimp only [Option.orElse] at h
          rw [hr] at h
          dsimp only at h
          refine ⟨g, y, rfl, hy, hf, hw, ?_⟩
          revert h
          generalize Issue.waitsFor _ _ = wf
          cases wf with
          | some id => exact fun h => Begun.noConfusion h
          | none => exact fun h => (Begun.go.inj h).symm

/-- The lanes of an issue: those that stand there, and of them those that their guard enables. -/
theorem State.begin_lanes {s : State} {i : Instr} {x : Issue} (h : s.begin i = .go x) :
    x.es.Nodup ∧ x.ts.Nodup ∧ (∀ l ∈ x.ts, l ∈ x.es) ∧ ∀ l ∈ x.es, l < 32 ∧ l < x.g.lanes.length := by
  obtain ⟨g, y, -, hy, -, -, rfl⟩ := State.begin_go h
  have hy : y.g = g ∧ y.es = lanes32.filter g.stands ∧ y.ts = y.es.filter fun l => (g.lane l).enabled := by
    unfold issueOf at hy
    cases hia : g.issueAddr with
    | none => rw [hia] at hy; cases hy
    | some ia =>
      rw [hia] at hy
      dsimp only at hy
      rw [← Option.some.inj hy]
      exact ⟨rfl, rfl, rfl⟩
  obtain ⟨-, he, ht⟩ := hy
  have hn : y.es.Nodup := he ▸ lanes32_nodup.filter _
  refine ⟨hn, ?_, ?_, ?_⟩
  · dsimp only
    rw [ht]
    exact hn.filter _
  · intro l hl
    dsimp only at *
    rw [ht] at hl
    exact (List.mem_filter.1 hl).1
  · intro l hl
    dsimp only at *
    rw [Group.fold_lanes]
    rw [he] at hl
    have hl := List.mem_filter.1 hl
    refine ⟨List.mem_range.1 hl.1, ?_⟩
    have := hl.2
    unfold Group.stands at this
    simp only [Bool.and_eq_true] at this
    exact Group.lt_of_eligible this.1.1

/-- With every check passed no lane has a fault of its own, and none faults. -/
theorem Issue.ownFaults_nil {x : Issue} {i : Instr} {chk chk2 : Nat → Option Flt} {bad : Bool} (hc : x.clear i)
    (h1 : ∀ l ∈ x.ts, chk l = none) (hb : bad = false) (h2 : ∀ l ∈ x.ts, chk2 l = none) : x.ownFaults i chk bad chk2 = [] := by
  unfold Issue.ownFaults
  rw [List.filterMap_eq_nil_iff]
  intro l hl
  dsimp only
  rw [(hc l hl).1, (hc l hl).2, h1 l hl, hb, h2 l hl]
  rfl

theorem Issue.faults_nil {x : Issue} {i : Instr} {chk chk2 : Nat → Option Flt} {bad : Bool} (hc : x.clear i)
    (h1 : ∀ l ∈ x.ts, chk l = none) (hb : bad = false) (h2 : ∀ l ∈ x.ts, chk2 l = none) : x.faults i chk bad chk2 = [] := by
  unfold Issue.faults
  dsimp only
  rw [Issue.ownFaults_nil hc h1 hb h2]
  split <;> rfl

theorem allSame_of {α : Type} [DecidableEq α] {f : Nat → α} {xs : List Nat} (h : ∀ l ∈ xs, ∀ k ∈ xs, f l = f k) :
    allSame (xs.map f) = true := by
  cases xs with
  | nil => rfl
  | cons x xs =>
    rw [List.map_cons]
    unfold allSame
    rw [List.all_eq_true]
    intro y hy
    rw [List.mem_map] at hy
    obtain ⟨k, hk, rfl⟩ := hy
    rw [h k (List.mem_cons_of_mem _ hk) x List.mem_cons_self]
    exact beq_self_eq_true _

theorem arithFaults_nil {stat : Word} {oks : List Nat} {out : Nat → LaneOut}
    (h : ∀ l ∈ oks, trapped stat (out l).flags = 0) : arithFaults stat oks out = [] := by
  unfold arithFaults
  rw [List.filterMap_eq_nil_iff]
  intro l hl
  dsimp only
  rw [if_pos (h l hl)]

/-- The group that a completed issue leaves. -/
def Issue.after (x : Issue) (more : List Owed) (out : Nat → LaneOut) (post : Group → Group) : Group :=
  let g := (x.advance (post (x.g.applyAll x.ts out)) [] (fun l => if x.ts.contains l then (out l).jump else none)
    (fun _ => none)).setGuards x.ts out
  { g with owed := g.owed ++ more }

/-- An issue with every check passed and no enabled trap changes its group alone (and the model's counter of names). -/
theorem State.issueWith_go {s : State} {i : Instr} {chk chk2 : Issue → Nat → Option Flt} {out : Issue → Nat → LaneOut}
    {rma : Bool} {post : Issue → List Nat → Group → Group} {x : Issue} (hb : s.begin i = .go x) (hc : x.clear i)
    (h1 : ∀ l ∈ x.ts, chk x l = none) (h2 : ∀ l ∈ x.ts, chk2 x l = none)
    (ha : if rma then x.agree (out x) else x.operandsDiffer i = false) (ht : x.untrapped (out x)) :
    s.issueWith i chk chk2 out rma post =
      { s.setGroup (x.after (x.owedOf i s.fresh x.ts true) (out x) (post x x.ts)) with fresh := s.fresh + 1 } := by
  have hbad : (if rma then !allSame (x.ts.map fun l => (out x l).scalars) else x.operandsDiffer i) = false := by
    cases rma
    · simpa using ha
    · simp only [if_true] at ha ⊢
      rw [allSame_of ha]; rfl
  have hf := Issue.faults_nil (chk := chk x) (chk2 := chk2 x) hc h1 hbad h2
  unfold State.issueWith
  rw [hb]
  dsimp only
  rw [hf]
  have hts : (x.ts.filter fun l => !(([] : List (Nat × Flt)).map Prod.fst).contains l) = x.ts := by
    rw [List.filter_eq_self]; intro l _; rfl
  rw [hts, arithFaults_nil ht]
  rfl

theorem setGuard_frame (y : Lane) (p : Option (Nat × Bool)) :
    y.setGuard p = { y with guardCnt := (y.setGuard p).guardCnt, guardEn := (y.setGuard p).guardEn } := by
  cases p <;> rfl

theorem Issue.after_frame (x : Issue) (more : List Owed) (out : Nat → LaneOut) (post : Group → Group) :
    x.after more out post = { post (x.g.applyAll x.ts out) with
      lanes := (x.after more out post).lanes
      owed := (x.after more out post).owed } := by
  unfold Issue.after
  dsimp only
  rw [Group.setGuards_frame, Issue.advance_eq, foldl_pass_frame]
  rfl

/-- One lane after a completed issue. -/
theorem Issue.after_lane {x : Issue} {more : List Owed} {out : Nat → LaneOut} {post : Group → Group}
    (hen : x.es.Nodup) (htn : x.ts.Nodup) (hsub : ∀ l ∈ x.ts, l ∈ x.es) (hlt : ∀ l ∈ x.es, l < 32 ∧ l < x.g.lanes.length)
    (hp : ∀ g, (post g).lanes = g.lanes) (l : Nat) :
    (x.after more out post).lane l =
      (let y := (if l ∈ x.ts then (x.g.lane l).apply (out l) else x.g.lane l).seenIssue
       (if l ∈ x.es then y.past ((if l ∈ x.ts then (out l).jump else none).getD x.next) else y).setGuard
        (if l ∈ x.ts then (out l).guard else none)) := by
  have hA : ∀ k, (post (x.g.applyAll x.ts out)).lane k = (x.g.applyAll x.ts out).lane k := fun k => by
    unfold Group.lane; rw [hp]
  have hL : (x.g.applyAll x.ts out).lanes.length = x.g.lanes.length := by
    unfold Group.applyAll
    dsimp only
    rw [foldl_newCopy_frame]
    exact imap_length _ _ _
  have hM : (post (x.g.applyAll x.ts out)).markYields.lanes.length = x.g.lanes.length := by
    refine (imap_length _ _ _).trans ?_
    rw [hp, hL]
  show ((x.advance (post (x.g.applyAll x.ts out)) [] (fun l => if x.ts.contains l then (out l).jump else none)
    (fun _ => none)).setGuards x.ts out).lane l = _
  rw [Issue.advance_eq]
  rw [Group.setGuards_lane _ _ htn _ _ ?_]
  · rw [foldl_pass_lane _ _ hen _ _ fun hl => by rw [hM]; exact (hlt l hl).2]
    rw [Group.markYields_lane, hA, Group.applyAll_lane _ _ _ _ fun hl => (hlt l (hsub l hl)).2]
    simp only [List.contains_iff_mem]
  · intro hl
    have : ∀ (es : List Nat) (g : Group),
        (es.foldl (fun (g : Group) l => g.pass l (((fun l => if x.ts.contains l then (out l).jump else none) l).getD x.next))
          g).lanes.length = g.lanes.length := by
      intro es
      induction es with
      | nil => exact fun _ => rfl
      | cons e es ih => intro g; rw [List.foldl_cons, ih, Group.pass_length]
    rw [this, hM]
    exact (hlt l (hsub l hl)).2

theorem Lane.past_frame (pc : DWord) (y : Lane) :
    y.past pc = { y with
      pc := (y.past pc).pc, replay := y.more.head?, more := y.more.tail, wait := .none, guardCnt := (y.past pc).guardCnt } := by
  unfold Lane.past; split <;> rfl

/-- One lane's registers after a completed issue. -/
theorem Issue.after_parts {x : Issue} {more : List Owed} {out : Nat → LaneOut} {post : Group → Group}
    (hen : x.es.Nodup) (htn : x.ts.Nodup) (hsub : ∀ l ∈ x.ts, l ∈ x.es) (hlt : ∀ l ∈ x.es, l < 32 ∧ l < x.g.lanes.length)
    (hp : ∀ g, (post g).lanes = g.lanes) (l : Nat) :
    let y := if l ∈ x.ts then (x.g.lane l).apply (out l) else x.g.lane l
    let z := (x.after more out post).lane l
    z.names = y.names ∧ z.preds = y.preds ∧ z.link = y.link ∧ z.wbase = y.wbase ∧ z.exited = y.exited ∧ z.hold = y.hold := by
  intro y z
  have hz : z = _ := Issue.after_lane (more := more) (out := out) hen htn hsub hlt hp l
  rw [hz]
  dsimp only
  rw [setGuard_frame]
  split
  · rw [Lane.past_frame, Lane.seenIssue_frame]
    exact ⟨rfl, rfl, rfl, rfl, rfl, rfl⟩
  · rw [Lane.seenIssue_frame]
    exact ⟨rfl, rfl, rfl, rfl, rfl, rfl⟩

/-- WHAT A COMPLETED ISSUE LEAVES OF ITS GROUP. -/
theorem Issue.after_done {x : Issue} {out : Nat → LaneOut} (hen : x.es.Nodup) (htn : x.ts.Nodup)
    (hsub : ∀ l ∈ x.ts, l ∈ x.es) (hlt : ∀ l ∈ x.es, l < 32 ∧ l < x.g.lanes.length)
    (hd : ∀ l ∈ x.ts, (out l).distinct) (ha : x.agree out) (more : List Owed) : x.Done (x.after more out fun g => g) out := by
  have hl := Issue.after_lane (x := x) (more := more) (out := out) (post := fun g => g) hen htn hsub hlt fun _ => rfl
  have hq := Issue.after_parts (x := x) (more := more) (out := out) (post := fun g => g) hen htn hsub hlt fun _ => rfl
  have hfr := Issue.after_frame x more out fun g => g
  obtain ⟨hs1, hs2⟩ := Group.applyAll_scalar x.g x.ts out (fun l h => (hlt l (hsub l h)).1) hd ha
  have hsc : ∀ n l, (x.after more out fun g => g).scalar n l = (x.g.applyAll x.ts out).scalar n l := by
    intro n l; rw [hfr]; rfl
  have hname : ∀ l n, ((x.after more out fun g => g).lane l).name n =
      (if l ∈ x.ts then (x.g.lane l).apply (out l) else x.g.lane l).name n := by
    intro l n; unfold Lane.name; rw [(hq l).1]
  have hpred : ∀ l p, ((x.after more out fun g => g).lane l).pred p =
      (if l ∈ x.ts then (x.g.lane l).apply (out l) else x.g.lane l).pred p := by
    intro l n; unfold Lane.pred; rw [(hq l).2.1]
  have hown : ∀ l (y : Lane), y = (if l ∈ x.ts then (x.g.lane l).apply (out l) else x.g.lane l) →
      y.pc = (x.g.lane l).pc ∧ y.replay = (x.g.lane l).replay ∧ y.guardCnt = (x.g.lane l).guardCnt ∧
      y.guardEn = (x.g.lane l).guardEn ∧ y.exited = (x.g.lane l).exited ∧ y.hold = (x.g.lane l).hold := by
    intro l y hy
    subst hy
    split
    · rw [Lane.apply_eq]; exact ⟨rfl, rfl, rfl, rfl, rfl, rfl⟩
    · exact ⟨rfl, rfl, rfl, rfl, rfl, rfl⟩
  have hsee : ∀ y : Lane, y.seenIssue.pc = y.pc ∧ y.seenIssue.replay = y.replay ∧ y.seenIssue.guardCnt = y.guardCnt ∧
      y.seenIssue.guardEn = y.guardEn := by
    intro y; rw [Lane.seenIssue_frame]; exact ⟨rfl, rfl, rfl, rfl⟩
  constructor
  · intro l h n w hw
    rw [hname, if_pos h, Lane.apply_name]
    exact putNames_self _ _ _ _ _ (hd l h).1 hw
  · intro l n h
    rw [hname]
    split
    · rename_i hm
      rw [Lane.apply_name]
      exact putNames_other _ _ _ _ fun k w hk => h hm k w hk
    · rfl
  · intro l h n w hw
    rw [hsc]; exact hs1 l h n w hw
  · intro l n h
    rw [hsc]; exact hs2 l n h
  · intro l h p b hb hp
    rw [hpred, if_pos h, Lane.apply_pred]
    exact putPreds_self _ _ _ _ (hd l h).2 hb hp
  · intro l p h
    rw [hpred]
    split
    · rename_i hm
      rw [Lane.apply_pred]
      exact putPreds_other _ _ _ (h hm)
    · rfl
  · intro l h
    obtain ⟨o1, o2, -⟩ := hown l _ rfl
    obtain ⟨s1, s2, -⟩ := hsee (if l ∈ x.ts then (x.g.lane l).apply (out l) else x.g.lane l)
    rw [hl l]
    dsimp only
    rw [setGuard_frame, if_pos h]
    dsimp only
    unfold Lane.past
    rw [s2, o2]
    cases (x.g.lane l).replay.bind Replay.cont <;> rfl
  · intro l h
    obtain ⟨o1, -⟩ := hown l _ rfl
    obtain ⟨s1, -⟩ := hsee (if l ∈ x.ts then (x.g.lane l).apply (out l) else x.g.lane l)
    rw [hl l]
    dsimp only
    rw [setGuard_frame, if_neg h]
    dsimp only
    rw [s1, o1]
  · intro l
    rw [(hq l).2.2.1]
    split
    · rw [Lane.apply_eq]
    · rfl
  · intro l
    rw [(hq l).2.2.2.1]
    split
    · rw [Lane.apply_eq]
    · rfl
  · intro l h n e hg
    rw [hl l]
    dsimp only
    simp only [if_pos h, hg]
    exact ⟨rfl, rfl⟩
  · intro l h hg hr
    obtain ⟨-, o2, o3, o4, -⟩ := hown l _ rfl
    obtain ⟨-, s2, s3, s4⟩ := hsee (if l ∈ x.ts then (x.g.lane l).apply (out l) else x.g.lane l)
    have hn : (if l ∈ x.ts then (out l).guard else none) = none := by
      split
      · rename_i hm; exact hg hm
      · rfl
    rw [hl l]
    dsimp only
    rw [hn, if_pos h]
    unfold Lane.setGuard Lane.past
    dsimp only
    rw [s2, o2, hr]
    dsimp only
    rw [s3, s4, o3, o4]
    exact ⟨rfl, rfl⟩
  · intro l h
    obtain ⟨-, -, o3, o4, -⟩ := hown l _ rfl
    obtain ⟨-, -, s3, s4⟩ := hsee (if l ∈ x.ts then (x.g.lane l).apply (out l) else x.g.lane l)
    have hn : (if l ∈ x.ts then (out l).guard else none) = none := if_neg fun hm => h (hsub l hm)
    rw [hl l]
    dsimp only
    rw [hn, if_neg h]
    exact ⟨s3.trans o3, s4.trans o4⟩
  · intro l
    rw [(hq l).2.2.2.2.1]; exact (hown l _ rfl).2.2.2.2.1
  · intro l
    rw [(hq l).2.2.2.2.2]; exact (hown l _ rfl).2.2.2.2.2
  · rw [hfr, Group.applyAll_frame]
  · have := Group.applyAll_frame x.g x.ts out
    rw [hfr]
    dsimp only
    rw [this]

/-- An instruction that acts on registers lane by lane, with every check passed: it completes in every lane taking part,
and nothing outside its group changes but the model's counter of names. -/
theorem State.issueLanes_done {s : State} {i : Instr} {chk chk2 : Issue → Nat → Option Flt} {out : Issue → Nat → LaneOut}
    {rma : Bool} {x : Issue} (hb : s.begin i = .go x) (hc : x.clear i) (h1 : ∀ l ∈ x.ts, chk x l = none)
    (h2 : ∀ l ∈ x.ts, chk2 x l = none) (ho : rma = false → x.operandsDiffer i = false) (ha : x.agree (out x))
    (ht : x.untrapped (out x)) (hd : ∀ l ∈ x.ts, (out x l).distinct) :
    ∃ g, s.issueLanes i chk chk2 out rma = { s.setGroup g with fresh := s.fresh + 1 } ∧ x.Done g (out x) := by
  obtain ⟨hen, htn, hsub, hlt⟩ := State.begin_lanes hb
  refine ⟨_, State.issueWith_go (post := fun _ _ g => g) hb hc h1 h2 ?_ ht, Issue.after_done hen htn hsub hlt hd ha _⟩
  cases rma
  · simpa using ho rfl
  · simpa using ha

/-- The same for an instruction with no check of its own. -/
theorem State.issueReg_done {s : State} {i : Instr} {out : Issue → Nat → LaneOut} {x : Issue} (hb : s.begin i = .go x)
    (hc : x.clear i) (ha : x.agree (out x)) (ht : x.untrapped (out x)) (hd : ∀ l ∈ x.ts, (out x l).distinct) :
    ∃ g, s.issueReg i out = { s.setGroup g with fresh := s.fresh + 1 } ∧ x.Done g (out x) :=
  State.issueLanes_done hb hc (fun _ _ => rfl) (fun _ _ => rfl) (fun h => Bool.noConfusion h) ha ht hd

/-! ## Instructions that act beyond registers -/

theorem Group.setGuards_none (g : Group) (oks : List Nat) (out : Nat → LaneOut) (h : ∀ l ∈ oks, (out l).guard = none) :
    g.setGuards oks out = g := by
  unfold Group.setGuards
  induction oks generalizing g with
  | nil => rfl
  | cons e es ih =>
    rw [List.foldl_cons, h e List.mem_cons_self]
    exact ih g fun l hl => h l (List.mem_cons_of_mem _ hl)

/-- What an act has done when every lane taking part has completed it. -/
structure Acted.completes (a : Acted) : Prop where
  early : a.early = []
  late : a.late = []
  pend : a.pend = []
  halt : a.halt = none
  owes : a.owes = false
  extra : a.extra = []
  waits : ∀ l, a.waits l = none
  jumps : ∀ l, (a.out l).jump = none
  guards : ∀ l, (a.out l).guard = none

/-- An act that completes in every lane taking part: its own state, with the results in the group. -/
theorem State.issueAct_go {s : State} {i : Instr} {chk chk2 : Issue → Nat → Option Flt}
    {act : State → Issue → List Nat → Acted} {x : Issue} (hb : s.begin i = .go x) (hc : x.clear i)
    (h1 : ∀ l ∈ x.ts, chk x l = none) (h2 : ∀ l ∈ x.ts, chk2 x l = none) (ho : x.operandsDiffer i = false) (a : Acted)
    (hact : (if x.ts.isEmpty then { s := s.setGroup x.g } else act (s.setGroup x.g) x x.ts) = a) (hok : a.completes) :
    s.issueAct i chk chk2 act =
      { (a.s.updGroup x.g.gid fun g => Issue.after { x with g := g } (x.owedOf i a.s.fresh x.ts true) a.out fun g => g)
        with fresh := a.s.fresh + 2 } := by
  have hf := Issue.faults_nil (chk := chk x) (chk2 := chk2 x) hc h1 ho h2
  have hown := Issue.ownFaults_nil (chk := chk x) (chk2 := chk2 x) hc h1 ho h2
  have hlead : s.leaderFaults i x [] [] act = [] := rfl
  have hts : (x.ts.filter fun l => !(([] : List (Nat × Flt)).map Prod.fst).contains l) = x.ts := by
    rw [List.filter_eq_self]; intro l _; rfl
  have hord : x.inOrder [] [] = [] := rfl
  unfold State.issueAct
  rw [hb]
  dsimp only
  rw [hf, hown, hlead, hts, hact, hok.early, hord, hok.late, hok.pend, hok.halt, hok.owes, hok.extra]
  have hoks : (x.ts.filter fun l => !(([] : List (Nat × Flt)).map Prod.fst).contains l &&
      !(([] : List (Nat × Flt)).map Prod.fst).contains l && !(([] : List (LaneAcc × AccWait)).map fun p => p.1.lane).contains l &&
      (a.waits l).isNone) = x.ts := by
    rw [List.filter_eq_self]; intro l _; rw [hok.waits]; rfl
  have hw : (x.ts.filter fun l => (a.waits l).isSome) = [] := by
    rw [List.filter_eq_nil_iff]; intro l _; rw [hok.waits]; exact Bool.false_ne_true
  have hwf : a.waits = fun _ => none := funext hok.waits
  have hj : (fun l => if x.ts.contains l then (a.out l).jump else none) = fun _ => (none : Option DWord) := by
    funext l; rw [hok.jumps]; split <;> rfl
  have hpc : ∀ g : Group, g.pendCopies i [] = g := by
    intro g; unfold Group.pendCopies; cases instrLdest i <;> rfl
  have haf : ∀ (g : Group) (more : List Owed), Issue.after { x with g := g } more a.out (fun g => g) =
      (let g' := x.advance (g.applyAll x.ts a.out) [] (fun _ => none) (fun _ => none)
       { g' with owed := g'.owed ++ more }) := by
    intro g more
    unfold Issue.after
    dsimp only
    rw [hj, Group.setGuards_none _ _ _ fun l _ => hok.guards l]
    rfl
  simp only [haf]
  simp only [List.append_nil] at *
  rw [hoks, hw, hwf]
  simp only [hpc]
  have hcom : x.owedOf i a.s.take.1.take.2 [] false = [] := by
    unfold Issue.owedOf; cases instrLdest i <;> rfl
  simp only [State.queueBlocks, State.raiseEarly, hpc, hcom, List.isEmpty_nil, Bool.not_true, Bool.false_and, if_true,
    Bool.false_eq_true, if_false, List.filter_nil, List.map_nil, List.append_nil]
  rfl

end Sys2Proof.Machine
end

