-- ==== Sys2Proof/Laws/PerInstr.lean ====
section
/-!
SUPPORT. Facts of every instruction as syntax: how many words it has (R57).
-/
namespace Sys2Proof.Laws

theorem encode_words (i : Instr) (e : Enc) (h : i.enc = some e) : encode i = e.words := by
  have k : encode i = (i.enc.map Enc.words).getD [] ∨ i.enc = none := by
    cases i <;> first | exact .inl rfl | exact .inr rfl
  rcases k with k | k
  · rw [k, h]; rfl
  · rw [h] at k; cases k

theorem words_length (e : Enc) : 1 ≤ e.words.length ∧ e.words.length ≤ 4 := by
  rcases e with ⟨_, _, m, lit, mask⟩
  cases m <;> cases lit <;> cases mask <;> simp [Enc.words]

/-- A well-formed instruction has one to four words. -/
def WordCount.Statement (i : Instr) : Prop := i.wellFormed = true → 1 ≤ (encode i).length ∧ (encode i).length ≤ 4

theorem wordCount (i : Instr) : WordCount.Statement i := by
  intro h
  have h' : i.enc.isSome = true := by
    simp only [Instr.wellFormed, Bool.and_eq_true] at h
    exact h.1.1
  obtain ⟨e, he⟩ := Option.isSome_iff_exists.mp h'
  rw [encode_words i e he]
  exact words_length e

theorem WordCount.nop (m : SafeMask) : WordCount.Statement (.nop m) := wordCount _
theorem WordCount.yield (m : SafeMask) : WordCount.Statement (.yield m) := wordCount _
theorem WordCount.exit (m : SafeMask) : WordCount.Statement (.exit m) := wordCount _
theorem WordCount.brk (o : CodeOps) : WordCount.Statement (.brk o) := wordCount _
theorem WordCount.trap (o : CodeOps) : WordCount.Statement (.trap o) := wordCount _
theorem WordCount.ret (m : SafeMask) : WordCount.Statement (.ret m) := wordCount _
theorem WordCount.jmpi (o : R1) : WordCount.Statement (.jmpi o) := wordCount _
theorem WordCount.calli (o : R1) : WordCount.Statement (.calli o) := wordCount _
theorem WordCount.genbump (m : SafeMask) : WordCount.Statement (.genbump m) := wordCount _
theorem WordCount.mfs (o : MfsOps) : WordCount.Statement (.mfs o) := wordCount _
theorem WordCount.mts (o : MtsOps) : WordCount.Statement (.mts o) := wordCount _
theorem WordCount.fenceAcq (o : FenceOps) : WordCount.Statement (.fenceAcq o) := wordCount _
theorem WordCount.fenceRel (o : FenceOps) : WordCount.Statement (.fenceRel o) := wordCount _
theorem WordCount.fenceAcqRel (o : FenceOps) : WordCount.Statement (.fenceAcqRel o) := wordCount _
theorem WordCount.fenceFull (o : FenceOps) : WordCount.Statement (.fenceFull o) := wordCount _
theorem WordCount.guard (o : GuardOps) : WordCount.Statement (.guard o) := wordCount _
theorem WordCount.br (o : BrOps) : WordCount.Statement (.br o) := wordCount _
theorem WordCount.call (o : BrOps) : WordCount.Statement (.call o) := wordCount _
theorem WordCount.wbase (o : R1) : WordCount.Statement (.wbase o) := wordCount _
theorem WordCount.grow (o : R2) : WordCount.Statement (.grow o) := wordCount _
theorem WordCount.shrink (o : R1) : WordCount.Statement (.shrink o) := wordCount _
theorem WordCount.iadd (o : R3) : WordCount.Statement (.iadd o) := wordCount _
theorem WordCount.isub (o : R3) : WordCount.Statement (.isub o) := wordCount _
theorem WordCount.imul (o : R3) : WordCount.Statement (.imul o) := wordCount _
theorem WordCount.imulhs (o : R3) : WordCount.Statement (.imulhs o) := wordCount _
theorem WordCount.imulhn (o : R3) : WordCount.Statement (.imulhn o) := wordCount _
theorem WordCount.imad (o : R3) : WordCount.Statement (.imad o) := wordCount _
theorem WordCount.imin (o : R3) : WordCount.Statement (.imin o) := wordCount _
theorem WordCount.imax (o : R3) : WordCount.Statement (.imax o) := wordCount _
theorem WordCount.nmin (o : R3) : WordCount.Statement (.nmin o) := wordCount _
theorem WordCount.nmax (o : R3) : WordCount.Statement (.nmax o) := wordCount _
theorem WordCount.iabsd (o : R3) : WordCount.Statement (.iabsd o) := wordCount _
theorem WordCount.iaddc (o : R3) : WordCount.Statement (.iaddc o) := wordCount _
theorem WordCount.isubb (o : R3) : WordCount.Statement (.isubb o) := wordCount _
theorem WordCount.and (o : R3) : WordCount.Statement (.and o) := wordCount _
theorem WordCount.or (o : R3) : WordCount.Statement (.or o) := wordCount _
theorem WordCount.xor (o : R3) : WordCount.Statement (.xor o) := wordCount _
theorem WordCount.andn (o : R3) : WordCount.Statement (.andn o) := wordCount _
theorem WordCount.orn (o : R3) : WordCount.Statement (.orn o) := wordCount _
theorem WordCount.shl (o : R3) : WordCount.Statement (.shl o) := wordCount _
theorem WordCount.shr (o : R3) : WordCount.Statement (.shr o) := wordCount _
theorem WordCount.sar (o : R3) : WordCount.Statement (.sar o) := wordCount _
theorem WordCount.rotl (o : R3) : WordCount.Statement (.rotl o) := wordCount _
theorem WordCount.popc (o : R2) : WordCount.Statement (.popc o) := wordCount _
theorem WordCount.clz (o : R2) : WordCount.Statement (.clz o) := wordCount _
theorem WordCount.brev (o : R2) : WordCount.Statement (.brev o) := wordCount _
theorem WordCount.prmt (o : R3) : WordCount.Statement (.prmt o) := wordCount _
theorem WordCount.bfx (o : R3) : WordCount.Statement (.bfx o) := wordCount _
theorem WordCount.bfi (o : R3) : WordCount.Statement (.bfi o) := wordCount _
theorem WordCount.add64 (o : R3) : WordCount.Statement (.add64 o) := wordCount _
theorem WordCount.sub64 (o : R3) : WordCount.Statement (.sub64 o) := wordCount _
theorem WordCount.mad64 (o : R3) : WordCount.Statement (.mad64 o) := wordCount _
theorem WordCount.shl64 (o : R3) : WordCount.Statement (.shl64 o) := wordCount _
theorem WordCount.shr64 (o : R3) : WordCount.Statement (.shr64 o) := wordCount _
theorem WordCount.sar64 (o : R3) : WordCount.Statement (.sar64 o) := wordCount _
theorem WordCount.mov64 (o : R2) : WordCount.Statement (.mov64 o) := wordCount _
theorem WordCount.mov (o : R2) : WordCount.Statement (.mov o) := wordCount _
theorem WordCount.movs (o : R2) : WordCount.Statement (.movs o) := wordCount _
theorem WordCount.p2v (o : P2vOps) : WordCount.Statement (.p2v o) := wordCount _
theorem WordCount.lit (o : R2) : WordCount.Statement (.lit o) := wordCount _
theorem WordCount.iaddi (o : RI) : WordCount.Statement (.iaddi o) := wordCount _
theorem WordCount.andi (o : RI) : WordCount.Statement (.andi o) := wordCount _
theorem WordCount.ori (o : RI) : WordCount.Statement (.ori o) := wordCount _
theorem WordCount.xori (o : RI) : WordCount.Statement (.xori o) := wordCount _
theorem WordCount.shli (o : RSh) : WordCount.Statement (.shli o) := wordCount _
theorem WordCount.shri (o : RSh) : WordCount.Statement (.shri o) := wordCount _
theorem WordCount.sari (o : RSh) : WordCount.Statement (.sari o) := wordCount _
theorem WordCount.rotli (o : RSh) : WordCount.Statement (.rotli o) := wordCount _
theorem WordCount.icmp (o : IcmpOps) : WordCount.Statement (.icmp o) := wordCount _
theorem WordCount.fcmp (o : FcmpOps) : WordCount.Statement (.fcmp o) := wordCount _
theorem WordCount.plogAnd (o : PlogOps) : WordCount.Statement (.plogAnd o) := wordCount _
theorem WordCount.plogOr (o : PlogOps) : WordCount.Statement (.plogOr o) := wordCount _
theorem WordCount.plogXor (o : PlogOps) : WordCount.Statement (.plogXor o) := wordCount _
theorem WordCount.plogNand (o : PlogOps) : WordCount.Statement (.plogNand o) := wordCount _
theorem WordCount.plogNor (o : PlogOps) : WordCount.Statement (.plogNor o) := wordCount _
theorem WordCount.plogXnor (o : PlogOps) : WordCount.Statement (.plogXnor o) := wordCount _
theorem WordCount.voteAny (o : VotePOps) : WordCount.Statement (.voteAny o) := wordCount _
theorem WordCount.voteAll (o : VotePOps) : WordCount.Statement (.voteAll o) := wordCount _
theorem WordCount.voteBallot (o : VoteROps) : WordCount.Statement (.voteBallot o) := wordCount _
theorem WordCount.votePcount (o : VoteROps) : WordCount.Statement (.votePcount o) := wordCount _
theorem WordCount.voteV2p (o : VoteVOps) : WordCount.Statement (.voteV2p o) := wordCount _
theorem WordCount.fadd (o : R3) : WordCount.Statement (.fadd o) := wordCount _
theorem WordCount.fsub (o : R3) : WordCount.Statement (.fsub o) := wordCount _
theorem WordCount.fmul (o : R3) : WordCount.Statement (.fmul o) := wordCount _
theorem WordCount.ffma (o : R3) : WordCount.Statement (.ffma o) := wordCount _
theorem WordCount.fmin (o : R3) : WordCount.Statement (.fmin o) := wordCount _
theorem WordCount.fmax (o : R3) : WordCount.Statement (.fmax o) := wordCount _
theorem WordCount.fminn (o : R3) : WordCount.Statement (.fminn o) := wordCount _
theorem WordCount.fmaxn (o : R3) : WordCount.Statement (.fmaxn o) := wordCount _
theorem WordCount.fabs (o : R2) : WordCount.Statement (.fabs o) := wordCount _
theorem WordCount.fneg (o : R2) : WordCount.Statement (.fneg o) := wordCount _
theorem WordCount.frnd (o : FrndOps) : WordCount.Statement (.frnd o) := wordCount _
theorem WordCount.add2 (o : HpairOps) : WordCount.Statement (.add2 o) := wordCount _
theorem WordCount.mul2 (o : HpairOps) : WordCount.Statement (.mul2 o) := wordCount _
theorem WordCount.fma2 (o : HpairOps) : WordCount.Statement (.fma2 o) := wordCount _
theorem WordCount.min2 (o : HpairOps) : WordCount.Statement (.min2 o) := wordCount _
theorem WordCount.max2 (o : HpairOps) : WordCount.Statement (.max2 o) := wordCount _
theorem WordCount.frcp (o : SfuOps) : WordCount.Statement (.frcp o) := wordCount _
theorem WordCount.frsq (o : SfuOps) : WordCount.Statement (.frsq o) := wordCount _
theorem WordCount.fsqrt (o : SfuOps) : WordCount.Statement (.fsqrt o) := wordCount _
theorem WordCount.fexp2 (o : SfuOps) : WordCount.Statement (.fexp2 o) := wordCount _
theorem WordCount.flog2 (o : SfuOps) : WordCount.Statement (.flog2 o) := wordCount _
theorem WordCount.fsin (o : SfuOps) : WordCount.Statement (.fsin o) := wordCount _
theorem WordCount.fcos (o : SfuOps) : WordCount.Statement (.fcos o) := wordCount _
theorem WordCount.ftanh (o : SfuOps) : WordCount.Statement (.ftanh o) := wordCount _
theorem WordCount.cvt (o : CvtOps) : WordCount.Statement (.cvt o) := wordCount _
theorem WordCount.pack (o : PackOps) : WordCount.Statement (.pack o) := wordCount _
theorem WordCount.unpack (o : PackOps) : WordCount.Statement (.unpack o) := wordCount _
theorem WordCount.dot4F8a (o : R3) : WordCount.Statement (.dot4F8a o) := wordCount _
theorem WordCount.dot4F8b (o : R3) : WordCount.Statement (.dot4F8b o) := wordCount _
theorem WordCount.dot4I8 (o : R3) : WordCount.Statement (.dot4I8 o) := wordCount _
theorem WordCount.dot4N8 (o : R3) : WordCount.Statement (.dot4N8 o) := wordCount _
theorem WordCount.dot8F4 (o : R3) : WordCount.Statement (.dot8F4 o) := wordCount _
theorem WordCount.dot8I4 (o : R3) : WordCount.Statement (.dot8I4 o) := wordCount _
theorem WordCount.dot8N4 (o : R3) : WordCount.Statement (.dot8N4 o) := wordCount _
theorem WordCount.shflIdx (o : R3) : WordCount.Statement (.shflIdx o) := wordCount _
theorem WordCount.shflUp (o : R3) : WordCount.Statement (.shflUp o) := wordCount _
theorem WordCount.shflDown (o : R3) : WordCount.Statement (.shflDown o) := wordCount _
theorem WordCount.shflXor (o : R3) : WordCount.Statement (.shflXor o) := wordCount _
theorem WordCount.shflBcast (o : R3) : WordCount.Statement (.shflBcast o) := wordCount _
theorem WordCount.gredReduce (o : GredOps) : WordCount.Statement (.gredReduce o) := wordCount _
theorem WordCount.gredIncl (o : GredOps) : WordCount.Statement (.gredIncl o) := wordCount _
theorem WordCount.gredExcl (o : GredOps) : WordCount.Statement (.gredExcl o) := wordCount _
theorem WordCount.ld (o : LdOps) : WordCount.Statement (.ld o) := wordCount _
theorem WordCount.ldNr (o : LdnrOps) : WordCount.Statement (.ldNr o) := wordCount _
theorem WordCount.st (o : StOps) : WordCount.Statement (.st o) := wordCount _
theorem WordCount.lds (o : LdsOps) : WordCount.Statement (.lds o) := wordCount _
theorem WordCount.sts (o : StsOps) : WordCount.Statement (.sts o) := wordCount _
theorem WordCount.atom (o : AtomOps) : WordCount.Statement (.atom o) := wordCount _
theorem WordCount.atomc (o : AtomcOps) : WordCount.Statement (.atomc o) := wordCount _
theorem WordCount.red (o : RedOps) : WordCount.Statement (.red o) := wordCount _
theorem WordCount.prf (o : PrfOps) : WordCount.Statement (.prf o) := wordCount _
theorem WordCount.flush (o : FlushOps) : WordCount.Statement (.flush o) := wordCount _
theorem WordCount.inv (o : FlushOps) : WordCount.Statement (.inv o) := wordCount _
theorem WordCount.pgreq (o : PgOps) : WordCount.Statement (.pgreq o) := wordCount _
theorem WordCount.pres (o : PgOps) : WordCount.Statement (.pres o) := wordCount _
theorem WordCount.tagst (o : TagstOps) : WordCount.Statement (.tagst o) := wordCount _
theorem WordCount.tagld (o : AddrOps) : WordCount.Statement (.tagld o) := wordCount _
theorem WordCount.gqry (o : AddrOps) : WordCount.Statement (.gqry o) := wordCount _
theorem WordCount.ghold (o : AddrOps) : WordCount.Statement (.ghold o) := wordCount _
theorem WordCount.grel (o : AddrOps) : WordCount.Statement (.grel o) := wordCount _
theorem WordCount.waitv (o : WaitvOps) : WordCount.Statement (.waitv o) := wordCount _
theorem WordCount.cpySp (o : CpyOps) : WordCount.Statement (.cpySp o) := wordCount _
theorem WordCount.cpyTile (o : CpyOps) : WordCount.Statement (.cpyTile o) := wordCount _
theorem WordCount.cpyMc (o : CpyMcOps) : WordCount.Statement (.cpyMc o) := wordCount _
theorem WordCount.gathSp (o : GathOps) : WordCount.Statement (.gathSp o) := wordCount _
theorem WordCount.gathTile (o : GathOps) : WordCount.Statement (.gathTile o) := wordCount _
theorem WordCount.sta (o : StaOps) : WordCount.Statement (.sta o) := wordCount _
theorem WordCount.collAdd (o : CollOps) : WordCount.Statement (.collAdd o) := wordCount _
theorem WordCount.collMax (o : CollOps) : WordCount.Statement (.collMax o) := wordCount _
theorem WordCount.collBcast (o : CollBOps) : WordCount.Statement (.collBcast o) := wordCount _
theorem WordCount.waitq (o : WaitqOps) : WordCount.Statement (.waitq o) := wordCount _
theorem WordCount.pset (o : PrsOps) : WordCount.Statement (.pset o) := wordCount _
theorem WordCount.pclr (o : PrsOps) : WordCount.Statement (.pclr o) := wordCount _
theorem WordCount.barinit (o : BarDabOps) : WordCount.Statement (.barinit o) := wordCount _
theorem WordCount.bararr (o : DaOps) : WordCount.Statement (.bararr o) := wordCount _
theorem WordCount.barexp (o : AbOps) : WordCount.Statement (.barexp o) := wordCount _
theorem WordCount.barwait (o : BarwaitOps) : WordCount.Statement (.barwait o) := wordCount _
theorem WordCount.bartry (o : BarDabOps) : WordCount.Statement (.bartry o) := wordCount _
theorem WordCount.barinv (o : ALOps) : WordCount.Statement (.barinv o) := wordCount _
theorem WordCount.launch (o : DaOps) : WordCount.Statement (.launch o) := wordCount _
theorem WordCount.tdefSp (o : TileSpOps) : WordCount.Statement (.tdefSp o) := wordCount _
theorem WordCount.tdefReg (o : TdefRegOps) : WordCount.Statement (.tdefReg o) := wordCount _
theorem WordCount.treadSp (o : TileSpOps) : WordCount.Statement (.treadSp o) := wordCount _
theorem WordCount.treadReg (o : TreadRegOps) : WordCount.Statement (.treadReg o) := wordCount _
theorem WordCount.tkill (o : R1) : WordCount.Statement (.tkill o) := wordCount _
theorem WordCount.tqry (o : R2) : WordCount.Statement (.tqry o) := wordCount _
theorem WordCount.mmat (o : ALOps) : WordCount.Statement (.mmat o) := wordCount _
theorem WordCount.mmar (o : MmarOps) : WordCount.Statement (.mmar o) := wordCount _
theorem WordCount.accz (o : AcczOps) : WordCount.Statement (.accz o) := wordCount _
theorem WordCount.accldSp (o : ALOps) : WordCount.Statement (.accldSp o) := wordCount _
theorem WordCount.accldReg (o : AccldRegOps) : WordCount.Statement (.accldReg o) := wordCount _
theorem WordCount.accst (o : AccstOps) : WordCount.Statement (.accst o) := wordCount _
theorem WordCount.accgrow (o : DaOps) : WordCount.Statement (.accgrow o) := wordCount _
theorem WordCount.accshr (o : ALOps) : WordCount.Statement (.accshr o) := wordCount _
theorem WordCount.fzrec (o : FzrecOps) : WordCount.Statement (.fzrec o) := wordCount _
theorem WordCount.fzrd (o : FzrdOps) : WordCount.Statement (.fzrd o) := wordCount _
theorem WordCount.fzwr (o : FzwrOps) : WordCount.Statement (.fzwr o) := wordCount _
theorem WordCount.fzres (o : FzresOps) : WordCount.Statement (.fzres o) := wordCount _
theorem WordCount.fzresRpl (o : FzMaskOps) : WordCount.Statement (.fzresRpl o) := wordCount _
theorem WordCount.fzkill (o : FzMaskOps) : WordCount.Statement (.fzkill o) := wordCount _
theorem WordCount.tlbiRange (o : TlbiOps) : WordCount.Statement (.tlbiRange o) := wordCount _
theorem WordCount.tlbiCtx (o : TlbiCtxOps) : WordCount.Statement (.tlbiCtx o) := wordCount _
theorem WordCount.migr (o : MigrOps) : WordCount.Statement (.migr o) := wordCount _
theorem WordCount.rhLaunch (o : RhOps) : WordCount.Statement (.rhLaunch o) := wordCount _
theorem WordCount.rhTlbiRange (o : RhOps) : WordCount.Statement (.rhTlbiRange o) := wordCount _
theorem WordCount.rhTlbiCtx (o : RhOps) : WordCount.Statement (.rhTlbiCtx o) := wordCount _
theorem WordCount.longLatencyResult (gid id : Nat) : WordCount.Statement (.longLatencyResult gid id) := wordCount _
theorem WordCount.launchAccept (part queue : Nat) : WordCount.Statement (.launchAccept part queue) := wordCount _
theorem WordCount.dependenceSatisfied (part queue : Nat) : WordCount.Statement (.dependenceSatisfied part queue) := wordCount _
theorem WordCount.distributorPlaceSpan (part queue : Nat) : WordCount.Statement (.distributorPlaceSpan part queue) := wordCount _
theorem WordCount.stagingRegionWritten (op : Nat) : WordCount.Statement (.stagingRegionWritten op) := wordCount _
theorem WordCount.presenceLinePresent (tid line : Nat) : WordCount.Statement (.presenceLinePresent tid line) := wordCount _
theorem WordCount.copyOperationComplete (op : Nat) : WordCount.Statement (.copyOperationComplete op) := wordCount _
theorem WordCount.gathComplete (op : Nat) : WordCount.Statement (.gathComplete op) := wordCount _
theorem WordCount.staComplete (op : Nat) : WordCount.Statement (.staComplete op) := wordCount _
theorem WordCount.collRun (sid k : Nat) : WordCount.Statement (.collRun sid k) := wordCount _
theorem WordCount.enginePassGrant (cluster : Nat) : WordCount.Statement (.enginePassGrant cluster) := wordCount _
theorem WordCount.matrixOperationComplete (op : Nat) : WordCount.Statement (.matrixOperationComplete op) := wordCount _
theorem WordCount.tileDefinitionComplete (op : Nat) : WordCount.Statement (.tileDefinitionComplete op) := wordCount _
theorem WordCount.tileStorageRelease (sid name : Nat) : WordCount.Statement (.tileStorageRelease sid name) := wordCount _
theorem WordCount.spanRetire (sid : Nat) : WordCount.Statement (.spanRetire sid) := wordCount _
theorem WordCount.gridComplete (uid : Nat) : WordCount.Statement (.gridComplete uid) := wordCount _
theorem WordCount.waitvMonitorDeliver (mon : Nat) : WordCount.Statement (.waitvMonitorDeliver mon) := wordCount _
theorem WordCount.yieldRelease (gid : Nat) : WordCount.Statement (.yieldRelease gid) := wordCount _
theorem WordCount.groupPromotion (gid : Nat) : WordCount.Statement (.groupPromotion gid) := wordCount _
theorem WordCount.pageParkTimeout (gid : Nat) : WordCount.Statement (.pageParkTimeout gid) := wordCount _
theorem WordCount.forcedSaveTimeout (sid : Nat) : WordCount.Statement (.forcedSaveTimeout sid) := wordCount _
theorem WordCount.priorityPreemption (part queue : Nat) : WordCount.Statement (.priorityPreemption part queue) := wordCount _
theorem WordCount.spanSave (sid : Nat) : WordCount.Statement (.spanSave sid) := wordCount _
theorem WordCount.preemptionWithdraw (sid : Nat) : WordCount.Statement (.preemptionWithdraw sid) := wordCount _
theorem WordCount.spanReturn (sid : Nat) : WordCount.Statement (.spanReturn sid) := wordCount _
theorem WordCount.pageReplay (gid : Nat) : WordCount.Statement (.pageReplay gid) := wordCount _
theorem WordCount.prqdoneWrite (part : Nat) (val : Word) : WordCount.Statement (.prqdoneWrite part val) := wordCount _
theorem WordCount.priResponse (part pasid page : Nat) (write : Bool) (code : PriCode) : WordCount.Statement (.priResponse part pasid page write code) := wordCount _
theorem WordCount.atsTranslationCompletion (part req : Nat) (res : AtsResult) : WordCount.Statement (.atsTranslationCompletion part req res) := wordCount _
theorem WordCount.atsInvalidationRequest (part pasid va log2 : Nat) : WordCount.Statement (.atsInvalidationRequest part pasid va log2) := wordCount _
theorem WordCount.walkComplete (w : WalkReq) : WordCount.Statement (.walkComplete w) := wordCount _
theorem WordCount.snufferInterval (part : Nat) : WordCount.Statement (.snufferInterval part) := wordCount _
theorem WordCount.sweepIntervalEnd (part : Nat) : WordCount.Statement (.sweepIntervalEnd part) := wordCount _
theorem WordCount.writeOwnershipRequest (r : OwnReq) : WordCount.Statement (.writeOwnershipRequest r) := wordCount _
theorem WordCount.crierRound (part pa : Nat) : WordCount.Statement (.crierRound part pa) := wordCount _
theorem WordCount.hostAtomicopCompletion (part req : Nat) (c : HostCpl) : WordCount.Statement (.hostAtomicopCompletion part req c) := wordCount _
theorem WordCount.lamplighterStart (core : Nat) : WordCount.Statement (.lamplighterStart core) := wordCount _
theorem WordCount.faultSlotFree (core slot : Nat) : WordCount.Statement (.faultSlotFree core slot) := wordCount _
theorem WordCount.completionTimeout (port : Nat) (r : TimedOut) : WordCount.Statement (.completionTimeout port r) := wordCount _
theorem WordCount.wrsNtoWake (hart : Nat) : WordCount.Statement (.wrsNtoWake hart) := wordCount _
theorem WordCount.illegalEncoding (w0 w1 w2 w3 : Word) : WordCount.Statement (.illegalEncoding w0 w1 w2 w3) := wordCount _
theorem WordCount.fetchFault (gid : Nat) (pc : DWord) : WordCount.Statement (.fetchFault gid pc) := wordCount _
theorem WordCount.applicationCoreAccess (hart : Nat) (op : HartOp) : WordCount.Statement (.applicationCoreAccess hart op) := wordCount _
theorem WordCount.contextPreemptionRequest (part ctx : Nat) : WordCount.Statement (.contextPreemptionRequest part ctx) := wordCount _
theorem WordCount.directoryEntryDrop (part pa : Nat) : WordCount.Statement (.directoryEntryDrop part pa) := wordCount _
theorem WordCount.tilePlacementChange (sid name place : Nat) : WordCount.Statement (.tilePlacementChange sid name place) := wordCount _
theorem WordCount.sourceReadComplete (op : Nat) : WordCount.Statement (.sourceReadComplete op) := wordCount _
theorem WordCount.homeWriteBack (part pa : Nat) : WordCount.Statement (.homeWriteBack part pa) := wordCount _
theorem WordCount.hostSnoop (part line : Nat) (inval : Bool) (data : List Byte) : WordCount.Statement (.hostSnoop part line inval data) := wordCount _
theorem WordCount.hostHdmRequest (part addr : Nat) (stream : Option Nat) (op : HdmOp) : WordCount.Statement (.hostHdmRequest part addr stream op) := wordCount _
theorem WordCount.hostAtomicopRequest (part addr : Nat) (stream : Option Nat) (op : HostAtOp) (bytes : Nat) (operand compare : Nat) : WordCount.Statement (.hostAtomicopRequest part addr stream op bytes operand compare) := wordCount _
theorem WordCount.hwtnWrite (part : Nat) (n : Word) : WordCount.Statement (.hwtnWrite part n) := wordCount _
theorem WordCount.controlPageWrite (part off : Nat) (val : DWord) : WordCount.Statement (.controlPageWrite part off val) := wordCount _
theorem WordCount.slcmdResume (core : Nat) (pc : DWord) : WordCount.Statement (.slcmdResume core pc) := wordCount _
theorem WordCount.slcmdReplay (core : Nat) : WordCount.Statement (.slcmdReplay core) := wordCount _
theorem WordCount.slcmdRetire (core : Nat) : WordCount.Statement (.slcmdRetire core) := wordCount _
theorem WordCount.slcmdEndContext (core : Nat) : WordCount.Statement (.slcmdEndContext core) := wordCount _
theorem WordCount.partitionCountWrite (n : Nat) : WordCount.Statement (.partitionCountWrite n) := wordCount _
theorem WordCount.tdiConfigLock (o : TdiLock) : WordCount.Statement (.tdiConfigLock o) := wordCount _
theorem WordCount.tdiRun (part stream : Nat) : WordCount.Statement (.tdiRun part stream) := wordCount _
theorem WordCount.tdiUnlock (part : Nat) : WordCount.Statement (.tdiUnlock part) := wordCount _
theorem WordCount.tdiError (part : Nat) : WordCount.Statement (.tdiError part) := wordCount _
theorem WordCount.moduleReset : WordCount.Statement (.moduleReset) := wordCount _
theorem WordCount.spdmRequest (pf : Nat) (r : SpdmReq) : WordCount.Statement (.spdmRequest pf r) := wordCount _
theorem WordCount.imageWrite (off : Nat) (piece : List Byte) : WordCount.Statement (.imageWrite off piece) := wordCount _
theorem WordCount.imageCommit (len : Nat) : WordCount.Statement (.imageCommit len) := wordCount _
theorem WordCount.imageStatus : WordCount.Statement (.imageStatus) := wordCount _
theorem WordCount.powerLimitWrite (watts : Nat) : WordCount.Statement (.powerLimitWrite watts) := wordCount _
theorem WordCount.pldmFirmwareUpdate (image : List Byte) : WordCount.Statement (.pldmFirmwareUpdate image) := wordCount _
theorem WordCount.pldmMonitoring : WordCount.Statement (.pldmMonitoring) := wordCount _
theorem WordCount.channelPowerDown (ch : Nat) : WordCount.Statement (.channelPowerDown ch) := wordCount _
theorem WordCount.channelSelfRefresh (ch : Nat) : WordCount.Statement (.channelSelfRefresh ch) := wordCount _
theorem WordCount.linkDown (port : Nat) : WordCount.Statement (.linkDown port) := wordCount _
theorem WordCount.linkTrained (port cap : Nat) : WordCount.Statement (.linkTrained port cap) := wordCount _
theorem WordCount.ideIntegrityFailure (stream : Nat) : WordCount.Statement (.ideIntegrityFailure stream) := wordCount _
theorem WordCount.poisonedDataReceived (part pa : Nat) : WordCount.Statement (.poisonedDataReceived part pa) := wordCount _
theorem WordCount.hbmUncorrectableError (part pa : Nat) : WordCount.Statement (.hbmUncorrectableError part pa) := wordCount _
theorem WordCount.sramUncorrectableError (site : SramSite) : WordCount.Statement (.sramUncorrectableError site) := wordCount _
theorem WordCount.ucieRetrainTimeout (d1 d2 : Nat) : WordCount.Statement (.ucieRetrainTimeout d1 d2) := wordCount _
theorem WordCount.dieLoss (l : Loss) : WordCount.Statement (.dieLoss l) := wordCount _
theorem WordCount.hubDieLoss : WordCount.Statement (.hubDieLoss) := wordCount _
theorem WordCount.priEnable (part : Nat) : WordCount.Statement (.priEnable part) := wordCount _
theorem WordCount.ideStreamEstablish (stream : Nat) : WordCount.Statement (.ideStreamEstablish stream) := wordCount _
theorem WordCount.linkReplay (port : Nat) : WordCount.Statement (.linkReplay port) := wordCount _
theorem WordCount.correctedEccError (die : Nat) : WordCount.Statement (.correctedEccError die) := wordCount _

end Sys2Proof.Laws
end

