-- ==== Sys2Proof/Laws/State.lean ====
section
/-!
SUPPORT. What each update of the state leaves of every field: one lemma per field and update, so that no proof unfolds a
record update.
-/
namespace Sys2Proof.Machine

/-! ## updGroup -/

@[simp] theorem State.updGroup_groups (s : State) (gid : Nat) (f : Group → Group) :
    (s.updGroup gid f).groups = (s.groups.map fun g => if g.gid == gid then f g else g) := rfl
@[simp] theorem State.updGroup_teams (s : State) (gid : Nat) (f : Group → Group) :
    (s.updGroup gid f).teams = s.teams := rfl
@[simp] theorem State.updGroup_spans (s : State) (gid : Nat) (f : Group → Group) :
    (s.updGroup gid f).spans = s.spans := rfl
@[simp] theorem State.updGroup_grids (s : State) (gid : Nat) (f : Group → Group) :
    (s.updGroup gid f).grids = s.grids := rfl
@[simp] theorem State.updGroup_ops (s : State) (gid : Nat) (f : Group → Group) : (s.updGroup gid f).ops = s.ops := rfl
@[simp] theorem State.updGroup_monitors (s : State) (gid : Nat) (f : Group → Group) :
    (s.updGroup gid f).monitors = s.monitors := rfl
@[simp] theorem State.updGroup_granules (s : State) (gid : Nat) (f : Group → Group) :
    (s.updGroup gid f).granules = s.granules := rfl
@[simp] theorem State.updGroup_migs (s : State) (gid : Nat) (f : Group → Group) :
    (s.updGroup gid f).migs = s.migs := rfl
@[simp] theorem State.updGroup_cores (s : State) (gid : Nat) (f : Group → Group) :
    (s.updGroup gid f).cores = s.cores := rfl
@[simp] theorem State.updGroup_clusters (s : State) (gid : Nat) (f : Group → Group) :
    (s.updGroup gid f).clusters = s.clusters := rfl
@[simp] theorem State.updGroup_dies (s : State) (gid : Nat) (f : Group → Group) :
    (s.updGroup gid f).dies = s.dies := rfl
@[simp] theorem State.updGroup_parts (s : State) (gid : Nat) (f : Group → Group) :
    (s.updGroup gid f).parts = s.parts := rfl
@[simp] theorem State.updGroup_ports (s : State) (gid : Nat) (f : Group → Group) :
    (s.updGroup gid f).ports = s.ports := rfl
@[simp] theorem State.updGroup_streams (s : State) (gid : Nat) (f : Group → Group) :
    (s.updGroup gid f).streams = s.streams := rfl
@[simp] theorem State.updGroup_harts (s : State) (gid : Nat) (f : Group → Group) :
    (s.updGroup gid f).harts = s.harts := rfl
@[simp] theorem State.updGroup_mem (s : State) (gid : Nat) (f : Group → Group) : (s.updGroup gid f).mem = s.mem := rfl
@[simp] theorem State.updGroup_hostGrants (s : State) (gid : Nat) (f : Group → Group) :
    (s.updGroup gid f).hostGrants = s.hostGrants := rfl
@[simp] theorem State.updGroup_tags (s : State) (gid : Nat) (f : Group → Group) :
    (s.updGroup gid f).tags = s.tags := rfl
@[simp] theorem State.updGroup_poison (s : State) (gid : Nat) (f : Group → Group) :
    (s.updGroup gid f).poison = s.poison := rfl
@[simp] theorem State.updGroup_l2dirty (s : State) (gid : Nat) (f : Group → Group) :
    (s.updGroup gid f).l2dirty = s.l2dirty := rfl
@[simp] theorem State.updGroup_behind (s : State) (gid : Nat) (f : Group → Group) :
    (s.updGroup gid f).behind = s.behind := rfl
@[simp] theorem State.updGroup_channels (s : State) (gid : Nat) (f : Group → Group) :
    (s.updGroup gid f).channels = s.channels := rfl
@[simp] theorem State.updGroup_image (s : State) (gid : Nat) (f : Group → Group) :
    (s.updGroup gid f).image = s.image := rfl
@[simp] theorem State.updGroup_running (s : State) (gid : Nat) (f : Group → Group) :
    (s.updGroup gid f).running = s.running := rfl
@[simp] theorem State.updGroup_identity (s : State) (gid : Nat) (f : Group → Group) :
    (s.updGroup gid f).identity = s.identity := rfl
@[simp] theorem State.updGroup_errVecs (s : State) (gid : Nat) (f : Group → Group) :
    (s.updGroup gid f).errVecs = s.errVecs := rfl
@[simp] theorem State.updGroup_msix (s : State) (gid : Nat) (f : Group → Group) :
    (s.updGroup gid f).msix = s.msix := rfl
@[simp] theorem State.updGroup_imageBad (s : State) (gid : Nat) (f : Group → Group) :
    (s.updGroup gid f).imageBad = s.imageBad := rfl
@[simp] theorem State.updGroup_pieces (s : State) (gid : Nat) (f : Group → Group) :
    (s.updGroup gid f).pieces = s.pieces := rfl
@[simp] theorem State.updGroup_lastFail (s : State) (gid : Nat) (f : Group → Group) :
    (s.updGroup gid f).lastFail = s.lastFail := rfl
@[simp] theorem State.updGroup_staged (s : State) (gid : Nat) (f : Group → Group) :
    (s.updGroup gid f).staged = s.staged := rfl
@[simp] theorem State.updGroup_powerLimit (s : State) (gid : Nat) (f : Group → Group) :
    (s.updGroup gid f).powerLimit = s.powerLimit := rfl
@[simp] theorem State.updGroup_partCount (s : State) (gid : Nat) (f : Group → Group) :
    (s.updGroup gid f).partCount = s.partCount := rfl
@[simp] theorem State.updGroup_stopped (s : State) (gid : Nat) (f : Group → Group) :
    (s.updGroup gid f).stopped = s.stopped := rfl
@[simp] theorem State.updGroup_aer (s : State) (gid : Nat) (f : Group → Group) : (s.updGroup gid f).aer = s.aer := rfl
@[simp] theorem State.updGroup_out (s : State) (gid : Nat) (f : Group → Group) : (s.updGroup gid f).out = s.out := rfl
@[simp] theorem State.updGroup_inputs (s : State) (gid : Nat) (f : Group → Group) :
    (s.updGroup gid f).inputs = s.inputs := rfl
@[simp] theorem State.updGroup_turn (s : State) (gid : Nat) (f : Group → Group) :
    (s.updGroup gid f).turn = s.turn := rfl
@[simp] theorem State.updGroup_travels (s : State) (gid : Nat) (f : Group → Group) :
    (s.updGroup gid f).travels = s.travels := rfl
@[simp] theorem State.updGroup_cur (s : State) (gid : Nat) (f : Group → Group) : (s.updGroup gid f).cur = s.cur := rfl
@[simp] theorem State.updGroup_fresh (s : State) (gid : Nat) (f : Group → Group) :
    (s.updGroup gid f).fresh = s.fresh := rfl
@[simp] theorem State.updGroup_beat (s : State) (gid : Nat) (f : Group → Group) :
    (s.updGroup gid f).beat = s.beat := rfl
@[simp] theorem State.updGroup_free (s : State) (gid : Nat) (f : Group → Group) :
    (s.updGroup gid f).free = s.free := rfl

/-! ## setGroup -/

@[simp] theorem State.setGroup_groups (s : State) (g : Group) :
    (s.setGroup g).groups = s.groups.map fun x => if x.gid == g.gid then g else x := rfl
@[simp] theorem State.setGroup_teams (s : State) (g : Group) : (s.setGroup g).teams = s.teams := rfl
@[simp] theorem State.setGroup_spans (s : State) (g : Group) : (s.setGroup g).spans = s.spans := rfl
@[simp] theorem State.setGroup_grids (s : State) (g : Group) : (s.setGroup g).grids = s.grids := rfl
@[simp] theorem State.setGroup_ops (s : State) (g : Group) : (s.setGroup g).ops = s.ops := rfl
@[simp] theorem State.setGroup_monitors (s : State) (g : Group) : (s.setGroup g).monitors = s.monitors := rfl
@[simp] theorem State.setGroup_granules (s : State) (g : Group) : (s.setGroup g).granules = s.granules := rfl
@[simp] theorem State.setGroup_migs (s : State) (g : Group) : (s.setGroup g).migs = s.migs := rfl
@[simp] theorem State.setGroup_cores (s : State) (g : Group) : (s.setGroup g).cores = s.cores := rfl
@[simp] theorem State.setGroup_clusters (s : State) (g : Group) : (s.setGroup g).clusters = s.clusters := rfl
@[simp] theorem State.setGroup_dies (s : State) (g : Group) : (s.setGroup g).dies = s.dies := rfl
@[simp] theorem State.setGroup_parts (s : State) (g : Group) : (s.setGroup g).parts = s.parts := rfl
@[simp] theorem State.setGroup_ports (s : State) (g : Group) : (s.setGroup g).ports = s.ports := rfl
@[simp] theorem State.setGroup_streams (s : State) (g : Group) : (s.setGroup g).streams = s.streams := rfl
@[simp] theorem State.setGroup_harts (s : State) (g : Group) : (s.setGroup g).harts = s.harts := rfl
@[simp] theorem State.setGroup_mem (s : State) (g : Group) : (s.setGroup g).mem = s.mem := rfl
@[simp] theorem State.setGroup_hostGrants (s : State) (g : Group) : (s.setGroup g).hostGrants = s.hostGrants := rfl
@[simp] theorem State.setGroup_tags (s : State) (g : Group) : (s.setGroup g).tags = s.tags := rfl
@[simp] theorem State.setGroup_poison (s : State) (g : Group) : (s.setGroup g).poison = s.poison := rfl
@[simp] theorem State.setGroup_l2dirty (s : State) (g : Group) : (s.setGroup g).l2dirty = s.l2dirty := rfl
@[simp] theorem State.setGroup_behind (s : State) (g : Group) : (s.setGroup g).behind = s.behind := rfl
@[simp] theorem State.setGroup_channels (s : State) (g : Group) : (s.setGroup g).channels = s.channels := rfl
@[simp] theorem State.setGroup_image (s : State) (g : Group) : (s.setGroup g).image = s.image := rfl
@[simp] theorem State.setGroup_running (s : State) (g : Group) : (s.setGroup g).running = s.running := rfl
@[simp] theorem State.setGroup_identity (s : State) (g : Group) : (s.setGroup g).identity = s.identity := rfl
@[simp] theorem State.setGroup_errVecs (s : State) (g : Group) : (s.setGroup g).errVecs = s.errVecs := rfl
@[simp] theorem State.setGroup_msix (s : State) (g : Group) : (s.setGroup g).msix = s.msix := rfl
@[simp] theorem State.setGroup_imageBad (s : State) (g : Group) : (s.setGroup g).imageBad = s.imageBad := rfl
@[simp] theorem State.setGroup_pieces (s : State) (g : Group) : (s.setGroup g).pieces = s.pieces := rfl
@[simp] theorem State.setGroup_lastFail (s : State) (g : Group) : (s.setGroup g).lastFail = s.lastFail := rfl
@[simp] theorem State.setGroup_staged (s : State) (g : Group) : (s.setGroup g).staged = s.staged := rfl
@[simp] theorem State.setGroup_powerLimit (s : State) (g : Group) : (s.setGroup g).powerLimit = s.powerLimit := rfl
@[simp] theorem State.setGroup_partCount (s : State) (g : Group) : (s.setGroup g).partCount = s.partCount := rfl
@[simp] theorem State.setGroup_stopped (s : State) (g : Group) : (s.setGroup g).stopped = s.stopped := rfl
@[simp] theorem State.setGroup_aer (s : State) (g : Group) : (s.setGroup g).aer = s.aer := rfl
@[simp] theorem State.setGroup_out (s : State) (g : Group) : (s.setGroup g).out = s.out := rfl
@[simp] theorem State.setGroup_inputs (s : State) (g : Group) : (s.setGroup g).inputs = s.inputs := rfl
@[simp] theorem State.setGroup_turn (s : State) (g : Group) : (s.setGroup g).turn = s.turn := rfl
@[simp] theorem State.setGroup_travels (s : State) (g : Group) : (s.setGroup g).travels = s.travels := rfl
@[simp] theorem State.setGroup_cur (s : State) (g : Group) : (s.setGroup g).cur = s.cur := rfl
@[simp] theorem State.setGroup_fresh (s : State) (g : Group) : (s.setGroup g).fresh = s.fresh := rfl
@[simp] theorem State.setGroup_beat (s : State) (g : Group) : (s.setGroup g).beat = s.beat := rfl
@[simp] theorem State.setGroup_free (s : State) (g : Group) : (s.setGroup g).free = s.free := rfl

/-! ## updTeam -/

@[simp] theorem State.updTeam_teams (s : State) (tid : Nat) (f : Team → Team) :
    (s.updTeam tid f).teams = (s.teams.map fun t => if t.tid == tid then f t else t) := rfl
@[simp] theorem State.updTeam_groups (s : State) (tid : Nat) (f : Team → Team) :
    (s.updTeam tid f).groups = s.groups := rfl
@[simp] theorem State.updTeam_spans (s : State) (tid : Nat) (f : Team → Team) :
    (s.updTeam tid f).spans = s.spans := rfl
@[simp] theorem State.updTeam_grids (s : State) (tid : Nat) (f : Team → Team) :
    (s.updTeam tid f).grids = s.grids := rfl
@[simp] theorem State.updTeam_ops (s : State) (tid : Nat) (f : Team → Team) : (s.updTeam tid f).ops = s.ops := rfl
@[simp] theorem State.updTeam_monitors (s : State) (tid : Nat) (f : Team → Team) :
    (s.updTeam tid f).monitors = s.monitors := rfl
@[simp] theorem State.updTeam_granules (s : State) (tid : Nat) (f : Team → Team) :
    (s.updTeam tid f).granules = s.granules := rfl
@[simp] theorem State.updTeam_migs (s : State) (tid : Nat) (f : Team → Team) : (s.updTeam tid f).migs = s.migs := rfl
@[simp] theorem State.updTeam_cores (s : State) (tid : Nat) (f : Team → Team) :
    (s.updTeam tid f).cores = s.cores := rfl
@[simp] theorem State.updTeam_clusters (s : State) (tid : Nat) (f : Team → Team) :
    (s.updTeam tid f).clusters = s.clusters := rfl
@[simp] theorem State.updTeam_dies (s : State) (tid : Nat) (f : Team → Team) : (s.updTeam tid f).dies = s.dies := rfl
@[simp] theorem State.updTeam_parts (s : State) (tid : Nat) (f : Team → Team) :
    (s.updTeam tid f).parts = s.parts := rfl
@[simp] theorem State.updTeam_ports (s : State) (tid : Nat) (f : Team → Team) :
    (s.updTeam tid f).ports = s.ports := rfl
@[simp] theorem State.updTeam_streams (s : State) (tid : Nat) (f : Team → Team) :
    (s.updTeam tid f).streams = s.streams := rfl
@[simp] theorem State.updTeam_harts (s : State) (tid : Nat) (f : Team → Team) :
    (s.updTeam tid f).harts = s.harts := rfl
@[simp] theorem State.updTeam_mem (s : State) (tid : Nat) (f : Team → Team) : (s.updTeam tid f).mem = s.mem := rfl
@[simp] theorem State.updTeam_hostGrants (s : State) (tid : Nat) (f : Team → Team) :
    (s.updTeam tid f).hostGrants = s.hostGrants := rfl
@[simp] theorem State.updTeam_tags (s : State) (tid : Nat) (f : Team → Team) : (s.updTeam tid f).tags = s.tags := rfl
@[simp] theorem State.updTeam_poison (s : State) (tid : Nat) (f : Team → Team) :
    (s.updTeam tid f).poison = s.poison := rfl
@[simp] theorem State.updTeam_l2dirty (s : State) (tid : Nat) (f : Team → Team) :
    (s.updTeam tid f).l2dirty = s.l2dirty := rfl
@[simp] theorem State.updTeam_behind (s : State) (tid : Nat) (f : Team → Team) :
    (s.updTeam tid f).behind = s.behind := rfl
@[simp] theorem State.updTeam_channels (s : State) (tid : Nat) (f : Team → Team) :
    (s.updTeam tid f).channels = s.channels := rfl
@[simp] theorem State.updTeam_image (s : State) (tid : Nat) (f : Team → Team) :
    (s.updTeam tid f).image = s.image := rfl
@[simp] theorem State.updTeam_running (s : State) (tid : Nat) (f : Team → Team) :
    (s.updTeam tid f).running = s.running := rfl
@[simp] theorem State.updTeam_identity (s : State) (tid : Nat) (f : Team → Team) :
    (s.updTeam tid f).identity = s.identity := rfl
@[simp] theorem State.updTeam_errVecs (s : State) (tid : Nat) (f : Team → Team) :
    (s.updTeam tid f).errVecs = s.errVecs := rfl
@[simp] theorem State.updTeam_msix (s : State) (tid : Nat) (f : Team → Team) : (s.updTeam tid f).msix = s.msix := rfl
@[simp] theorem State.updTeam_imageBad (s : State) (tid : Nat) (f : Team → Team) :
    (s.updTeam tid f).imageBad = s.imageBad := rfl
@[simp] theorem State.updTeam_pieces (s : State) (tid : Nat) (f : Team → Team) :
    (s.updTeam tid f).pieces = s.pieces := rfl
@[simp] theorem State.updTeam_lastFail (s : State) (tid : Nat) (f : Team → Team) :
    (s.updTeam tid f).lastFail = s.lastFail := rfl
@[simp] theorem State.updTeam_staged (s : State) (tid : Nat) (f : Team → Team) :
    (s.updTeam tid f).staged = s.staged := rfl
@[simp] theorem State.updTeam_powerLimit (s : State) (tid : Nat) (f : Team → Team) :
    (s.updTeam tid f).powerLimit = s.powerLimit := rfl
@[simp] theorem State.updTeam_partCount (s : State) (tid : Nat) (f : Team → Team) :
    (s.updTeam tid f).partCount = s.partCount := rfl
@[simp] theorem State.updTeam_stopped (s : State) (tid : Nat) (f : Team → Team) :
    (s.updTeam tid f).stopped = s.stopped := rfl
@[simp] theorem State.updTeam_aer (s : State) (tid : Nat) (f : Team → Team) : (s.updTeam tid f).aer = s.aer := rfl
@[simp] theorem State.updTeam_out (s : State) (tid : Nat) (f : Team → Team) : (s.updTeam tid f).out = s.out := rfl
@[simp] theorem State.updTeam_inputs (s : State) (tid : Nat) (f : Team → Team) :
    (s.updTeam tid f).inputs = s.inputs := rfl
@[simp] theorem State.updTeam_turn (s : State) (tid : Nat) (f : Team → Team) : (s.updTeam tid f).turn = s.turn := rfl
@[simp] theorem State.updTeam_travels (s : State) (tid : Nat) (f : Team → Team) :
    (s.updTeam tid f).travels = s.travels := rfl
@[simp] theorem State.updTeam_cur (s : State) (tid : Nat) (f : Team → Team) : (s.updTeam tid f).cur = s.cur := rfl
@[simp] theorem State.updTeam_fresh (s : State) (tid : Nat) (f : Team → Team) :
    (s.updTeam tid f).fresh = s.fresh := rfl
@[simp] theorem State.updTeam_beat (s : State) (tid : Nat) (f : Team → Team) : (s.updTeam tid f).beat = s.beat := rfl
@[simp] theorem State.updTeam_free (s : State) (tid : Nat) (f : Team → Team) : (s.updTeam tid f).free = s.free := rfl

/-! ## updSpan -/

@[simp] theorem State.updSpan_spans (s : State) (sid : Nat) (f : Span → Span) :
    (s.updSpan sid f).spans = (s.spans.map fun x => if x.sid == sid then f x else x) := rfl
@[simp] theorem State.updSpan_groups (s : State) (sid : Nat) (f : Span → Span) :
    (s.updSpan sid f).groups = s.groups := rfl
@[simp] theorem State.updSpan_teams (s : State) (sid : Nat) (f : Span → Span) :
    (s.updSpan sid f).teams = s.teams := rfl
@[simp] theorem State.updSpan_grids (s : State) (sid : Nat) (f : Span → Span) :
    (s.updSpan sid f).grids = s.grids := rfl
@[simp] theorem State.updSpan_ops (s : State) (sid : Nat) (f : Span → Span) : (s.updSpan sid f).ops = s.ops := rfl
@[simp] theorem State.updSpan_monitors (s : State) (sid : Nat) (f : Span → Span) :
    (s.updSpan sid f).monitors = s.monitors := rfl
@[simp] theorem State.updSpan_granules (s : State) (sid : Nat) (f : Span → Span) :
    (s.updSpan sid f).granules = s.granules := rfl
@[simp] theorem State.updSpan_migs (s : State) (sid : Nat) (f : Span → Span) : (s.updSpan sid f).migs = s.migs := rfl
@[simp] theorem State.updSpan_cores (s : State) (sid : Nat) (f : Span → Span) :
    (s.updSpan sid f).cores = s.cores := rfl
@[simp] theorem State.updSpan_clusters (s : State) (sid : Nat) (f : Span → Span) :
    (s.updSpan sid f).clusters = s.clusters := rfl
@[simp] theorem State.updSpan_dies (s : State) (sid : Nat) (f : Span → Span) : (s.updSpan sid f).dies = s.dies := rfl
@[simp] theorem State.updSpan_parts (s : State) (sid : Nat) (f : Span → Span) :
    (s.updSpan sid f).parts = s.parts := rfl
@[simp] theorem State.updSpan_ports (s : State) (sid : Nat) (f : Span → Span) :
    (s.updSpan sid f).ports = s.ports := rfl
@[simp] theorem State.updSpan_streams (s : State) (sid : Nat) (f : Span → Span) :
    (s.updSpan sid f).streams = s.streams := rfl
@[simp] theorem State.updSpan_harts (s : State) (sid : Nat) (f : Span → Span) :
    (s.updSpan sid f).harts = s.harts := rfl
@[simp] theorem State.updSpan_mem (s : State) (sid : Nat) (f : Span → Span) : (s.updSpan sid f).mem = s.mem := rfl
@[simp] theorem State.updSpan_hostGrants (s : State) (sid : Nat) (f : Span → Span) :
    (s.updSpan sid f).hostGrants = s.hostGrants := rfl
@[simp] theorem State.updSpan_tags (s : State) (sid : Nat) (f : Span → Span) : (s.updSpan sid f).tags = s.tags := rfl
@[simp] theorem State.updSpan_poison (s : State) (sid : Nat) (f : Span → Span) :
    (s.updSpan sid f).poison = s.poison := rfl
@[simp] theorem State.updSpan_l2dirty (s : State) (sid : Nat) (f : Span → Span) :
    (s.updSpan sid f).l2dirty = s.l2dirty := rfl
@[simp] theorem State.updSpan_behind (s : State) (sid : Nat) (f : Span → Span) :
    (s.updSpan sid f).behind = s.behind := rfl
@[simp] theorem State.updSpan_channels (s : State) (sid : Nat) (f : Span → Span) :
    (s.updSpan sid f).channels = s.channels := rfl
@[simp] theorem State.updSpan_image (s : State) (sid : Nat) (f : Span → Span) :
    (s.updSpan sid f).image = s.image := rfl
@[simp] theorem State.updSpan_running (s : State) (sid : Nat) (f : Span → Span) :
    (s.updSpan sid f).running = s.running := rfl
@[simp] theorem State.updSpan_identity (s : State) (sid : Nat) (f : Span → Span) :
    (s.updSpan sid f).identity = s.identity := rfl
@[simp] theorem State.updSpan_errVecs (s : State) (sid : Nat) (f : Span → Span) :
    (s.updSpan sid f).errVecs = s.errVecs := rfl
@[simp] theorem State.updSpan_msix (s : State) (sid : Nat) (f : Span → Span) : (s.updSpan sid f).msix = s.msix := rfl
@[simp] theorem State.updSpan_imageBad (s : State) (sid : Nat) (f : Span → Span) :
    (s.updSpan sid f).imageBad = s.imageBad := rfl
@[simp] theorem State.updSpan_pieces (s : State) (sid : Nat) (f : Span → Span) :
    (s.updSpan sid f).pieces = s.pieces := rfl
@[simp] theorem State.updSpan_lastFail (s : State) (sid : Nat) (f : Span → Span) :
    (s.updSpan sid f).lastFail = s.lastFail := rfl
@[simp] theorem State.updSpan_staged (s : State) (sid : Nat) (f : Span → Span) :
    (s.updSpan sid f).staged = s.staged := rfl
@[simp] theorem State.updSpan_powerLimit (s : State) (sid : Nat) (f : Span → Span) :
    (s.updSpan sid f).powerLimit = s.powerLimit := rfl
@[simp] theorem State.updSpan_partCount (s : State) (sid : Nat) (f : Span → Span) :
    (s.updSpan sid f).partCount = s.partCount := rfl
@[simp] theorem State.updSpan_stopped (s : State) (sid : Nat) (f : Span → Span) :
    (s.updSpan sid f).stopped = s.stopped := rfl
@[simp] theorem State.updSpan_aer (s : State) (sid : Nat) (f : Span → Span) : (s.updSpan sid f).aer = s.aer := rfl
@[simp] theorem State.updSpan_out (s : State) (sid : Nat) (f : Span → Span) : (s.updSpan sid f).out = s.out := rfl
@[simp] theorem State.updSpan_inputs (s : State) (sid : Nat) (f : Span → Span) :
    (s.updSpan sid f).inputs = s.inputs := rfl
@[simp] theorem State.updSpan_turn (s : State) (sid : Nat) (f : Span → Span) : (s.updSpan sid f).turn = s.turn := rfl
@[simp] theorem State.updSpan_travels (s : State) (sid : Nat) (f : Span → Span) :
    (s.updSpan sid f).travels = s.travels := rfl
@[simp] theorem State.updSpan_cur (s : State) (sid : Nat) (f : Span → Span) : (s.updSpan sid f).cur = s.cur := rfl
@[simp] theorem State.updSpan_fresh (s : State) (sid : Nat) (f : Span → Span) :
    (s.updSpan sid f).fresh = s.fresh := rfl
@[simp] theorem State.updSpan_beat (s : State) (sid : Nat) (f : Span → Span) : (s.updSpan sid f).beat = s.beat := rfl
@[simp] theorem State.updSpan_free (s : State) (sid : Nat) (f : Span → Span) : (s.updSpan sid f).free = s.free := rfl

/-! ## updGrid -/

@[simp] theorem State.updGrid_grids (s : State) (uid : Nat) (f : Grid → Grid) :
    (s.updGrid uid f).grids = (s.grids.map fun x => if x.uid == uid then f x else x) := rfl
@[simp] theorem State.updGrid_groups (s : State) (uid : Nat) (f : Grid → Grid) :
    (s.updGrid uid f).groups = s.groups := rfl
@[simp] theorem State.updGrid_teams (s : State) (uid : Nat) (f : Grid → Grid) :
    (s.updGrid uid f).teams = s.teams := rfl
@[simp] theorem State.updGrid_spans (s : State) (uid : Nat) (f : Grid → Grid) :
    (s.updGrid uid f).spans = s.spans := rfl
@[simp] theorem State.updGrid_ops (s : State) (uid : Nat) (f : Grid → Grid) : (s.updGrid uid f).ops = s.ops := rfl
@[simp] theorem State.updGrid_monitors (s : State) (uid : Nat) (f : Grid → Grid) :
    (s.updGrid uid f).monitors = s.monitors := rfl
@[simp] theorem State.updGrid_granules (s : State) (uid : Nat) (f : Grid → Grid) :
    (s.updGrid uid f).granules = s.granules := rfl
@[simp] theorem State.updGrid_migs (s : State) (uid : Nat) (f : Grid → Grid) : (s.updGrid uid f).migs = s.migs := rfl
@[simp] theorem State.updGrid_cores (s : State) (uid : Nat) (f : Grid → Grid) :
    (s.updGrid uid f).cores = s.cores := rfl
@[simp] theorem State.updGrid_clusters (s : State) (uid : Nat) (f : Grid → Grid) :
    (s.updGrid uid f).clusters = s.clusters := rfl
@[simp] theorem State.updGrid_dies (s : State) (uid : Nat) (f : Grid → Grid) : (s.updGrid uid f).dies = s.dies := rfl
@[simp] theorem State.updGrid_parts (s : State) (uid : Nat) (f : Grid → Grid) :
    (s.updGrid uid f).parts = s.parts := rfl
@[simp] theorem State.updGrid_ports (s : State) (uid : Nat) (f : Grid → Grid) :
    (s.updGrid uid f).ports = s.ports := rfl
@[simp] theorem State.updGrid_streams (s : State) (uid : Nat) (f : Grid → Grid) :
    (s.updGrid uid f).streams = s.streams := rfl
@[simp] theorem State.updGrid_harts (s : State) (uid : Nat) (f : Grid → Grid) :
    (s.updGrid uid f).harts = s.harts := rfl
@[simp] theorem State.updGrid_mem (s : State) (uid : Nat) (f : Grid → Grid) : (s.updGrid uid f).mem = s.mem := rfl
@[simp] theorem State.updGrid_hostGrants (s : State) (uid : Nat) (f : Grid → Grid) :
    (s.updGrid uid f).hostGrants = s.hostGrants := rfl
@[simp] theorem State.updGrid_tags (s : State) (uid : Nat) (f : Grid → Grid) : (s.updGrid uid f).tags = s.tags := rfl
@[simp] theorem State.updGrid_poison (s : State) (uid : Nat) (f : Grid → Grid) :
    (s.updGrid uid f).poison = s.poison := rfl
@[simp] theorem State.updGrid_l2dirty (s : State) (uid : Nat) (f : Grid → Grid) :
    (s.updGrid uid f).l2dirty = s.l2dirty := rfl
@[simp] theorem State.updGrid_behind (s : State) (uid : Nat) (f : Grid → Grid) :
    (s.updGrid uid f).behind = s.behind := rfl
@[simp] theorem State.updGrid_channels (s : State) (uid : Nat) (f : Grid → Grid) :
    (s.updGrid uid f).channels = s.channels := rfl
@[simp] theorem State.updGrid_image (s : State) (uid : Nat) (f : Grid → Grid) :
    (s.updGrid uid f).image = s.image := rfl
@[simp] theorem State.updGrid_running (s : State) (uid : Nat) (f : Grid → Grid) :
    (s.updGrid uid f).running = s.running := rfl
@[simp] theorem State.updGrid_identity (s : State) (uid : Nat) (f : Grid → Grid) :
    (s.updGrid uid f).identity = s.identity := rfl
@[simp] theorem State.updGrid_errVecs (s : State) (uid : Nat) (f : Grid → Grid) :
    (s.updGrid uid f).errVecs = s.errVecs := rfl
@[simp] theorem State.updGrid_msix (s : State) (uid : Nat) (f : Grid → Grid) : (s.updGrid uid f).msix = s.msix := rfl
@[simp] theorem State.updGrid_imageBad (s : State) (uid : Nat) (f : Grid → Grid) :
    (s.updGrid uid f).imageBad = s.imageBad := rfl
@[simp] theorem State.updGrid_pieces (s : State) (uid : Nat) (f : Grid → Grid) :
    (s.updGrid uid f).pieces = s.pieces := rfl
@[simp] theorem State.updGrid_lastFail (s : State) (uid : Nat) (f : Grid → Grid) :
    (s.updGrid uid f).lastFail = s.lastFail := rfl
@[simp] theorem State.updGrid_staged (s : State) (uid : Nat) (f : Grid → Grid) :
    (s.updGrid uid f).staged = s.staged := rfl
@[simp] theorem State.updGrid_powerLimit (s : State) (uid : Nat) (f : Grid → Grid) :
    (s.updGrid uid f).powerLimit = s.powerLimit := rfl
@[simp] theorem State.updGrid_partCount (s : State) (uid : Nat) (f : Grid → Grid) :
    (s.updGrid uid f).partCount = s.partCount := rfl
@[simp] theorem State.updGrid_stopped (s : State) (uid : Nat) (f : Grid → Grid) :
    (s.updGrid uid f).stopped = s.stopped := rfl
@[simp] theorem State.updGrid_aer (s : State) (uid : Nat) (f : Grid → Grid) : (s.updGrid uid f).aer = s.aer := rfl
@[simp] theorem State.updGrid_out (s : State) (uid : Nat) (f : Grid → Grid) : (s.updGrid uid f).out = s.out := rfl
@[simp] theorem State.updGrid_inputs (s : State) (uid : Nat) (f : Grid → Grid) :
    (s.updGrid uid f).inputs = s.inputs := rfl
@[simp] theorem State.updGrid_turn (s : State) (uid : Nat) (f : Grid → Grid) : (s.updGrid uid f).turn = s.turn := rfl
@[simp] theorem State.updGrid_travels (s : State) (uid : Nat) (f : Grid → Grid) :
    (s.updGrid uid f).travels = s.travels := rfl
@[simp] theorem State.updGrid_cur (s : State) (uid : Nat) (f : Grid → Grid) : (s.updGrid uid f).cur = s.cur := rfl
@[simp] theorem State.updGrid_fresh (s : State) (uid : Nat) (f : Grid → Grid) :
    (s.updGrid uid f).fresh = s.fresh := rfl
@[simp] theorem State.updGrid_beat (s : State) (uid : Nat) (f : Grid → Grid) : (s.updGrid uid f).beat = s.beat := rfl
@[simp] theorem State.updGrid_free (s : State) (uid : Nat) (f : Grid → Grid) : (s.updGrid uid f).free = s.free := rfl

/-! ## updOp -/

@[simp] theorem State.updOp_ops (s : State) (id : Nat) (f : AOp → AOp) :
    (s.updOp id f).ops = (s.ops.map fun x => if x.id == id then f x else x) := rfl
@[simp] theorem State.updOp_groups (s : State) (id : Nat) (f : AOp → AOp) : (s.updOp id f).groups = s.groups := rfl
@[simp] theorem State.updOp_teams (s : State) (id : Nat) (f : AOp → AOp) : (s.updOp id f).teams = s.teams := rfl
@[simp] theorem State.updOp_spans (s : State) (id : Nat) (f : AOp → AOp) : (s.updOp id f).spans = s.spans := rfl
@[simp] theorem State.updOp_grids (s : State) (id : Nat) (f : AOp → AOp) : (s.updOp id f).grids = s.grids := rfl
@[simp] theorem State.updOp_monitors (s : State) (id : Nat) (f : AOp → AOp) :
    (s.updOp id f).monitors = s.monitors := rfl
@[simp] theorem State.updOp_granules (s : State) (id : Nat) (f : AOp → AOp) :
    (s.updOp id f).granules = s.granules := rfl
@[simp] theorem State.updOp_migs (s : State) (id : Nat) (f : AOp → AOp) : (s.updOp id f).migs = s.migs := rfl
@[simp] theorem State.updOp_cores (s : State) (id : Nat) (f : AOp → AOp) : (s.updOp id f).cores = s.cores := rfl
@[simp] theorem State.updOp_clusters (s : State) (id : Nat) (f : AOp → AOp) :
    (s.updOp id f).clusters = s.clusters := rfl
@[simp] theorem State.updOp_dies (s : State) (id : Nat) (f : AOp → AOp) : (s.updOp id f).dies = s.dies := rfl
@[simp] theorem State.updOp_parts (s : State) (id : Nat) (f : AOp → AOp) : (s.updOp id f).parts = s.parts := rfl
@[simp] theorem State.updOp_ports (s : State) (id : Nat) (f : AOp → AOp) : (s.updOp id f).ports = s.ports := rfl
@[simp] theorem State.updOp_streams (s : State) (id : Nat) (f : AOp → AOp) : (s.updOp id f).streams = s.streams := rfl
@[simp] theorem State.updOp_harts (s : State) (id : Nat) (f : AOp → AOp) : (s.updOp id f).harts = s.harts := rfl
@[simp] theorem State.updOp_mem (s : State) (id : Nat) (f : AOp → AOp) : (s.updOp id f).mem = s.mem := rfl
@[simp] theorem State.updOp_hostGrants (s : State) (id : Nat) (f : AOp → AOp) :
    (s.updOp id f).hostGrants = s.hostGrants := rfl
@[simp] theorem State.updOp_tags (s : State) (id : Nat) (f : AOp → AOp) : (s.updOp id f).tags = s.tags := rfl
@[simp] theorem State.updOp_poison (s : State) (id : Nat) (f : AOp → AOp) : (s.updOp id f).poison = s.poison := rfl
@[simp] theorem State.updOp_l2dirty (s : State) (id : Nat) (f : AOp → AOp) : (s.updOp id f).l2dirty = s.l2dirty := rfl
@[simp] theorem State.updOp_behind (s : State) (id : Nat) (f : AOp → AOp) : (s.updOp id f).behind = s.behind := rfl
@[simp] theorem State.updOp_channels (s : State) (id : Nat) (f : AOp → AOp) :
    (s.updOp id f).channels = s.channels := rfl
@[simp] theorem State.updOp_image (s : State) (id : Nat) (f : AOp → AOp) : (s.updOp id f).image = s.image := rfl
@[simp] theorem State.updOp_running (s : State) (id : Nat) (f : AOp → AOp) : (s.updOp id f).running = s.running := rfl
@[simp] theorem State.updOp_identity (s : State) (id : Nat) (f : AOp → AOp) :
    (s.updOp id f).identity = s.identity := rfl
@[simp] theorem State.updOp_errVecs (s : State) (id : Nat) (f : AOp → AOp) : (s.updOp id f).errVecs = s.errVecs := rfl
@[simp] theorem State.updOp_msix (s : State) (id : Nat) (f : AOp → AOp) : (s.updOp id f).msix = s.msix := rfl
@[simp] theorem State.updOp_imageBad (s : State) (id : Nat) (f : AOp → AOp) :
    (s.updOp id f).imageBad = s.imageBad := rfl
@[simp] theorem State.updOp_pieces (s : State) (id : Nat) (f : AOp → AOp) : (s.updOp id f).pieces = s.pieces := rfl
@[simp] theorem State.updOp_lastFail (s : State) (id : Nat) (f : AOp → AOp) :
    (s.updOp id f).lastFail = s.lastFail := rfl
@[simp] theorem State.updOp_staged (s : State) (id : Nat) (f : AOp → AOp) : (s.updOp id f).staged = s.staged := rfl
@[simp] theorem State.updOp_powerLimit (s : State) (id : Nat) (f : AOp → AOp) :
    (s.updOp id f).powerLimit = s.powerLimit := rfl
@[simp] theorem State.updOp_partCount (s : State) (id : Nat) (f : AOp → AOp) :
    (s.updOp id f).partCount = s.partCount := rfl
@[simp] theorem State.updOp_stopped (s : State) (id : Nat) (f : AOp → AOp) : (s.updOp id f).stopped = s.stopped := rfl
@[simp] theorem State.updOp_aer (s : State) (id : Nat) (f : AOp → AOp) : (s.updOp id f).aer = s.aer := rfl
@[simp] theorem State.updOp_out (s : State) (id : Nat) (f : AOp → AOp) : (s.updOp id f).out = s.out := rfl
@[simp] theorem State.updOp_inputs (s : State) (id : Nat) (f : AOp → AOp) : (s.updOp id f).inputs = s.inputs := rfl
@[simp] theorem State.updOp_turn (s : State) (id : Nat) (f : AOp → AOp) : (s.updOp id f).turn = s.turn := rfl
@[simp] theorem State.updOp_travels (s : State) (id : Nat) (f : AOp → AOp) : (s.updOp id f).travels = s.travels := rfl
@[simp] theorem State.updOp_cur (s : State) (id : Nat) (f : AOp → AOp) : (s.updOp id f).cur = s.cur := rfl
@[simp] theorem State.updOp_fresh (s : State) (id : Nat) (f : AOp → AOp) : (s.updOp id f).fresh = s.fresh := rfl
@[simp] theorem State.updOp_beat (s : State) (id : Nat) (f : AOp → AOp) : (s.updOp id f).beat = s.beat := rfl
@[simp] theorem State.updOp_free (s : State) (id : Nat) (f : AOp → AOp) : (s.updOp id f).free = s.free := rfl

/-! ## updPart -/

@[simp] theorem State.updPart_parts (s : State) (p : Nat) (f : Partition → Partition) :
    (s.updPart p f).parts = (upd p f s.parts) := rfl
@[simp] theorem State.updPart_groups (s : State) (p : Nat) (f : Partition → Partition) :
    (s.updPart p f).groups = s.groups := rfl
@[simp] theorem State.updPart_teams (s : State) (p : Nat) (f : Partition → Partition) :
    (s.updPart p f).teams = s.teams := rfl
@[simp] theorem State.updPart_spans (s : State) (p : Nat) (f : Partition → Partition) :
    (s.updPart p f).spans = s.spans := rfl
@[simp] theorem State.updPart_grids (s : State) (p : Nat) (f : Partition → Partition) :
    (s.updPart p f).grids = s.grids := rfl
@[simp] theorem State.updPart_ops (s : State) (p : Nat) (f : Partition → Partition) :
    (s.updPart p f).ops = s.ops := rfl
@[simp] theorem State.updPart_monitors (s : State) (p : Nat) (f : Partition → Partition) :
    (s.updPart p f).monitors = s.monitors := rfl
@[simp] theorem State.updPart_granules (s : State) (p : Nat) (f : Partition → Partition) :
    (s.updPart p f).granules = s.granules := rfl
@[simp] theorem State.updPart_migs (s : State) (p : Nat) (f : Partition → Partition) :
    (s.updPart p f).migs = s.migs := rfl
@[simp] theorem State.updPart_cores (s : State) (p : Nat) (f : Partition → Partition) :
    (s.updPart p f).cores = s.cores := rfl
@[simp] theorem State.updPart_clusters (s : State) (p : Nat) (f : Partition → Partition) :
    (s.updPart p f).clusters = s.clusters := rfl
@[simp] theorem State.updPart_dies (s : State) (p : Nat) (f : Partition → Partition) :
    (s.updPart p f).dies = s.dies := rfl
@[simp] theorem State.updPart_ports (s : State) (p : Nat) (f : Partition → Partition) :
    (s.updPart p f).ports = s.ports := rfl
@[simp] theorem State.updPart_streams (s : State) (p : Nat) (f : Partition → Partition) :
    (s.updPart p f).streams = s.streams := rfl
@[simp] theorem State.updPart_harts (s : State) (p : Nat) (f : Partition → Partition) :
    (s.updPart p f).harts = s.harts := rfl
@[simp] theorem State.updPart_mem (s : State) (p : Nat) (f : Partition → Partition) :
    (s.updPart p f).mem = s.mem := rfl
@[simp] theorem State.updPart_hostGrants (s : State) (p : Nat) (f : Partition → Partition) :
    (s.updPart p f).hostGrants = s.hostGrants := rfl
@[simp] theorem State.updPart_tags (s : State) (p : Nat) (f : Partition → Partition) :
    (s.updPart p f).tags = s.tags := rfl
@[simp] theorem State.updPart_poison (s : State) (p : Nat) (f : Partition → Partition) :
    (s.updPart p f).poison = s.poison := rfl
@[simp] theorem State.updPart_l2dirty (s : State) (p : Nat) (f : Partition → Partition) :
    (s.updPart p f).l2dirty = s.l2dirty := rfl
@[simp] theorem State.updPart_behind (s : State) (p : Nat) (f : Partition → Partition) :
    (s.updPart p f).behind = s.behind := rfl
@[simp] theorem State.updPart_channels (s : State) (p : Nat) (f : Partition → Partition) :
    (s.updPart p f).channels = s.channels := rfl
@[simp] theorem State.updPart_image (s : State) (p : Nat) (f : Partition → Partition) :
    (s.updPart p f).image = s.image := rfl
@[simp] theorem State.updPart_running (s : State) (p : Nat) (f : Partition → Partition) :
    (s.updPart p f).running = s.running := rfl
@[simp] theorem State.updPart_identity (s : State) (p : Nat) (f : Partition → Partition) :
    (s.updPart p f).identity = s.identity := rfl
@[simp] theorem State.updPart_errVecs (s : State) (p : Nat) (f : Partition → Partition) :
    (s.updPart p f).errVecs = s.errVecs := rfl
@[simp] theorem State.updPart_msix (s : State) (p : Nat) (f : Partition → Partition) :
    (s.updPart p f).msix = s.msix := rfl
@[simp] theorem State.updPart_imageBad (s : State) (p : Nat) (f : Partition → Partition) :
    (s.updPart p f).imageBad = s.imageBad := rfl
@[simp] theorem State.updPart_pieces (s : State) (p : Nat) (f : Partition → Partition) :
    (s.updPart p f).pieces = s.pieces := rfl
@[simp] theorem State.updPart_lastFail (s : State) (p : Nat) (f : Partition → Partition) :
    (s.updPart p f).lastFail = s.lastFail := rfl
@[simp] theorem State.updPart_staged (s : State) (p : Nat) (f : Partition → Partition) :
    (s.updPart p f).staged = s.staged := rfl
@[simp] theorem State.updPart_powerLimit (s : State) (p : Nat) (f : Partition → Partition) :
    (s.updPart p f).powerLimit = s.powerLimit := rfl
@[simp] theorem State.updPart_partCount (s : State) (p : Nat) (f : Partition → Partition) :
    (s.updPart p f).partCount = s.partCount := rfl
@[simp] theorem State.updPart_stopped (s : State) (p : Nat) (f : Partition → Partition) :
    (s.updPart p f).stopped = s.stopped := rfl
@[simp] theorem State.updPart_aer (s : State) (p : Nat) (f : Partition → Partition) :
    (s.updPart p f).aer = s.aer := rfl
@[simp] theorem State.updPart_out (s : State) (p : Nat) (f : Partition → Partition) :
    (s.updPart p f).out = s.out := rfl
@[simp] theorem State.updPart_inputs (s : State) (p : Nat) (f : Partition → Partition) :
    (s.updPart p f).inputs = s.inputs := rfl
@[simp] theorem State.updPart_turn (s : State) (p : Nat) (f : Partition → Partition) :
    (s.updPart p f).turn = s.turn := rfl
@[simp] theorem State.updPart_travels (s : State) (p : Nat) (f : Partition → Partition) :
    (s.updPart p f).travels = s.travels := rfl
@[simp] theorem State.updPart_cur (s : State) (p : Nat) (f : Partition → Partition) :
    (s.updPart p f).cur = s.cur := rfl
@[simp] theorem State.updPart_fresh (s : State) (p : Nat) (f : Partition → Partition) :
    (s.updPart p f).fresh = s.fresh := rfl
@[simp] theorem State.updPart_beat (s : State) (p : Nat) (f : Partition → Partition) :
    (s.updPart p f).beat = s.beat := rfl
@[simp] theorem State.updPart_free (s : State) (p : Nat) (f : Partition → Partition) :
    (s.updPart p f).free = s.free := rfl

/-! ## updCore -/

@[simp] theorem State.updCore_cores (s : State) (c : Nat) (f : Core → Core) :
    (s.updCore c f).cores = (upd c f s.cores) := rfl
@[simp] theorem State.updCore_groups (s : State) (c : Nat) (f : Core → Core) :
    (s.updCore c f).groups = s.groups := rfl
@[simp] theorem State.updCore_teams (s : State) (c : Nat) (f : Core → Core) : (s.updCore c f).teams = s.teams := rfl
@[simp] theorem State.updCore_spans (s : State) (c : Nat) (f : Core → Core) : (s.updCore c f).spans = s.spans := rfl
@[simp] theorem State.updCore_grids (s : State) (c : Nat) (f : Core → Core) : (s.updCore c f).grids = s.grids := rfl
@[simp] theorem State.updCore_ops (s : State) (c : Nat) (f : Core → Core) : (s.updCore c f).ops = s.ops := rfl
@[simp] theorem State.updCore_monitors (s : State) (c : Nat) (f : Core → Core) :
    (s.updCore c f).monitors = s.monitors := rfl
@[simp] theorem State.updCore_granules (s : State) (c : Nat) (f : Core → Core) :
    (s.updCore c f).granules = s.granules := rfl
@[simp] theorem State.updCore_migs (s : State) (c : Nat) (f : Core → Core) : (s.updCore c f).migs = s.migs := rfl
@[simp] theorem State.updCore_clusters (s : State) (c : Nat) (f : Core → Core) :
    (s.updCore c f).clusters = s.clusters := rfl
@[simp] theorem State.updCore_dies (s : State) (c : Nat) (f : Core → Core) : (s.updCore c f).dies = s.dies := rfl
@[simp] theorem State.updCore_parts (s : State) (c : Nat) (f : Core → Core) : (s.updCore c f).parts = s.parts := rfl
@[simp] theorem State.updCore_ports (s : State) (c : Nat) (f : Core → Core) : (s.updCore c f).ports = s.ports := rfl
@[simp] theorem State.updCore_streams (s : State) (c : Nat) (f : Core → Core) :
    (s.updCore c f).streams = s.streams := rfl
@[simp] theorem State.updCore_harts (s : State) (c : Nat) (f : Core → Core) : (s.updCore c f).harts = s.harts := rfl
@[simp] theorem State.updCore_mem (s : State) (c : Nat) (f : Core → Core) : (s.updCore c f).mem = s.mem := rfl
@[simp] theorem State.updCore_hostGrants (s : State) (c : Nat) (f : Core → Core) :
    (s.updCore c f).hostGrants = s.hostGrants := rfl
@[simp] theorem State.updCore_tags (s : State) (c : Nat) (f : Core → Core) : (s.updCore c f).tags = s.tags := rfl
@[simp] theorem State.updCore_poison (s : State) (c : Nat) (f : Core → Core) :
    (s.updCore c f).poison = s.poison := rfl
@[simp] theorem State.updCore_l2dirty (s : State) (c : Nat) (f : Core → Core) :
    (s.updCore c f).l2dirty = s.l2dirty := rfl
@[simp] theorem State.updCore_behind (s : State) (c : Nat) (f : Core → Core) :
    (s.updCore c f).behind = s.behind := rfl
@[simp] theorem State.updCore_channels (s : State) (c : Nat) (f : Core → Core) :
    (s.updCore c f).channels = s.channels := rfl
@[simp] theorem State.updCore_image (s : State) (c : Nat) (f : Core → Core) : (s.updCore c f).image = s.image := rfl
@[simp] theorem State.updCore_running (s : State) (c : Nat) (f : Core → Core) :
    (s.updCore c f).running = s.running := rfl
@[simp] theorem State.updCore_identity (s : State) (c : Nat) (f : Core → Core) :
    (s.updCore c f).identity = s.identity := rfl
@[simp] theorem State.updCore_errVecs (s : State) (c : Nat) (f : Core → Core) :
    (s.updCore c f).errVecs = s.errVecs := rfl
@[simp] theorem State.updCore_msix (s : State) (c : Nat) (f : Core → Core) : (s.updCore c f).msix = s.msix := rfl
@[simp] theorem State.updCore_imageBad (s : State) (c : Nat) (f : Core → Core) :
    (s.updCore c f).imageBad = s.imageBad := rfl
@[simp] theorem State.updCore_pieces (s : State) (c : Nat) (f : Core → Core) :
    (s.updCore c f).pieces = s.pieces := rfl
@[simp] theorem State.updCore_lastFail (s : State) (c : Nat) (f : Core → Core) :
    (s.updCore c f).lastFail = s.lastFail := rfl
@[simp] theorem State.updCore_staged (s : State) (c : Nat) (f : Core → Core) :
    (s.updCore c f).staged = s.staged := rfl
@[simp] theorem State.updCore_powerLimit (s : State) (c : Nat) (f : Core → Core) :
    (s.updCore c f).powerLimit = s.powerLimit := rfl
@[simp] theorem State.updCore_partCount (s : State) (c : Nat) (f : Core → Core) :
    (s.updCore c f).partCount = s.partCount := rfl
@[simp] theorem State.updCore_stopped (s : State) (c : Nat) (f : Core → Core) :
    (s.updCore c f).stopped = s.stopped := rfl
@[simp] theorem State.updCore_aer (s : State) (c : Nat) (f : Core → Core) : (s.updCore c f).aer = s.aer := rfl
@[simp] theorem State.updCore_out (s : State) (c : Nat) (f : Core → Core) : (s.updCore c f).out = s.out := rfl
@[simp] theorem State.updCore_inputs (s : State) (c : Nat) (f : Core → Core) :
    (s.updCore c f).inputs = s.inputs := rfl
@[simp] theorem State.updCore_turn (s : State) (c : Nat) (f : Core → Core) : (s.updCore c f).turn = s.turn := rfl
@[simp] theorem State.updCore_travels (s : State) (c : Nat) (f : Core → Core) :
    (s.updCore c f).travels = s.travels := rfl
@[simp] theorem State.updCore_cur (s : State) (c : Nat) (f : Core → Core) : (s.updCore c f).cur = s.cur := rfl
@[simp] theorem State.updCore_fresh (s : State) (c : Nat) (f : Core → Core) : (s.updCore c f).fresh = s.fresh := rfl
@[simp] theorem State.updCore_beat (s : State) (c : Nat) (f : Core → Core) : (s.updCore c f).beat = s.beat := rfl
@[simp] theorem State.updCore_free (s : State) (c : Nat) (f : Core → Core) : (s.updCore c f).free = s.free := rfl

/-! ## updCluster -/

@[simp] theorem State.updCluster_clusters (s : State) (c : Nat) (f : Cluster → Cluster) :
    (s.updCluster c f).clusters = (upd c f s.clusters) := rfl
@[simp] theorem State.updCluster_groups (s : State) (c : Nat) (f : Cluster → Cluster) :
    (s.updCluster c f).groups = s.groups := rfl
@[simp] theorem State.updCluster_teams (s : State) (c : Nat) (f : Cluster → Cluster) :
    (s.updCluster c f).teams = s.teams := rfl
@[simp] theorem State.updCluster_spans (s : State) (c : Nat) (f : Cluster → Cluster) :
    (s.updCluster c f).spans = s.spans := rfl
@[simp] theorem State.updCluster_grids (s : State) (c : Nat) (f : Cluster → Cluster) :
    (s.updCluster c f).grids = s.grids := rfl
@[simp] theorem State.updCluster_ops (s : State) (c : Nat) (f : Cluster → Cluster) :
    (s.updCluster c f).ops = s.ops := rfl
@[simp] theorem State.updCluster_monitors (s : State) (c : Nat) (f : Cluster → Cluster) :
    (s.updCluster c f).monitors = s.monitors := rfl
@[simp] theorem State.updCluster_granules (s : State) (c : Nat) (f : Cluster → Cluster) :
    (s.updCluster c f).granules = s.granules := rfl
@[simp] theorem State.updCluster_migs (s : State) (c : Nat) (f : Cluster → Cluster) :
    (s.updCluster c f).migs = s.migs := rfl
@[simp] theorem State.updCluster_cores (s : State) (c : Nat) (f : Cluster → Cluster) :
    (s.updCluster c f).cores = s.cores := rfl
@[simp] theorem State.updCluster_dies (s : State) (c : Nat) (f : Cluster → Cluster) :
    (s.updCluster c f).dies = s.dies := rfl
@[simp] theorem State.updCluster_parts (s : State) (c : Nat) (f : Cluster → Cluster) :
    (s.updCluster c f).parts = s.parts := rfl
@[simp] theorem State.updCluster_ports (s : State) (c : Nat) (f : Cluster → Cluster) :
    (s.updCluster c f).ports = s.ports := rfl
@[simp] theorem State.updCluster_streams (s : State) (c : Nat) (f : Cluster → Cluster) :
    (s.updCluster c f).streams = s.streams := rfl
@[simp] theorem State.updCluster_harts (s : State) (c : Nat) (f : Cluster → Cluster) :
    (s.updCluster c f).harts = s.harts := rfl
@[simp] theorem State.updCluster_mem (s : State) (c : Nat) (f : Cluster → Cluster) :
    (s.updCluster c f).mem = s.mem := rfl
@[simp] theorem State.updCluster_hostGrants (s : State) (c : Nat) (f : Cluster → Cluster) :
    (s.updCluster c f).hostGrants = s.hostGrants := rfl
@[simp] theorem State.updCluster_tags (s : State) (c : Nat) (f : Cluster → Cluster) :
    (s.updCluster c f).tags = s.tags := rfl
@[simp] theorem State.updCluster_poison (s : State) (c : Nat) (f : Cluster → Cluster) :
    (s.updCluster c f).poison = s.poison := rfl
@[simp] theorem State.updCluster_l2dirty (s : State) (c : Nat) (f : Cluster → Cluster) :
    (s.updCluster c f).l2dirty = s.l2dirty := rfl
@[simp] theorem State.updCluster_behind (s : State) (c : Nat) (f : Cluster → Cluster) :
    (s.updCluster c f).behind = s.behind := rfl
@[simp] theorem State.updCluster_channels (s : State) (c : Nat) (f : Cluster → Cluster) :
    (s.updCluster c f).channels = s.channels := rfl
@[simp] theorem State.updCluster_image (s : State) (c : Nat) (f : Cluster → Cluster) :
    (s.updCluster c f).image = s.image := rfl
@[simp] theorem State.updCluster_running (s : State) (c : Nat) (f : Cluster → Cluster) :
    (s.updCluster c f).running = s.running := rfl
@[simp] theorem State.updCluster_identity (s : State) (c : Nat) (f : Cluster → Cluster) :
    (s.updCluster c f).identity = s.identity := rfl
@[simp] theorem State.updCluster_errVecs (s : State) (c : Nat) (f : Cluster → Cluster) :
    (s.updCluster c f).errVecs = s.errVecs := rfl
@[simp] theorem State.updCluster_msix (s : State) (c : Nat) (f : Cluster → Cluster) :
    (s.updCluster c f).msix = s.msix := rfl
@[simp] theorem State.updCluster_imageBad (s : State) (c : Nat) (f : Cluster → Cluster) :
    (s.updCluster c f).imageBad = s.imageBad := rfl
@[simp] theorem State.updCluster_pieces (s : State) (c : Nat) (f : Cluster → Cluster) :
    (s.updCluster c f).pieces = s.pieces := rfl
@[simp] theorem State.updCluster_lastFail (s : State) (c : Nat) (f : Cluster → Cluster) :
    (s.updCluster c f).lastFail = s.lastFail := rfl
@[simp] theorem State.updCluster_staged (s : State) (c : Nat) (f : Cluster → Cluster) :
    (s.updCluster c f).staged = s.staged := rfl
@[simp] theorem State.updCluster_powerLimit (s : State) (c : Nat) (f : Cluster → Cluster) :
    (s.updCluster c f).powerLimit = s.powerLimit := rfl
@[simp] theorem State.updCluster_partCount (s : State) (c : Nat) (f : Cluster → Cluster) :
    (s.updCluster c f).partCount = s.partCount := rfl
@[simp] theorem State.updCluster_stopped (s : State) (c : Nat) (f : Cluster → Cluster) :
    (s.updCluster c f).stopped = s.stopped := rfl
@[simp] theorem State.updCluster_aer (s : State) (c : Nat) (f : Cluster → Cluster) :
    (s.updCluster c f).aer = s.aer := rfl
@[simp] theorem State.updCluster_out (s : State) (c : Nat) (f : Cluster → Cluster) :
    (s.updCluster c f).out = s.out := rfl
@[simp] theorem State.updCluster_inputs (s : State) (c : Nat) (f : Cluster → Cluster) :
    (s.updCluster c f).inputs = s.inputs := rfl
@[simp] theorem State.updCluster_turn (s : State) (c : Nat) (f : Cluster → Cluster) :
    (s.updCluster c f).turn = s.turn := rfl
@[simp] theorem State.updCluster_travels (s : State) (c : Nat) (f : Cluster → Cluster) :
    (s.updCluster c f).travels = s.travels := rfl
@[simp] theorem State.updCluster_cur (s : State) (c : Nat) (f : Cluster → Cluster) :
    (s.updCluster c f).cur = s.cur := rfl
@[simp] theorem State.updCluster_fresh (s : State) (c : Nat) (f : Cluster → Cluster) :
    (s.updCluster c f).fresh = s.fresh := rfl
@[simp] theorem State.updCluster_beat (s : State) (c : Nat) (f : Cluster → Cluster) :
    (s.updCluster c f).beat = s.beat := rfl
@[simp] theorem State.updCluster_free (s : State) (c : Nat) (f : Cluster → Cluster) :
    (s.updCluster c f).free = s.free := rfl

/-! ## updHart -/

@[simp] theorem State.updHart_harts (s : State) (n : Nat) (f : Hart → Hart) :
    (s.updHart n f).harts = (upd n f s.harts) := rfl
@[simp] theorem State.updHart_groups (s : State) (n : Nat) (f : Hart → Hart) :
    (s.updHart n f).groups = s.groups := rfl
@[simp] theorem State.updHart_teams (s : State) (n : Nat) (f : Hart → Hart) : (s.updHart n f).teams = s.teams := rfl
@[simp] theorem State.updHart_spans (s : State) (n : Nat) (f : Hart → Hart) : (s.updHart n f).spans = s.spans := rfl
@[simp] theorem State.updHart_grids (s : State) (n : Nat) (f : Hart → Hart) : (s.updHart n f).grids = s.grids := rfl
@[simp] theorem State.updHart_ops (s : State) (n : Nat) (f : Hart → Hart) : (s.updHart n f).ops = s.ops := rfl
@[simp] theorem State.updHart_monitors (s : State) (n : Nat) (f : Hart → Hart) :
    (s.updHart n f).monitors = s.monitors := rfl
@[simp] theorem State.updHart_granules (s : State) (n : Nat) (f : Hart → Hart) :
    (s.updHart n f).granules = s.granules := rfl
@[simp] theorem State.updHart_migs (s : State) (n : Nat) (f : Hart → Hart) : (s.updHart n f).migs = s.migs := rfl
@[simp] theorem State.updHart_cores (s : State) (n : Nat) (f : Hart → Hart) : (s.updHart n f).cores = s.cores := rfl
@[simp] theorem State.updHart_clusters (s : State) (n : Nat) (f : Hart → Hart) :
    (s.updHart n f).clusters = s.clusters := rfl
@[simp] theorem State.updHart_dies (s : State) (n : Nat) (f : Hart → Hart) : (s.updHart n f).dies = s.dies := rfl
@[simp] theorem State.updHart_parts (s : State) (n : Nat) (f : Hart → Hart) : (s.updHart n f).parts = s.parts := rfl
@[simp] theorem State.updHart_ports (s : State) (n : Nat) (f : Hart → Hart) : (s.updHart n f).ports = s.ports := rfl
@[simp] theorem State.updHart_streams (s : State) (n : Nat) (f : Hart → Hart) :
    (s.updHart n f).streams = s.streams := rfl
@[simp] theorem State.updHart_mem (s : State) (n : Nat) (f : Hart → Hart) : (s.updHart n f).mem = s.mem := rfl
@[simp] theorem State.updHart_hostGrants (s : State) (n : Nat) (f : Hart → Hart) :
    (s.updHart n f).hostGrants = s.hostGrants := rfl
@[simp] theorem State.updHart_tags (s : State) (n : Nat) (f : Hart → Hart) : (s.updHart n f).tags = s.tags := rfl
@[simp] theorem State.updHart_poison (s : State) (n : Nat) (f : Hart → Hart) :
    (s.updHart n f).poison = s.poison := rfl
@[simp] theorem State.updHart_l2dirty (s : State) (n : Nat) (f : Hart → Hart) :
    (s.updHart n f).l2dirty = s.l2dirty := rfl
@[simp] theorem State.updHart_behind (s : State) (n : Nat) (f : Hart → Hart) :
    (s.updHart n f).behind = s.behind := rfl
@[simp] theorem State.updHart_channels (s : State) (n : Nat) (f : Hart → Hart) :
    (s.updHart n f).channels = s.channels := rfl
@[simp] theorem State.updHart_image (s : State) (n : Nat) (f : Hart → Hart) : (s.updHart n f).image = s.image := rfl
@[simp] theorem State.updHart_running (s : State) (n : Nat) (f : Hart → Hart) :
    (s.updHart n f).running = s.running := rfl
@[simp] theorem State.updHart_identity (s : State) (n : Nat) (f : Hart → Hart) :
    (s.updHart n f).identity = s.identity := rfl
@[simp] theorem State.updHart_errVecs (s : State) (n : Nat) (f : Hart → Hart) :
    (s.updHart n f).errVecs = s.errVecs := rfl
@[simp] theorem State.updHart_msix (s : State) (n : Nat) (f : Hart → Hart) : (s.updHart n f).msix = s.msix := rfl
@[simp] theorem State.updHart_imageBad (s : State) (n : Nat) (f : Hart → Hart) :
    (s.updHart n f).imageBad = s.imageBad := rfl
@[simp] theorem State.updHart_pieces (s : State) (n : Nat) (f : Hart → Hart) :
    (s.updHart n f).pieces = s.pieces := rfl
@[simp] theorem State.updHart_lastFail (s : State) (n : Nat) (f : Hart → Hart) :
    (s.updHart n f).lastFail = s.lastFail := rfl
@[simp] theorem State.updHart_staged (s : State) (n : Nat) (f : Hart → Hart) :
    (s.updHart n f).staged = s.staged := rfl
@[simp] theorem State.updHart_powerLimit (s : State) (n : Nat) (f : Hart → Hart) :
    (s.updHart n f).powerLimit = s.powerLimit := rfl
@[simp] theorem State.updHart_partCount (s : State) (n : Nat) (f : Hart → Hart) :
    (s.updHart n f).partCount = s.partCount := rfl
@[simp] theorem State.updHart_stopped (s : State) (n : Nat) (f : Hart → Hart) :
    (s.updHart n f).stopped = s.stopped := rfl
@[simp] theorem State.updHart_aer (s : State) (n : Nat) (f : Hart → Hart) : (s.updHart n f).aer = s.aer := rfl
@[simp] theorem State.updHart_out (s : State) (n : Nat) (f : Hart → Hart) : (s.updHart n f).out = s.out := rfl
@[simp] theorem State.updHart_inputs (s : State) (n : Nat) (f : Hart → Hart) :
    (s.updHart n f).inputs = s.inputs := rfl
@[simp] theorem State.updHart_turn (s : State) (n : Nat) (f : Hart → Hart) : (s.updHart n f).turn = s.turn := rfl
@[simp] theorem State.updHart_travels (s : State) (n : Nat) (f : Hart → Hart) :
    (s.updHart n f).travels = s.travels := rfl
@[simp] theorem State.updHart_cur (s : State) (n : Nat) (f : Hart → Hart) : (s.updHart n f).cur = s.cur := rfl
@[simp] theorem State.updHart_fresh (s : State) (n : Nat) (f : Hart → Hart) : (s.updHart n f).fresh = s.fresh := rfl
@[simp] theorem State.updHart_beat (s : State) (n : Nat) (f : Hart → Hart) : (s.updHart n f).beat = s.beat := rfl
@[simp] theorem State.updHart_free (s : State) (n : Nat) (f : Hart → Hart) : (s.updHart n f).free = s.free := rfl

/-! ## updDie -/

@[simp] theorem State.updDie_dies (s : State) (d : Nat) (f : Die → Die) :
    (s.updDie d f).dies = (upd d f s.dies) := rfl
@[simp] theorem State.updDie_groups (s : State) (d : Nat) (f : Die → Die) : (s.updDie d f).groups = s.groups := rfl
@[simp] theorem State.updDie_teams (s : State) (d : Nat) (f : Die → Die) : (s.updDie d f).teams = s.teams := rfl
@[simp] theorem State.updDie_spans (s : State) (d : Nat) (f : Die → Die) : (s.updDie d f).spans = s.spans := rfl
@[simp] theorem State.updDie_grids (s : State) (d : Nat) (f : Die → Die) : (s.updDie d f).grids = s.grids := rfl
@[simp] theorem State.updDie_ops (s : State) (d : Nat) (f : Die → Die) : (s.updDie d f).ops = s.ops := rfl
@[simp] theorem State.updDie_monitors (s : State) (d : Nat) (f : Die → Die) :
    (s.updDie d f).monitors = s.monitors := rfl
@[simp] theorem State.updDie_granules (s : State) (d : Nat) (f : Die → Die) :
    (s.updDie d f).granules = s.granules := rfl
@[simp] theorem State.updDie_migs (s : State) (d : Nat) (f : Die → Die) : (s.updDie d f).migs = s.migs := rfl
@[simp] theorem State.updDie_cores (s : State) (d : Nat) (f : Die → Die) : (s.updDie d f).cores = s.cores := rfl
@[simp] theorem State.updDie_clusters (s : State) (d : Nat) (f : Die → Die) :
    (s.updDie d f).clusters = s.clusters := rfl
@[simp] theorem State.updDie_parts (s : State) (d : Nat) (f : Die → Die) : (s.updDie d f).parts = s.parts := rfl
@[simp] theorem State.updDie_ports (s : State) (d : Nat) (f : Die → Die) : (s.updDie d f).ports = s.ports := rfl
@[simp] theorem State.updDie_streams (s : State) (d : Nat) (f : Die → Die) : (s.updDie d f).streams = s.streams := rfl
@[simp] theorem State.updDie_harts (s : State) (d : Nat) (f : Die → Die) : (s.updDie d f).harts = s.harts := rfl
@[simp] theorem State.updDie_mem (s : State) (d : Nat) (f : Die → Die) : (s.updDie d f).mem = s.mem := rfl
@[simp] theorem State.updDie_hostGrants (s : State) (d : Nat) (f : Die → Die) :
    (s.updDie d f).hostGrants = s.hostGrants := rfl
@[simp] theorem State.updDie_tags (s : State) (d : Nat) (f : Die → Die) : (s.updDie d f).tags = s.tags := rfl
@[simp] theorem State.updDie_poison (s : State) (d : Nat) (f : Die → Die) : (s.updDie d f).poison = s.poison := rfl
@[simp] theorem State.updDie_l2dirty (s : State) (d : Nat) (f : Die → Die) : (s.updDie d f).l2dirty = s.l2dirty := rfl
@[simp] theorem State.updDie_behind (s : State) (d : Nat) (f : Die → Die) : (s.updDie d f).behind = s.behind := rfl
@[simp] theorem State.updDie_channels (s : State) (d : Nat) (f : Die → Die) :
    (s.updDie d f).channels = s.channels := rfl
@[simp] theorem State.updDie_image (s : State) (d : Nat) (f : Die → Die) : (s.updDie d f).image = s.image := rfl
@[simp] theorem State.updDie_running (s : State) (d : Nat) (f : Die → Die) : (s.updDie d f).running = s.running := rfl
@[simp] theorem State.updDie_identity (s : State) (d : Nat) (f : Die → Die) :
    (s.updDie d f).identity = s.identity := rfl
@[simp] theorem State.updDie_errVecs (s : State) (d : Nat) (f : Die → Die) : (s.updDie d f).errVecs = s.errVecs := rfl
@[simp] theorem State.updDie_msix (s : State) (d : Nat) (f : Die → Die) : (s.updDie d f).msix = s.msix := rfl
@[simp] theorem State.updDie_imageBad (s : State) (d : Nat) (f : Die → Die) :
    (s.updDie d f).imageBad = s.imageBad := rfl
@[simp] theorem State.updDie_pieces (s : State) (d : Nat) (f : Die → Die) : (s.updDie d f).pieces = s.pieces := rfl
@[simp] theorem State.updDie_lastFail (s : State) (d : Nat) (f : Die → Die) :
    (s.updDie d f).lastFail = s.lastFail := rfl
@[simp] theorem State.updDie_staged (s : State) (d : Nat) (f : Die → Die) : (s.updDie d f).staged = s.staged := rfl
@[simp] theorem State.updDie_powerLimit (s : State) (d : Nat) (f : Die → Die) :
    (s.updDie d f).powerLimit = s.powerLimit := rfl
@[simp] theorem State.updDie_partCount (s : State) (d : Nat) (f : Die → Die) :
    (s.updDie d f).partCount = s.partCount := rfl
@[simp] theorem State.updDie_stopped (s : State) (d : Nat) (f : Die → Die) : (s.updDie d f).stopped = s.stopped := rfl
@[simp] theorem State.updDie_aer (s : State) (d : Nat) (f : Die → Die) : (s.updDie d f).aer = s.aer := rfl
@[simp] theorem State.updDie_out (s : State) (d : Nat) (f : Die → Die) : (s.updDie d f).out = s.out := rfl
@[simp] theorem State.updDie_inputs (s : State) (d : Nat) (f : Die → Die) : (s.updDie d f).inputs = s.inputs := rfl
@[simp] theorem State.updDie_turn (s : State) (d : Nat) (f : Die → Die) : (s.updDie d f).turn = s.turn := rfl
@[simp] theorem State.updDie_travels (s : State) (d : Nat) (f : Die → Die) : (s.updDie d f).travels = s.travels := rfl
@[simp] theorem State.updDie_cur (s : State) (d : Nat) (f : Die → Die) : (s.updDie d f).cur = s.cur := rfl
@[simp] theorem State.updDie_fresh (s : State) (d : Nat) (f : Die → Die) : (s.updDie d f).fresh = s.fresh := rfl
@[simp] theorem State.updDie_beat (s : State) (d : Nat) (f : Die → Die) : (s.updDie d f).beat = s.beat := rfl
@[simp] theorem State.updDie_free (s : State) (d : Nat) (f : Die → Die) : (s.updDie d f).free = s.free := rfl

/-! ## take -/

@[simp] theorem State.take_groups (s : State) : s.take.1.groups = s.groups := rfl
@[simp] theorem State.take_teams (s : State) : s.take.1.teams = s.teams := rfl
@[simp] theorem State.take_spans (s : State) : s.take.1.spans = s.spans := rfl
@[simp] theorem State.take_grids (s : State) : s.take.1.grids = s.grids := rfl
@[simp] theorem State.take_ops (s : State) : s.take.1.ops = s.ops := rfl
@[simp] theorem State.take_monitors (s : State) : s.take.1.monitors = s.monitors := rfl
@[simp] theorem State.take_granules (s : State) : s.take.1.granules = s.granules := rfl
@[simp] theorem State.take_migs (s : State) : s.take.1.migs = s.migs := rfl
@[simp] theorem State.take_cores (s : State) : s.take.1.cores = s.cores := rfl
@[simp] theorem State.take_clusters (s : State) : s.take.1.clusters = s.clusters := rfl
@[simp] theorem State.take_dies (s : State) : s.take.1.dies = s.dies := rfl
@[simp] theorem State.take_parts (s : State) : s.take.1.parts = s.parts := rfl
@[simp] theorem State.take_ports (s : State) : s.take.1.ports = s.ports := rfl
@[simp] theorem State.take_streams (s : State) : s.take.1.streams = s.streams := rfl
@[simp] theorem State.take_harts (s : State) : s.take.1.harts = s.harts := rfl
@[simp] theorem State.take_mem (s : State) : s.take.1.mem = s.mem := rfl
@[simp] theorem State.take_hostGrants (s : State) : s.take.1.hostGrants = s.hostGrants := rfl
@[simp] theorem State.take_tags (s : State) : s.take.1.tags = s.tags := rfl
@[simp] theorem State.take_poison (s : State) : s.take.1.poison = s.poison := rfl
@[simp] theorem State.take_l2dirty (s : State) : s.take.1.l2dirty = s.l2dirty := rfl
@[simp] theorem State.take_behind (s : State) : s.take.1.behind = s.behind := rfl
@[simp] theorem State.take_channels (s : State) : s.take.1.channels = s.channels := rfl
@[simp] theorem State.take_image (s : State) : s.take.1.image = s.image := rfl
@[simp] theorem State.take_running (s : State) : s.take.1.running = s.running := rfl
@[simp] theorem State.take_identity (s : State) : s.take.1.identity = s.identity := rfl
@[simp] theorem State.take_errVecs (s : State) : s.take.1.errVecs = s.errVecs := rfl
@[simp] theorem State.take_msix (s : State) : s.take.1.msix = s.msix := rfl
@[simp] theorem State.take_imageBad (s : State) : s.take.1.imageBad = s.imageBad := rfl
@[simp] theorem State.take_pieces (s : State) : s.take.1.pieces = s.pieces := rfl
@[simp] theorem State.take_lastFail (s : State) : s.take.1.lastFail = s.lastFail := rfl
@[simp] theorem State.take_staged (s : State) : s.take.1.staged = s.staged := rfl
@[simp] theorem State.take_powerLimit (s : State) : s.take.1.powerLimit = s.powerLimit := rfl
@[simp] theorem State.take_partCount (s : State) : s.take.1.partCount = s.partCount := rfl
@[simp] theorem State.take_stopped (s : State) : s.take.1.stopped = s.stopped := rfl
@[simp] theorem State.take_aer (s : State) : s.take.1.aer = s.aer := rfl
@[simp] theorem State.take_out (s : State) : s.take.1.out = s.out := rfl
@[simp] theorem State.take_inputs (s : State) : s.take.1.inputs = s.inputs := rfl
@[simp] theorem State.take_turn (s : State) : s.take.1.turn = s.turn := rfl
@[simp] theorem State.take_travels (s : State) : s.take.1.travels = s.travels := rfl
@[simp] theorem State.take_cur (s : State) : s.take.1.cur = s.cur := rfl
@[simp] theorem State.take_fresh (s : State) : s.take.1.fresh = s.fresh + 1 := rfl
@[simp] theorem State.take_beat (s : State) : s.take.1.beat = s.beat := rfl
@[simp] theorem State.take_free (s : State) : s.take.1.free = s.free := rfl
@[simp] theorem State.take_id (s : State) : s.take.2 = s.fresh := rfl

end Sys2Proof.Machine
end

