-- ==== Sys2Proof/Tests/Slice0.lean ====
section
/-!
SUPPORT. Tests: ill-formed terms that are refused, every instruction's word written out from the spec's encodings, single
steps with results from the rules, and, for each statement that has hypotheses, states and operands that meet them.
-/


namespace Sys2Proof.Tests
open Sys2Proof.Machine

-- Each theorem is checked before the next is begun.
set_option Elab.async false

def words0 : List (Nat × Nat × Instr) := [
  (32, 0x0, .nop none),
  (32, 0x1, .yield none),
  (32, 0x2, .exit none),
  (32, 0x5, .ret none),
  (32, 0x8, .genbump none),
  (32, 0x53, .brk { code := 5, m := none }),
  (32, 0x7f4, .trap { code := 127, m := none }),
  (32, 0x2006, .jmpi { a := .reg (.v 4), m := none }),
  (32, 0x3007, .calli { a := .reg (.v 6), m := none }),
  (32, 0x2400a9, .mfs { d := .v 9, sr := .stat, m := none }),
  (32, 0x2b880a, .mts { sr := .stat, a := .reg (.s 1), m := none }),
  (32, 0x4000000, .fenceAcq { scope := .core, m := none })]

def words1 : List (Nat × Nat × Instr) := [
  (32, 0x4000005, .fenceRel { scope := .cluster, m := none }),
  (32, 0x400000a, .fenceAcqRel { scope := .device, m := none }),
  (32, 0x400000f, .fenceFull { scope := .system, m := none }),
  (32, 0x80e8000, .guard { p := 1, n := true, cnt := 5, m := none }),
  (32, 0xc140009, .br { p := 2, n := true, off := 9, m := none }),
  (32, 0x11fbfff5, .call { p := 63, n := false, off := -11, m := none }),
  (32, 0x14003800, .wbase { a := .reg (.v 7), m := none }),
  (64, 0x40140ff801, .grow { d := .v 3, a := .lit 64, m := none }),
  (32, 0x14039002, .shrink { a := .reg (.s 2), m := none }),
  (32, 0x2007f140, .iadd { d := .v 1, a := .reg .zero, b := .reg (.v 20), m := none }),
  (32, 0x200bf151, .isub { d := .v 2, a := .reg .zero, b := .reg (.v 21), m := none }),
  (32, 0x200ff162, .imul { d := .v 3, a := .reg .zero, b := .reg (.v 22), m := none })]

def words2 : List (Nat × Nat × Instr) := [
  (32, 0x2013f173, .imulhs { d := .v 4, a := .reg .zero, b := .reg (.v 23), m := none }),
  (32, 0x2017f184, .imulhn { d := .v 5, a := .reg .zero, b := .reg (.v 24), m := none }),
  (32, 0x201bf195, .imad { d := .v 6, a := .reg .zero, b := .reg (.v 25), m := none }),
  (32, 0x201ff1a6, .imin { d := .v 7, a := .reg .zero, b := .reg (.v 26), m := none }),
  (32, 0x2023f1b7, .imax { d := .v 8, a := .reg .zero, b := .reg (.v 27), m := none }),
  (32, 0x2027f1c8, .nmin { d := .v 9, a := .reg .zero, b := .reg (.v 28), m := none }),
  (32, 0x202bf1d9, .nmax { d := .v 10, a := .reg .zero, b := .reg (.v 29), m := none }),
  (32, 0x202ff1ea, .iabsd { d := .v 11, a := .reg .zero, b := .reg (.v 30), m := none }),
  (32, 0x2033f1fb, .iaddc { d := .v 12, a := .reg .zero, b := .reg (.v 31), m := none }),
  (32, 0x2037f20c, .isubb { d := .v 13, a := .reg .zero, b := .reg (.v 32), m := none }),
  (64, 0xffffffff240547f0, .and { d := .v 1, a := .reg (.v 40), b := .lit 0xffffffff, m := none }),
  (64, 0xfffffffe240947f1, .or { d := .v 2, a := .reg (.v 40), b := .lit 0xfffffffe, m := none })]

def words3 : List (Nat × Nat × Instr) := [
  (64, 0xfffffffd240d47f2, .xor { d := .v 3, a := .reg (.v 40), b := .lit 0xfffffffd, m := none }),
  (64, 0xfffffffc241147f3, .andn { d := .v 4, a := .reg (.v 40), b := .lit 0xfffffffc, m := none }),
  (64, 0xfffffffb241547f4, .orn { d := .v 5, a := .reg (.v 40), b := .lit 0xfffffffb, m := none }),
  (64, 0xfffffffa241947f5, .shl { d := .v 6, a := .reg (.v 40), b := .lit 0xfffffffa, m := none }),
  (64, 0xfffffff9241d47f6, .shr { d := .v 7, a := .reg (.v 40), b := .lit 0xfffffff9, m := none }),
  (64, 0xfffffff8242147f7, .sar { d := .v 8, a := .reg (.v 40), b := .lit 0xfffffff8, m := none }),
  (64, 0xfffffff7242547f8, .rotl { d := .v 9, a := .reg (.v 40), b := .lit 0xfffffff7, m := none }),
  (32, 0x24294009, .popc { d := .v 10, a := .reg (.v 40), m := none }),
  (32, 0x242d400a, .clz { d := .v 11, a := .reg (.v 40), m := none }),
  (32, 0x2431400b, .brev { d := .v 12, a := .reg (.v 40), m := none }),
  (64, 0xfffffff3243547fc, .prmt { d := .v 13, a := .reg (.v 40), b := .lit 0xfffffff3, m := none }),
  (64, 0xfffffff2243947fd, .bfx { d := .v 14, a := .reg (.v 40), b := .lit 0xfffffff2, m := none })]

def words4 : List (Nat × Nat × Instr) := [
  (64, 0xfffffff1243d47fe, .bfi { d := .v 15, a := .reg (.v 40), b := .lit 0xfffffff1, m := none }),
  (32, 0x2820f200, .add64 { d := .v 8, a := .reg (.v 30), b := .reg (.v 32), m := none }),
  (32, 0x2820f201, .sub64 { d := .v 8, a := .reg (.v 30), b := .reg (.v 32), m := none }),
  (32, 0x2820f202, .mad64 { d := .v 8, a := .reg (.v 30), b := .reg (.v 32), m := none }),
  (32, 0x2820f203, .shl64 { d := .v 8, a := .reg (.v 30), b := .reg (.v 32), m := none }),
  (32, 0x2820f204, .shr64 { d := .v 8, a := .reg (.v 30), b := .reg (.v 32), m := none }),
  (32, 0x2820f205, .sar64 { d := .v 8, a := .reg (.v 30), b := .reg (.v 32), m := none }),
  (32, 0x2820f006, .mov64 { d := .v 8, a := .reg (.v 30), m := none }),
  (32, 0x2c143000, .mov { d := .v 5, a := .reg (.v 6), m := none }),
  (32, 0x2dc43001, .movs { d := .s 1, a := .reg (.v 6), m := none }),
  (32, 0x2c161802, .p2v { d := .v 5, x := 67, m := none }),
  (64, 0x12342c13f803, .lit { d := .v 4, a := .lit 0x1234, m := none })]

def words5 : List (Nat × Nat × Instr) := [
  (32, 0x30081fff, .iaddi { d := .v 2, a := .reg (.v 3), imm := -1, m := none }),
  (32, 0x34081bff, .andi { d := .v 2, a := .reg (.v 3), imm := 1023, m := none }),
  (32, 0x38081c00, .ori { d := .v 2, a := .reg (.v 3), imm := -1024, m := none }),
  (32, 0x3c08184d, .xori { d := .v 2, a := .reg (.v 3), imm := 77, m := none }),
  (32, 0x4008181c, .shli { d := .v 2, a := .reg (.v 3), c := 28, m := none }),
  (32, 0x4008191d, .shri { d := .v 2, a := .reg (.v 3), c := 29, m := none }),
  (32, 0x40081a1e, .sari { d := .v 2, a := .reg (.v 3), c := 30, m := none }),
  (32, 0x40081b1f, .rotli { d := .v 2, a := .reg (.v 3), c := 31, m := none }),
  (32, 0x4418dfc1, .icmp { pd := 3, a := .reg (.v 13), b := .reg .zero, cond := .eq, ty := .n32, m := none }),
  (32, 0x4820e1fe, .fcmp { pd := 4, a := .reg (.v 14), b := .reg (.v 15), cond := .unord, ty := .bf16, m := none }),
  (32, 0x4c281800, .plogAnd { pd := 5, a := 1, b := 64, m := none }),
  (32, 0x4c281821, .plogOr { pd := 5, a := 1, b := 65, m := none })]

def words6 : List (Nat × Nat × Instr) := [
  (32, 0x4c281842, .plogXor { pd := 5, a := 1, b := 66, m := none }),
  (32, 0x4c281863, .plogNand { pd := 5, a := 1, b := 67, m := none }),
  (32, 0x4c281884, .plogNor { pd := 5, a := 1, b := 68, m := none }),
  (32, 0x4c2818a5, .plogXnor { pd := 5, a := 1, b := 69, m := none }),
  (32, 0x50101000, .voteAny { pd := 2, x := 1, m := none }),
  (32, 0x50142001, .voteAll { pd := 2, x := 66, m := none }),
  (32, 0x51fc10e2, .voteBallot { d := .v 7, x := 65, m := none }),
  (32, 0x51f83e63, .votePcount { d := .s 3, x := 3, m := none }),
  (32, 0x50480164, .voteV2p { pd := 9, b := .reg (.v 11), m := none }),
  (32, 0x603c60e0, .fadd { d := .v 15, a := .reg (.v 12), b := .reg (.v 14), m := none }),
  (32, 0x603c60e1, .fsub { d := .v 15, a := .reg (.v 12), b := .reg (.v 14), m := none }),
  (32, 0x603c60e2, .fmul { d := .v 15, a := .reg (.v 12), b := .reg (.v 14), m := none })]

def words7 : List (Nat × Nat × Instr) := [
  (32, 0x603c60e3, .ffma { d := .v 15, a := .reg (.v 12), b := .reg (.v 14), m := none }),
  (32, 0x603c60e4, .fmin { d := .v 15, a := .reg (.v 12), b := .reg (.v 14), m := none }),
  (32, 0x603c60e5, .fmax { d := .v 15, a := .reg (.v 12), b := .reg (.v 14), m := none }),
  (32, 0x603c60e6, .fminn { d := .v 15, a := .reg (.v 12), b := .reg (.v 14), m := none }),
  (32, 0x603c60e7, .fmaxn { d := .v 15, a := .reg (.v 12), b := .reg (.v 14), m := none }),
  (32, 0x603c6008, .fabs { d := .v 15, a := .reg (.v 12), m := none }),
  (32, 0x603c6009, .fneg { d := .v 15, a := .reg (.v 12), m := none }),
  (32, 0x603c603a, .frnd { d := .v 15, a := .reg (.v 12), mode := .rdn, m := none }),
  (32, 0x64041030, .add2 { d := .v 1, a := .reg (.v 2), b := .reg (.v 3), bf := false, m := none }),
  (32, 0x64041039, .mul2 { d := .v 1, a := .reg (.v 2), b := .reg (.v 3), bf := true, m := none }),
  (32, 0x64041032, .fma2 { d := .v 1, a := .reg (.v 2), b := .reg (.v 3), bf := false, m := none }),
  (32, 0x6404103b, .min2 { d := .v 1, a := .reg (.v 2), b := .reg (.v 3), bf := true, m := none })]

def words8 : List (Nat × Nat × Instr) := [
  (32, 0x64041034, .max2 { d := .v 1, a := .reg (.v 2), b := .reg (.v 3), bf := false, m := none }),
  (64, 0x3f0000068181000, .frcp { d := .v 6, a := .reg (.v 2), la := 0, m := none }),
  (64, 0x7f0000068181001, .frsq { d := .v 6, a := .reg (.v 2), la := 1, m := none }),
  (64, 0xbf0000068181002, .fsqrt { d := .v 6, a := .reg (.v 2), la := 2, m := none }),
  (64, 0xff0000068181003, .fexp2 { d := .v 6, a := .reg (.v 2), la := 3, m := none }),
  (64, 0x13f0000068181004, .flog2 { d := .v 6, a := .reg (.v 2), la := 4, m := none }),
  (64, 0x17f0000068181005, .fsin { d := .v 6, a := .reg (.v 2), la := 5, m := none }),
  (64, 0x1bf0000068181006, .fcos { d := .v 6, a := .reg (.v 2), la := 6, m := none }),
  (64, 0x1ff0000068181007, .ftanh { d := .v 6, a := .reg (.v 2), la := 7, m := none }),
  (32, 0x6c041038, .cvt { d := .v 1, a := .reg (.v 2), code := .fromF32 .f8a, sat := true, rnd := .default, m := none }),
  (32, 0x6c0411d4, .cvt { d := .v 1, a := .reg (.v 2), code := .toF32 .n4, sat := false, rnd := .rup, m := none }),
  (32, 0x6c041311, .cvt { d := .v 1, a := .reg (.v 2), code := .pairToBf16, sat := false, rnd := .rne, m := none })]

def words9 : List (Nat × Nat × Instr) := [
  (32, 0x70041032, .pack { d := .v 1, a := .reg (.v 2), b := .reg (.v 3), e := .e4, m := none }),
  (32, 0x70041035, .unpack { d := .v 1, a := .reg (.v 2), b := .reg (.v 3), e := .e16, m := none }),
  (32, 0x74041030, .dot4F8a { d := .v 1, a := .reg (.v 2), b := .reg (.v 3), m := none }),
  (32, 0x74041031, .dot4F8b { d := .v 1, a := .reg (.v 2), b := .reg (.v 3), m := none }),
  (32, 0x74041032, .dot4I8 { d := .v 1, a := .reg (.v 2), b := .reg (.v 3), m := none }),
  (32, 0x74041033, .dot4N8 { d := .v 1, a := .reg (.v 2), b := .reg (.v 3), m := none }),
  (32, 0x74041034, .dot8F4 { d := .v 1, a := .reg (.v 2), b := .reg (.v 3), m := none }),
  (32, 0x74041035, .dot8I4 { d := .v 1, a := .reg (.v 2), b := .reg (.v 3), m := none }),
  (32, 0x74041036, .dot8N4 { d := .v 1, a := .reg (.v 2), b := .reg (.v 3), m := none }),
  (32, 0x80041030, .shflIdx { d := .v 1, a := .reg (.v 2), b := .reg (.v 3), m := none }),
  (32, 0x80041031, .shflUp { d := .v 1, a := .reg (.v 2), b := .reg (.v 3), m := none }),
  (32, 0x80041032, .shflDown { d := .v 1, a := .reg (.v 2), b := .reg (.v 3), m := none })]

def words10 : List (Nat × Nat × Instr) := [
  (32, 0x80041033, .shflXor { d := .v 1, a := .reg (.v 2), b := .reg (.v 3), m := none }),
  (32, 0x80041034, .shflBcast { d := .v 1, a := .reg (.v 2), b := .reg (.v 3), m := none }),
  (64, 0x3f000008404100f, .gredReduce { d := .v 1, a := .reg (.v 2), op := .addI32, la := 15, m := none }),
  (64, 0x5ff000008404100f, .gredIncl { d := .v 1, a := .reg (.v 2), op := .maxF32, la := 15, m := none }),
  (64, 0xabf000008404100f, .gredExcl { d := .v 1, a := .reg (.v 2), op := .xor, la := 15, m := none }),
  (64, 0x63f000089020100f, .ld { d := .v 8, a := .reg (.v 2), w := .w64, ord := .weak, scope := .core, hint := .normal, ps := 63, off := 8, la := 15, m := none }),
  (64, 0x5010ffff90303003, .ldNr { d := .v 12, a := .reg (.v 6), w := .w32, hint := .gridRO, ps := 1, off := -1, la := 3, m := none }),
  (64, 0x47f40000940017ef, .st { a := .reg (.v 2), b := .reg .zero, w := .w32, ord := .sync, scope := .device, hint := .normal, off := 0, la := 15, m := none }),
  (96, 0x40c3f00004980bf80f, .lds { d := .v 2, a := .lit 0x40, w := .w16s, off := 4, la := 15, m := none }),
  (64, 0x83f000009c00484f, .sts { a := .reg (.v 9), b := .reg (.v 4), w := .w128, off := 0, la := 15, m := none }),
  (96, 0x183f44000a00417ff, .atom { d := .v 1, a := .reg (.v 2), b := .lit 1, op := .xchg, w := .w32, scope := .device, cls := .acquire, ps := 63, off := 0, la := 15, m := none }),
  (64, 0x456c010a410108f, .atomc { d := .v 4, a := .reg (.v 2), b := .reg (.v 8), w := .w64, scope := .system, cls := .acqRel, ps := 5, off := 16, la := 15, m := none })]

def words11 : List (Nat × Nat × Instr) := [
  (64, 0xb3f28004a800108f, .red { a := .reg (.v 2), b := .reg (.v 8), op := .fadd, w := .w32, scope := .cluster, rel := true, off := 4, la := 15, m := none }),
  (64, 0x3f04100ac00300f, .prf { a := .reg (.v 6), hint := .stream, off := 0x100, la := 15, m := none }),
  (96, 0x10007f40000ac0037ff, .flush { a := .reg (.v 6), b := .lit 256, scope := .device, la := 15, m := none }),
  (64, 0xbf20000ac00307f, .inv { a := .reg (.v 6), b := .reg (.v 7), scope := .cluster, la := 15, m := none }),
  (64, 0xff00000ac34300f, .pgreq { d := .v 13, a := .reg (.v 6), acc := .read, off := 0, la := 15, m := none }),
  (64, 0x13f04000ac34300f, .pres { d := .v 13, a := .reg (.v 6), acc := .write, off := 0, la := 15, m := none }),
  (64, 0x3f00020b000307f, .tagst { a := .reg (.v 6), b := .reg (.v 7), off := 32, la := 15, m := none }),
  (64, 0x7f00000b024300f, .tagld { d := .v 9, a := .reg (.v 6), off := 0, la := 15, m := none }),
  (64, 0x3f00000b420300f, .gqry { d := .v 8, a := .reg (.v 6), off := 0, la := 15, m := none }),
  (64, 0x7f00000b420300f, .ghold { d := .v 8, a := .reg (.v 6), off := 0, la := 15, m := none }),
  (64, 0xbf00000b420300f, .grel { d := .v 8, a := .reg (.v 6), off := 0, la := 15, m := none }),
  (64, 0xa7f40008b810308f, .waitv { d := .v 4, a := .reg (.v 6), b := .reg (.v 8), cond := .gen, w64 := true, scope := .device, off := 8, la := 15, m := none })]

def words12 : List (Nat × Nat × Instr) := [
  (64, 0x3f09005c05011ef, .cpySp { d := .v 20, a := .reg (.v 2), b := .v 30, hint := .keep, bar := .team 5, la := 15, m := none }),
  (64, 0x7f02fffc05017ef, .cpyTile { d := .v 20, a := .reg (.v 2), b := .zero, hint := .normal, bar := .span 0xfff, la := 15, m := none }),
  (64, 0xabf10000c050170f, .cpyMc { d := .v 20, a := .reg (.v 2), b := .s 0, ranks := 10, hint := .noalloc, bar := .none, la := 15, m := none }),
  (64, 0x3f04000c45011ef, .gathSp { d := .v 20, a := .reg (.v 2), b := .v 30, hint := .stream, bar := .none, la := 15, m := none }),
  (64, 0x7f00000c45011ef, .gathTile { d := .v 20, a := .reg (.v 2), b := .v 30, hint := .normal, bar := .none, la := 15, m := none }),
  (64, 0x3f00064c80011ef, .sta { a := .reg (.v 2), b := .reg (.v 30), hint := .normal, len := 100, la := 15, m := none }),
  (64, 0x13f00009cc50100f, .collAdd { d := .v 20, a := .reg (.v 2), ty := .bf16, len := 9, la := 15, m := none }),
  (64, 0x7f00009cc50100f, .collMax { d := .v 20, a := .reg (.v 2), ty := .f32, len := 9, la := 15, m := none }),
  (64, 0xbf0c009cc50100f, .collBcast { d := .v 20, a := .reg (.v 2), root := 3, len := 9, la := 15, m := none }),
  (32, 0xd00003f1, .waitq { cls := .matrix, n := 63, m := none }),
  (64, 0x80d40017f0, .pset { a := .reg (.v 2), b := .lit 128, m := none }),
  (32, 0xd4001031, .pclr { a := .reg (.v 2), b := .reg (.v 3), m := none })]

def words13 : List (Nat × Nat × Instr) := [
  (96, 0x103f00000d84017ff, .barinit { d := .v 16, a := .reg (.v 2), b := .lit 1, la := 15, m := none }),
  (64, 0x7f00000d843a00f, .bararr { d := .v 16, a := .reg (.s 4), la := 15, m := none }),
  (64, 0xbf00000d803a03f, .barexp { a := .reg (.s 4), b := .reg (.v 3), la := 15, m := none }),
  (64, 0xc700000d803a10f, .barwait { a := .reg (.s 4), b := .reg (.v 16), ps := 7, la := 15, m := none }),
  (64, 0x13f00000d817a10f, .bartry { d := .v 5, a := .reg (.s 4), b := .reg (.v 16), la := 15, m := none }),
  (64, 0x17f00000d803a00f, .barinv { a := .reg (.s 4), la := 15, m := none }),
  (64, 0x3f00000dc101007, .launch { d := .v 4, a := .reg (.v 2), la := 7, m := none }),
  (64, 0x3f00000e053f00f, .tdefSp { d := .v 20, a := .reg .zero, la := 15, m := none }),
  (64, 0x7f00000e051800f, .tdefReg { d := .v 20, run := 48, la := 15, m := none }),
  (64, 0x3f00000e450180f, .treadSp { d := .v 20, a := .reg (.v 3), la := 15, m := none }),
  (64, 0x7f00000e444180f, .treadReg { run := 17, a := .reg (.v 3), la := 15, m := none }),
  (32, 0xe8007800, .tkill { a := .reg (.v 15), m := none })]

def words14 : List (Nat × Nat × Instr) := [
  (32, 0xec207800, .tqry { d := .v 8, a := .reg (.v 15), m := none }),
  (64, 0x3f00000f000780f, .mmat { a := .reg (.v 15), la := 15, m := none }),
  (64, 0xff00000f5f8014f, .mmar { d := .zero, run := 0, b := .reg (.v 20), h1 := true, reuse := true, la := 15, m := none }),
  (64, 0x3f03ffff800780f, .accz { a := .reg (.v 15), len := 16383, la := 15, m := none }),
  (64, 0x7f00000f800780f, .accldSp { a := .reg (.v 15), la := 15, m := none }),
  (64, 0x7f04000f880b00f, .accldReg { run := 32, a := .reg (.v 22), la := 15, m := none }),
  (64, 0xbf00001f800790f, .accst { a := .reg (.v 15), b := .reg (.v 16), len := 1, la := 15, m := none }),
  (64, 0xff00000f824780f, .accgrow { d := .v 9, a := .reg (.v 15), la := 15, m := none }),
  (64, 0x13f00000f800780f, .accshr { a := .reg (.v 15), la := 15, m := none }),
  (64, 0x3f08000fd80000f, .fzrec { run := 96, cap := 2, la := 15, m := none }),
  (64, 0x4604000fc24184f, .fzrd { d := .v 9, a := .reg (.v 3), b := .reg (.v 4), ps := 6, cap := 1, la := 15, m := none }),
  (64, 0xbf0c000fc24184f, .fzwr { d := .v 9, a := .reg (.v 3), b := .reg (.v 4), cap := 3, la := 15, m := none })]

def words15 : List (Nat × Nat × Instr) := [
  (64, 0xff00000fc00184f, .fzres { a := .reg (.v 3), b := .reg (.v 4), cap := 0, la := 15, m := none }),
  (64, 0xff00001fc00180f, .fzresRpl { a := .reg (.v 3), cap := 0, la := 15, m := none }),
  (64, 0x13f04000fc00180f, .fzkill { a := .reg (.v 3), cap := 1, la := 15, m := none }),
  (96, 0x20c17f00000fc0017ff, .tlbiRange { a := .reg (.v 2), b := .lit 0x20c, la := 15, m := none }),
  (64, 0x17f04000fc03f7ef, .tlbiCtx { la := 15, m := none }),
  (64, 0x1bf00000fc24104f, .migr { d := .v 9, a := .reg (.v 2), b := .reg (.v 4), la := 15, m := none }),
  (32, 0x73228b, .rhLaunch { rd := 5, rs1 := 6, rs2 := 7 }),
  (32, 0x73100b, .rhTlbiRange { rd := 0, rs1 := 6, rs2 := 7 }),
  (32, 0x273100b, .rhTlbiCtx { rd := 0, rs1 := 6, rs2 := 7 }),
  (96, 0x303f000006a181002, .frcp { d := .v 6, a := .reg (.v 2), la := 2, m := some 3 })]

def decodes (ws : List (Nat × Nat × Instr)) : Bool := ws.all fun p => decodeTableWord p.1 p.2.1 == some p.2.2

theorem test_words0 : decodes words0 = true := by decide +kernel
theorem test_words1 : decodes words1 = true := by decide +kernel
theorem test_words2 : decodes words2 = true := by decide +kernel
theorem test_words3 : decodes words3 = true := by decide +kernel
theorem test_words4 : decodes words4 = true := by decide +kernel
theorem test_words5 : decodes words5 = true := by decide +kernel
theorem test_words6 : decodes words6 = true := by decide +kernel
theorem test_words7 : decodes words7 = true := by decide +kernel
theorem test_words8 : decodes words8 = true := by decide +kernel
theorem test_words9 : decodes words9 = true := by decide +kernel
theorem test_words10 : decodes words10 = true := by decide +kernel
theorem test_words11 : decodes words11 = true := by decide +kernel
theorem test_words12 : decodes words12 = true := by decide +kernel
theorem test_words13 : decodes words13 = true := by decide +kernel
theorem test_words14 : decodes words14 = true := by decide +kernel
theorem test_words15 : decodes words15 = true := by decide +kernel
/-! ## A small machine -/

/-- A translation of the 2 MiB at 0x200000 to themselves. -/
def page : TlbEntry := {
  part := 0, ctx := 0, vbase := 0x200000, log2 := 21, pbase := 0x200000, r := true, w := true, x := true, u := true }

def ctx0 : Ctx := {
  ctx := 0, regime := 1, heaten := true, pasid := 3, root := 0x600000, lbase := 0, lsize := 0, celsize := 100000000
  fvt := 0x800000 }

/-- Lane 0, at the text, with these names. -/
def lane0 (ns : List (Nat × Word)) : Lane := { pc := 0x200000, names := ns, preds := 2, link := 0x200040 }

/-- A group of team 20 on core 0 with one live lane. -/
def grp (gid : Nat) (ns : List (Nat × Word)) : Group := {
  newGroup gid 20 0 0 0 128 false 0x200000 32 with
  core := 0
  lanes := lane0 ns :: List.replicate 31 { exited := true }
  scal := (List.range 14).map fun r => ⟨r, BitVec.allOnes 32, BitVec.ofNat 32 (r + 1)⟩ }

/-- Group 10 of team 20, span 30, grid 40 moves; no cache holds anything. -/
def here (ns : List (Nat × Word)) : State :=
  let s := State.reset.updPart 0 fun p => { p.putCtx ctx0 with
    grancap := 100, ctxn := 1, ctxbase := 0x900000, cmtbase := 0x910000, qown := List.replicate 16 0x10000
    jrn0 := 0x40000000, jrn1 := BitVec.ofNat 64 (0x50000000 + 2 ^ 60), fqbase := 0xA00000, prqbase := 0xB00000
    hdmBase := some 0x100000 }
  { s.tlbPut 0 page with
    groups := [grp 10 ns]
    teams := [{ tid := 20, sid := 30, rank := 0, t := 0, core := 0, alloc := 16384, accSize := 262144, barMax := 4 }]
    spans := [{ sid := 30, uid := 40, index := 0, count := 1, age := 1, cluster := 0, reserve := 8, sbarMax := 2
                sbarBase := 16000 }]
    grids := [{ uid := 40, part := 0, queue := 0, seq := 0, ctx := 0, gridh := 5, rcd := textRecord, depMet := true
                nextSpan := 1, issued := true }]
    cur := 10
    fresh := 100 }

/-- 7, 3; the addresses 0x200100 and 0x200280; 1.0, 2.0; 16, 0x400; the address 0x200300; -1. -/
def ns0 : List (Nat × Word) := [(0, 7), (1, 3), (2, 0x200100), (4, 0x200280), (6, 0x3F800000), (7, 0x40000000), (8, 16),
  (9, 0x400), (10, 0x200300), (12, 0xFFFFFFFF), (13, 0xFFFFFFFF)]

def s0 : State := here ns0

/-- The issue of `i` begins with lane 0 alone taking part, and `P` holds of it. -/
def fine (s : State) (i : Instr) (P : Issue → Bool) : Bool :=
  match s.begin i with
  | .go x => x.ts == [0] &&
      decide (x.regFault (instrUses x.g.latch.isSome i) 0 = none ∧ x.lookFault (instrUses x.g.latch.isSome i) 0 = none) && P x
  | .halt _ => false

theorem fine_begins {s : State} {i : Instr} {P : Issue → Bool} (h : fine s i P = true) :
    ∃ x : Issue, x.Begins s i ∧ x.ts = [0] ∧ P x = true := by
  unfold fine at h
  split at h
  · rename_i x hx
    simp only [Bool.and_eq_true, beq_iff_eq, decide_eq_true_eq] at h
    obtain ⟨⟨ht, hr⟩, hp⟩ := h
    exact ⟨x, ⟨hx, fun l hl => by rw [ht] at hl; cases List.mem_singleton.mp hl; exact hr⟩, ht, hp⟩
  · cases h

theorem agree_one {x : Issue} {out : Nat → LaneOut} (h : x.ts = [0]) : x.agree out := by
  intro l hl k hk
  rw [h] at hl hk
  cases List.mem_singleton.mp hl; cases List.mem_singleton.mp hk; rfl

/-- What a table says of a lane. -/
abbrev Table := Issue → Nat → Instr → LaneOut

/-- Every instruction of the list begins in the state with equal operands, and the table raises no trapped flag for it. -/
def covers (s : State) (f : Table) (is : List Instr) : Bool :=
  is.all fun i => fine s i fun x => !x.operandsDiffer i && decide (trapped x.g.stat (f x 0 i).flags = 0)

/-- The hypotheses of a statement over a table of results, met by each of the instructions. -/
theorem covers_met {s : State} {f : Table} {is : List Instr} (h : covers s f is = true) : ∀ i ∈ is,
    ∃ x : Issue, x.Begins s i ∧ x.ts ≠ [] ∧ x.operandsDiffer i = false ∧ x.agree (f x · i) ∧ x.untrapped (f x · i) := by
  intro i hi
  obtain ⟨x, hb, ht, hp⟩ := fine_begins (List.all_eq_true.mp h i hi)
  simp only [Bool.and_eq_true, Bool.not_eq_true', decide_eq_true_eq] at hp
  refine ⟨x, hb, by rw [ht]; exact List.cons_ne_nil _ _, hp.1, agree_one ht, ?_⟩
  intro l hl
  rw [ht] at hl
  cases List.mem_singleton.mp hl
  exact hp.2

/-! ## Tables of results -/

def a3 (f : R3 → Instr) : Instr := f { d := .v 20, a := .reg (.v 0), b := .reg (.v 1), m := none }
def a64 (f : R3 → Instr) : Instr := f { d := .v 20, a := .reg (.v 12), b := .reg (.v 2), m := none }
def f3 (f : R3 → Instr) : Instr := f { d := .s 3, a := .reg (.v 6), b := .reg (.v 7), m := none }
def a2 (f : R2 → Instr) : Instr := f { d := .v 20, a := .reg (.v 12), m := none }

theorem met_integer : covers s0 Want.integer ([.iadd, .isub, .imul, .imulhs, .imulhn, .imad, .imin, .imax, .nmin, .nmax,
    .iabsd, .iaddc, .isubb].map a3) = true := by decide +kernel
theorem met_bitwise : covers s0 Want.bitwise ([.and, .or, .xor, .andn, .orn, .shl, .shr, .sar, .rotl, .prmt, .bfx, .bfi].map a3 ++
    [.popc, .clz, .brev].map a2) = true := by decide +kernel
theorem met_wide : covers s0 Want.wide (.mov64 { d := .v 20, a := .lit 0x80000000, m := none } ::
    [.add64, .sub64, .mad64, .shl64, .shr64, .sar64].map a64) = true := by decide +kernel
theorem met_move : covers s0 Want.move [.mov { d := .zero, a := .lit 3, m := none }, a2 .movs,
    .p2v { d := .v 20, x := 65, m := none }, .lit { d := .v 20, a := .lit 0xFFFFFFF0, m := none }] = true := by decide +kernel
theorem met_immediate : covers s0 Want.immediate ([.iaddi, .andi, .ori, .xori].map (fun f : RI → Instr =>
    f { d := .v 20, a := .reg (.v 0), imm := -1024, m := none }) ++ [.shli, .shri, .sari, .rotli].map fun f : RSh → Instr =>
    f { d := .v 20, a := .reg (.v 12), c := 31, m := none }) = true := by decide +kernel
theorem met_predicate : covers s0 Want.predicate (.icmp { pd := 5, a := .reg (.v 0), b := .lit 7, cond := .le, ty := .n64, m := none } ::
    .voteAny { pd := 2, x := 1, m := none } :: .voteAll { pd := 2, x := 65, m := none } ::
    .voteBallot { d := .s 1, x := 1, m := none } :: .votePcount { d := .v 20, x := 1, m := none } ::
    .voteV2p { pd := 63, b := .reg (.v 0), m := none } ::
    [.plogAnd, .plogOr, .plogXor, .plogNand, .plogNor, .plogXnor].map fun f : PlogOps → Instr =>
      f { pd := 62, a := 1, b := 65, m := none }) = true := by decide +kernel
theorem met_floating : covers s0 Want.floating (.frnd { d := .v 20, a := .reg (.v 6), mode := .rz, m := none } ::
    .fcmp { pd := 5, a := .reg (.v 6), b := .reg (.v 7), cond := .unord, ty := .f32, m := none } ::
    [.fadd, .fsub, .fmul, .ffma, .fmin, .fmax, .fminn, .fmaxn].map f3 ++ [.fabs, .fneg].map a2 ++
    [.add2, .mul2, .fma2, .min2, .max2].map fun f : HpairOps → Instr =>
      f { d := .v 20, a := .reg (.v 6), b := .reg (.v 7), bf := true, m := none }) = true := by decide +kernel
theorem met_conversion : covers s0 Want.conversion (.cvt { d := .v 20, a := .reg (.v 6), code := .fromF32 .f8a, sat := true, rnd := .rne, m := none } ::
    .pack { d := .v 20, a := .reg (.v 6), b := .reg (.v 7), e := .e4, m := none } ::
    .unpack { d := .v 20, a := .reg (.v 6), b := .lit 1, e := .e4, m := none } ::
    [.dot4F8a, .dot4F8b, .dot4I8, .dot4N8, .dot8F4, .dot8I4, .dot8N4].map a3) = true := by decide +kernel
theorem met_special : covers s0 Want.special
    ([.frcp, .frsq, .fsqrt, .fexp2, .flog2, .fsin, .fcos, .ftanh].map fun f : SfuOps → Instr =>
      f { d := .v 20, a := .reg (.v 6), la := 15, m := none }) = true := by decide +kernel
theorem met_exchange : covers s0 Want.exchange ([.shflIdx, .shflUp, .shflDown, .shflXor, .shflBcast].map a3) = true := by
  decide +kernel
theorem met_reduction : covers s0 Want.reduction
    ([.gredReduce, .gredIncl, .gredExcl].map fun f : GredOps → Instr =>
      f { d := .v 20, a := .reg (.v 6), op := .addF32, la := 15, m := none }) = true := by decide +kernel
theorem met_control : ([.nop none, .guard { p := 1, n := true, cnt := 7, m := none }, .br { p := 1, n := false, off := -1, m := none },
    .call { p := 63, n := false, off := 5, m := none }, .ret none, .jmpi { a := .reg (.v 2), m := none },
    .calli { a := .reg (.v 4), m := none }, .wbase { a := .lit 912, m := none }].all fun i =>
    fine s0 i fun x => decide (Want.misplaced x 0 i = none)) = true := by decide +kernel
/-! ## Control -/

/-- The hypotheses hold of an issue that begins: `P` says them. -/
abbrev Met (s : State) (i : Instr) (P : Issue → Prop) : Prop := ∃ x : Issue, x.Begins s i ∧ x.ts = [0] ∧ P x

theorem met {s : State} {i : Instr} {P : Issue → Prop} [∀ x, Decidable (P x)] (h : fine s i (fun x => decide (P x)) = true) :
    Met s i P := by
  obtain ⟨x, hb, ht, hp⟩ := fine_begins h
  exact ⟨x, hb, ht, of_decide_eq_true hp⟩

/-- The group as a handler. -/
def handling (s : State) : State := { s with
  groups := s.groups.map fun g => if g.gid = 10 then { g with kind := .handler 0 1 false, slot := 60, caps := [0, 0, 0, 0] } else g }

def h0 : State := handling s0

/-- StateRegisters: every register of R47, the privileged ones in a handler. -/
theorem met_mfs : ([.laneix, .grpix, .teamx, .teamy, .teamz, .roleix, .spanrk, .gridh, .nlane, .clock, .stat, .allot, .wbasev,
    .link, .qcnt, .lpc].all fun sr => fine s0 (.mfs { d := .v 20, sr := sr, m := none }) fun _ =>
      !s0.flagsOwed s0.cur) = true := by decide +kernel
theorem met_mfs_privileged : ([.cap0, .cap1, .cap2, .cap3, .frecp, .hmode, .ctxid].all fun sr =>
    fine h0 (.mfs { d := .v 20, sr := sr, m := none }) fun _ => !h0.flagsOwed h0.cur) = true := by decide +kernel
/-- The coordinates of a team, its place, role and grid; those a lamplighter was started with; the clock since a reset. -/
theorem met_identity : (s0.group? 10).any (fun g => g.served.isNone && g.kind == .ordinary && (s0.team? g.tid).any fun tm =>
    (s0.span? tm.sid).any fun y => (s0.grid? y.uid).any fun gr => decide (0 < leNat ((gr.rcd.drop 0x10).take 4) ∧
      0 < leNat ((gr.rcd.drop 0x14).take 2))) = true ∧ (s0.part 0).beat0 ≤ s0.beat := by decide +kernel
def serving : State := { h0 with groups := h0.groups.map fun g => { g with served := some ⟨40, 1, 2, 3, 256, 5⟩ } }
theorem met_served_lanes : (serving.group? 10).any (fun g => g.served.isSome && g.kind != .ordinary) = true := by decide +kernel
theorem met_mts : ([.stat, .link].all fun sr => fine s0 (.mts { sr := sr, a := .reg (.v 2), m := none }) fun _ =>
    !s0.flagsOwed s0.cur) = true := by decide +kernel

/-- LanesYieldAndExit: a lane that yields alone goes on; with a second lane, which stands elsewhere, it parks. -/
theorem met_yield : Met s0 (.yield none) fun x => ∀ l ∈ x.g.eligibleLanes, l ∈ x.ts := met (by decide +kernel)
theorem met_exit : Met s0 (.exit none) fun x => ∀ l ∈ x.g.liveLanes, l ∈ x.ts := met (by decide +kernel)

/-- Group 10 with lane 1 live too, an instruction further. -/
def two : State := { s0 with groups := s0.groups.map fun g => { g with lanes := g.lanes.set 1 { lane0 ns0 with pc := 0x200004 } } }

theorem met_yield_parks : Met two (.yield none) fun x => ∃ l ∈ x.g.eligibleLanes, l ∉ x.ts := met (by decide +kernel)
theorem met_exit_stays : Met two (.exit none) fun x => ∃ l ∈ x.g.liveLanes, l ∉ x.ts := met (by decide +kernel)

/-- FencesAct. -/
theorem met_genbump : Met s0 (.genbump none) fun x => x.ts ≠ [] := met (by decide +kernel)
theorem met_fences : ([.core, .cluster, .device, .system].all fun sc =>
    [Instr.fenceRel, .fenceAcq, .fenceAcqRel, .fenceFull].all fun f =>
      fine s0 (f { scope := sc, m := none }) fun x => !x.ts.isEmpty) = true := by decide +kernel

/-- AllotmentChanges: GROW; SHRINK at or above the allotment, and below it. -/
theorem met_grow : Met s0 (.grow { d := .v 20, a := .lit 1024, m := none }) fun x => x.ts ≠ [] := met (by decide +kernel)
theorem met_shrink_above : Met s0 (.shrink { a := .lit 128, m := none }) fun x =>
    x.ts ≠ [] ∧ let q := (x.g.src (x.ts.headD 0) (.lit 128)).toNat; 16 ≤ q ∧ q % 16 = 0 ∧ x.g.allot ≤ q := met (by decide +kernel)
theorem met_shrink_below : Met s0 (.shrink { a := .lit 16, m := none }) fun x =>
    x.ts ≠ [] ∧ let q := (x.g.src (x.ts.headD 0) (.lit 16)).toNat; 16 ≤ q ∧ q % 16 = 0 ∧ q < x.g.allot ∧
      (x.g.owed.all fun r => r.landed || r.lanes.all fun y => y.ids.all fun n => decide (n < q ∨ 1024 ≤ n)) = true :=
  met (by decide +kernel)
/-- SHRINK below the D of a WAITV that waits. -/
def watching : State := { s0 with monitors := [{ id := 70, gid := 10, lane := 1, key := 0x300000, va := 0x300000, w64 := false, cond := .eq
                                                 cmp := 1, scope := .device, dst := [20], la := 15 }] }
theorem met_shrink_waits : Met watching (.shrink { a := .lit 16, m := none }) fun x =>
    x.ts ≠ [] ∧ let q := (x.g.src (x.ts.headD 0) (.lit 16)).toNat; 16 ≤ q ∧ q % 16 = 0 ∧ q < x.g.allot ∧
      (watching.monitors.any fun m => m.gid == x.g.gid && m.dst.any fun n => decide (q ≤ n ∧ n < 1024)) = true ∧ x.g.owed = [] :=
  met (by decide +kernel)

/-! ## Faults taken by lanes -/

def records (s : State) (g : Group) : Bool := g.kind == .ordinary && decide (g.core < s.cores.length) && s.fqRoom g.core 1

theorem records_of {s : State} {g : Group} (h : records s g = true) : Records s g := by
  simp only [records, Bool.and_eq_true, beq_iff_eq, decide_eq_true_eq] at h
  exact ⟨h.1.1, h.1.2, h.2⟩

/-- TrapsFreeze: BRK and TRAP; a return, an indirect jump and a call off their alignment; a bad window base. -/
theorem met_traps : ([.brk { code := 127, m := none }, .trap { code := 0, m := none }].all fun i =>
    fine s0 i fun x => !x.ts.isEmpty && records s0 x.g) = true := by decide +kernel
def off4 : State := { here [(2, 0x200102)] with
  groups := [{ grp 10 [(2, 0x200102)] with lanes := { lane0 [(2, 0x200102)] with link := 2 } :: List.replicate 31 { exited := true } }] }
theorem met_misplaced : ([.ret none, .jmpi { a := .reg (.v 2), m := none }, .calli { a := .reg (.v 2), m := none },
    .wbase { a := .lit 928, m := none }, .wbase { a := .lit 8, m := none }].all fun i => fine off4 i fun x =>
      records off4 x.g && (((x.ts.filter fun l => (Want.misplaced x l i).isSome).head?.bind (Want.misplaced x · i)).isSome)) = true := by
  decide +kernel

/-- MisuseFreezes: a reserved OP, a literal twice, a form barred to the group, a control instruction under a guard. -/
def misused (s : State) (i : Instr) (P : Group → Issue → Bool) : Bool :=
  (s.group? s.cur).any fun g => (issueOf g i).any fun x => records s g && P g x
def guarded : State := { s0 with groups := s0.groups.map fun g => { g with lanes := g.lanes.map fun (y : Lane) => { y with guardCnt := 1 } } }
theorem met_illegal : ([(0x18000000, 0x0101), (0x21FFFFF0, 0x0104), (0xFC0001FF, 0x0102)].all fun (w, c) =>
    misused s0 (.illegalEncoding w 0 0 0) fun g _ => wordCode g.kind w 0 0 0 == some c) = true := by decide +kernel
theorem met_barred : misused s0 (.migr { d := .v 20, a := .reg (.v 2), b := .reg (.v 4), la := 15, m := none }) (fun g _ =>
    instrBarred g.kind (.migr { d := .v 20, a := .reg (.v 2), b := .reg (.v 4), la := 15, m := none })) = true := by decide +kernel
theorem met_guarded : misused guarded (.ret none) (fun g x =>
    !instrBarred g.kind (.ret none) && instrControl (.ret none) && x.es.any fun l => (g.lane l).guardCnt != 0) = true := by
  decide +kernel

/-- LaneFaultsFreeze: a fetch beyond what is mapped (the hole between the ranges); an enabled trap; a name beyond the allotment. -/
def astray : State := { s0 with groups := s0.groups.map fun g => { g with lanes := g.lanes.map fun (y : Lane) => { y with pc := 0x8000000000000000 } } }
theorem met_fetch : ((astray.group? 10).any fun g => g.issueAddr.any fun pc => (issueOf g (.fetchFault 10 pc)).isSome &&
    records astray g && match astray.fetchAt g pc with
      | (_, .flt _) => true
      | _ => false) = true := by decide +kernel
def trapping : State := { s0 with groups := s0.groups.map fun g => { g with stat := 0x1F00 } }
def trapsAt (i : Instr) (f : Table) : Bool := fine trapping i fun x => records trapping x.g && !x.operandsDiffer i &&
  (x.ts.filter fun l => trapped x.g.stat (f x l i).flags != 0).head? == some 0
theorem met_trapped : (trapsAt (.fadd { d := .v 20, a := .reg (.v 6), b := .lit 0x30000000, m := none }) Want.floating &&
    trapsAt (.frnd { d := .v 20, a := .lit 0x3FC00000, mode := .rz, m := none }) Want.floating &&
    trapsAt (.add2 { d := .v 20, a := .reg (.v 6), b := .lit 0x7BFF7BFF, bf := false, m := none }) Want.floating &&
    trapsAt (.cvt { d := .v 20, a := .lit 0x7F000000, code := .fromF32 .f8a, sat := true, rnd := .rne, m := none }) Want.conversion &&
    trapsAt (.dot4F8b { d := .s 3, a := .lit 0x7C7C7C7C, b := .reg (.v 7), m := none }) Want.conversion &&
    trapsAt (.frsq { d := .v 20, a := .lit 0x80800000, la := 15, m := none }) Want.special) = true := by decide +kernel
def narrow : State := { s0 with groups := s0.groups.map fun g => { g with allot := 16 } }
theorem met_beyond : ([Instr.iadd, .imad, .fadd, .prmt, .add64].all fun f =>
    match narrow.begin (f { d := .v 16, a := .reg (.v 0), b := .reg (.v 0), m := none }) with
      | .go x => !x.ts.isEmpty && records narrow x.g && x.ts.all fun l =>
          decide (x.g.allot ≤ (x.g.lane l).wbase.toNat + 16 ∧ (x.g.lane l).wbase.toNat + 16 < 1024)
      | .halt _ => false) = true := by decide +kernel
/-- Lane 1 with a window base of its own, from which v1 lies beyond the allotment; lane 0 goes on. -/
def partly : State := { narrow with groups := narrow.groups.map fun g => { g with
  lanes := g.lanes.set 1 { lane0 ns0 with wbase := 16, names := ns0 } } }
theorem met_beyond_some : (match partly.begin (.iadd { d := .v 3, a := .reg (.v 1), b := .lit 1, m := none }) with
    | .go x => let rs : List (Reg × Nat) := (.v 3, 1) :: (Want.source (.reg (.v 1)) 1 ++ Want.source (.lit 1) 1)
      records partly x.g && x.ts == [0, 1] && (x.ts.filter fun l => (Want.beyond x l rs).isSome) == [1] &&
        Want.beyond x 1 rs == some 17 && decide (∀ l ∈ x.ts, x.lookFault (instrUses x.g.latch.isSome
          (.iadd { d := .v 3, a := .reg (.v 1), b := .lit 1, m := none })) l = none)
    | .halt _ => false) = true := by decide +kernel
theorem met_tread_beyond : (match narrow.begin (.treadReg { run := 0, a := .lit 3, la := 15, m := none }) with
    | .go x => !x.ts.isEmpty && records narrow x.g && Want.beyond x x.lead ((Reg.ofNum 0, 64) :: Want.source (.lit 3) 1) == some 16
    | .halt _ => false) = true := by decide +kernel
/-! ## Memory -/

/-- No cache holds anything. -/
def quiet (s : State) : Bool := decide (s.cores.length = 32 ∧ s.clusters.length = 8) &&
  (s.cores.all fun c => c.l1.isEmpty) && s.clusters.all fun c => c.cc.isEmpty

theorem quiet_coherent {s : State} (h : quiet s = true) : s.Coherent := by
  simp only [quiet, Bool.and_eq_true, decide_eq_true_eq, List.all_eq_true, List.isEmpty_iff] at h
  obtain ⟨⟨⟨h1, h2⟩, hl⟩, hc⟩ := h
  have l1 : ∀ c, (s.core c).l1 = [] := by
    intro c
    unfold State.core
    rw [List.getD_eq_getElem?_getD]
    cases hq : s.cores[c]? with
    | none => rfl
    | some y => exact hl y (List.mem_of_getElem? hq)
  have cc : ∀ c, (s.cluster c).cc = [] := by
    intro c
    unfold State.cluster
    rw [List.getD_eq_getElem?_getD]
    cases hq : s.clusters[c]? with
    | none => rfl
    | some y => exact hc y (List.mem_of_getElem? hq)
  have get : ∀ c k, l1Get (s.core c) k = none := by intro c k; unfold l1Get; rw [l1]; rfl
  have cget : ∀ c k, ccGet (s.cluster c) k = none := by intro c k; unfold ccGet; rw [cc]; rfl
  have nol1 : ∀ c k, s.l1Dirty c k = false := by intro c k; unfold State.l1Dirty; rw [get]; rfl
  have nocc : ∀ c k, s.dirtyIn c k = false := by intro c k; unfold State.dirtyIn; rw [cget]
  have noown : ∀ c k, s.holdsOwn c k = false := by intro c k; unfold State.holdsOwn; rw [cget]
  have none_below : ∀ c k, s.dirtyBelow c k = false := by
    intro c k
    unfold State.dirtyBelow
    rw [nocc, Bool.false_or, List.any_eq_false]
    intro d _; rw [nol1]; exact Bool.false_ne_true
  refine ⟨h1, h2, fun c h => by rw [hl c h]; exact .nil, fun c h => by rw [hc c h]; exact .nil, ?_, ?_, ?_⟩
  · intro c k b hb; rw [get] at hb; cases hb
  · intro c d k hk; rw [nol1] at hk; cases hk
  · intro a b k _ _; exact ⟨none_below b k, noown b k, by rw [cget]; rfl⟩

def uniq (ns : List Nat) : Bool := decide ns.Nodup

/-- The state's invariants, as a check. -/
def sound (s : State) : Bool := s.mem.wf && quiet s &&
  decide (0 < s.fresh ∧ (s.groups.map Group.gid).Nodup ∧ (∀ g ∈ s.groups, 0 < g.gid ∧ g.gid < s.fresh) ∧
    (s.teams.map Team.tid).Nodup ∧ (∀ t ∈ s.teams, t.tid < s.fresh ∧ t.sid < s.fresh) ∧
    (s.spans.map Span.sid).Nodup ∧ (∀ x ∈ s.spans, x.sid < s.fresh) ∧
    (s.grids.map Grid.uid).Nodup ∧ (∀ g ∈ s.grids, g.uid < s.fresh) ∧
    (s.ops.map AOp.id).Nodup ∧ ∀ o ∈ s.ops, o.id < s.fresh) &&
  decide ((∀ t ∈ s.teams, risingFrom 0 t.scratch = true) ∧ (∀ t ∈ s.teams, risingFrom 0 t.acc = true) ∧
    (∀ t ∈ s.teams, (t.lines.map LineState.line).Pairwise (· < ·)) ∧
    (∀ x ∈ s.spans, (x.tiles.map Tile.name).Pairwise (· < ·)) ∧ (s.tags.map Prod.fst).Pairwise (· < ·) ∧
    (s.granules.map Granule.base).Pairwise (· < ·) ∧
    ∀ g ∈ s.granules, (g.teams.map TeamHold.tid).Pairwise (· < ·))

structure Sound (s : State) : Prop where
  mem : s.memOk
  coherent : s.Coherent
  names : s.NamesOk
  lists : s.ListsOk

theorem sound_of {s : State} (h : sound s = true) : Sound s := by
  simp only [sound, Bool.and_eq_true, decide_eq_true_eq] at h
  obtain ⟨⟨⟨hm, hq⟩, n1, n2, n3, n4, n5, n6, n7, n8, n9, n10, n11⟩, l1, l2, l3, l4, l5, l6, l7⟩ := h
  exact ⟨hm, quiet_coherent hq, ⟨n1, ⟨n2, n3⟩, ⟨n4, n5⟩, ⟨n6, n7⟩, ⟨n8, n9⟩, n10, n11⟩, ⟨l1, l2, l3, l4, l5, l6, l7⟩⟩

theorem sound_s0 : Sound s0 := sound_of (by decide +kernel)

/-- FencesAct: the caches of the state in which the fences begin. -/
theorem met_fence_state : s0.Coherent ∧ s0.memOk := ⟨sound_s0.coherent, sound_s0.mem⟩

def hits (x : Acc) (s : State) (need : Need) (k : Nat) (e : TlbEntry) : Bool := decide (x.via = [] ∧
  (s.ctx? x.part x.who.ctx).isSome = true ∧
  ((s.core x.core).tlb.find? fun e => e.covers x.who (transBits x.a.va)) = some e ∧
  permits x.who need e.r e.w e.x e.u = true ∧ (need.w = true → e.d = true) ∧
  s.placeOf x.part e (e.pbase + (transBits x.a.va - e.vbase)) = .mem k 0 ∧ k + 16 < 2 ^ 60 ∧
  s.homeLost x.part k = false ∧ s.travels = false ∧ (s.granuleOf k).refuses k 16 e.filledAt need.w = false)

theorem hits_of {x : Acc} {s : State} {need : Need} {k : Nat} {e : TlbEntry} (h : hits x s need k e = true) :
    x.Hits s need k e := by
  obtain ⟨h1, h2, h3, h4, h5, h6, h7, h8, h9, h10⟩ := of_decide_eq_true h
  exact ⟨h1, h2, h3, h4, h5, h6, h7, h8, h9, h10⟩

def clean (x : Acc) (s : State) (k n : Nat) : Bool :=
  decide ((s.granuleOf k).te = true → s.tagsMatch k n (ptrTag x.a.va) = true) &&
    [none, some true, some false].all fun near => [true, false].all fun rdc => !s.servedBad x.core k n near rdc

theorem clean_of {x : Acc} {s : State} {k n : Nat} (h : clean x s k n = true) : x.Clean s k n := by
  simp only [clean, List.all_cons, List.all_nil, Bool.and_true, Bool.and_eq_true, decide_eq_true_eq,
    Bool.not_eq_eq_eq_not, Bool.not_true] at h
  obtain ⟨h0, ⟨h1, h2⟩, ⟨h3, h4⟩, h5, h6⟩ := h
  refine ⟨h0, fun near rdc => ?_⟩
  match near, rdc with
  | none, true => exact h1
  | none, false => exact h2
  | some true, true => exact h3
  | some true, false => exact h4
  | some false, true => exact h5
  | some false, false => exact h6

def perfs : List Instr :=
  let b : Src := .reg (.v 0)
  let a : Src := .reg (.v 2)
  let w : Src := .lit 5
  [ .ld { d := .v 20, a := a, w := .w128, ord := .weak, scope := .core, hint := .normal, ps := 63, off := 0, la := 15, m := none },
    .ld { d := .v 20, a := a, w := .w64, ord := .sync, scope := .system, hint := .normal, ps := 5, off := 0, la := 15, m := none },
    .ldNr { d := .v 20, a := a, w := .w8s, hint := .gridRO, ps := 5, off := 0, la := 15, m := none },
    .st { a := a, b := b, w := .w16, ord := .bypass, scope := .core, hint := .normal, off := 0, la := 15, m := none },
    .st { a := a, b := b, w := .w32, ord := .sync, scope := .device, hint := .normal, off := 0, la := 15, m := none },
    .atom { d := .v 20, a := a, b := b, op := .add, w := .w32, scope := .device, cls := .acqRel, ps := 63, off := 0, la := 15, m := none },
    .atomc { d := .v 20, a := a, b := .reg (.v 24), w := .w64, scope := .cluster, cls := .relaxed, ps := 63, off := 0, la := 15, m := none },
    .red { a := a, b := b, op := .umax, w := .w32, scope := .core, rel := false, off := 0, la := 15, m := none },
    .prf { a := a, hint := .keep, off := 0, la := 15, m := none },
    .pgreq { d := .v 20, a := a, acc := .write, off := 0, la := 15, m := none },
    .pres { d := .v 20, a := a, acc := .read, off := 0, la := 15, m := none },
    .tagst { a := a, b := w, off := 0, la := 15, m := none },
    .tagld { d := .v 20, a := a, off := 0, la := 15, m := none },
    .gqry { d := .v 20, a := a, off := 0, la := 15, m := none },
    .ghold { d := .v 20, a := a, off := 0, la := 15, m := none },
    .grel { d := .v 20, a := a, off := 0, la := 15, m := none } ]

def mems : List Instr := perfs ++ [
    .flush { a := .reg (.v 2), b := .lit 1, scope := .device, la := 15, m := none },
    .inv { a := .reg (.v 2), b := .lit 1, scope := .cluster, la := 15, m := none } ]

/-- MemoryCompletes: each memory instruction hits the page. -/
theorem met_mems : (mems.all fun i => match instrMem i with
    | none => false
    | some f => fine s0 i fun x =>
      let y := x.acc i f 0
      decide (canonical y.a.va = true ∧ canonical (y.a.va + BitVec.ofNat 64 (f.n - 1)) = true ∧ y.a.va.toNat % f.n = 0) &&
      hits y s0 (Want.need i) 0x200100 page && clean y s0 0x200100 f.n && !s0.foundBad (0x200100 / 32 * 32) 32 &&
      decide ((s0.setGroup x.g).memWaits f x x.ts = none ∧ (y.a.data.headD 0).toNat ≤ 4096 - y.a.va.toNat % 4096)) = true := by decide +kernel

/-- MemoryCompletes, by its first clause: an issue whose access completes. -/
def isDone : MemRes → Bool
  | .done _ _ => true
  | _ => false
theorem met_performs : ∀ i ∈ perfs, ∃ (f : MemForm) (x : Issue) (u : State) (out : Nat → LaneOut), x.Begins s0 i ∧
    instrMem i = some f ∧ (∀ l ∈ x.ts, memAlign i f x l = none ∧ s0.memForm i f x l = none) ∧ x.operandsDiffer i = false ∧
    x.agree out ∧ (s0.setGroup x.g).memWaits f x x.ts = none ∧ x.Performs i f x.ts (s0.setGroup x.g) u out := by
  have h : (perfs.all fun i => match instrMem i with
      | none => false
      | some f => fine s0 i fun x => decide (memAlign i f x 0 = none ∧ s0.memForm i f x 0 = none ∧ x.operandsDiffer i = false ∧
          (s0.setGroup x.g).memWaits f x x.ts = none) && isDone ((s0.setGroup x.g).perform i (x.acc i f 0)).2) = true := by decide +kernel
  intro i hi
  have h := List.all_eq_true.mp h i hi
  split at h
  · cases h
  · rename_i f hf
    obtain ⟨x, hb, ht, hp⟩ := fine_begins h
    simp only [Bool.and_eq_true, decide_eq_true_eq] at hp
    obtain ⟨⟨h1, h2, h3, hw⟩, h4⟩ := hp
    rcases hq : (s0.setGroup x.g).perform i (x.acc i f 0) with ⟨t, r⟩
    rw [hq] at h4
    cases r with
    | done ws ps =>
      refine ⟨f, x, t, fun _ => outMem i ws ps, hb, hf, ?_, h3, agree_one ht, hw, ?_⟩
      · intro l hl; rw [ht] at hl; cases List.mem_singleton.mp hl; exact ⟨h1, h2⟩
      · rw [ht]; exact .next hq rfl (.none _ _)
    | _ => cases h4

/-- An access of lane 0 at an address. -/
def acc (va : DWord) (data cmp : List Word) : Acc := {
  who := { part := 0, ctx := 0, core := 0 }, gid := 10, tid := 20, pc := 0x200000, kind := .load
  a := { lane := 0, va := va, data := data, cmp := cmp, dst := [] } }

/-- LoadsRead, StoresWrite, AtomicsApply, TagsAndGranules, PresenceAnswers, FlushAndInv: an access that hits, for each need. -/
theorem met_hits : ∀ n ∈ [needR, needW, needRW, { quiet := true }, Want.need (.pres { d := .v 0, a := .lit 0, acc := .write, off := 0, la := 15, m := none })],
    (acc 0x2003F0 [1, 2, 3, 4] [5, 6, 7, 8]).Hits s0 n 0x2003F0 page ∧ (acc 0x2003F0 [1, 2, 3, 4] [5, 6, 7, 8]).Clean s0 0x2003F0 16 ∧
    s0.Coherent ∧ s0.memOk ∧ s0.ListsOk := by
  have h : ([needR, needW, needRW, { quiet := true }, Want.need (.pres { d := .v 0, a := .lit 0, acc := .write, off := 0, la := 15, m := none })].all
    fun n => hits (acc 0x2003F0 [1, 2, 3, 4] [5, 6, 7, 8]) s0 n 0x2003F0 page && clean (acc 0x2003F0 [1, 2, 3, 4] [5, 6, 7, 8]) s0 0x2003F0 16) = true := by
    decide +kernel
  intro n hn
  have h := List.all_eq_true.mp h n hn
  simp only [Bool.and_eq_true] at h
  exact ⟨hits_of h.1, clean_of h.2, sound_s0.coherent, sound_s0.mem, sound_s0.lists⟩

/-- TagsAndGranules: a granule that the team holds twice, and another team once. -/
def holding : State := { s0 with granules := [{ base := 0x200000, log2 := 21, hold := 3, teams := [⟨20, 2, false⟩, ⟨21, 1, true⟩] }] }
theorem met_holds : Sound holding ∧ (acc 0x2003F0 [] []).Hits holding needR 0x2003F0 page ∧ (holding.granuleOf 0x2003F0).hold = 3 ∧
    (holding.granuleOf 0x2003F0).teNext = [] :=
  ⟨sound_of (by decide +kernel), hits_of (by decide +kernel), by decide +kernel, by decide +kernel⟩

/-- AtomicsApply: widths and data of each kind of instruction; 16 bytes for ATOMC and XCHG. -/
theorem met_atomics : (acc 0x2003F0 [1, 2, 3, 4] [5, 6, 7, 8]).a.va.toNat % 16 = 0 ∧ AtWidth.w128.bytes = 16 ∧
    (acc 0x2003F0 [1, 2, 3, 4] [5, 6, 7, 8]).a.data.length = 16 / 4 ∧ (acc 0x2003F0 [1, 2, 3, 4] [5, 6, 7, 8]).a.cmp.length ≤ 16 / 4 := by
  decide

theorem sound_h0 : Sound h0 := sound_of (by decide +kernel)
/-- FlushAndInv: an ordinary group's access within its page, also to a page for lamplighters alone. -/
def shut : State := s0.updCore 0 fun c => { c with tlb := [{ page with u := false }] }
theorem met_flush : ∀ u : Bool, let s := if u then s0 else shut
    ∃ x : Acc, canonical x.a.va = true ∧ x.who.priv = false ∧ (s.ctx? x.part x.who.ctx).any (fun c => c.local? (transBits x.a.va)) = true ∧
      { x with who := { x.who with priv := true } }.Hits s { quiet := true } 0x200F80 { page with u := u } ∧ Sound s ∧
      (x.a.data.headD 0).toNat ≤ 4096 - x.a.va.toNat % 4096 := by
  intro u
  refine ⟨acc 0x200F80 [0x80] [], by decide +kernel, rfl, ?_, ?_, ?_, by decide +kernel⟩
  · cases u <;> decide +kernel
  · cases u <;> exact hits_of (by decide +kernel)
  · cases u <;> exact sound_of (by decide +kernel)

/-- PresenceAnswers: PRF's line of a page; an address that is not canonical. -/
theorem met_presence : canonical (acc 0x0100000000000000 [] []).a.va = false ∧
    { acc 0x2003F5 [] [] with a := { (acc 0x2003F5 [] []).a with va := 0x2003F5 &&& ~~~127#64 } }.Hits s0 needR 0x200380 page :=
  ⟨by decide +kernel, hits_of (by decide +kernel)⟩

/-- AbsentPages: the page below the mapped ones has no leaf. -/
def absent (s : State) (n : Need) (va : DWord) : Bool :=
  match s.reach (acc va [] []).who n va with
  | (u, .missing) => !u.priDown (acc va [] []).who va && !u.parts.isEmpty && (u.ctx? 0 0).isSome
  | _ => false
theorem absent_of {s : State} {n : Need} {va : DWord} (h : absent s n va = true) : ∃ u, s.reach (acc va [] []).who n va = (u, .missing) ∧
    u.priDown (acc va [] []).who va = false ∧ u.parts ≠ [] ∧ (u.ctx? 0 0).isSome = true := by
  unfold absent at h
  split at h
  · rename_i u hu
    simp only [Bool.and_eq_true, Bool.not_eq_true', List.isEmpty_eq_false_iff] at h
    exact ⟨u, hu, h.1.1, h.1.2, h.2⟩
  · cases h
theorem absent_read : absent s0 needR 0x400000 = true := by decide +kernel
theorem absent_write : absent s0 needW 0x400000 = true := by decide +kernel
theorem met_absent (n : Need) (h : n = needR ∨ n = needW) : ∃ u, s0.reach (acc 0x400000 [] []).who n 0x400000 = (u, .missing) ∧
    u.priDown (acc 0x400000 [] []).who 0x400000 = false ∧ u.parts ≠ [] ∧ (u.ctx? 0 0).isSome = true := by
  rcases h with rfl | rfl
  · exact absent_of absent_read
  · exact absent_of absent_write

/-- No page request can be added: 512 are out. -/
def full : State := s0.updPart 0 fun p => { p with pageReqs := (List.range 512).map fun k =>
  { ctx := 9, vp := k, write := false, pri := false, entry := k } }
theorem absent_full : absent full needR 0x400000 = true ∧ (full.part 0).pageReqs.length = 512 ∧
    ((full.part 0).pageReq? 0 0x400 false).isNone = true := by decide +kernel

/-- WaitsAndLines: WAITV with its condition met at once, and not; WAITQ below and above its bound; PSET and PCLR. -/
def waitv (c : WCond) : WaitvOps :=
  { d := .v 20, a := .reg (.v 2), b := .reg .zero, cond := c, w64 := false, scope := .device, off := 0, la := 15, m := none }
theorem met_waitv : ([(.eq, true), (.ne, false)].all fun (c, b) => match instrMem (.waitv (waitv c)) with
    | none => false
    | some f => fine s0 (.waitv (waitv c)) fun x =>
      let y := x.acc (.waitv (waitv c)) f 0
      let v := leNat ((Want.keys 0x200100 f.n).map s0.value)
      decide (canonical y.a.va = true ∧ canonical (y.a.va + BitVec.ofNat 64 (f.n - 1)) = true ∧ y.a.va.toNat % f.n = 0) &&
      hits y s0 needR 0x200100 page && clean y s0 0x200100 f.n && ((s0.setGroup x.g).memWaits f x x.ts).isNone &&
      Want.waited c (BitVec.ofNat (8 * f.n) v) (BitVec.ofNat (8 * f.n) (natOfWords y.a.data)) == b) = true := by decide +kernel
def busy : State := { s0 with groups := s0.groups.map fun g => { g with qcnt := { copy := 3, matrix := 0, gather := 0, coll := 0 } } }
theorem met_waitq : Met busy (.waitq { cls := .copy, n := 3, m := none }) (fun x => Want.outstanding x.g .copy ≤ 3) ∧
    Met busy (.waitq { cls := .copy, n := 2, m := none }) fun x => 2 < Want.outstanding x.g .copy :=
  ⟨met (by decide +kernel), met (by decide +kernel)⟩
theorem met_lines : ([Instr.pset, .pclr].all fun f => fine s0 (f { a := .lit 16000, b := .reg (.v 8), m := none }) fun x =>
    x.g.kind == .ordinary && (s0.team? x.g.tid).any fun tm =>
      decide ((x.g.src 0 (.lit 16000)).toNat + (x.g.src 0 (.reg (.v 8))).toNat ≤ tm.alloc)) = true := by decide +kernel

/-- ScratchAccesses. -/
theorem met_lds : Met s0 (.lds { d := .v 20, a := .lit 16368, w := .w128, off := 0, la := 15, m := none }) fun x =>
    x.g.kind = .ordinary ∧ x.operandsDiffer (.lds { d := .v 20, a := .lit 16368, w := .w128, off := 0, la := 15, m := none }) = false ∧
    ∃ tm ∈ s0.team? x.g.tid, ∀ l ∈ x.ts, let at' := (x.g.src l (.lit 16368) + (0 : BitVec 14).signExtend 32).toNat
      at' % 16 = 0 ∧ at' + 16 ≤ tm.alloc ∧ tm.absent at' 16 = none ∧ tm.poisoned at' 16 = false := met (by decide +kernel)
theorem met_sts : Met s0 (.sts { a := .lit 16383, b := .reg (.v 0), w := .w8, off := 0, la := 15, m := none }) fun x =>
    x.g.kind = .ordinary ∧ (∀ p ∈ s0.ops, p.tid ≠ x.g.tid) ∧
    ∃ tm ∈ s0.team? x.g.tid, ∀ l ∈ x.ts, let at' := (x.g.src l (.lit 16383) + (0 : BitVec 14).signExtend 32).toNat
      at' % 1 = 0 ∧ at' + 1 ≤ tm.alloc ∧ tm.absent at' 1 = none := met (by decide +kernel)
/-! ## Engines, tiles, accumulators, barriers -/

def setWord (l : List (Nat × Word)) (n : Nat) (w : Word) : List (Nat × Word) := kset Prod.fst (n, w) l
def listed (k : Nat) (bs : List Byte) : List (Nat × Byte) := (imap (fun i b => (k + i, b)) 0 bs).filter fun p => p.2 != 0

/-- AsyncPosts: STA, COLL, ACCZ, ACCST, ACCSHR at the ends of their ranges. -/
def posts : List Instr := [
  .sta { a := .reg (.v 2), b := .lit 16368, hint := .normal, len := 1, la := 15, m := none },
  .collAdd { d := .v 8, a := .lit 0x3000, ty := .f32, len := 256, la := 15, m := none },
  .collMax { d := .v 8, a := .lit 0x3000, ty := .bf16, len := 256, la := 15, m := none },
  .collBcast { d := .v 8, a := .lit 0, root := 0, len := 1, la := 15, m := none },
  .accz { a := .lit 0x3FFF0, len := 1, la := 15, m := none },
  .accst { a := .lit 0, b := .lit 16, len := 2, la := 15, m := none },
  .accshr { a := .lit 0x8000, la := 15, m := none }]
def postOk (s : State) (i : Instr) (x : Issue) : Bool := x.g.kind == .ordinary && (s.team? x.g.tid).any fun tm =>
  match i, Want.post x tm (((s.span? tm.sid).map Span.count).getD 0) i with
  | .sta o, some _ => decide ((x.g.src64 x.lead o.a).toNat % 16 = 0 ∧ canonical (x.g.src64 x.lead o.a) = true ∧
      Want.within (x.g.src x.lead o.b).toNat (16 * o.len.toNat) tm.alloc)
  | .collAdd o, some _ => decide (Want.within (x.g.reg x.lead o.d).toNat (16 * o.len.toNat) tm.alloc ∧
      Want.within (x.g.src x.lead o.a).toNat (16 * o.len.toNat) tm.alloc)
  | .collMax o, some _ => decide (Want.within (x.g.reg x.lead o.d).toNat (16 * o.len.toNat) tm.alloc ∧
      Want.within (x.g.src x.lead o.a).toNat (16 * o.len.toNat) tm.alloc)
  | .collBcast o, some _ => decide (Want.within (x.g.reg x.lead o.d).toNat (16 * o.len.toNat) tm.alloc ∧
      Want.within (x.g.src x.lead o.a).toNat (16 * o.len.toNat) tm.alloc ∧ o.root.toNat < 1)
  | .accz o, some _ => decide (Want.within (x.g.src x.lead o.a).toNat (16 * o.len.toNat) tm.accSize)
  | .accst o, some _ => decide (Want.within (x.g.src x.lead o.a).toNat (16 * o.len.toNat) tm.accSize ∧
      Want.within (x.g.src x.lead o.b).toNat (16 * o.len.toNat) tm.alloc)
  | .accshr o, some _ => decide ((x.g.src x.lead o.a).toNat % 16384 = 0)
  | _, _ => false
theorem met_posts : (posts.all fun i => fine s0 i fun x => postOk s0 i x && decide (Want.outstanding x.g .copy < 63 ∧
    Want.outstanding x.g .coll < 63 ∧ Want.outstanding x.g .matrix < 63)) = true := by decide +kernel

/-- A layout record (R193) of a plain box of 16 by 32 elements of 16 bytes. -/
def layout : List Byte := leBytes 8 0x300000 ++ leBytes 4 (5 * 16 + 2) ++ [15, 31, 0, 0, 0, 0, 0, 0] ++ leBytes 4 16 ++
  leBytes 4 100 ++ List.replicate 12 0 ++ leBytes 4 16 ++ List.replicate 20 0

/-- Bytes lie in memory, and the page is not cached. -/
def uncached (s : State) (k : Nat) (bs : List Byte) : State := {
  (s.updCore 0 fun c => { c with tlb := [{ page with pbmt := 1 }] }) with mem := listed k bs }

/-- The record lies at 0x200280. -/
def s1 : State := uncached s0 0x200280 layout
def w4 : Src := .reg (.v 4)
def copies : List Instr := [
  .cpySp { d := .v 8, a := w4, b := .v 30, hint := .normal, bar := .none, la := 15, m := none },
  .cpySp { d := .v 8, a := w4, b := .zero, hint := .normal, bar := .team 1, la := 15, m := none },
  .cpyTile { d := .v 0, a := w4, b := .v 30, hint := .normal, bar := .span 1, la := 15, m := none },
  .cpyMc { d := .v 8, a := w4, b := .v 30, ranks := 1, hint := .keep, bar := .none, la := 15, m := none },
  .gathSp { d := .v 8, a := w4, b := .v 1, hint := .normal, bar := .none, la := 15, m := none },
  .gathTile { d := .v 0, a := w4, b := .v 1, hint := .normal, bar := .none, la := 15, m := none }]
def copyOk (s : State) (i : Instr) (x : Issue) : Bool := x.g.kind == .ordinary && (s.team? x.g.tid).any fun tm =>
  (Want.copy x i).any fun w =>
    let va := x.g.src64 x.lead w.a
    let dst := (x.g.reg x.lead w.d).toNat
    let ranks := s.ranksIn tm.sid (w.form.mask tm)
    match (s.setGroup x.g).readRecord x s.curPark va 64 with
    | (v, .ok r) => decide (Want.outstanding x.g w.cls < 63 ∧ va.toNat % 64 = 0 ∧ canonical va = true ∧ v.teams = s.teams ∧
        v.spans = s.spans ∧ v.ops = s.ops ∧ v.group? x.g.gid = some x.g ∧ w.valid r = true ∧
        (w.form.isTile = false → dst % 16 = 0 ∧ dst < tm.alloc ∧ ∀ k ∈ ranks, ∀ y ∈ s.rankTeam tm.sid k, w.hi r ≤ y.alloc) ∧
        (w.form.isTile = true → dst < 4096 ∧ ∀ y ∈ s.span? tm.sid, (y.tile dst).st = .undef) ∧
        (w.form.mask tm).toNat < 2 ^ ((s.span? tm.sid).map Span.count).getD 0 ∧
        s.refRange tm w.bar ranks = none ∧ v.refBusy tm w.bar ranks = none)
    | _ => false
theorem met_copies : (copies.all fun i => fine s1 i (copyOk s1 i)) = true := by decide +kernel

/-- TilesAct: definitions of an undefined name; reads, TKILL and TQRY of a defined one; TKILL of an undefined one. -/
def withTile (s : State) (t : Tile) : State := { s with spans := s.spans.map fun y => { y with tiles := [t] } }
def tile7 : Tile := { name := 7, gen := 3, st := .defined, bytes := [(0, 1), (4095, 2)], storage := true, place := 0 }
def t1 : State := withTile s0 tile7
def ofTile (s : State) (x : Issue) (P : Team → Span → Bool) : Bool :=
  x.g.kind == .ordinary && (s.team? x.g.tid).any fun tm => (s.span? tm.sid).any fun y => P tm y
theorem met_tdef : ([.tdefSp { d := .v 0, a := .lit 8192, la := 15, m := none }, .tdefReg { d := .v 0, run := 48, la := 15, m := none }].all
    fun i => fine s0 i fun x => ofTile s0 x fun tm y => (y.tile 7).st == .undef && decide (
      (x.g.reg x.lead (.v 0)).toNat = 7 ∧ Want.within 8192 8192 tm.alloc ∧ (s0.setGroup x.g).tilesUsed y < y.reserve)) = true := by
  decide +kernel
theorem met_tread : ([.treadSp { d := .v 9, a := .reg (.v 0), la := 15, m := none }, .treadReg { run := 0, a := .reg (.v 0), la := 15, m := none },
    .tkill { a := .reg (.v 0), m := none }, .tqry { d := .v 20, a := .reg (.v 0), m := none }].all
    fun i => fine t1 i fun x => ofTile t1 x fun tm y => (y.tile 7).st == .defined && decide (
      (x.g.src x.lead (.reg (.v 0))).toNat = 7 ∧ Want.within (x.g.reg x.lead (.v 9)).toNat 8192 tm.alloc ∧ (y.tile 7).place < 4 ∧
      ∀ p ∈ x.g.bound, p.1 ≠ x.ia)) = true := by decide +kernel
theorem met_tkill_undefined : fine s0 (.tkill { a := .reg (.v 0), m := none }) (fun x => ofTile s0 x fun _ y =>
    (y.tile 7).st == .undef) = true := by decide +kernel

/-- MatrixPosts: a block of tile 7 by itself, an ACCLD descriptor, MMAR's operands. -/
def block : List Byte := leBytes 2 7 ++ List.replicate 6 0xFF ++ leBytes 2 7 ++ List.replicate 4 0xFF ++ [0, 0] ++ leBytes 4 0 ++
  leBytes 4 (0x33 + 2 ^ 8 + 3 * 2 ^ 16) ++ leBytes 2 64 ++ [64, 4] ++ leBytes 4 0
def desc : List Byte := leBytes 4 0 ++ leBytes 2 2 ++ leBytes 2 4 ++ leBytes 4 16 ++ leBytes 4 0x1000 ++ leBytes 4 16 ++
  leBytes 8 0xFFFFFFFFFFFFFFFF ++ leBytes 4 42
def m1 : State := { t1 with teams := t1.teams.map fun t => { t with scratch := listed 0x400 (block ++ desc) }
                            groups := [grp 10 (setWord (setWord ns0 30 7) 31 (0x33 + 2 ^ 8 + 3 * 2 ^ 16))] }
def at32 (x : Issue) (a : Src) : Nat := (x.g.src x.lead a).toNat
def blockRead (s : State) (x : Issue) (a : Src) (P : Team → List Byte → Bool) : Bool :=
  (s.team? x.g.tid).any fun tm => decide (x.g.qcnt.matrix < 63 ∧ clusterOf x.g.core < s.clusters.length ∧ (∀ p ∈ x.g.bound, p.1 ≠ x.ia) ∧
    at32 x a % 32 = 0 ∧ at32 x a + 32 ≤ tm.alloc ∧ tm.absent (at32 x a) 32 = none ∧ tm.poisoned (at32 x a) 32 = false ∧
    (s.cluster (clusterOf x.g.core)).table.length < 256) && P tm ((Want.keys (at32 x a) 32).map (bget tm.scratch))
theorem met_mmat : fine m1 (.mmat { a := .lit 0x400, la := 15, m := none }) (fun x => blockRead m1 x (.lit 0x400) fun tm bs =>
    (mmatNames bs == [7]) && ((m1.span? tm.sid).any fun y => (y.tile 7).st == .defined) &&
    decide (mmatValid bs = true ∧ (fmtWord (mmatFmt bs)).isSome = true ∧
      (∀ n ∈ mmatA bs ++ mmatB bs, n = 0xFFFF ∨ n < 4096) ∧ mmatOff bs + 196608 ≤ tm.accSize)) = true := by decide +kernel
theorem met_mmar : ([none, some (List.replicate 2048 1)].all fun latch => let s : State := { m1 with
      groups := m1.groups.map fun g => { g with latch := latch } }
    fine s (.mmar { d := .v 9, run := 40, b := .reg (.v 30), h1 := true, reuse := true, la := 15, m := none }) fun x =>
      (s.team? x.g.tid).any fun tm => let off := (x.g.reg x.lead (.v 9)).toNat
        let w := (x.g.src64 x.lead (.reg (.v 30))).extractLsb' 32 32
        decide (off % 256 = 0 ∧ off + 8192 ≤ tm.accSize ∧ ((x.g.src64 x.lead (.reg (.v 30))).extractLsb' 0 32).toNat = 7) &&
        ((fmtWord w).any fun f => f.akm && f.bkm && f.asw == 0) && x.g.latch == latch) = true := by decide +kernel
theorem met_accld : fine m1 (.accldSp { a := .lit 0x420, la := 15, m := none }) (fun x => blockRead m1 x (.lit 0x420) fun _ d =>
      decide (accValid d none = true ∧ accMisaligned d false = none ∧ accTarget d ≤ 12 ∧ m1.accRanges d false x = none)) = true ∧
    fine m1 (.accldReg { run := 40, a := .lit 0x420, la := 15, m := none }) (fun x => blockRead m1 x (.lit 0x420) fun _ d =>
      let names : Uses := { wr := [(.v 40, accNames d)] }
      let rows := { x with ts := x.ts.filter fun l => decide (l < accRows d) }
      decide (rows.ts = [0] ∧ accValid d (some 40) = true ∧ (∀ l ∈ rows.ts, accReg d 40 rows l = none) ∧ accMisaligned d true = none ∧ accTarget d ≤ 12 ∧
        m1.accRanges d true x = none ∧ rows.waitsFor names = none ∧ rows.lookFault names 0 = none)) = true :=
  ⟨by decide +kernel, by decide +kernel⟩
theorem met_accgrow : ([m1, handling m1].all fun s => fine s (.accgrow { d := .v 20, a := .lit 0x48000, la := 15, m := none }) fun x =>
    !x.operandsDiffer (.accgrow { d := .v 20, a := .lit 0x48000, la := 15, m := none })) = true := by decide +kernel

/-- BarriersAct: each form on an object at 0x40 of the team. -/
def place : BarPlace := (s0.placeOfHandle (grp 10 ns0) 0x40).getD ⟨0, 0, false⟩
def bars : List Instr := [
  .barinit { d := .v 20, a := .lit 0x40, b := .reg (.v 0), la := 15, m := none },
  .barexp { a := .lit 0x40, b := .reg (.v 12), la := 15, m := none },
  .barinv { a := .lit 0x40, la := 15, m := none },
  .bararr { d := .v 20, a := .lit 0x40, la := 15, m := none },
  .bartry { d := .v 20, a := .lit 0x40, b := .reg (.v 12), la := 15, m := none },
  .barwait { a := .lit 0x40, b := .reg (.v 12), ps := 5, la := 15, m := none },
  .barwait { a := .lit 0x40, b := .reg .zero, ps := 5, la := 15, m := none }]
theorem met_bars : (bars.all fun i => fine s0 i fun x => s0.placeOfHandle x.g 0x40 == some place && !x.operandsDiffer i &&
    decide (s0.barRoom place = true ∧ s0.barWaiters place = false ∧ (s0.barAt place).inc = handleInc 0x40 ∧
      s0.barExpected place (s0.barAt place) ≠ 0 ∧ s0.barExpected place { s0.barAt place with exp := 7 } ≠ 0)) = true := by
  decide +kernel
theorem met_past : Want.past (s0.barAt place).phase 0xFFFFFFFF ∧ ¬ Want.past (s0.barAt place).phase 0 := by decide +kernel

/-- LaunchPosts: a valid record at 0x200280. -/
def s2 : State := uncached s0 0x200280 textRecord
theorem met_launch : fine s2 (.launch { d := .v 20, a := w4, la := 15, m := none }) (fun x => let va := x.g.src64 x.lead w4
    match (s2.setGroup x.g).readRecord x s2.curPark va 128 with
    | (v, .ok r) => decide (va.toNat % 128 = 0 ∧ canonical va = true ∧ v.group? x.g.gid = some x.g ∧ recValid r = true ∧
        x.g.part < v.parts.length ∧ (v.part x.g.part).granted (recQueue r) x.g.ctx = true)
    | _ => false) = true := by decide +kernel
/-! ## Lamplighters and invalidation -/

/-- Lane 0 of group 10 is frozen under record 1, and group 11 is its lamplighter, with a valid handle in CAP0. -/
def record1 (op : Option Nat) : Record := { rid := 1, gid := 10, code := 0x0107, lanes := 1, pc := 0x200000, words := [0], op := op }
def frozen (op : Option Nat) : State := { s0.updCore 0 fun c => { c with fslots := [{ slot := 0, rcd := record1 op, started := true }] } with
  groups := [{ grp 10 ns0 with lanes := { lane0 ns0 with hold := .frozen 1 } :: List.replicate 31 { exited := true } },
    { grp 11 ns0 with kind := .handler 0 1 false, slot := 60, caps := [0x01000000, 0, 0, 0] }]
  cur := 11
  mem := [(0xA10000, 1), (0xA10001, 1)] }
def handlers : List Instr := [
  .fzrec { run := 40, cap := 0, la := 15, m := none },
  .fzrd { d := .v 20, a := .reg .zero, b := .lit 0x100D, ps := 62, cap := 0, la := 15, m := none },
  .fzwr { d := .v 0, a := .reg .zero, b := .lit 2, cap := 0, la := 15, m := none },
  .fzres { a := .lit 1, b := .reg (.v 2), cap := 0, la := 15, m := none },
  .fzresRpl { a := .lit 1, cap := 0, la := 15, m := none },
  .fzkill { a := .lit 1, cap := 0, la := 15, m := none }]
/-- HandlersAct: the handle names the record; lane 0 is frozen under it, alone in the mask 1. -/
theorem met_handlers : ([none, some 50].all fun op => handlers.all fun i => fine (frozen op) i fun x =>
    match ((frozen op).setGroup x.g).capRecord x.g 0 with
    | (v, some r) => (v.group? r.gid).any fun g => decide (r.op = op ∧ r.gid ≠ x.g.gid ∧ v.group? x.g.gid = some x.g ∧ g.lanes.length = 32 ∧
        (g.lane 0).exited = false ∧ (g.lane 0).hold = .frozen r.rid ∧ g.later = [] ∧ lanesOf (1 : Lanes) = [0] ∧
        x.operandsDiffer i = false ∧ (List.range 14).all (fun n => g.scal.any fun c => c.r == n && hasLane c.lanes 0) = true)
    | _ => false) = true := by decide +kernel

/-- Tables that map 0x200000 by a leaf of 2 MiB, and the context's descriptors. -/
def tables : Memory := listed 0x600000 (leBytes 8 0x180401) ++ listed 0x601000 (leBytes 8 0x180801) ++
  listed 0x602000 (leBytes 8 0x180C01) ++ listed 0x603008 (leBytes 8 0x800DF)
def ctxs : Memory := listed 0x900000 (leBytes 4 0x101 ++ leBytes 4 3 ++ leBytes 8 0x600000) ++
  listed 0x910018 (leBytes 8 0x6000000)
def k0 : State := { h0 with mem := tables ++ ctxs }

theorem sound_k0 : Sound k0 := sound_of (by decide +kernel)

/-- TranslationsGo: TLBI of 2 MiB with DW and DR; of the whole context; MIGR of a page, and of an address without one. -/
theorem met_tlbi : fine k0 (.tlbiRange { a := .lit 0x200000, b := .lit 0x615, la := 15, m := none }) (fun x =>
    let base := x.g.src64 x.lead (.lit 0x200000)
    let w := x.g.src x.lead (.lit 0x615)
    let log2 := (w.extractLsb' 0 6).toNat
    decide (w.extractLsb' 6 3 = 0 ∧ w.extractLsb' 12 20 = 0 ∧ 12 ≤ log2 ∧ log2 ≤ 57 ∧ (w.extractLsb' 9 3 ≠ 0 → log2 ≤ 21) ∧
      canonical base = true ∧ base.toNat % 2 ^ log2 = 0) &&
    !(k0.setGroup x.g).atomicsOut x.g.part x.g.ctx (transBits base) (2 ^ log2) &&
    ((k0.setGroup x.g).groups.all fun g => g.accs.isEmpty) &&
    (k0.leafAny x.g.part x.g.ctx (transBits base)).any fun (l, e, _) => let n := 2 ^ leafLog2 l e
      decide (transBits base % n + 2 ^ log2 ≤ n ∧ bitsAt e 61 2 ≠ 3 ∧
        k0.physOf x.g.part (leafBase e + transBits base % n) = .mem 0x200000)) = true := by decide +kernel
theorem met_tlbi_ctx : fine k0 (.tlbiCtx { la := 15, m := none }) (fun x => let s := k0.setGroup x.g
    !s.atomicsOut x.g.part x.g.ctx 0 (2 ^ 57) && decide (x.g.part < k0.parts.length) && (s.groups.all fun g => g.accs.isEmpty) &&
    ((k0.ctx? x.g.part x.g.ctx).any fun old =>
      ((s.dropTranslations x.g.part x.g.ctx 0 (2 ^ 57)).readDesc x.g.part x.g.ctx old).2.isSome)) = true := by decide +kernel
def migr (va dst : Src) : Instr := .migr { d := .v 20, a := va, b := dst, la := 15, m := none }
/-- MIGR's copies: none yet; abandoned; three recopies made and too much marked, or little; nothing marked. -/
def plan : MigPlan := { level := 1, leafAt := 0x603008, size := 2 ^ 21, src := 0x200000, dst := 0xC00000 }
def copying (n : Nat) (marked : List Nat) (lost : Bool) : Migr := {
  gid := 10, part := 0, ctx := 0, v := 0x200000, plan := plan, recopies := n, marked := marked, lost := lost }
def k1 (m : List Migr) : State := { k0 with migs := m }
theorem met_migr : ([[], [copying 1 [4] true], [copying 3 (List.range 17) false], [copying 3 [4] false], [copying 1 [] false]].all fun ms =>
    fine (k1 ms) (migr (.reg (.v 2)) (.lit 0xC00000)) fun x =>
    let va := x.g.src64 x.lead (.reg (.v 2))
    let dst := (x.g.src64 x.lead (.lit 0xC00000)).toNat
    let s := k1 ms
    canonical va && !x.operandsDiffer (migr (.reg (.v 2)) (.lit 0xC00000)) &&
    !(s.setGroup x.g).atomicsOut 0 x.g.ctx (transBits va / 2 ^ 21 * 2 ^ 21) (2 ^ 21) &&
    match s.leafNow 0 x.g.ctx (transBits va) with
    | some (l, e, addr) =>
      let n := 2 ^ leafLog2 l e
      let src := leafBase e
      decide (n = 2 ^ 21 ∧ x.g.part = 0 ∧ bitsAt e 61 2 ≠ 3 ∧ bitsAt e 63 1 = 0 ∧ dst % n = 0 ∧ src + n ≤ dst ∧ src + n ≤ s.hbmSize 0 ∧
        dst + n ≤ s.hbmSize 0 ∧ s.hbmSize 0 ≤ 2 ^ 40 ∧ addr % 8 = 0 ∧ s.physOf 0 addr = .mem addr ∧ addr + 8 ≤ dst ∧ src + n ≤ addr ∧
        plan = { level := l, leafAt := addr, size := n, src := src, dst := dst } ∧ transBits va / n * n = 0x200000 ∧ x.g.gid = 10 ∧
        x.g.ctx = 0)
    | none => false) = true := by decide +kernel
theorem sound_k1 : ([[], [copying 1 [4] true], [copying 3 (List.range 17) false], [copying 3 [4] false], [copying 1 [] false]].all fun ms =>
    sound (k1 ms)) = true := by decide +kernel
theorem met_migr_none : fine k0 (migr (.lit 0x400000) (.lit 0xC00000)) (fun x =>
    let va := x.g.src64 x.lead (.lit 0x400000)
    canonical va && !x.operandsDiffer (migr (.lit 0x400000) (.lit 0xC00000)) &&
    k0.migs.isEmpty && (k0.leafNow 0 x.g.ctx (transBits va)).isNone) = true := by decide +kernel

/-- A hart that moves, with these registers. -/
def harting (s : State) (rs1 rs2 : DWord) : State := { s with
  turn := .hart 3
  harts := (List.replicate 16 ({} : Hart)).set 3 { x := ((List.replicate 31 0).set 5 rs1).set 6 rs2 } }
/-- rh.tlbi: a legal control word of the page, one of the context, and one whose LOG2 is below 12. -/
theorem met_rh_tlbi : ([(0x200000, 0x615, true), (1, 0xC, true), (0x200000, 0xB, false)].all fun (a, b, legal) =>
    let s := harting k0 a b
    let base := (s.hart 3).reg 6
    let w := ((s.hart 3).reg 7).setWidth 32
    let log2 := (w.extractLsb' 0 6).toNat
    let ok (range : Bool) := decide (w.extractLsb' 6 3 = 0 ∧ w.extractLsb' 12 4 = 0 ∧ (w.extractLsb' 16 16).toNat < (s.part (s.hartPart 3)).ctxn ∧
        12 ≤ log2 ∧ log2 ≤ 57 ∧ (w.extractLsb' 9 3 ≠ 0 → log2 ≤ 21)) &&
      (!range || decide (canonical base = true ∧ base.toNat % 2 ^ log2 = 0))
    sound s && (s.groups.all fun g => g.accs.isEmpty) && s.turn == .hart 3 && !s.atomicsOut (s.hartPart 3) 0 0 (2 ^ 57) && decide (3 < s.harts.length) &&
      (if legal then ok (b == 0x615) else !ok false)) = true := by decide +kernel
/-! ## Events: engines -/

/-- Operation 50 of group 10. -/
def op50 (cls : Option QClass) (i : Instr) (k : OpKind) : AOp := {
  id := 50, gid := 10, tid := 20, sid := 30, uid := 40, core := 0, cls := cls, pc := 0x200000, instr := i, lanes := 1, kind := k }
def posted (s : State) (o : AOp) : State := { s with ops := [o] }

def runs (s : State) (o : AOp) : Bool := s.op? o.id == some o && sound s && s.opReady o

theorem runs_of {s : State} {o : AOp} (h : runs s o = true) : s.Runs o := by
  simp only [runs, Bool.and_eq_true, beq_iff_eq] at h
  have hs := sound_of h.1.2
  exact ⟨h.1.1, hs.names, hs.lists, h.2⟩

/-- Units read in order, as a function. -/
def engRun (o : AOp) (w : Who) (n : Nat) : List Elem → State → Option (State × List Byte)
  | [], s => some (s, [])
  | e :: es, s =>
    match e.va with
    | none => (engRun o w n es s).map fun r => (r.1, List.replicate n 0 ++ r.2)
    | some va =>
      match s.engRead o w va n with
      | (t, .ok b) => if b.length = n then (engRun o w n es t).map fun r => (r.1, b ++ r.2) else none
      | _ => none

theorem engRun_reads {o : AOp} {w : Who} {n : Nat} {es : List Elem} {s u : State} {bs : List Byte}
    (h : engRun o w n es s = some (u, bs)) : State.EngReads o w n es s u bs := by
  induction es generalizing s u bs with
  | nil => cases h; exact .none s
  | cons e es ih =>
    unfold engRun at h
    split at h
    · rename_i he
      cases hq : engRun o w n es s with
      | none => rw [hq] at h; cases h
      | some r => rw [hq] at h; cases h; exact .fill he (ih hq)
    · rename_i va he
      split at h
      · rename_i t b hr
        split at h
        · rename_i hl
          cases hq : engRun o w n es t with
          | none => rw [hq] at h; cases h
          | some r => rw [hq] at h; cases h; exact .read he hr hl (ih hq)
        · cases h
      · cases h

def engWrite (o : AOp) (w : Who) (h : Hint) (va : DWord) : Nat → Nat → List Byte → State → Option State
  | _, _, [], s => some s
  | 0, _, _ :: _, _ => none
  | k + 1, pos, b :: bs, s =>
    if 16 ≤ (b :: bs).length then
      match s.engWrite o w h (va + BitVec.ofNat 64 pos) ((b :: bs).take 16) with
      | (t, .ok []) => engWrite o w h va k (pos + 16) ((b :: bs).drop 16) t
      | _ => none
    else none

theorem engWrite_writes {o : AOp} {w : Who} {n : Hint} {va : DWord} {k pos : Nat} {bs : List Byte} {s u : State}
    (h : engWrite o w n va k pos bs s = some u) : State.EngWrites o w n va pos bs s u := by
  induction k generalizing pos bs s with
  | zero => cases bs with
    | nil => cases h; exact .none _ _
    | cons b bs => cases h
  | succ k ih => cases bs with
    | nil => cases h; exact .none _ _
    | cons b bs =>
      unfold engWrite at h
      split at h
      · rename_i hl
        split at h
        · rename_i t hw
          exact .next hl hw (ih h)
        · cases h
      · cases h

/-- A box of one element of 16 bytes; a gather of rows of 16 bytes. -/
def box1 : List Byte := leBytes 8 0x300000 ++ leBytes 4 (5 * 16 + 1) ++ List.replicate 8 0 ++ leBytes 4 1 ++ List.replicate 40 0
def rows1 : List Byte := leBytes 8 0x300000 ++ leBytes 4 (5 * 16 + 2) ++ [0, 31, 0, 0, 0, 0, 0, 0] ++ leBytes 4 1 ++
  leBytes 4 100 ++ List.replicate 12 0 ++ leBytes 4 16 ++ List.replicate 20 0
/-- Data at 0x300000, uncached; lane 0's scratchpad lines are counted once, a tile 7 is pending, and a barrier object lies at 0x40. -/
def sData : State := withTile (uncached s0 0x300000 ((List.range 16).map fun i => BitVec.ofNat 8 (i + 1))) { name := 7, gen := 3, st := .pending, storage := true }
def sLines : State := { sData with teams := sData.teams.map fun t => { t with lines := [{ line := 2, count := 1, held := false }] } }
def nopI : Instr := .nop none
def book : Booking := { rank := 0, obj := 0, off := 0x40, span := false, inc := 0, phase := 0 }
def deliveries : List (AOp × Instr) := [
  ({ op50 (some .copy) nopI (.cpy box1 [0, 0, 0, 0, 0] (.sp 0x100)) with books := [book] }, .copyOperationComplete 50),
  (op50 (some .copy) nopI (.cpy box1 [1, 0, 0, 0, 0] (.mc 0x100 1)), .copyOperationComplete 50),
  (op50 (some .copy) nopI (.cpy box1 [0, 0, 0, 0, 0] (.tile 7 3)), .tileDefinitionComplete 50),
  (op50 (some .gather) nopI (.gath rows1 [(0, 0), (31, 100)] (.sp 0x100)), .gathComplete 50),
  (op50 none nopI (.stage 0 0x300000 0x100 16), .stagingRegionWritten 50)]
def isOk (o : AOp) : Bool :=
  match o.kind with
  | .cpy lay c _ => Lay.valid lay (c.headD 0)
  | .gath lay rows _ => Lay.gathValid lay false && decide (rows.map Prod.fst).Nodup
  | _ => true
/-- CopiesDeliver: each kind of delivery, with its data read; the first is booked at a barrier in its present phase. -/
theorem met_deliveries : (deliveries.all fun (o, _) => let s := posted sLines o
    runs s o && s.dstFree o && s.nameFree o && isOk o &&
    match s.opWho o, Want.delivery o with
    | some w, some d =>
      match engRun o w d.unit d.elems (s.updOp o.id fun y => { y with wait := none }) with
      | some (v, _) => decide (v.teams = s.teams ∧ v.spans = s.spans ∧ v.groups = s.groups) &&
        (o.books.all fun k => (v.bookPlace o.sid k).any fun p => (v.barAt p).inc == k.inc && k.phase == (v.barAt p).phase)
      | none => false
    | _, _ => false) = true := by decide +kernel

/-- TilesComplete: a source that is ready; definitions whose data is complete; reads of both kinds; storage that is free. -/
def met_tile (s : State) (o : AOp) (P : Bool) : Bool := runs s o && (s.team? o.tid).isSome && (s.span? o.sid).isSome && P
def defSp : AOp := op50 none nopI (.tdefSp 7 3 0x100)
theorem met_source : met_tile (posted sData defSp) defSp ((posted sData defSp).srcReady defSp &&
    ((posted sData defSp).teams.all fun y => !y.poisoned 0x100 8192)) = true := by decide +kernel
def defRead : AOp := { defSp with srcRead := true, data := [1, 2] }
def defReg : AOp := op50 none nopI (.tdefReg 7 3 [(5, 1)])
theorem met_defined : ([defRead, defReg].all fun o => met_tile (posted sData o) o ((posted sData o).nameFree o)) = true := by decide +kernel
def bound7 : Bound := { name := 7, gen := 3, bytes := [(0, 1)] }
def readSp : AOp := op50 none nopI (.treadSp bound7 0x400)
theorem met_read : met_tile (posted s0 readSp) readSp ((posted s0 readSp).dstFree readSp && (linesOf 0x400 8192).contains 9) = true := by
  decide +kernel
def owed60 (names : List Nat) : Owed := { id := 60, pc := 0x200000, la15 := true, landed := false, lanes := [{ lane := 0, left := 0, ids := names }] }
def owing (s : State) (names : List Nat) : State := { s with groups := s.groups.map fun g => { g with owed := [owed60 names] } }
def readReg : AOp := op50 none nopI (.treadReg bound7 60)
theorem met_read_registers : let s := posted (owing s0 (List.range 64)) readReg
    met_tile s readReg ((s.group? 10).isSome && s.ops.all AOp.begun) = true := by decide +kernel
def waitsStorage : AOp := { op50 none nopI (.tdefReg 8 0 []) with id := 51, begun := false }
theorem met_storage : let s := { posted sData defReg with ops := [defReg, waitsStorage] }
    met_tile s defReg ((s.ops.find? fun p => p.sid == 30 && !p.begun) == some waitsStorage && waitsStorage.defines == some (8, 0) &&
      s.spans.all fun x => decide (s.tilesUsed x < x.reserve)) = true := by decide +kernel

/-- BlocksMove: an STA of one unit; a collective of one member. -/
def sta : AOp := { op50 (some .copy) nopI (.sta 0x300000 0x100 16 .noalloc) with srcRead := true, data := List.replicate 16 7 }
theorem met_sta : let s := posted (uncached s0 0x300000 []) sta
    runs s sta = true ∧ ∃ w v, s.opWho sta = some w ∧ 16 * ((16 - sta.pos) / 16) = (sta.data.drop sta.pos).length ∧
      State.EngWrites sta w .noalloc 0x300000 sta.pos (sta.data.drop sta.pos) (s.updOp sta.id fun y => { y with wait := none }) v ∧
      v.groups = s.groups := by
  refine ⟨by decide +kernel, { part := 0, ctx := 0, core := 0 }, ?_⟩
  have h : ((engWrite sta { part := 0, ctx := 0, core := 0 } .noalloc 0x300000 1 sta.pos (sta.data.drop sta.pos)
      ((posted (uncached s0 0x300000 []) sta).updOp sta.id fun y => { y with wait := none })).any fun v => v.groups == (posted (uncached s0 0x300000 []) sta).groups) = true := by decide +kernel
  cases hq : engWrite sta { part := 0, ctx := 0, core := 0 } .noalloc 0x300000 1 sta.pos (sta.data.drop sta.pos)
      ((posted (uncached s0 0x300000 []) sta).updOp sta.id fun y => { y with wait := none }) with
  | none => rw [hq] at h; cases h
  | some v => rw [hq] at h; exact ⟨v, by decide +kernel, by decide +kernel, engWrite_writes hq, eq_of_beq h⟩
def coll (k : CollKind) : AOp := { op50 (some .coll) nopI (.coll 0 k 0x100 0x200 16) with srcRead := true, data := List.replicate 16 0x3F }
def colling (k : CollKind) : State := { posted s0 (coll k) with teams := s0.teams.map fun t => { t with colls := 1 } }
theorem met_coll : ([.bcast 0, .add .bf16, .max .f32].all fun k => let s := colling k
    sound s && s.collReady 30 0 && ((s.collMembers 30 0).all fun m => m.kind == k && m.len == 16 && m.op.data.length == 16) &&
    !(s.collMembers 30 0).isEmpty) = true := by decide +kernel

/-- MatrixCompletes: granted passes; the core-path operations in their turn. -/
def tabled (s : State) (o : AOp) : State := { posted s o with clusters := (s.clusters.set 0 { s.cluster 0 with table := [(o.id, 0)] }) }
def bound7i : Bound := { name := 7, gen := 3, bytes := [(0, 1)] }
def mmatOp : AOp := op50 (some .matrix) nopI (.mmat block [bound7i])
def mmarOp : AOp := op50 (some .matrix) nopI (.mmar 0x400 (0x33 + 2 ^ 8 + 3 * 2 ^ 16) true (List.replicate 2048 1) 1 bound7i)
theorem met_passes : ([mmatOp, mmarOp].all fun o => let s := tabled t1 o
    runs s o && (s.team? o.tid).isSome && (s.accBadOf o).isNone && o.kind.badTile.isNone && s.granted 0 == some o && mmatValid block &&
    (fmtWord (mmatFmt block)).isSome) = true := by decide +kernel
def accOps : List AOp := [op50 (some .matrix) nopI (.accz 0x100 64),
  { op50 (some .matrix) nopI (.accst 0x100 0x200 16) with srcRead := true, data := List.replicate 16 9 },
  op50 (some .matrix) nopI (.accshr 0x8000), { op50 (some .matrix) nopI (.accgrow 0x44000 50) with id := 50 },
  op50 (some .matrix) nopI (.accldSp desc), op50 (some .matrix) nopI (.accldReg desc 40 50)]
theorem met_accs : (accOps.all fun o => let s := posted s0 o
    runs s o && (s.accBadOf o).isNone && o.kind.badTile.isNone && s.matTurn o && (s.group? o.gid).isSome && (s.team? o.tid).any fun y =>
      (accScales desc).all (fun p => s.spReady o y p.1 p.2 && !y.poisoned p.1 p.2) &&
      ((List.range (accRows desc)).all fun i => decide (trapped 0 (accRow y desc i).2 = 0) &&
        !s.locked o.tid (accDoff desc + accDstr desc * i) (accRowBytes desc) o.id) &&
      decide (accRowBytes desc ≤ accDstr desc ∧ accCtrl desc = 42 ∧ accRs desc = 0xFFFFFFFF ∧ accCs desc = 0xFFFFFFFF)) = true := by
  decide +kernel
/-! ## Events: grids -/

/-- A record with some bytes replaced. -/
def put (off : Nat) (bs r : List Byte) : List Byte := r.take off ++ bs ++ r.drop (off + bs.length)
def byHart : Launch := { gid := 0, hart := 3, rd := 5, owed := 0, ctx := 0, part := 0, rcd := textRecord }
def launching (l : Launch) : State := (owing s0 [20, 21]).updPart 0 fun p => { p with launches := [l] }
/-- LaunchesAccepted: a hart's launch, and a group's. -/
theorem met_accept : ([byHart, { byHart with gid := 10, owed := 60 }].all fun l => let s := launching l
    sound s && ((s.part 0).launches.find? fun l => recQueue l.rcd == 0) == some l &&
    decide (0 < s.parts.length ∧ 0 < (s.part 0).seqs.length ∧ (s.grids.filter fun g => g.part == 0 && g.queue == 0).length < 256 ∧
      l.hart < s.harts.length ∧ (s.hart l.hart).x.length = 31) && (l.gid == 0 || (s.group? l.gid).isSome)) = true := by decide +kernel
/-- rh.launch: a record off its alignment, one that is taken, one of a CTX that is not there; an address that meets a page fault. -/
theorem met_rh_launch : ([(0x200284, 0, true, true), (0x200280, 0, false, false), (0x200280, 1, false, true)].all fun (a, c, off, bad) =>
    let s := harting s2 a c
    let a := ((s.hart 3).reg 6).toNat
    let ctx := ((s.hart 3).reg 7).toNat % 2 ^ 16
    s.turn == .hart 3 && decide (3 < s.harts.length ∧ (s.hart 3).x.length = 31) && off == decide (a % 128 ≠ 0) && (off ||
      match s.hartPhys 3 .read a with
      | (u, some pa) => let part := pa / 2 ^ 48
        bad == decide (s.partCount ≤ part ∨ (s.part part).ctxn ≤ ctx ∨ recValid (u.physRead part (pa % 2 ^ 48) 128).2 = false ∨
          (s.ctx? part ctx).any Ctx.ended = true) && decide (part < s.parts.length)
      | _ => false)) = true := by decide +kernel
theorem met_rh_launch_fault : let s := { s2 with turn := .hart 3, harts := s2.harts.set 3 { mode := .supervisor, satp := 0xA000000000000600 } }
    s.turn = .hart 3 ∧ (s.hartPhys 3 .read 0).2 = none ∧ 3 < s.harts.length ∧ (s.hart 3).x.length = 31 := by decide +kernel
/-- A grid whose dependence is the word at 0x300000. -/
def depGrid : Grid := { uid := 41, part := 0, queue := 0, seq := 1, ctx := 0, gridh := 6
                        rcd := put 0x30 (leBytes 8 0x300000 ++ leBytes 8 2) textRecord, depMet := false }
def gridding (s : State) (g : Grid) : State := { s with grids := s.grids ++ [g] }
theorem met_dep_armed : let g := { depGrid with depKey := some 0x300000, depHit := true }
    sound (gridding s0 g) = true ∧ (gridding s0 g).headOf 0 0 = some g ∧ g.depMet = false ∧ g.depKey.isSome = true ∧ g.depHit = true := by
  decide +kernel
theorem met_dep : ([[], [2#8]].all fun bs => let s := gridding (uncached s0 0x300000 bs) depGrid
    sound s && s.headOf 0 0 == some depGrid && !depGrid.depMet && depGrid.depKey.isNone &&
    match s.gridReach 41 needR (BitVec.ofNat 64 (leNat ((depGrid.rcd.drop 0x30).take 8))) 8 true with
    | (_, .ok _) => true
    | _ => false) = true := by decide +kernel

/-- The machine with nothing resident, and a grid of two spans of one team. -/
def bare : State := { s0 with groups := [], teams := [], spans := [], grids := [] }
def two2 : List Byte := put 0x10 (leBytes 4 2) textRecord
def headGrid : Grid := { uid := 41, part := 0, queue := 0, seq := 1, ctx := 0, gridh := 6, rcd := two2, depMet := true }
/-- GridsRun: the distributor serves the head. -/
theorem met_served : let s := gridding bare headGrid
    sound s = true ∧ s.served 0 = some (headGrid, [0]) ∧ headGrid.queue = 0 ∧ (s.ctx? 0 0).any (fun c => !c.ended) = true := by decide +kernel
def finished : State := { s0 with groups := [], teams := s0.teams.map fun t => { t with finished := true } }
theorem met_over : sound finished = true ∧ (finished.span? 30).any finished.spanOver = true := by decide +kernel
/-- A grid whose teams have retired: its record lies at 0x200100, its counter at 0x300000. -/
def ending (c : Compl) (ev : Nat) (recOut evOut : Bool) : Grid := { headGrid with
  rcd := put 0x40 (leBytes 8 0x200100 ++ leBytes 8 ev) textRecord, nextSpan := 1, issued := true, teams := 1
  compl := c, recOut := recOut, evOut := evOut, bumped := true }
def ends (g : Grid) : State := gridding bare g
theorem met_complete : ([ending .no 0 false false, ending .completing 0x300000 false false, ending .again 0x300000 true true].all fun g =>
    sound (ends g) && (ends g).grid? g.uid == some g && (ends g).complReady g) = true := by decide +kernel
theorem met_bump : ([{ ending .no 0 false false with bumped := false }, { headGrid with st := .failed 1 }].all fun g => let s := ends g
    sound s && s.grid? g.uid == some g && !g.bumped && (s.gridIdle g || g.st == .failed 1) &&
    decide (s.dies.length = 4 ∧ g.part < s.partCount ∧ s.partCount ≤ 4)) = true := by decide +kernel
theorem met_record : let g := ending .completing 0x300000 false false
    (match (ends g).gridReach g.uid needW 0x200100 32 false with
    | (u, .ok _) => sound u && (0x200100#64 == BitVec.ofNat 64 (leNat ((g.rcd.drop 0x40).take 8)))
    | _ => false) = true := by decide +kernel
theorem met_counter : ([Compl.completing, .again].all fun c => let g := ending c 0x300000 true false
    let s := ends g
    let ev : DWord := BitVec.ofNat 64 (leNat ((g.rcd.drop 0x48).take 8))
    sound s && s.complReady g && match s.gridReach g.uid needRW ev 8 true with
    | (u, .ok r) => match u.gridRead g ev 8 (.ok r) with
      | (v, n) => sound v && decide (g.compl = .completing ∨ n = g.oldev.toNat) &&
        [(s.part 0).jrn0, (s.part 0).jrn1].all fun j => (Want.journalAt s g j).all fun k => decide (r.key + 8 ≤ k ∨ k + 256 ≤ r.key)
    | _ => false) = true := by decide +kernel

/-! ## Events: groups and spans -/

/-- GroupsGoOn: a yield that has been met; one with no eligible lane; a group to promote; a fired monitor. -/
def waiting (w : Wait) : State := { s0 with groups := s0.groups.map fun g => { g with lanes := g.lanes.set 0 { lane0 ns0 with wait := w } } }
theorem met_release : ([true, false].all fun m => let s := waiting (.yield m 0x200004)
    sound s && (s.group? 10).any fun g => decide (g.lanes.length = 32 ∧ g.eligibleLanes = [] ∧ (g.lane 0).wait = .yield m 0x200004 ∧
      (g.lane 0).exited = false ∧ (g.lane 0).hold = .free ∧ (g.lane 0).replay = none)) = true := by decide +kernel
theorem met_promotion : (s0.group? 10).any (fun g => decide (g.kind = .ordinary ∧ g.park = .none ∧ g.eligibleLanes ≠ [])) = true := by
  decide +kernel
def mon : Monitor := { id := 70, gid := 10, lane := 0, key := 0x300000, va := 0x300000, w64 := true, cond := .eq, cmp := 1, scope := .system
                       dst := [20, 21], la := 15, fired := some 1 }
theorem met_monitor : let s := { waiting (.waitv 70 0x200004) with monitors := [mon] }
    (s.monitors.find? fun y => y.id == 70) = some mon ∧ mon.fired = some 1 ∧ mon.dst.Nodup ∧ (s.group? 10).any (fun g => decide (
      0 < g.lanes.length ∧ (g.lane 0).hold = .free ∧ (g.lane 0).wait = .waitv 70 0x200004 ∧ (g.lane 0).replay = none)) = true := by
  decide +kernel

def able (s : State) (x : Span) : Bool := s.span? x.sid == some x && x.home == .resident && x.pre.isNone && s.cellarFits x
/-- An access of lane 0 that waits for its page; its group. -/
def onPage (w : AccWait) : PendAcc := {
  instr := .ld { d := .v 20, a := .reg (.v 2), w := .w32, ord := .weak, scope := .core, hint := .normal, ps := 62, off := 0, la := 15, m := none }
  pc := 0x200000, owed := 60, lanes := [({ lane := 0, va := 0x200100, dst := [20] }, w)] }
def parked (s : State) (w : AccWait) : State := let s := s.updPart 0 fun p => { p with
    pageReqs := [{ ctx := 0, vp := 0x200, write := false, pri := false, entry := 0 }] }
  { owing s [20] with groups := (owing s [20]).groups.map fun g => { g with accs := [onPage w], park := .page } }
/-- PreemptionAsked: by a page; by system software; forced; withdrawn. -/
theorem met_page : let s := parked s0 (.page 0x200 false)
    sound s = true ∧ (s.group? 10).any (fun g => (s.spanOf g).any fun x => able s x && s.pageParked g && g.kind == .ordinary) = true := by
  decide +kernel
def asked (s : State) (c : PreCause) (f : Bool) : State := { s with spans := s.spans.map fun x => { x with pre := some c, forced := f } }
theorem met_withdraw : let s := asked s0 .page false
    (s.span? 30).any (fun x => x.pre == some .page && (s.groupsOf x.sid).all fun g => !s.pageParked g) = true := by decide +kernel
/-- By a head: seven eighths of the cores are lost, the others full of accumulators of spans of PRIO 1. -/
def crowded : State := { bare with
  grids := [{ headGrid with uid := 40, rcd := put 0x28 [0x10] textRecord, nextSpan := 1, issued := true },
    { headGrid with rcd := put 0x20 (leBytes 4 4194304) textRecord }]
  dies := {} :: List.replicate 3 { lost := true }
  teams := (List.range 8).map fun c => { tid := 50 + c, sid := 60 + c, rank := 0, t := c, core := c, alloc := 0, accSize := 4194304, barMax := 0 }
  spans := (List.range 8).map fun c => { sid := 60 + c, uid := 40, index := c, count := 1, age := c, cluster := c / 4, reserve := 0, sbarMax := 0
                                         sbarBase := 0 } }
theorem met_priority : sound crowded = true ∧ (crowded.headOf 0 0).any (fun g => g.depMet && (crowded.nextSite g).isNone &&
    (crowded.spans.all fun y => y.pre != some .priority) && (crowded.victim g).isSome) = true := by decide +kernel

/-- SpansMove: a forced save, one at a safe point, one with a lane on its page; a return. -/
def atSafe : State := { asked s0 .software false with mem := listed 0x200000 ((encode (.nop (some 0xFF))).map (leBytes 4 ·.toNat)).flatten }
theorem met_save : ([asked s0 .priority true, atSafe, asked (parked s0 (.page 0x200 false)) .page false].all fun s =>
    sound s && (s.span? 30).any s.saveReady && (s.groupsOf 30).all fun g => !g.liveLanes.isEmpty && g.lanes.length == 32) = true := by
  decide +kernel
def cellared : State := { s0 with
  groups := s0.groups.map fun g => { g with away := true }
  teams := s0.teams.map fun t => { t with core := 32 }
  spans := s0.spans.map fun x => { x with home := .cellar, away := some .software } }
theorem met_return : sound cellared = true ∧ (cellared.span? 30).any (fun x => (cellared.grid? x.uid).any fun g =>
    cellared.returnReady x && cellared.returnFirst x && (cellared.part g.part).tdi != .error &&
    (cellared.findSite g.part g.spanSize x.reserve ((cellared.ranked x.sid).map (cellared.askAgain g))).isSome &&
    !(cellared.ranked x.sid).isEmpty) = true := by decide +kernel

/-! ## Records and lamplighters -/

def recordOf (g : Group) : Record := { record1 none with gid := g.gid }
/-- RecordsLie: the place of a record; a lamplighter's fault, its first and its second; the 768th record (one kept in the core: met_slot_free). -/
theorem met_place : sound s0 = true ∧ (s0.keyOf (s0.partOfCore 0) ((s0.part (s0.partOfCore 0)).fqbase.toNat +
    0x20000 * (0 - s0.firstCore (s0.partOfCore 0)) + 64 * 1023)).isSome = true ∧ (record1 none).words.length ≤ 4 := by decide +kernel
theorem met_second : ([0, 1].all fun c => let s := { h0 with mem := listed 0xA11000 [BitVec.ofNat 8 c] }
    sound s && (s.group? 10).any fun g => decide (g.core < s.cores.length ∧ g.kind ≠ .ordinary ∧ (g.lane 0).exited = false ∧
      (g.lane 0).hold = .free ∧ Want.secondCode s g.core = c ∧ s.keyOf (s.partOfCore g.core) (s.fqArea g.core + 0x11000) = some 0xA11000)) = true := by
  decide +kernel
def filled (n : Nat) : State := s0.updCore 0 fun c => { c with fslots := (List.range n).map fun k => { slot := k, rcd := record1 none } }
theorem met_slots : ((filled 767).core 0).late = [] ∧ ((filled 767).core 0).fslots.length = 767 ∧
    ((filled 767).group? 10).any (fun g => g.kind == .ordinary && ((filled 767).spanOf g).isSome) = true := by decide +kernel

/-- HandlersServe: a record that waits, with and without an entry; a record in the core; the second-level record. -/
def vectored (bs : List Byte) : State := { s0.updCore 0 fun c => { c with fslots := [{ slot := 0, rcd := record1 none }] } with
  groups := [{ grp 10 ns0 with lanes := { lane0 ns0 with hold := .frozen 1 } :: List.replicate 31 { exited := true } }]
  mem := listed 0x800000 bs }
def vectors : List Byte := leBytes 8 0x200000 ++ leBytes 8 0x200010 ++ leBytes 8 0x200020 ++ leBytes 8 0x200030 ++ leBytes 4 1 ++ leBytes 4 4
theorem met_start : ([vectors, []].all fun bs => let s := vectored bs
    sound s && freeSlot (s.handlerSlots 0) 0 4 == some 0 && (s.core 0).waitingRecord.any fun fs => (s.group? fs.rcd.gid).any fun g =>
      match s.readVectors g.part (((s.ctx? g.part g.ctx).map Ctx.fvt).getD 0) with
      | (_, v) => if bs.isEmpty then v.ent.getD (fs.rcd.code / 256 - 1) 0 == 0
        else fs.rcd.code == 0x0107 && v.dmask.testBit 0 && decide (v.uent ≠ 0 ∧ v.hbud ≠ 0)) = true := by decide +kernel
theorem met_slot_free : let s := s0.updCore 0 fun c => { c with late := [record1 none] }
    (s.core 0).late = [record1 none] ∧ (s.core 0).freeFSlot = some 0 ∧ 0 < s.cores.length := by decide +kernel
theorem met_slcmd : let s := (frozen none).updCore 0 fun c => { c with second := some (record1 none) }
    sound s = true ∧ (s.core 0).second = some (record1 none) ∧ (s.group? 10).any (fun g => decide (g.lanes.length = 32 ∧ (g.lane 0).exited = false ∧
      (g.lane 0).hold = .frozen 1 ∧ (record1 none).op = none)) = true ∧ (∀ y ∈ s.groups, y.later = []) := by decide +kernel
/-! ## Answers -/

def answered : State := (parked s0 (.page 0x200 false)).updPart 0 fun p => { p with pageReqs := [] }
/-- PagesAnswer: a page that is there now; requests of both kinds; a group that issues again, and a lane that freezes. -/
theorem met_replay : sound answered = true ∧ (answered.group? 10).any (fun g => match g.accs with
    | [a] => match a.lanes with
      | [(q, .page vp wr)] => ((answered.part g.part).pageReq? g.ctx vp wr).isNone && !g.away && decide (
          (g.lane q.lane).hold = .free ∧ g.park = .page ∧ q.lane < g.lanes.length ∧ q.dst.Nodup) &&
        match answered.perform a.instr { who := { g.who with after := some vp }, gid := g.gid, tid := g.tid, pc := a.pc,
                                         kind := instrAcc a.instr, a := q } with
        | (u, .done _ _) => u.group? g.gid == some g
        | _ => false
      | _ => false
    | _ => false) = true := by decide +kernel
def preq (pri : Bool) : PageReq := { ctx := 0, vp := 0x200, write := false, pri := pri, entry := 5 }
def requesting (s : State) (pri : Bool) : State := s.updPart 0 fun p => { p with pageReqs := [preq pri] }
def again (p : Park) : State := { s0 with groups := s0.groups.map fun g => { g with park := p } }
theorem met_answers : ([false, true].all fun pri => [again (.xlate 0x200 none), answered].all fun s => let s := requesting s pri
    sound s && s.ops.all (fun o => o.wait.isNone) &&
    (if pri then ((s.part 0).pageReqs.find? fun q => q.pri && q.write == false && wide (q.vp * 4096) / 4096 == 0x200 &&
        (s.ctx? 0 q.ctx).any fun c => c.pasid == 3) == some (preq pri)
      else ((s.part 0).pageReqs.find? fun q => !q.pri && q.entry == (0x10005#32).toNat % 512) == some (preq pri)) &&
    (s.group? 10).any fun g => records s g && match g.accs with
      | [] => g.park == .xlate (preq pri).vp none
      | [a] => match a.lanes with
        | [(y, w)] => w == .page 0x200 false && decide (transBits y.va / 4096 = 0x200 ∧ y.lane < 32 ∧ (g.lane y.lane).exited = false ∧
            (g.lane y.lane).hold = .free)
        | _ => false
      | _ => false) = true := by decide +kernel

def younger (after : Bool) : State := { (parked s0 (.page 0x200 false)).updPart 0 fun p => { p with
    atsReqs := [{ id := 80, core := 0, ctx := 0, vp := 0x201, priv := false, exec := false }] } with
  groups := ((parked s0 (.page 0x200 false)).groups.filter fun g => g.gid == 10).map fun g =>
    { g with accs := g.accs ++ [{ onPage (.ats 80 after) with owed := 61 }] } }
theorem met_held : ([false, true].all fun after => let s := younger after
    decide (s.groups.length = 1) && (s.groups.all fun g => decide (g.part = 0 ∧ g.ctx = 0 ∧ g.park = .page ∧ (g.lane 0).hold = .free) && g.accs.map (fun a => a.lanes.map Prod.snd) ==
      [[.page 0x200 false], [.ats 80 after]] && g.accs.map PendAcc.owed == [60, 61]) && decide (0 < s.parts.length ∧ 0 < s.cores.length) &&
    ((s.part 0).atsReqs.find? fun r => r.id == 80).any (fun q => !q.stale) && ((s.part 0).pageReq? 0 0x200 false).isSome &&
    (s.ops.all fun o => o.wait.isNone) && s.grids.all fun g => g.wait.isNone) = true := by decide +kernel
theorem met_pri_enable : s0.imageBad = false ∧ 0 < s0.partCount ∧ 0 < s0.parts.length ∧ (s0.port 0).up = true ∧
    (s0.part 0).tdi = .unlocked := by decide +kernel

/-- TranslationsArrive: a request in flight, first and after a page request; an invalidation; a walk to a leaf, and one that
meets a misaligned leaf. -/
def areq : AtsReq := { id := 80, core := 0, ctx := 0, vp := 0x200, priv := false, exec := true }
def fetching (after : Bool) : State := (again (.xlate 0x200 (some (80, after)))).updPart 0 fun p => { p with atsReqs := [areq] }
theorem met_ats : ([false, true].all fun after => let s := fetching after
    sound s && ((s.part 0).atsReqs.find? fun r => r.id == 80) == some areq && !areq.stale && decide (0 < s.parts.length ∧
      0 < s.cores.length) && (s.groups.all fun g => g.accs.isEmpty) && (s.ops.all fun o => o.wait.isNone) && (s.grids.all fun g => g.wait.isNone) &&
    (s.group? 10).any fun g => g.part == 0 && g.ctx == 0 && g.park == .xlate 0x200 (some (80, after))) = true := by decide +kernel
theorem met_invalidate : let s := s0.updPart 0 fun p => p.putCtx { ctx0 with regime := 2 }
    (s.groups.all fun g => g.accs.isEmpty) = true ∧ (s.part 0).hostAtomics = [] ∧ (s.part 0).ctxs.any (fun c => c.pasid == 3 && c.regime == 2) = true := by
  decide +kernel
def walking (leaf : Nat) : State := { s0.updCore 0 fun c => { c with tlb := [] } with
  mem := listed 0x600000 (leBytes 8 0x180401) ++ listed 0x601000 (leBytes 8 0x180801) ++ listed 0x602000 (leBytes 8 0x180C01) ++
    listed 0x603008 (leBytes 8 leaf) ++ ctxs }
theorem met_walk : ([AccKind.load, .store].all fun k => let s := walking 0x800DF
    sound s && (s.group? 10).any fun g => (s.ctx? g.part g.ctx).any fun c => let v := transBits 0x200100
      let at0 := (s.cluster (g.core / 4)).walkStart g.who v c.root
      let t := if at0.1 < 4 then s.walkPut g.who (at0.1 + 1) v at0.2 else s
      canonical 0x200100 && c.local? v && decide (g.core < s.cores.length) && match State.walkAt g.who v at0.1 t at0.2 with
      | (u, .leaf _ e addr) => permits g.who (accNeed k) (bitsAt e 1 1 == 1) (bitsAt e 2 1 == 1) (bitsAt e 3 1 == 1) (bitsAt e 4 1 == 1) &&
        decide (bitsAt e 61 2 ≠ 3) && match u.physOf g.part addr with
        | .mem ka => leNat ((Want.keys ka 8).map u.value) == e
        | _ => false
      | _ => false) = true := by decide +kernel
theorem met_walk_bad : (let s := walking 0x804DF
    sound s && (s.group? 10).any fun g => (s.ctx? g.part g.ctx).any fun c => let v := transBits 0x200100
      let at0 := (s.cluster (g.core / 4)).walkStart g.who v c.root
      records s g && (g.lane 0).hold == .free && !(g.lane 0).exited && match State.walkAt g.who v at0.1 (if at0.1 < 4 then s.walkPut g.who (at0.1 + 1) v at0.2 else s) at0.2 with
      | (_, .bad _ _) => true
      | _ => false) = true := by decide +kernel

/-- HostAnswers: a host atomic in each phase. -/
def hat (first : Nat) (ph : HaPhase) : HostAtomic := {
  id := 80, gid := 10, pc := 0x200000, lane := 0, window := 0, link := 0x1000, op := .add, w := 32, b := 1
  win := { dbase := 0x100000000000, size := 0x1000, hbase := 0x1000, nofb := false, port := 0, route := 1, mode := 0, valid := true }
  first := first, phase := ph }
def hosting (a : HostAtomic) : State := (parked s0 (.host 80)).updPart 0 fun p => { p with hostAtomics := [a] }
theorem met_host : ([hat 1 .first, hat 3 .first, hat 1 .read, hat 1 (.cas 4)].all fun a => let s := hosting a
    sound s && ((s.part 0).hostAtomics.find? fun b => b.id == 80) == some a && a.hart.isNone && (s.part 0).newHwtn.isNone && decide (0 < s.parts.length) && (s.group? a.gid).any fun g =>
      records s g && decide (g.gid = a.gid ∧ g.lanes.length = 32) && match g.accs with
      | [acc] => match acc.lanes with
        | [(y, w)] => w == .host 80 && decide (y.lane < 32 ∧ (g.lane y.lane).exited = false ∧ (g.lane y.lane).hold = .free)
        | _ => false
      | _ => false) = true := by decide +kernel

/-! ## Events: homes, harts, the host -/

/-- HomesAct: a context with heat and a walk to its leaf. -/
def heated : State := { s0 with mem := tables ++ ctxs }
theorem met_snuffer : (let s := heated
    sound s && decide ((s.part 0).snuff ≠ 0 ∧ (s.part 0).ctxn = 1) && match s.readCtx 0 0 with
    | (_, some c) => c.heaten && c.regime == 1 && c.root % 8 == 0 && match State.walkAt { part := 0, ctx := 0, core := s.firstCore 0 } 0x200100 4 s c.root with
      | (_, .leaf _ _ addr) => match s.physOf 0 addr with
        | .mem k => decide (k < 2 ^ 60)
        | _ => false
      | _ => false
    | _ => false) = true := by decide +kernel
theorem met_no_snuffer : ((s0.updPart 0 fun p => { p with snuff := 0 }).part 0).snuff = 0 := by decide +kernel
/-- Two halves of 2 MiB, the first divided for writers at moment 9. -/
def halves : State := { s0 with granules := [
  { base := 0x200000, log2 := 20, cuts := [⟨0x200000, 0x100000, 9, false⟩], count := 20 }, { base := 0x300000, log2 := 20, owner := some 1, hold := 0 }] }
theorem met_sweep : sound halves = true ∧ (∀ a ∈ halves.granules, a.base % 2 ^ a.log2 = 0 ∧ 4 ≤ a.log2 ∧ a.log2 ≤ 21 ∧ a.base < 2 ^ 60) ∧
    (∀ a ∈ halves.granules, ∀ b ∈ halves.granules, a = b ∨ a.base + 2 ^ a.log2 ≤ b.base ∨ b.base + 2 ^ b.log2 ≤ a.base) := by decide +kernel
theorem met_own : ([0, 9].all fun f => sound halves && halves.physOf 0 0x200100 == .mem 0x200100 && (halves.group? 10).any fun g =>
    records halves g && decide (g.core < 32 ∧ (g.lane 0).exited = false ∧ (g.lane 0).hold = .free) &&
      ((halves.refusing 0x200100 8 f).isSome == decide (f = 0)) && (List.range 8).all fun i => !halves.watched (0x200100 + i)) = true := by
  decide +kernel
/-- An entry that was dropped, one that is there, and a far-tier line whose link is up or down. -/
def unlisted : State := { halves with granules := [{ base := 0x200000, log2 := 20, owner := some 0, entry := false }] }
theorem met_crier : sound unlisted = true ∧ (unlisted.granuleOf 0x200100).entry = false ∧ (unlisted.part 0).hostHeld = [] ∧
    unlisted.physOf 0 0x200100 = .mem 0x200100 := by decide +kernel
theorem met_drop : let g := halves.granuleOf 0x300100
    g.owner.isSome = true ∧ g.sharers = [] ∧ g.hold = 0 ∧ g.teNext = [] ∧ g ∈ halves.granules ∧ halves.physOf 0 0x300100 = .mem 0x300100 := by
  decide +kernel
def far (up : Bool) : State := { s0.updPart 0 fun p => { p with ftoff := [0, 0x400000, 0], ftsize := [0x200000, 0x200000, 0] } with
  ports := [{}, { capacity := 0x200000 }, { up := up, capacity := 0x800000 }, {}]
  l2dirty := [(2 ^ 60 + 2 * 2 ^ 52 + 0x400100) / 128]
  behind := [((2 ^ 60 + 2 * 2 ^ 52 + 0x400100) / 128, List.replicate 128 3)] }
theorem met_write_back : ([true, false].all fun up => match (far up).physOf 0 (2 ^ 40 + 0x200100) with
    | .mem k => isFar k && (far up).mem.wf && (far up).l2dirty.contains (k / 128) && partOfKey k == 0 && !((far up).port (portOfKey k)).silent &&
        ((far up).port (portOfKey k)).up == up && !(far up).homeLost 0 (k / 128 * 128) && ((far up).streamFlt 0 (portOfKey k)).isNone &&
        (kget Prod.fst (k / 128) (far up).behind).any fun b => b.2.length == 128
    | _ => false) = true := by decide +kernel
/-- Another partition's home holds the line dirty too. -/
def far2 : State := { far true with l2dirty := (far true).l2dirty ++ [(2 ^ 60 + 2 ^ 56 + 2 * 2 ^ 52 + 0x400100) / 128] }
theorem met_write_back_two : (2 ^ 60 + 1 * 2 ^ 56 + (2 ^ 60 + 2 * 2 ^ 52 + 0x400100) % 2 ^ 56) / 128 ∈ far2.l2dirty ∧
    far2.physOf 0 (2 ^ 40 + 0x200100) = .mem (2 ^ 60 + 2 * 2 ^ 52 + 0x400100) := by decide +kernel
/-- R271, R360: the part's own event writes back the line that this address names. -/
theorem test_write_back_event : ((far true).l2dirty.filterMap (far true).writeBackOf) = [.homeWriteBack 0 (2 ^ 40 + 0x200100)] := by decide +kernel
theorem met_placement : (t1.span? 30).any (fun x => (x.tile 7).storage) = true := by decide +kernel

/-- HartsAccess: the last eight bytes of the partition's HBM; a hart that waits, and one with a reservation. -/
theorem met_hart : let s := harting s0 0 0
    sound s = true ∧ (∀ p < 4, (s.part p).newHwtn = none) ∧ 3 < s.harts.length ∧ (s.hart 3).x.length = 31 ∧ (s.hart 3).waiting = false ∧ s.hbmSize 0 - 8 + 8 ≤ s.hbmSize 0 ∧
      (s.hbmSize 0 - 8) / 2 ^ 48 = 0 ∧ 0 < s.partCount ∧ (s.hbmSize 0 - 8) % 2 ^ 48 + 8 ≤ s.hbmSize 0 := by decide +kernel
def paged (satp : DWord) : State := { s0 with harts := s0.harts.set 3 { mode := .supervisor, satp := satp } }
theorem met_page_fault : let s := paged 0xA000000000000600
    sound s = true ∧ s.imageBad = false ∧ (s.hart 3).waiting = false ∧ (s.hart 3).x.length = 31 ∧ (s.hart 3).mode ≠ .machine ∧
      (s.hart 3).satp.toNat / 2 ^ 60 = 10 ∧ (s.hart 3).satp.toNat % 2 ^ 44 * 4096 + 8 * (0 / 2 ^ 48 % 512) = 0x600000 ∧
      Want.hartKey s 0x600000 8 0x600000 ∧ (s.value 0x600000).toNat % 2 = 0 := by
  unfold Want.hartKey; decide +kernel
theorem met_resv : let s := { s0 with harts := s0.harts.set 3 { resv := some (0x200100, 4) } }
    (s.hart 3).resv = some (0x200100, 4) ∧ (s.hart 3).waiting = false ∧ Want.hartKey s 0x200100 4 0x200100 := by
  unfold Want.hartKey; decide +kernel
theorem met_woken : let s := { s0 with harts := s0.harts.set 3 { waiting := true } }
    (s.hart 3).resv = none ∧ s.hartOut 3 = false := by decide +kernel

/-- HostActs: lines of a port that a home holds and does not hold; requests admitted and turned away; the control page. -/
def host1 (held : Bool) : State := s0.updPart 0 fun p => { p with hlines := if held then [{ line := (2 ^ 64 + 64 * 5) / 64, dirty := true, was := List.replicate 64 1 }] else [] }
theorem met_snoop : ([true, false].all fun b => let s := host1 b
    sound s && (s.port 0).up && ((s.part 0).hlines.any fun h => h.line == (2 ^ 64 + 64 * 5) / 64) == b) = true := by decide +kernel
def admitting (t : Tdi) : State := { s0.updPart 0 fun p => { p with tdi := t } with
  streams := [{ id := 9, insecure := false, part := some 0 }] }
theorem met_hdm : ([(Tdi.unlocked, none, true), (.run, some 9, true), (.run, some 8, false), (.error, some 9, false)].all
    fun ((t, stream, yes) : Tdi × Option Nat × Bool) => let s := admitting t
    sound s && (s.port 0).up && (s.part 0).hdmBase == some 0x100000 && !s.imageBad && decide (0 < s.partCount ∧ 0x100000 ≤ 0x100010 ∧
      0x100010 + 16 ≤ 0x100000 + s.hbmSize 0 ∧ 0x100010 % 16 = 0) && !s.lostIn 0 16 16 && !s.foundBad 16 16 &&
      decide ((s.part 0).tdi ≠ .error ∧ ((s.part 0).tdi = .run →
        stream.any fun i => s.streams.any fun x => x.id == i && x.part == some 0)) == yes) = true := by decide +kernel
theorem met_program : ([Tdi.unlocked, .locked, .run, .error].all fun t => let s := admitting t
    sound s && (s.part 0).tdi == t && (s.port 0).up && !s.imageBad && decide (0 + 1 < s.errVecs.length ∧ 0 < s.partCount ∧ 3 < s.ports.length ∧
      (∀ y ∈ s.streams, y.id = 8 → y.part = none))) = true := by decide +kernel
theorem met_msix : ([false, true].all fun p => let s := { s0 with msix := [{ key := 64 * (0 + 1) + 5, pending := p }] }
    ((kget Msix.key (64 * (0 + 1) + 5) s.msix).map Msix.pending) == some p) = true := by decide +kernel
theorem met_hwtn : (256 : Word).toNat ≤ 256 ∧ 256 < (257 : Word).toNat ∧ (s0.part 0).hostAtomics = [] ∧ s0.imageBad = false ∧
    (s0.part 0).newHwtn = none := by decide +kernel
/-- An atomic is out through a window that an empty table does not hold; a write that waits for it. -/
def sending : State := (hosting (hat 1 .first)).updPart 0 fun p => { p with hwtn := 1, windows := [(hat 1 .first).win] }
theorem met_hwtn_waits : sound sending = true ∧ (hat 1 .first) ∈ (sending.part 0).hostAtomics ∧ (hat 1 .first).win ∈ (sending.part 0).windows ∧
    (hat 1 .first).win.valid = true ∧ (hat 1 .first).win ∉ (sending.readWindows 0 (0 : Word).toNat).2 ∧ (sending.part 0).newHwtn = none ∧
    ((sending.updPart 0 fun p => { p with newHwtn := some (0, []) }).part 0).newHwtn.isSome = true := by decide +kernel
theorem met_control_page : 15 < (s0.part 0).qown.length ∧ (0x1FFFF#64).toNat % 2 ^ 32 < 2 ^ 17 ∧ s0.hasTeams 0 = true ∧
    ([Tdi.locked, .run].all fun t => ((s0.updPart 0 fun p => { p with tdi := t }).part 0).tdi == t) = true := by decide +kernel

/-- ManagementActs: an idle part may be divided anew, one with teams may not; the interface in each state; image recovery. -/
theorem met_idle : ([1, 2, 4].all fun n => let s := { bare with partCount := n }
    sound s && !s.imageBad && decide (∀ p < s.partCount, s.hasTeams p = false ∧ (s.part p).tdi = .unlocked) && decide (s.parts.length = 4)) = true := by decide +kernel
theorem met_busy : ¬ ((2 = 1 ∨ 2 = 2 ∨ 2 = 4) ∧ ∀ p < s0.partCount, s0.hasTeams p = false ∧ (s0.part p).tdi = .unlocked) := by decide +kernel
theorem met_tdi : ([Tdi.unlocked, .locked, .run, .error].all fun t => let s := admitting t
    sound s && decide (0 < s.parts.length ∧ s.imageBad = false ∧ 0 < s.partCount) && (s.part 0).tdi == t && s.bound 0 9 && !s.bound 0 8 && (s.grid? 40).any fun g => g.compl == .no && g.st == .queued) = true := by
  decide +kernel
theorem met_recovery : ([true, false].all fun bad => let s := { s0 with imageBad := bad }
    s.mem.wf && s.imageBad == bad && (s.port 0).up && decide ((List.replicate 4096 (0 : Byte)).length = 4096)) = true := by decide +kernel

/-- A stream that is free for the partition's interface, and one that is not, as a link stream. -/
theorem met_open : (∀ y ∈ (admitting .unlocked).streams, y.id = 9 → y.link = false ∧ y.port = 0 ∧ y.user = none ∧ y.part = some 0) ∧
    ∃ y ∈ { s0 with streams := [{ id := 9, insecure := false, part := none, link := true }] }.streams, y.id = 9 ∧ y.link = true := by
  decide +kernel
/-- What a module reset drops: a line of an expander and a host line, each dirty at its home. -/
theorem met_reset : (far true).mem.wf = true ∧ (∀ b ∈ (far true).behind, b.2.length = 128) ∧ (∀ p < 4, ∀ h ∈ ((host1 true).part p).hlines,
    h.dirty = true → 2 ^ 64 ≤ 64 * h.line ∧ h.was.length = 64) ∧ ∀ line ∈ (far true).l2dirty, isFar (128 * line) = true ∧
    partOfKey (128 * line) < 4 ∧ (kget Prod.fst line (far true).behind).isSome = true := by decide +kernel

/-- ErrorsAct: ports up and down; a secured stream; a byte of HBM; groups, teams and grids of every state, with TDISP off. -/
theorem met_link : ([true, false].all fun up => ((far up).port 2).up == up) = true := by decide +kernel
def secured (t : Tdi) : State := { s0.updPart 0 fun p => { p with tdi := t } with streams := [{ id := 9, insecure := false, part := some 0 }] }
theorem met_stream : ([Tdi.locked, .run].all fun t => let s := secured t
    sound s && (s.streams.find? fun y => y.id == 9) == some { id := 9, insecure := false, part := some 0 } && (s.part 0).tdi == t) = true := by
  decide +kernel
theorem met_poison : let s := gridding s0 { depGrid with depKey := some 0x300000 }
    sound s = true ∧ s.keyOf 0 0x300000 = some 0x300000 ∧ (s.grid? 41).any (fun g => g.depKey == some 0x300000) = true := by decide +kernel
theorem met_sram : (s0.group? 10).any (fun g => records s0 g && maskOf (fun l => (g.lane l).live && (g.lane l).hold == .free) != 0) = true ∧
    (s0.team? 20).isSome = true := by decide +kernel
theorem met_tile_error : (t1.span? 30).any (fun x => (x.tile 7).st == .defined && decide ((x.tiles.map Tile.name).Pairwise (· < ·) ∧
    8191 < 8192)) = true := by decide +kernel
theorem met_loss : ([1, 2, 4].all fun n => let s := { gridding s0 depGrid with partCount := n }
    sound s && decide (0 < s.partCount ∧ 0 < s.parts.length ∧ (s.part 0).tdi = .unlocked ∧ 0 / s.dieCount = 0 ∧ 4 / s.dieCount ≠ 0)) = true := by decide +kernel

/-! ## The machine as a whole -/

/-- OldestIssues: a group that is picked, of three that are ready, two promoted and one not. -/
def three : State := { s0 with groups := [{ grp 10 ns0 with age := 5 }, { grp 11 ns0 with age := 3, promoted := true },
  { grp 12 ns0 with age := 4, promoted := true }] }
theorem met_pick : sound three = true ∧ (three.pick.map Group.gid) = some 11 ∧ (three.groups.all fun g => three.ready g && decide (g.core < 32 ∧ g.quarter < 4)) = true := by
  decide +kernel

theorem met_begin : (s0.group? s0.cur).any (fun (g : Group) => g.issueAddr.isSome && !instrBarred g.kind (.ret none) && instrControl (.ret none) &&
    ((List.range 32).all fun l => (g.lane l).guardCnt == 0) && g.owed == [] && g.running.isEmpty) = true := by decide +kernel

/-- StepRunsDecoded: words, from outside, an issue, a fetch fault, a wait, an event, a hart's word, a module out of service. -/
theorem met_words : decodeWords 0 0 0 0 = .ok (.nop none) := rfl
theorem met_input : let s := { s0 with inputs := [.launchAccept 0 0] }
    s.stopped = false ∧ s.inputs = [.launchAccept 0 0] := by decide +kernel
theorem met_issue : s0.stopped = false ∧ s0.inputs = [] ∧ s0.turn = .issue ∧ s0.pick.any (fun g => match (s0.rotate g).fetchNext g with
    | (_, .words _) => true
    | _ => false) = true := by decide +kernel
theorem met_issue_fault : astray.pick.any (fun g => g.issueAddr.isSome && match (astray.rotate g).fetchNext g with
    | (_, .flt _) => true
    | _ => false) = true := by decide +kernel
def unmapped : State := s0.updCore 0 fun c => { c with tlb := [] }
theorem met_issue_wait : unmapped.pick.any (fun g => match (unmapped.rotate g).fetchNext g with
    | (_, .wait _) => true
    | _ => false) = true := by decide +kernel
theorem met_event : let s := { s0 with turn := .device }
    s.events[s.beat / 2 % s.events.length]?.isSome = true ∧ s.inputs = [] ∧ s.stopped = false := by decide +kernel
def hartAt (h : Hart) (w : Nat) : State := { harting s0 0 0 with mem := listed 0x500 (leBytes 4 w), harts := s0.harts.set 3 h }
/-- rh.launch, rh.tlbi with rd 1, a word of the base set; a hart without a page. -/
theorem met_hart_word : ([(0x0B + 5 * 2 ^ 7 + 2 * 2 ^ 12 + 6 * 2 ^ 15 + 7 * 2 ^ 20, true, false), (0x0B + 2 ^ 7 + 2 ^ 12, false, true),
    (0x13, false, false)].all fun (w, yes, bad) => let s := hartAt { pc := 0x500 } w
    s.turn == .hart 3 && !(s.hart 3).waiting && !s.imageBad && match s.hartPhys 3 .fetch (s.hart 3).pc.toNat with
    | (u, some pa) => let bs := (u.physRead (pa / 2 ^ 48) (pa % 2 ^ 48) 4).2
      (decodeRh (BitVec.ofNat 32 (leNat bs))).isSome == yes && isRhTlbi (leNat bs) == bad
    | _ => false) = true := by decide +kernel
theorem met_hart_fault : let s := hartAt { pc := 0x500, mode := .supervisor, satp := 0xA000000000000600 } 0
    s.turn = .hart 3 ∧ (s.hartPhys 3 .fetch (s.hart 3).pc.toNat).2 = none := by decide +kernel
theorem met_stopped : let s := { s0 with stopped := true }
    s.stopped = true ∧ ∀ rest, s.inputs ≠ .moduleReset :: rest := by
  refine ⟨rfl, ?_⟩
  intro rest h; cases h

/-- StepKeepsMemory, StepKeepsNames, StepKeepsCaches: a state with the invariants, and a step that goes on. -/
theorem met_step : Sound s0 ∧ ∃ t, step s0 = .next t := by
  refine ⟨sound_s0, ?_⟩
  have h : (match step s0 with
      | .next _ => true
      | _ => false) = true := by decide +kernel
  split at h
  · rename_i t ht; exact ⟨t, ht⟩
  · cases h

/-! ## Terms that are refused -/

/-- Each check of WellFormed refuses a term: an event is no instruction word; an operand pair that is not aligned; a field
value that the encoding does not hold; two literals. -/
theorem smoke_event : Instr.wellFormed (.launchAccept 0 0) = false := by decide +kernel
theorem smoke_pair : Instr.wellFormed (.add64 { d := .v 21, a := .reg (.v 2), b := .reg (.v 4), m := none }) = false := by decide +kernel
theorem smoke_literals : Instr.wellFormed (.iadd { d := .v 1, a := .lit 1, b := .lit 2, m := none }) = false := by decide +kernel
theorem smoke_read_only : Instr.wellFormed (.mts { sr := .laneix, a := .reg (.v 0), m := none }) = false := by decide +kernel
theorem met_well_formed : Instr.wellFormed (.iadd { d := .v 1, a := .lit 1, b := .reg (.v 2), m := some 0xFFFFFFFF }) = true := by decide +kernel
/-! ## Single steps, with results from the rules -/

/-- Lane 0 of group 10 after `i`. -/
def after (s : State) (i : Instr) (P : Group → Bool) : Bool :=
  match exec i s with
  | .next t => (t.group? 10).any P
  | _ => false
/-- v20 after `i`, with v0, v2, v20 and p62 given. -/
def gives (a b d : Word) (i : Instr) (w : Word) : Bool :=
  after (here [(0, a), (2, b), (20, d)]) i fun g => (g.lane 0).name 20 == w && (g.lane 0).pc == 0x200004
def ab (f : R3 → Instr) : Instr := f { d := .v 20, a := .reg (.v 0), b := .reg (.v 2), m := none }

/-- R92's example; modulo 2^32. -/
theorem test_iabsd : gives 0x80000000 0x7FFFFFFF 0 (ab .iabsd) 0xFFFFFFFF = true := by decide +kernel
theorem test_imad : gives 0xFFFFFFFF 5 7 (ab .imad) 2 = true := by decide +kernel
theorem test_imulhs : gives 0xFFFFFFFE 3 0 (ab .imulhs) 0xFFFFFFFF = true := by decide +kernel
theorem test_imulhn : gives 0xFFFFFFFE 3 0 (ab .imulhn) 2 = true := by decide +kernel
/-- R94: a count of 32 is not taken modulo 32. -/
theorem test_shl : gives 1 32 9 (ab .shl) 0 = true := by decide +kernel
theorem test_sar : gives 0x80000000 99 0 (ab .sar) 0xFFFFFFFF = true := by decide +kernel
theorem test_rotl : gives 0x80000001 33 0 (ab .rotl) 3 = true := by decide +kernel
/-- R95's three control words. -/
theorem test_prmt : gives 0x8421C350 0x04130100 0xDDCCBBAA (ab .prmt) 0xAAFFC350 = true ∧
    gives 0x8421C350 0x22190B00 0xDDCCBBAA (ab .prmt) 0x843C0050 = true := by decide +kernel
theorem test_prmt_old : gives 0x8421C350 0x07060504 0xDDCCBBAA (ab .prmt) 0xDDCCBBAA = true := by decide +kernel
/-- R96: a signed field; a field that leaves the register. -/
theorem test_bfx : gives 0x000000F0 0x10404 0 (ab .bfx) 0xFFFFFFFF = true := by decide +kernel
theorem test_bfi : gives 0xFF 0x0820 0x12345678 (ab .bfi) 0x12345678 = true := by decide +kernel
/-- The carry-chain example: a lane with y = 5 adds 0xFFFFFFFF and 5, and carries into p62 (R93); ADD64 of the pairs (R97). -/
theorem test_iaddc : after (here [(0, 0xFFFFFFFF), (2, 5)]) (ab .iaddc) (fun g => (g.lane 0).name 20 == 4 && (g.lane 0).pred 62) = true := by
  decide +kernel
theorem test_add64 : after (here [(0, 0xFFFFFFFF), (2, 5)]) (ab .add64) (fun g => (g.lane 0).name 20 == 4 && (g.lane 0).name 21 == 1) = true := by
  decide +kernel
/-- The table of narrowing: 460 to f8a sets NX alone; 470 saturates; −∞ to f4 sets SAT alone; 2.5 to f4 (R79). -/
def narrowed (c : NFmt) (a w : Word) (flags : Word) : Bool :=
  after (here [(0, a)]) (.cvt { d := .v 20, a := .reg (.v 0), code := .fromF32 c, sat := false, rnd := .rna, m := none }) fun g =>
    (g.lane 0).name 20 == w && g.stat == flags
theorem test_narrow : narrowed .f8a 0x43E60000 0x7E 0x10 = true ∧ narrowed .f8a 0x43EB0000 0x7E 0x18 = true := by decide +kernel
theorem test_narrow_f4 : narrowed .f4 0xFF800000 0xF 8 = true ∧ narrowed .f4 0x40200000 5 0x10 = true := by decide +kernel
/-- The dot-product example: four products of 1.0 onto 5.0 in lane 1 (R125). -/
theorem test_dot4 : gives 0x38383838 0x38383838 0x40800000 (ab .dot4F8a) 0x41000000 = true := by decide +kernel
/-- The grammar's example: 2.5 and 3.0 (R119). -/
theorem test_fadd : gives 0x40200000 0x40400000 0 (ab .fadd) 0x40B00000 = true := by decide +kernel
/-- R59, R106: BR p0 (0 here) does not branch, BR !p0 to the word before does. -/
theorem test_br : after s0 (.br { p := 0, n := false, off := -1, m := none }) (fun g => (g.lane 0).pc == 0x200004) = true ∧
    after s0 (.br { p := 0, n := true, off := -2, m := none }) (fun g => (g.lane 0).pc == 0x1FFFFC) = true := by decide +kernel
/-- R176: ST.w8 stores the low byte; LD.w8s extends it. -/
theorem test_st : (match exec (.st { a := .reg (.v 2), b := .reg (.v 12), off := -1, w := .w8, ord := .bypass, scope := .core, hint := .normal
                                     la := 15, m := none }) s0 with
    | .next t => t.mem == [(0x2000FF, 255)]
    | _ => false) = true := by decide +kernel
theorem test_ld :
    let i : Instr := .ld { d := .v 20, a := .reg (.v 2), w := .w8s, ord := .weak, scope := .core, hint := .normal, ps := 63, off := -1, la := 15, m := none }
    after { s0 with mem := [(0x2000FF, 0x80)] } i (fun g => (g.lane 0).name 20 == 0xFFFFFF80) = true := by decide +kernel
/-- R181: ATOM.add gives the old value. -/
theorem test_atom : (match exec (.atom { d := .v 20, a := .reg (.v 2), b := .reg (.v 12), op := .add, w := .w32, scope := .device, cls := .relaxed, ps := 63
                                         off := 0, la := 15, m := none }) { s0 with mem := [(0x200100, 1)] } with
    | .next t => t.mem == [] && (t.group? 10).any fun g => (g.lane 0).name 20 == 1
    | _ => false) = true := by decide +kernel
/-- R284: FIPS 180-4's example of SHA-256, of the bytes abc. -/
theorem test_sha : (sha256 [0x61, 0x62, 0x63]).take 4 = [0xBA, 0x78, 0x16, 0xBF] := by decide +kernel
/-- R111, R295: BRK freezes the lane at itself. -/
theorem test_held : (match exec (.atsTranslationCompletion 0 80 (.granted true true false 0x201000 12)) (younger false) with
    | .next t => (t.group? 10).any fun g => g.accs.map (fun a => a.lanes.map Prod.snd) == [[.page 0x200 false], [.held none]]
    | _ => false) = true := by decide +kernel

theorem test_brk : after s0 (.brk { code := 3, m := none }) (fun g => (g.lane 0).isFrozen && (g.lane 0).pc == 0x200000) = true := by decide +kernel

end Sys2Proof.Tests
end

section
/-!
PROOFS. Words from their bits and from whole numbers: the values that IALU computes, as exact arithmetic (R92, R93).
-/
namespace Sys2Proof.Machine

/-! ## Words from their bits -/

theorem Want.getLsbD_bits (f : Nat → Bool) (n i : Nat) : (Want.bits f n).getLsbD i = (decide (i < n) && f i) := by
  induction n with
  | zero => simp [Want.bits]
  | succ n ih =>
    rw [Want.bits, BitVec.getLsbD_cons, ih]
    by_cases h : i = n
    · simp [h]
    · have : (i < n + 1) ↔ (i < n) := by omega
      simp [h, this]

/-- A word is the one whose bits are written out when it has these bits. -/
theorem Want.eq_bits {n : Nat} {v : BitVec n} {f : Nat → Bool} (h : ∀ i < n, v.getLsbD i = f i) : v = Want.bits f n := by
  refine BitVec.eq_of_getLsbD_eq fun i hi => ?_
  rw [Want.getLsbD_bits, h i hi, decide_eq_true hi, Bool.true_and]

/-! ## Whole numbers modulo a power of two (R92) -/

theorem add_eq_ofInt {w : Nat} (a b : BitVec w) : a + b = BitVec.ofInt w (a.toInt + b.toInt) := by
  rw [BitVec.ofInt_add, BitVec.ofInt_toInt, BitVec.ofInt_toInt]

theorem mul_eq_ofInt {w : Nat} (a b : BitVec w) : a * b = BitVec.ofInt w (a.toInt * b.toInt) := by
  rw [BitVec.ofInt_mul, BitVec.ofInt_toInt, BitVec.ofInt_toInt]

theorem sub_eq_ofInt {w : Nat} (a b : BitVec w) : a - b = BitVec.ofInt w (a.toInt - b.toInt) := by
  rw [Int.sub_eq_add_neg, BitVec.ofInt_add, BitVec.ofInt_neg, BitVec.ofInt_toInt, BitVec.ofInt_toInt, BitVec.sub_eq_add_neg]

theorem mulAdd_eq_ofInt {w : Nat} (d a b : BitVec w) : d + a * b = BitVec.ofInt w (d.toInt + a.toInt * b.toInt) := by
  rw [BitVec.ofInt_add, BitVec.ofInt_toInt, ← mul_eq_ofInt]

/-- The upper half of a number modulo 2^64. -/
theorem extract_hi_ofInt (v : Int) : (BitVec.ofInt 64 v).extractLsb' 32 32 = BitVec.ofInt 32 (v / 2 ^ 32) := by
  apply BitVec.eq_of_toNat_eq
  simp only [BitVec.extractLsb'_toNat, BitVec.toNat_ofInt, Nat.shiftRight_eq_div_pow]
  omega

theorem mulhs_eq (a b : Word) : mulhs a b = (a.signExtend 64 * b.signExtend 64).extractLsb' 32 32 := by
  have h : a.signExtend 64 * b.signExtend 64 = BitVec.ofInt 64 (a.toInt * b.toInt) := by
    rw [BitVec.ofInt_mul]; rfl
  rw [h, extract_hi_ofInt]; rfl

theorem mulhn_eq (a b : Word) : mulhn a b = (a.zeroExtend 64 * b.zeroExtend 64).extractLsb' 32 32 := by
  unfold mulhn
  apply BitVec.eq_of_toNat_eq
  have ha : a.toNat % 2 ^ 64 = a.toNat := Nat.mod_eq_of_lt (by omega)
  have hb : b.toNat % 2 ^ 64 = b.toNat := Nat.mod_eq_of_lt (by omega)
  simp only [BitVec.extractLsb'_toNat, BitVec.toNat_mul, BitVec.truncate_eq_setWidth, BitVec.toNat_setWidth,
    BitVec.toNat_ofNat, Nat.shiftRight_eq_div_pow, ha, hb]
  omega

theorem imin_eq (a b : Word) : imin a b = BitVec.ofInt 32 (min a.toInt b.toInt) := by
  unfold imin
  split
  · rw [Int.min_eq_left ‹_›, BitVec.ofInt_toInt]
  · rw [Int.min_eq_right (by omega), BitVec.ofInt_toInt]

theorem imax_eq (a b : Word) : imax a b = BitVec.ofInt 32 (max a.toInt b.toInt) := by
  unfold imax
  split
  · rw [Int.max_eq_right ‹_›, BitVec.ofInt_toInt]
  · rw [Int.max_eq_left (by omega), BitVec.ofInt_toInt]

theorem nmin_eq (a b : Word) : nmin a b = BitVec.ofNat 32 (min a.toNat b.toNat) := by
  unfold nmin
  split
  · rw [Nat.min_eq_left ‹_›, BitVec.ofNat_toNat, BitVec.setWidth_eq]
  · rw [Nat.min_eq_right (by omega), BitVec.ofNat_toNat, BitVec.setWidth_eq]

theorem nmax_eq (a b : Word) : nmax a b = BitVec.ofNat 32 (max a.toNat b.toNat) := by
  unfold nmax
  split
  · rw [Nat.max_eq_right ‹_›, BitVec.ofNat_toNat, BitVec.setWidth_eq]
  · rw [Nat.max_eq_left (by omega), BitVec.ofNat_toNat, BitVec.setWidth_eq]

theorem iabsd_eq (a b : Word) : iabsd a b = if a.slt b then b - a else a - b := by
  unfold iabsd
  rw [← BitVec.ofInt_natCast]
  by_cases h : a.toInt < b.toInt
  · have hn : ((a.toInt - b.toInt).natAbs : Int) = b.toInt - a.toInt := by omega
    rw [if_pos (BitVec.slt_iff_toInt_lt.2 h), hn, sub_eq_ofInt]
  · have hn : ((a.toInt - b.toInt).natAbs : Int) = a.toInt - b.toInt := by omega
    rw [if_neg fun c => h (BitVec.slt_iff_toInt_lt.1 c), hn, sub_eq_ofInt]

/-! ## Carry and borrow (R93) -/

theorem ofNat_addc (a b : Word) (c : Nat) : BitVec.ofNat 32 (a.toNat + b.toNat + c) = a + b + BitVec.ofNat 32 c := by
  simp [BitVec.ofNat_add]

theorem ofInt_subb (a b : Word) (c : Nat) :
    BitVec.ofInt 32 ((a.toNat : Int) - b.toNat - c) = a - b - BitVec.ofNat 32 c := by
  apply BitVec.eq_of_toNat_eq
  simp only [BitVec.toNat_ofInt, BitVec.toNat_sub, BitVec.toNat_ofNat]
  omega

theorem outAddc_eq (o : R3) (x : Issue) (l : Nat) : outAddc o x l = Want.integer x l (.iaddc o) := by
  have hc : (if (x.g.lane l).pred 62 then 1 else 0) = Want.carry x l := rfl
  simp only [outAddc, Want.integer, hc, ofNat_addc]

theorem outSubb_eq (o : R3) (x : Issue) (l : Nat) : outSubb o x l = Want.integer x l (.isubb o) := by
  have hc : (if (x.g.lane l).pred 62 then 1 else 0 : Int) = (Want.carry x l : Int) := by
    unfold Want.carry; split <;> rfl
  have hp : ((x.g.src l o.a).toNat : Int) - (x.g.src l o.b).toNat - (Want.carry x l : Int) < 0 ↔
    (x.g.src l o.a).toNat < (x.g.src l o.b).toNat + Want.carry x l := by omega
  simp only [outSubb, Want.integer, hc, ofInt_subb, decide_eq_decide.2 hp]

end Sys2Proof.Machine
end

section
/-!
PROOFS. Bit operations and shifts as words written out bit by bit (R94, R97).
-/
namespace Sys2Proof.Machine

/-! ## Shifts and rotations, bit by bit (R94, R97) -/

theorem shiftLeft_eq_bits {w : Nat} (a : BitVec w) (k : Nat) : a <<< k = Want.bits (Want.left a k) w := by
  refine Want.eq_bits fun j hj => ?_
  rw [BitVec.getLsbD_shiftLeft, decide_eq_true hj, Bool.true_and, Want.left, ← decide_not, decide_eq_decide.2 Nat.not_lt]

/-- A count of the width or more leaves zeros. -/
theorem shiftLeft_or_zero_eq_bits {w : Nat} (a : BitVec w) (k : Nat) :
    (if k < w then a <<< k else 0#w) = Want.bits (Want.left a k) w := by
  rw [← shiftLeft_eq_bits]
  split
  · rfl
  · rw [BitVec.shiftLeft_eq_zero (by omega)]

theorem ushiftRight_eq_bits {w : Nat} (a : BitVec w) (k : Nat) : a >>> k = Want.bits (Want.right a k) w := by
  refine Want.eq_bits fun j _ => ?_
  rw [BitVec.getLsbD_ushiftRight, Want.right, Nat.add_comm]

theorem sshiftRight_eq_bits {w : Nat} (a : BitVec w) (k : Nat) : a.sshiftRight k = Want.bits (Want.rightS a k) w := by
  refine Want.eq_bits fun j hj => ?_
  have hw : ¬ w ≤ j := by omega
  rw [BitVec.getLsbD_sshiftRight, Want.rightS, Nat.add_comm k j]
  simp [hw]

theorem rotateLeft_eq_bits (a : Word) {k : Nat} (hk : k < 32) :
    a.rotateLeft k = Want.bits (fun j => a.getLsbD ((j + 32 - k) % 32)) 32 := by
  refine Want.eq_bits fun j hj => ?_
  rw [BitVec.getLsbD_rotateLeft, Nat.mod_eq_of_lt hk]
  by_cases h : j < k
  · have e : (j + 32 - k) % 32 = 32 - k + j := by omega
    simp [h, e]
  · have e : (j + 32 - k) % 32 = j - k := by omega
    simp [h, e, hj]

theorem rotlW_eq (a b : Word) : rotlW a b = Want.bits (fun j => a.getLsbD ((j + 32 - b.toNat % 32) % 32)) 32 :=
  rotateLeft_eq_bits a (Nat.mod_lt _ (by decide))

/-! ## Logic, bit by bit (R94) -/

theorem and_eq_bits (a b : Word) : a &&& b = Want.bits (fun j => a.getLsbD j && b.getLsbD j) 32 :=
  Want.eq_bits fun _ _ => BitVec.getLsbD_and

theorem or_eq_bits (a b : Word) : a ||| b = Want.bits (fun j => a.getLsbD j || b.getLsbD j) 32 :=
  Want.eq_bits fun _ _ => BitVec.getLsbD_or

theorem xor_eq_bits (a b : Word) : a ^^^ b = Want.bits (fun j => a.getLsbD j != b.getLsbD j) 32 :=
  Want.eq_bits fun _ _ => BitVec.getLsbD_xor

theorem andNot_eq_bits (a b : Word) : a &&& ~~~b = Want.bits (fun j => a.getLsbD j && !b.getLsbD j) 32 := by
  refine Want.eq_bits fun j hj => ?_
  rw [BitVec.getLsbD_and, BitVec.getLsbD_not, decide_eq_true hj, Bool.true_and]

theorem orNot_eq_bits (a b : Word) : a ||| ~~~b = Want.bits (fun j => a.getLsbD j || !b.getLsbD j) 32 := by
  refine Want.eq_bits fun j hj => ?_
  rw [BitVec.getLsbD_or, BitVec.getLsbD_not, decide_eq_true hj, Bool.true_and]

theorem brev_eq (a : Word) : brev a = Want.bits (fun j => a.getLsbD (31 - j)) 32 := by
  refine Want.eq_bits fun j hj => ?_
  rw [brev, BitVec.getLsbD_reverse, BitVec.getMsbD, decide_eq_true hj, Bool.true_and]

/-! ## Counting bits (R94) -/

theorem popTo_eq (a : Word) (n : Nat) : popTo a n = ((List.range n).filter a.getLsbD).length := by
  induction n with
  | zero => rfl
  | succ n ih =>
    rw [popTo, ih, List.range_succ, List.filter_append, List.length_append]
    cases h : a.getLsbD n <;> simp [h]

theorem popc_eq (a : Word) : popc a = BitVec.ofNat 32 (Want.ones a) := by
  rw [popc, popTo_eq]; rfl

/-- The zeros above the highest one bit, of a number below 2^n. -/
theorem clzTo_eq (a : Word) (n : Nat) (h0 : a ≠ 0) (hn : a.toNat < 2 ^ n) : clzTo a n = n - 1 - a.toNat.log2 := by
  have hz : a.toNat ≠ 0 := fun h => h0 (BitVec.eq_of_toNat_eq h)
  induction n with
  | zero => omega
  | succ n ih =>
    rw [clzTo]
    by_cases hb : a.toNat < 2 ^ n
    · have hlog : a.toNat.log2 < n := (Nat.log2_lt hz).2 hb
      have : a.getLsbD n = false := Nat.testBit_lt_two_pow hb
      rw [this, ih hb]
      simp only [Bool.false_eq_true, if_false]
      omega
    · have hlog : a.toNat.log2 = n := (Nat.log2_eq_iff hz).2 ⟨by omega, hn⟩
      have : a.getLsbD n = true := by
        unfold BitVec.getLsbD
        rw [← hlog]
        exact Nat.testBit_log2 hz
      rw [this, if_pos rfl, hlog]
      omega

theorem clz_eq (a : Word) : clz a = if a = 0 then 32 else BitVec.ofNat 32 (31 - a.toNat.log2) := by
  unfold clz
  split
  · subst_vars; decide
  · rw [clzTo_eq a 32 ‹_› a.isLt]

end Sys2Proof.Machine
end

section
/-!
PROOFS. Byte permutes and fields, bit by bit (R95, R96).
-/
namespace Sys2Proof.Machine

/-! ## Byte permute (R95) -/

theorem prmtByte_getLsbD (t : Nat) (x : Byte) {i : Nat} (hi : i < 8) :
    (prmtByte t x).getLsbD i = Want.prmtBit t x i := by
  unfold prmtByte Want.prmtBit
  split
  · simp
  · cases h : x.getLsbD 7
    · simp
    · have : ∀ i < 8, (0xFF#8).getLsbD i = true := by decide
      simpa using this i hi
  · have h4 : (i + 4) % 8 = if i < 4 then 4 + i else i - 4 := by split <;> omega
    simp only [BitVec.getLsbD_append, BitVec.getLsbD_extractLsb', h4]
    by_cases h : i < 4
    · simp [h]
    · have : i - 4 < 4 := by omega
      simp [h, this]
  · show _ = x.getLsbD (7 - i)
    rw [BitVec.getLsbD_reverse, BitVec.getMsbD, decide_eq_true hi, Bool.true_and]
  · have : ∀ i < 8, (0xFF#8).getLsbD i = true := by decide
    simpa using this i hi
  · rename_i h1 h2 h3 h4 h5
    rw [if_neg h1, if_neg h2, if_neg h3, if_neg h4, if_neg h5]

/-- Source byte k of a permute, of the old d above a. -/
theorem prmt_source (d a : Word) (k : Nat) :
    (if k < 4 then a.extractLsb' (8 * k) 8 else d.extractLsb' (8 * (k - 4)) 8) = (d ++ a).extractLsb' (8 * k) 8 := by
  refine BitVec.eq_of_getLsbD_eq fun i hi => ?_
  rw [BitVec.getLsbD_extractLsb', BitVec.getLsbD_append]
  by_cases h : k < 4
  · rw [if_pos h, if_pos (by omega), BitVec.getLsbD_extractLsb']
  · have e : 8 * k + i - 32 = 8 * (k - 4) + i := by omega
    rw [if_neg h, if_neg (by omega), BitVec.getLsbD_extractLsb', e]

theorem prmtAt_getLsbD (d a b : Word) {j : Nat} (h : j % 8 < 8) :
    (prmtAt d a b (j / 8)).getLsbD (j % 8) = Want.prmt d a b j := by
  have hc : (b.extractLsb' (8 * (j / 8)) 8).toNat = b.toNat / 2 ^ (8 * (j / 8)) % 256 := by
    rw [BitVec.extractLsb'_toNat, Nat.shiftRight_eq_div_pow]
  unfold prmtAt Want.prmt
  simp only [prmtByte_getLsbD _ _ h, prmt_source, hc]

/-- Bit j of a permute is bit j mod 8 of its byte j / 8. -/
theorem prmt_getLsbD (d a b : Word) {j : Nat} (hj : j < 32) :
    (prmt d a b).getLsbD j = (prmtAt d a b (j / 8)).getLsbD (j % 8) := by
  have hq : j / 8 = 0 ∨ j / 8 = 1 ∨ j / 8 = 2 ∨ j / 8 = 3 := by omega
  unfold prmt
  simp only [BitVec.getLsbD_append]
  rcases hq with h | h | h | h
  · rw [h, if_pos (by omega)]; congr 1; omega
  · rw [h, if_neg (by omega), if_pos (by omega)]; congr 1; omega
  · rw [h, if_neg (by omega), if_neg (by omega), if_pos (by omega)]; congr 1; omega
  · rw [h, if_neg (by omega), if_neg (by omega), if_neg (by omega)]; congr 1; omega

theorem prmt_eq (d a b : Word) : prmt d a b = Want.bits (Want.prmt d a b) 32 := by
  refine Want.eq_bits fun j hj => ?_
  rw [prmt_getLsbD d a b hj, prmtAt_getLsbD d a b (Nat.mod_lt _ (by decide))]

/-! ## Fields (R96) -/

theorem lowMask_getLsbD (m : Nat) {j : Nat} (hj : j < 32) : (lowMask m).getLsbD j = decide (j < m) := by
  rw [lowMask, BitVec.getLsbD_ofNat, Nat.testBit_two_pow_sub_one, decide_eq_true hj, Bool.true_and]

/-- A field of m bits at p, with zeros above. -/
theorem field_getLsbD (a : Word) (p m : Nat) {j : Nat} (hj : j < 32) :
    ((a >>> p) &&& lowMask m).getLsbD j = (a.getLsbD (p + j) && decide (j < m)) := by
  rw [BitVec.getLsbD_and, BitVec.getLsbD_ushiftRight, lowMask_getLsbD m hj]

/-- The field with its upper bits set where `c` holds. -/
theorem extendedField_getLsbD (a : Word) (p m : Nat) (c : Bool) {j : Nat} (hj : j < 32) :
    (if c then ((a >>> p) &&& lowMask m) ||| ~~~lowMask m else (a >>> p) &&& lowMask m).getLsbD j =
      if j < m then a.getLsbD (p + j) else c := by
  have hf := field_getLsbD a p m hj
  cases c
  · rw [if_neg Bool.false_ne_true, hf]
    by_cases h : j < m <;> simp [h]
  · rw [if_pos rfl, BitVec.getLsbD_or, BitVec.getLsbD_not, hf, lowMask_getLsbD m hj]
    by_cases h : j < m <;> simp [h, hj]

theorem bfx_eq (a b : Word) : bfx a b = Want.bits (Want.bfx a b) 32 := by
  refine Want.eq_bits fun j hj => ?_
  have hm : (if b.toNat / 256 % 256 < 32 then b.toNat / 256 % 256 else 32) = min (b.toNat / 256 % 256) 32 := by
    split <;> omega
  unfold bfx Want.bfx
  simp only [hm]
  generalize b.toNat % 256 = p
  by_cases hl : b.toNat / 256 % 256 = 0
  · simp [hl]
  have h0 : 0 < min (b.toNat / 256 % 256) 32 := by omega
  rw [if_neg hl]
  generalize min (b.toNat / 256 % 256) 32 = m at h0
  rw [extendedField_getLsbD a p m _ hj]
  by_cases hjm : j < m
  · rw [if_pos hjm, if_pos hjm]
  · have h32 : m < 32 := by omega
    have htop : ((a >>> p) &&& lowMask m).getLsbD (m - 1) = a.getLsbD (p + m - 1) := by
      rw [field_getLsbD a p m (by omega), decide_eq_true (by omega), Bool.and_true, Nat.add_sub_assoc h0]
    rw [if_neg hjm, if_neg hjm, htop, decide_eq_true h32, decide_eq_true h0, Bool.and_true, Bool.true_and]

theorem bfi_eq (d a b : Word) : bfi d a b = Want.bits (Want.bfi d a b) 32 := by
  refine Want.eq_bits fun j hj => ?_
  unfold bfi Want.bfi
  dsimp only
  generalize b.toNat % 256 = p
  generalize b.toNat / 256 % 256 = n
  have hmask : (BitVec.ofNat 32 ((2 ^ n - 1) * 2 ^ p)).getLsbD j = (decide (p ≤ j) && decide (j < p + n)) := by
    rw [BitVec.getLsbD_ofNat, Nat.testBit_mul_two_pow, Nat.testBit_two_pow_sub_one, decide_eq_true hj, Bool.true_and]
    by_cases hp : p ≤ j
    · have : j - p < n ↔ j < p + n := by omega
      simp [hp, this]
    · simp [hp]
  rw [BitVec.getLsbD_or, BitVec.getLsbD_and, BitVec.getLsbD_and, BitVec.getLsbD_not, hmask, BitVec.getLsbD_shiftLeft]
  by_cases hp : p ≤ j
  · by_cases hn : j < p + n <;> simp [hp, hn, hj]
  · simp [hp, hj]

end Sys2Proof.Machine
end

section
/-!
PROOFS. Instructions on registers that complete with plain results; integer, bit and 64-bit results (R92 to R97).
-/
namespace Sys2Proof.Machine

/-! ## Results of one register, a pair or a predicate -/

/-- A lane's results that raise no flag and write no register or predicate twice. -/
structure LaneOut.Plain (o : LaneOut) : Prop where
  flags : o.flags = 0
  distinct : o.distinct

theorem onceEach_singleton (r : Reg) : onceEach [r] := List.pairwise_singleton _ _

theorem eq_zero_of_eq_regPlus_one (d : Reg) (h : d = regPlus d 1) : d = .zero := by
  cases d with
  | zero => rfl
  | v n => by_cases hn : n.val + 1 < 112 <;> simp [regPlus, hn, Fin.ext_iff] at h
  | s n => by_cases hn : n.val + 1 < 14 <;> simp [regPlus, hn, Fin.ext_iff] at h

theorem onceEach_pair (d : Reg) : onceEach [d, regPlus d 1] := List.pairwise_pair.2 (eq_zero_of_eq_regPlus_one d)

theorem LaneOut.plain_of_no_d {o : LaneOut} (hf : o.flags = 0) (hd : o.d = []) (hp : (o.p.map Prod.fst).Nodup) : o.Plain :=
  ⟨hf, by rw [hd]; exact List.Pairwise.nil, hp⟩

theorem Want.one_plain (d : Reg) (w : Word) : (Want.one d w).Plain := ⟨rfl, onceEach_singleton d, List.nodup_nil⟩

theorem Want.two_plain (d : Reg) (v : DWord) : (Want.two d v).Plain := ⟨rfl, onceEach_pair d, List.nodup_nil⟩

theorem Want.flag_plain (p : BitVec 6) (b : Bool) : (Want.flag p b).Plain :=
  ⟨rfl, List.Pairwise.nil, List.pairwise_singleton _ _⟩

theorem outPair_eq_two (d : Reg) (v : DWord) : outPair d v = Want.two d v := by
  rw [outPair, Want.two, BitVec.setWidth_eq_extractLsb' (by decide)]

/-! ## Instructions that complete with plain results -/

section
variable {s : State} {x : Issue} {i : Instr}

/-- An instruction on registers whose own checks pass completes with the results that it computes. -/
theorem Issue.Begins.completes_checked {chk : Issue → Nat → Option Flt} {out : Issue → Nat → LaneOut} {want : Nat → LaneOut}
    (hb : x.Begins s i) (he : exec i s = .next (s.issueLanes i chk noChk out true)) (hc : ∀ l ∈ x.ts, chk x l = none)
    (ho : ∀ l, out x l = want l) (hp : ∀ l, (want l).Plain) (ha : x.agree want) : x.Completes s i want := by
  obtain rfl : out x = want := funext ho
  have ht : x.untrapped (out x) := fun l _ => by rw [(hp l).flags]; exact BitVec.zero_and
  obtain ⟨g, hg, hdone⟩ := State.issueLanes_done (chk2 := noChk) (rma := true) hb.begins hb.clear hc (fun _ _ => rfl) (fun h => Bool.noConfusion h) ha ht
    fun l _ => (hp l).distinct
  exact ⟨g, by rw [he, hg], hdone⟩

/-- The same where the instruction has no check of its own. -/
theorem Issue.Begins.completes {out : Issue → Nat → LaneOut} {want : Nat → LaneOut} (hb : x.Begins s i)
    (he : exec i s = .next (s.issueReg i out)) (ho : ∀ l, out x l = want l) (hp : ∀ l, (want l).Plain) (ha : x.agree want) :
    x.Completes s i want :=
  hb.completes_checked he (fun _ _ => rfl) ho hp ha

theorem Issue.Begins.completes_one {d : Reg} {v : Issue → Nat → Word} {w : Nat → Word} (hb : x.Begins s i)
    (ha : x.agree fun l => Want.one d (w l)) (he : exec i s = .next (s.issueReg i fun x l => outD d (v x l)))
    (hv : ∀ l, v x l = w l) : x.Completes s i fun l => Want.one d (w l) :=
  hb.completes he (fun l => congrArg (outD d) (hv l)) (fun _ => Want.one_plain _ _) ha

theorem Issue.Begins.completes_two {d : Reg} {v : Issue → Nat → DWord} {w : Nat → DWord} (hb : x.Begins s i)
    (ha : x.agree fun l => Want.two d (w l)) (he : exec i s = .next (s.issueReg i fun x l => outPair d (v x l)))
    (hv : ∀ l, v x l = w l) : x.Completes s i fun l => Want.two d (w l) :=
  hb.completes he (fun l => (outPair_eq_two d _).trans (congrArg (Want.two d) (hv l))) (fun _ => Want.two_plain _ _) ha

theorem Issue.Begins.completes_flag {p : BitVec 6} {v : Issue → Nat → Bool} {b : Nat → Bool} (hb : x.Begins s i)
    (ha : x.agree fun l => Want.flag p (b l)) (he : exec i s = .next (s.issueReg i fun x l => outP p (v x l)))
    (hv : ∀ l, v x l = b l) : x.Completes s i fun l => Want.flag p (b l) :=
  hb.completes he (fun l => congrArg (outP p) (hv l)) (fun _ => Want.flag_plain _ _) ha

end

/-! ## Integer results (O1) -/

theorem Want.integer_carry_plain (x : Issue) (l : Nat) (o : R3) :
    (Want.integer x l (.iaddc o)).Plain ∧ (Want.integer x l (.isubb o)).Plain :=
  ⟨⟨rfl, onceEach_singleton o.d, List.pairwise_singleton _ _⟩, ⟨rfl, onceEach_singleton o.d, List.pairwise_singleton _ _⟩⟩

/-- R92, R93. -/
theorem integer_completes (s : State) (x : Issue) (o : R3) :
    ∀ i ∈ [Instr.iadd o, .isub o, .imul o, .imulhs o, .imulhn o, .imad o, .imin o, .imax o, .nmin o, .nmax o,
        .iabsd o, .iaddc o, .isubb o],
      x.Begins s i → x.agree (Want.integer x · i) → x.Completes s i (Want.integer x · i) := by
  simp only [List.forall_mem_cons]
  exact ⟨
    fun hb ha => hb.completes_one ha rfl fun _ => add_eq_ofInt _ _,
    fun hb ha => hb.completes_one ha rfl fun _ => sub_eq_ofInt _ _,
    fun hb ha => hb.completes_one ha rfl fun _ => mul_eq_ofInt _ _,
    fun hb ha => hb.completes_one ha rfl fun _ => mulhs_eq _ _,
    fun hb ha => hb.completes_one ha rfl fun _ => mulhn_eq _ _,
    fun hb ha => hb.completes_one ha rfl fun _ => mulAdd_eq_ofInt _ _ _,
    fun hb ha => hb.completes_one ha rfl fun _ => imin_eq _ _,
    fun hb ha => hb.completes_one ha rfl fun _ => imax_eq _ _,
    fun hb ha => hb.completes_one ha rfl fun _ => nmin_eq _ _,
    fun hb ha => hb.completes_one ha rfl fun _ => nmax_eq _ _,
    fun hb ha => hb.completes_one ha rfl fun _ => iabsd_eq _ _,
    fun hb ha => hb.completes rfl (outAddc_eq o x) (fun l => (Want.integer_carry_plain x l o).1) ha,
    fun hb ha => hb.completes rfl (outSubb_eq o x) (fun l => (Want.integer_carry_plain x l o).2) ha,
    List.forall_mem_nil _⟩

/-- R94 to R96, two sources. -/
theorem bitwise_completes (s : State) (x : Issue) (o : R3) :
    ∀ i ∈ [Instr.and o, .or o, .xor o, .andn o, .orn o, .shl o, .shr o, .sar o, .rotl o, .prmt o, .bfx o, .bfi o],
      x.Begins s i → x.agree (Want.bitwise x · i) → x.Completes s i (Want.bitwise x · i) := by
  simp only [List.forall_mem_cons]
  exact ⟨
    fun hb ha => hb.completes_one ha rfl fun _ => and_eq_bits _ _,
    fun hb ha => hb.completes_one ha rfl fun _ => or_eq_bits _ _,
    fun hb ha => hb.completes_one ha rfl fun _ => xor_eq_bits _ _,
    fun hb ha => hb.completes_one ha rfl fun _ => andNot_eq_bits _ _,
    fun hb ha => hb.completes_one ha rfl fun _ => orNot_eq_bits _ _,
    fun hb ha => hb.completes_one ha rfl fun _ => shiftLeft_or_zero_eq_bits _ _,
    fun hb ha => hb.completes_one ha rfl fun _ => ushiftRight_eq_bits _ _,
    fun hb ha => hb.completes_one ha rfl fun _ => sshiftRight_eq_bits _ _,
    fun hb ha => hb.completes_one ha rfl fun _ => rotlW_eq _ _,
    fun hb ha => hb.completes_one ha rfl fun _ => prmt_eq _ _ _,
    fun hb ha => hb.completes_one ha rfl fun _ => bfx_eq _ _,
    fun hb ha => hb.completes_one ha rfl fun _ => bfi_eq _ _ _,
    List.forall_mem_nil _⟩

/-- R94, one source. -/
theorem bitcount_completes (s : State) (x : Issue) (o : R2) :
    ∀ i ∈ [Instr.popc o, .clz o, .brev o],
      x.Begins s i → x.agree (Want.bitwise x · i) → x.Completes s i (Want.bitwise x · i) := by
  simp only [List.forall_mem_cons]
  exact ⟨
    fun hb ha => hb.completes_one ha rfl fun _ => popc_eq _,
    fun hb ha => hb.completes_one ha rfl fun _ => clz_eq _,
    fun hb ha => hb.completes_one ha rfl fun _ => brev_eq _,
    List.forall_mem_nil _⟩

/-- R97, two sources. -/
theorem wide_completes (s : State) (x : Issue) (o : R3) :
    ∀ i ∈ [Instr.add64 o, .sub64 o, .mad64 o, .shl64 o, .shr64 o, .sar64 o],
      x.Begins s i → x.agree (Want.wide x · i) → x.Completes s i (Want.wide x · i) := by
  simp only [List.forall_mem_cons]
  exact ⟨
    fun hb ha => hb.completes_two ha rfl fun _ => add_eq_ofInt _ _,
    fun hb ha => hb.completes_two ha rfl fun _ => sub_eq_ofInt _ _,
    fun hb ha => hb.completes_two ha rfl fun _ => mulAdd_eq_ofInt _ _ _,
    fun hb ha => hb.completes_two ha rfl fun _ => shiftLeft_or_zero_eq_bits _ _,
    fun hb ha => hb.completes_two ha rfl fun _ => ushiftRight_eq_bits _ _,
    fun hb ha => hb.completes_two ha rfl fun _ => sshiftRight_eq_bits _ _,
    List.forall_mem_nil _⟩

/-- Settles O1: one value lemma per instruction, under the lemma that an issue on registers completes. -/
theorem integerResults : Obligations.IntegerResults := fun s x =>
  ⟨integer_completes s x, bitwise_completes s x, bitcount_completes s x, wide_completes s x,
    fun _ hb ha => hb.completes_two ha rfl fun _ => rfl⟩

end Sys2Proof.Machine
end

section
/-!
PROOFS. Moves, immediate forms, comparisons, predicate logic, votes and control (R98 to R109, R115).
-/
namespace Sys2Proof.Machine

/-! ## Moves and immediate forms (O2) -/

/-- An address and a sign-extended word, as numbers (R98). -/
theorem litAddress_eq (pc : DWord) (a : Word) : pc + a.signExtend 64 = BitVec.ofInt 64 (pc.toNat + a.toInt) := by
  rw [BitVec.ofInt_add, BitVec.ofInt_natCast, BitVec.ofNat_toNat, BitVec.setWidth_eq]; rfl

theorem addImm_eq (a : Word) (imm : BitVec 11) : a + imm.signExtend 32 = BitVec.ofInt 32 (a.toInt + imm.toInt) := by
  rw [BitVec.ofInt_add, BitVec.ofInt_toInt]; rfl

/-- The count of a shift by an immediate is below 32 as it stands (R100). -/
theorem shiftCount_toNat (c : BitVec 5) : (c.setWidth 32 : Word).toNat = c.toNat :=
  BitVec.toNat_setWidth_of_le (by decide)

theorem shlW_count (a : Word) (c : BitVec 5) : shlW a (c.setWidth 32) = Want.bits (Want.left a c.toNat) 32 := by
  rw [← shiftCount_toNat]; exact shiftLeft_or_zero_eq_bits a _

theorem shrW_count (a : Word) (c : BitVec 5) : shrW a (c.setWidth 32) = Want.bits (Want.right a c.toNat) 32 := by
  rw [← shiftCount_toNat]; exact ushiftRight_eq_bits a _

theorem sarW_count (a : Word) (c : BitVec 5) : sarW a (c.setWidth 32) = Want.bits (Want.rightS a c.toNat) 32 := by
  rw [← shiftCount_toNat]; exact sshiftRight_eq_bits a _

theorem rotlW_count (a : Word) (c : BitVec 5) :
    rotlW a (c.setWidth 32) = Want.bits (fun j => a.getLsbD ((j + 32 - c.toNat) % 32)) 32 := by
  rw [rotlW_eq, shiftCount_toNat, Nat.mod_eq_of_lt c.isLt]

/-- R98. -/
theorem move_completes (s : State) (x : Issue) (o : R2) :
    ∀ i ∈ [Instr.mov o, .movs o, .lit o],
      x.Begins s i → x.agree (Want.move x · i) → x.Completes s i (Want.move x · i) := by
  simp only [List.forall_mem_cons]
  exact ⟨
    fun hb ha => hb.completes_one ha rfl fun _ => rfl,
    fun hb ha => hb.completes_one ha rfl fun _ => rfl,
    fun hb ha => hb.completes_two ha rfl fun _ => litAddress_eq _ _,
    List.forall_mem_nil _⟩

/-- R99. -/
theorem immediate_completes (s : State) (x : Issue) (o : RI) :
    ∀ i ∈ [Instr.iaddi o, .andi o, .ori o, .xori o],
      x.Begins s i → x.agree (Want.immediate x · i) → x.Completes s i (Want.immediate x · i) := by
  simp only [List.forall_mem_cons]
  exact ⟨
    fun hb ha => hb.completes_one ha rfl fun _ => addImm_eq _ _,
    fun hb ha => hb.completes_one ha rfl fun _ => and_eq_bits _ _,
    fun hb ha => hb.completes_one ha rfl fun _ => or_eq_bits _ _,
    fun hb ha => hb.completes_one ha rfl fun _ => xor_eq_bits _ _,
    List.forall_mem_nil _⟩

/-- R100. -/
theorem shiftImmediate_completes (s : State) (x : Issue) (o : RSh) :
    ∀ i ∈ [Instr.shli o, .shri o, .sari o, .rotli o],
      x.Begins s i → x.agree (Want.immediate x · i) → x.Completes s i (Want.immediate x · i) := by
  simp only [List.forall_mem_cons]
  exact ⟨
    fun hb ha => hb.completes_one ha rfl fun _ => shlW_count _ _,
    fun hb ha => hb.completes_one ha rfl fun _ => shrW_count _ _,
    fun hb ha => hb.completes_one ha rfl fun _ => sarW_count _ _,
    fun hb ha => hb.completes_one ha rfl fun _ => rotlW_count _ _,
    List.forall_mem_nil _⟩

/-- Settles O2: the immediate forms are the register forms on an extended second operand. -/
theorem moveResults : Obligations.MoveResults := fun s x =>
  ⟨move_completes s x, fun _ hb ha => hb.completes_one ha rfl fun _ => rfl, immediate_completes s x,
    shiftImmediate_completes s x⟩

/-! ## Comparisons, predicate logic and votes (O3) -/

theorem icond_eq_rel (c : ICond) (a b : Int) : icond c a b = Want.rel c a b := by
  cases c with
  | ne => exact (decide_not (p := a = b)).symm
  | eq | lt | le | gt | ge => rfl

theorem icmpHolds_eq (g : Group) (l : Nat) (o : IcmpOps) :
    icmpHolds g l o = Want.rel o.cond (Want.operand g l o.ty o.a) (Want.operand g l o.ty o.b) := by
  unfold icmpHolds
  cases o.ty with
  | i32 | n32 | i64 | n64 => exact icond_eq_rel _ _ _

theorem xnor_eq (a b : Bool) : (a == b) = !(a ^^ b) := by cases a <;> cases b <;> rfl

/-- Bit k of a ballot: lane k takes part and its predicate is set (R105). -/
theorem Issue.ballot_getLsbD (x : Issue) (c : BitVec 7) {k : Nat} (hk : k < 32) :
    (x.ballot c).getLsbD k = (decide (k ∈ x.ts) && (x.g.lane k).predCode c) := by
  have h := hasLane_maskOf (fun l => x.ts.contains l && (x.g.lane l).predCode c) k
  rw [decide_eq_true hk, Bool.true_and, List.contains_eq_mem] at h
  exact h

theorem Issue.ballot_eq (x : Issue) (c : BitVec 7) :
    x.ballot c = Want.bits (fun k => decide (k ∈ x.ts) && (x.g.lane k).predCode c) 32 :=
  Want.eq_bits fun _ hk => x.ballot_getLsbD c hk

theorem Issue.popc_ballot (x : Issue) (c : BitVec 7) : popc (x.ballot c) =
    BitVec.ofNat 32 ((List.range 32).filter fun k => decide (k ∈ x.ts) && (x.g.lane k).predCode c).length := by
  rw [popc_eq, Want.ones, List.filter_congr fun k hk => x.ballot_getLsbD c (List.mem_range.1 hk)]

/-- Settles O3: each predicate form writes the bit of its rule, each vote over the lanes taking part. -/
theorem predicateResults : Obligations.PredicateResults := fun _ x =>
  ⟨fun _ hb ha => hb.completes_flag ha rfl fun _ => icmpHolds_eq _ _ _,
    fun _ => ⟨
      fun hb ha => hb.completes_flag ha rfl fun _ => rfl,
      fun hb ha => hb.completes_flag ha rfl fun _ => rfl,
      fun hb ha => hb.completes_flag ha rfl fun _ => rfl,
      fun hb ha => hb.completes_flag ha rfl fun _ => rfl,
      fun hb ha => hb.completes_flag ha rfl fun _ => rfl,
      fun hb ha => hb.completes_flag ha rfl fun _ => xnor_eq _ _⟩,
    fun _ => ⟨
      fun hb ha => hb.completes_flag ha rfl fun _ => List.any_eq,
      fun hb ha => hb.completes_flag ha rfl fun _ => List.all_eq⟩,
    fun _ => ⟨
      fun hb ha => hb.completes_one ha rfl fun _ => x.ballot_eq _,
      fun hb ha => hb.completes_one ha rfl fun _ => x.popc_ballot _⟩,
    fun _ hb ha => hb.completes_flag ha rfl fun _ => (decide_not (p := _ = _)).symm⟩

/-! ## Control (O8) -/

/-- Control instructions write no register and no predicate, and raise no flag. -/
theorem Want.control_writes_none (x : Issue) (l : Nat) (i : Instr) :
    (Want.control x l i).d = [] ∧ (Want.control x l i).p = [] ∧ (Want.control x l i).flags = 0 := by
  unfold Want.control
  repeat' split
  all_goals exact ⟨rfl, rfl, rfl⟩

theorem Want.control_plain (x : Issue) (l : Nat) (i : Instr) : (Want.control x l i).Plain := by
  obtain ⟨hd, hp, hf⟩ := Want.control_writes_none x l i
  exact LaneOut.plain_of_no_d hf hd (by rw [hp]; exact List.nodup_nil)

theorem Want.control_agree (x : Issue) (i : Instr) : x.agree (Want.control x · i) := by
  have h : ∀ l, (Want.control x l i).scalars = [] := fun l => by
    rw [LaneOut.scalars, (Want.control_writes_none x l i).1]; rfl
  exact fun l _ k _ => (h l).trans (h k).symm

/-- A control instruction whose own check passes completes with what it computes. -/
theorem Issue.Begins.completes_control {s : State} {x : Issue} {i : Instr} {chk : Issue → Nat → Option Flt}
    {out : Issue → Nat → LaneOut} (hb : x.Begins s i) (he : exec i s = .next (s.issueLanes i chk noChk out true))
    (hc : ∀ l ∈ x.ts, chk x l = none) (ho : ∀ l, out x l = Want.control x l i) : x.Completes s i (Want.control x · i) :=
  hb.completes_checked he hc ho (fun l => Want.control_plain x l i) (Want.control_agree x i)

theorem predN_eq_tested (x : Issue) (l : Nat) (p : BitVec 6) (n : Bool) :
    (x.g.lane l).predN p n = Want.tested x l p n := by
  unfold Lane.predN Want.tested
  cases n
  · exact (Bool.xor_false _).symm
  · exact (Bool.xor_true _).symm

/-- OFF18 counts words (R59). -/
theorem brTarget_eq (x : Issue) (off : BitVec 18) : brTarget x.next off = Want.branch x off := by
  have h : off.signExtend 64 <<< 2 = BitVec.ofInt 64 (4 * off.toInt) := by
    rw [BitVec.shiftLeft_eq_mul_twoPow, BitVec.ofInt_mul, BitVec.mul_comm]; rfl
  rw [brTarget, Want.branch, h, BitVec.ofInt_add, BitVec.ofInt_natCast, BitVec.ofNat_toNat, BitVec.setWidth_eq]

/-- A jump that is not misplaced passes its check (R326). -/
theorem jumpChk_of_not_misplaced {target : Issue → Nat → DWord} {x : Issue} {l : Nat}
    (h : Want.misplaced.off (target x l) = none) : jumpChk target x l = none := by
  have h4 : (target x l).toNat % 4 = 0 := by
    unfold Want.misplaced.off at h
    split at h
    · assumption
    · cases h
  have h0 : target x l &&& 3 = 0 := by
    apply BitVec.eq_of_toNat_eq
    rw [BitVec.toNat_and]
    exact (Nat.and_two_pow_sub_one_eq_mod _ 2).trans h4
  rw [jumpChk, h0]; rfl

theorem wbaseOk_of_not_misplaced {x : Issue} {l : Nat} {o : R1} (h : Want.misplaced x l (.wbase o) = none) :
    wbaseOk (x.g.src l o.a) = true := by
  simp only [Want.misplaced] at h
  split at h
  · rename_i hv
    rw [wbaseOk, hv.1, decide_eq_true hv.2]; rfl
  · cases h

/-- Settles O8: the checks are the negations of the faults that the rule names, so that every lane taking part completes. -/
theorem controlResults : Obligations.ControlResults := fun s x =>
  ⟨fun m => ⟨
      fun hb _ => hb.completes_control (chk := noChk) rfl (fun _ _ => rfl) fun _ => rfl,
      fun hb hm => hb.completes_control rfl (fun l hl => jumpChk_of_not_misplaced (hm l hl)) fun _ => rfl⟩,
    fun o hb _ => hb.completes_control (chk := noChk) rfl (fun _ _ => rfl) fun l => by
      rw [predN_eq_tested]; rfl,
    fun o => ⟨
      fun hb _ => hb.completes_control (chk := noChk) rfl (fun _ _ => rfl) fun l => by
        rw [predN_eq_tested, brTarget_eq]; rfl,
      fun hb _ => hb.completes_control (chk := noChk) rfl (fun _ _ => rfl) fun l => by
        rw [predN_eq_tested, brTarget_eq]; rfl⟩,
    fun o => ⟨
      fun hb hm => hb.completes_control rfl (fun l hl => jumpChk_of_not_misplaced (hm l hl)) fun _ => rfl,
      fun hb hm => hb.completes_control rfl (fun l hl => jumpChk_of_not_misplaced (hm l hl)) fun _ => rfl,
      fun hb hm => hb.completes_control rfl (fun l hl => if_pos (wbaseOk_of_not_misplaced (hm l hl))) fun _ => rfl⟩⟩

end Sys2Proof.Machine
end
